-- ==== Sys2Proof/Word.lean ====
section
/-! DEFINITION. The word types of the Oxauben and their plainest arithmetic: slices, extensions, little-endian bytes. -/

namespace Sys2Proof

/-- A 64-bit register, history entry or token payload (spec/01). -/
abbrev Word := BitVec 64

/-- One byte of any memory. -/
abbrev Byte := BitVec 8

/-- `x[lo + len - 1 : lo]` as a number. -/
def bits (x lo len : Nat) : Nat := (x >>> lo) % 2 ^ len

/-- Bit k of x. -/
def bitOf (x k : Nat) : Bool := x.testBit k

/-- The number a bit stands for. -/
def b2n (b : Bool) : Nat := if b then 1 else 0

/-- The value of an n-bit pattern taken as two's complement. -/
def toSigned (n x : Nat) : Int := if 2 * (x % 2 ^ n) ≥ 2 ^ n then (x % 2 ^ n : Nat) - (2 ^ n : Nat) else (x % 2 ^ n : Nat)

/-- The two's complement pattern of an integer in n bits. -/
def wrap (n : Nat) (x : Int) : Nat := (x % (2 ^ n : Nat)).toNat

/-- x[n-1:0] with bit n-1 copied into bits 63:n (R42). -/
def signExtend (x n : Nat) : Word := BitVec.ofInt 64 (toSigned n x)

/-- The n bytes of x from the lowest (R25: little-endian). -/
def leBytes : Nat → Nat → List Byte
  | 0, _ => []
  | n + 1, x => BitVec.ofNat 8 x :: leBytes n (x / 256)

/-- The number whose bytes from the lowest these are (R25). -/
def ofLeBytes : List Byte → Nat
  | [] => 0
  | b :: bs => b.toNat + 256 * ofLeBytes bs

end Sys2Proof
end

