-- ==== Sys2Proof/Syntax.lean ====
section
/-! DEFINITION. The instructions of the Oxauben: the rule instructions of spec/03 to spec/19, one constructor a row of
the opcode table, each with the fields of its word that are not operands (`Hdr`, R27) and its operands; and the steps of
the machine that no rule word asks for (spec/95), whose arguments are what the step acts on and what nature, a peer
device or the host chose. -/

namespace Sys2Proof

/-! ### The code sets of the fields -/

/-- The integer types of SUB (R52, R55). -/
inductive IntTy
  | i32 | n32 | i64 | n64
deriving DecidableEq, Repr

def IntTy.code : IntTy → BitVec 4
  | .i32 => 0 | .n32 => 1 | .i64 => 2 | .n64 => 3

/-- The size codes of LD, ST, LDS and STS (R123). -/
inductive MemTy
  | i32 | n32 | i64 | n64 | i8 | n8 | i16 | n16
deriving DecidableEq, Repr

def MemTy.code : MemTy → BitVec 4
  | .i32 => 0 | .n32 => 1 | .i64 => 2 | .n64 => 3 | .i8 => 4 | .n8 => 5
  | .i16 => 6 | .n16 => 7

/-- The conditions of CMP (R52). -/
inductive ICond
  | eq | ne | lt | le | gt | ge
deriving DecidableEq, Repr

def ICond.code : ICond → BitVec 3
  | .eq => 0 | .ne => 1 | .lt => 2 | .le => 3 | .gt => 4 | .ge => 5

/-- The conditions of FCMP and VCMP (R203). -/
inductive FCond
  | eq | ne | lt | le | gt | ge | un
deriving DecidableEq, Repr

def FCond.code : FCond → BitVec 3
  | .eq => 0 | .ne => 1 | .lt => 2 | .le => 3 | .gt => 4 | .ge => 5
  | .un => 6

/-- The rounding modes (R199). -/
inductive Rm
  | rne | rz | rd | ru | sr
deriving DecidableEq, Repr

def Rm.code : Rm → BitVec 3
  | .rne => 0 | .rz => 1 | .rd => 2 | .ru => 3 | .sr => 4

/-- The scalar floating-point types of SUB (R199). -/
inductive FTy
  | f64 | f32 | bf16 | f16
deriving DecidableEq, Repr

def FTy.code : FTy → BitVec 4
  | .f64 => 0 | .f32 => 1 | .bf16 => 2 | .f16 => 3

/-- The lane types of the packed group (R208). -/
inductive VTy
  | f32 | bf16 | f16
deriving DecidableEq, Repr

def VTy.code : VTy → BitVec 4
  | .f32 => 1 | .bf16 => 2 | .f16 => 3

/-- The format codes of R158, and E8M0 under the code 0xE that R212 gives it in group 0x6_. -/
inductive Fmt
  | fp64 | fp32 | bf16 | fp16 | e4m3 | e5m2 | cb4 | int8 | int32 | int64 | raw | e8m0
deriving DecidableEq, Repr

def Fmt.code : Fmt → BitVec 4
  | .fp64 => 0 | .fp32 => 1 | .bf16 => 2 | .fp16 => 3 | .e4m3 => 4 | .e5m2 => 5
  | .cb4 => 6 | .int8 => 7 | .int32 => 8 | .int64 => 9 | .raw => 10 | .e8m0 => 14

/-- The targets of CVTI (R212). -/
inductive ITgt
  | i32 | n32 | i64 | n64 | i8
deriving DecidableEq, Repr

def ITgt.code : ITgt → BitVec 4
  | .i32 => 0 | .n32 => 1 | .i64 => 2 | .n64 => 3 | .i8 => 4

/-- The token classes that SEND sends (R62). -/
inductive SendCls
  | data | hdr | last
deriving DecidableEq, Repr

def SendCls.code : SendCls → BitVec 4
  | .data => 0 | .hdr => 1 | .last => 2

/-- The contraction formats of CONTRACT and GRADPAIR (R226). -/
inductive CFmt
  | f64 | f32 | bf16 | f16 | f8 | cb4 | i8
deriving DecidableEq, Repr

def CFmt.code : CFmt → BitVec 4
  | .f64 => 0 | .f32 => 1 | .bf16 => 2 | .f16 => 3 | .f8 => 4 | .cb4 => 6
  | .i8 => 7

/-- The element formats of STAY (R231). -/
inductive SFmt
  | f32 | bf16 | f16 | e4m3 | e5m2 | cb4 | i8
deriving DecidableEq, Repr

def SFmt.code : SFmt → BitVec 4
  | .f32 => 1 | .bf16 => 2 | .f16 => 3 | .e4m3 => 4 | .e5m2 => 5 | .cb4 => 6
  | .i8 => 7

/-- The survive and shape codes (R226). -/
inductive Shape
  | ij | i | j | none
deriving DecidableEq, Repr

def Shape.code : Shape → BitVec 2
  | .ij => 0 | .i => 1 | .j => 2 | .none => 3

/-- The output formats of the sparse units (R247). -/
inductive OFmt
  | f32 | bf16 | f16
deriving DecidableEq, Repr

def OFmt.code : OFmt → BitVec 2
  | .f32 => 0 | .bf16 => 1 | .f16 => 2

/-- The operations of UNION (R247). -/
inductive UOp
  | add | sub | max | min
deriving DecidableEq, Repr

def UOp.code : UOp → BitVec 4
  | .add => 0 | .sub => 1 | .max => 2 | .min => 3

/-- The tile kinds that SACCI and SACCF name (R250, R251). -/
inductive KTy
  | f32 | i32
deriving DecidableEq, Repr

def KTy.code : KTy → BitVec 4
  | .f32 => 1 | .i32 => 8

/-- The operations of ROWF and ROWB (R220). -/
inductive RowOp
  | softmax | rmsnorm | layernorm
deriving DecidableEq, Repr

def RowOp.code : RowOp → BitVec 4
  | .softmax => 0 | .rmsnorm => 1 | .layernorm => 2

/-- The operations of COLL (R144). -/
inductive CollOp
  | allreduce | reducescatter | allgather | broadcast | alltoall | allmax
deriving DecidableEq, Repr

def CollOp.code : CollOp → BitVec 4
  | .allreduce => 0 | .reducescatter => 1 | .allgather => 2 | .broadcast => 3 | .alltoall => 4 | .allmax => 5

/-- The operations of UPD (R135). -/
inductive UpdOp
  | add32 | add64 | mini32 | mini64 | maxi32 | maxi64 | minn32 | minn64 | maxn32 | maxn64 | or64 | and64 | xor64 | fadd32 | fadd64
deriving DecidableEq, Repr

def UpdOp.code : UpdOp → BitVec 4
  | .add32 => 0 | .add64 => 1 | .mini32 => 2 | .mini64 => 3 | .maxi32 => 4 | .maxi64 => 5
  | .minn32 => 6 | .minn64 => 7 | .maxn32 => 8 | .maxn64 => 9 | .or64 => 10 | .and64 => 11
  | .xor64 => 12 | .fadd32 => 13 | .fadd64 => 14

/-- The path classes (R76, R137). -/
inductive Path
  | l | c | x | w | v | h
deriving DecidableEq, Repr

def Path.code : Path → BitVec 4
  | .l => 0 | .c => 1 | .x => 2 | .w => 3 | .v => 4 | .h => 5

/-! ### Operands -/

/-- The output bindings o0 to o7. -/
abbrev Out := BitVec 3

/-- An output that an instruction may name in DST or leave out. -/
abbrev OutOpt := Option Out

/-- The completion binding of MOD[27:24] (R118). -/
abbrev Cmpl := Option Out

/-- The two heads that a rule can read: of the channel of CTA and of CTB (R21). -/
inductive Head
  | A | B
deriving DecidableEq, Repr

/-- A source operand (R21, R40). `d n` is the history entry d(n+1). -/
inductive Src
  | g (n : BitVec 5) | head (x : Head) | d (n : BitVec 2) | zero | imm | m (n : BitVec 3)
deriving DecidableEq, Repr

/-- A destination operand (R21, R40). -/
inductive Dst
  | g (n : BitVec 5) | zero | o (n : BitVec 3) | m (n : BitVec 3)
deriving DecidableEq, Repr

/-- A channel test of the guard (R27): the channel, and the class it asks for, none for any class. -/
structure ChanTest where
  ch  : BitVec 5
  cls : Option (BitVec 3)
deriving DecidableEq, Repr

/-- The fields of a rule word that are not opcode, operands or modifier (R27). A disabled test or slot is none. -/
structure Hdr where
  pcare : BitVec 8 := 0
  pval  : BitVec 8 := 0
  cta   : Option ChanTest := none
  ctb   : Option ChanTest := none
  sbw   : Option (BitVec 3) := none
  pset  : BitVec 8 := 0
  pclr  : BitVec 8 := 0
  deqA  : Bool := false
  deqB  : Bool := false
  prio  : BitVec 4 := 0
  stall : BitVec 4 := 0
  sbset : Option (BitVec 3) := none
  /-- bit 2 keeps S1, bit 1 keeps S2, bit 0 keeps S3 -/
  reuse : BitVec 3 := 0
deriving DecidableEq, Repr

/-! ### What the steps of the machine name -/

/-- One bank: a cell of a tile on one of the four plane slots (R44). -/
structure Site where
  tile : Nat
  slot : Nat
  cell : Nat
deriving DecidableEq, Repr

/-- A parity error found on reading bank state (R357): the element's index in scrub order (R358). -/
structure ParityHit where
  element : Nat
deriving DecidableEq, Repr

/-- A physical upset of a firing: the comparisons that disagree, 0 to 3, with the two effects recorded (R347), or a
parity error of an element that the rule reads (R357). -/
structure Upset where
  cell     : Nat
  rule     : Nat
  disagree : Nat
  a        : Word := 0
  b        : Word := 0
  parity   : Option ParityHit := none
deriving DecidableEq, Repr

/-- What physics does to a flit at the hop between two tiles (R353, R354): the bits that arrive wrong at each sending, the
first and up to three more, and whether the fallback form fails too. -/
structure FlitNature where
  a    : Nat := 0
  b    : Nat := 0
  errs : List (BitVec 84) := []
  lost : Bool := false
deriving DecidableEq, Repr

/-- What nature chose of one access: the words whose stored contents are uncorrectable (R98, R350); the granules and the
writes that it does not yet see there, of those that its path need not show (R79); the words that it finds with a single
wrong bit (R98); and whether an engine's writes only begin to be seen, granule by granule (R90, R117). -/
structure ReadNature where
  bad   : List Nat := []
  stale : List (Nat × Nat) := []
  fixed : List Nat := []
  part  : Bool := false
deriving DecidableEq, Repr

/-- The two stacked layers over a fabric die (R7, R96). -/
inductive Layer
  | planeStore | stash
deriving DecidableEq, Repr

/-- What a rank of another device contributes to a collective, or to one phase of an exact reduction (R145, R254): the
collective that it issued, its attempt (R146), the bytes of its source, and the elements that bear a tag (R352). -/
structure RemotePart where
  rank    : Nat
  op      : Option CollOp
  fmt     : Fmt
  count   : Nat
  attempt : Nat := 0
  bytes   : List Byte
  bad     : List Nat := []
  port    : Nat := 0
  device  : Nat := 0
deriving DecidableEq, Repr

/-- What a record of another device says of its member: that it joins; that it has left or its region has ended; or that its
saggar was killed there (R306). -/
inductive RecordKind
  | join | gone | killed
deriving DecidableEq, Repr

/-- A join record of another device (R294, R316): the port that brings it, the device, its member's rank, the cohort's size,
whether the member is a region, and the hash of the tenant that is bound to the sending saggar. -/
structure JoinRecord where
  port   : Nat := 0
  device : Nat
  rank   : Nat
  size   : Nat
  region : Bool
  tenant : List Byte := []
  kind   : RecordKind := .join
deriving DecidableEq, Repr

/-- An abort token as it reaches a rank (R146): the attempt that it ends, and, where a member of another device sent it, the
port that takes it and the device that it comes from. -/
structure AbortToken where
  attempt : Nat
  port    : Nat := 0
  device  : Nat := 0
deriving DecidableEq, Repr

/-- What a port receives and drops (R13, R315, R316, R387, R388). -/
inductive PacketKind
  | unprotected | badTag | unsupported | otherTenant | saggarZero
deriving DecidableEq, Repr

/-- What the self-tests found (R394): the parts not offered. -/
structure SelfTest where
  tilesOff    : List Nat := []
  storeOff    : List Nat := []
  stashOff    : List Nat := []
  channelsOff : List Nat := []
  portsOff    : List Nat := []
deriving DecidableEq, Repr

/-- A command message but for its type, which the constructor of the command gives (R388): the saggar that it names, its counter,
its reserved field and length, its body as the sender formed it, and its tag; and the port by which it came. What the body says
stands, decoded, beside it. -/
structure CmdHead where
  saggar : Nat
  seq    : Nat
  tag    : List Byte
  rz     : Nat := 0
  length : Nat := 0
  body   : List Byte := []
  port   : Nat := 0
deriving DecidableEq, Repr

/-- What a device at the other end of a link shows (R315): its report (R314), with the certificates of its key. -/
structure PeerProof where
  report : List Byte
  certs  : List Byte
deriving DecidableEq, Repr

/-- The fields of a launch command (R390). -/
structure LaunchArgs where
  image    : List Byte
  region   : Nat
  queue    : Nat
  prio     : Nat
  origin   : Nat
  floating : Bool
  handle   : Nat
deriving DecidableEq, Repr


/-- The body of a load-image command (R389): whether it is the last chunk, the restart table's address when the restore
option is carried, the chunk's offset, the total length, the mappings (base, size code, attribute) and the bytes. -/
structure LoadArgs where
  last    : Bool
  restore : Option Nat
  offset  : Nat
  total   : Nat
  maps    : List (Nat × Nat × Nat)
  chunk   : List Byte
deriving DecidableEq, Repr

/-- The resources that a key exchange asks for (R302). -/
structure Resources where
  pages  : Nat := 0
  lines  : Nat := 0
  stash  : Nat := 0
  ovBase : Nat := 0
  ovSize : Nat := 0
  spill  : Nat := 0
  slots  : Nat := 1
  planes : Nat := 0
  side   : Nat := 0
  owners : Nat := 0
  seed   : Nat := 0
  share  : Nat := 0
deriving DecidableEq, Repr

/-- The body of a key exchange (R313): the tenant's public key, the fresh ephemeral key, the request, the signature. -/
structure KeyArgs where
  tenant : List Byte
  eph    : List Byte
  res    : Resources
  sig    : List Byte
deriving DecidableEq, Repr

/-! ### The instructions -/

/-- The instructions: one constructor a row of spec/opcode_table.json. -/
inductive Instr
  /-- `NOP: only its guard-word effects` (R52). -/
  | nop (h : Hdr) 
  /-- `PLOG pD, pA, pB, tt` (R53). -/
  | plog (h : Hdr) (pd : BitVec 3) (pa : BitVec 3) (pb : BitVec 3) (tt : BitVec 4)
  /-- `CMP.ty pk, S1, S2, cond` (R53). -/
  | cmp (h : Hdr) (ty : IntTy) (s1 : Src) (s2 : Src) (pk : BitVec 3) (cond : ICond)
  /-- `TST.ty pk, S1, S2 (, ifzero)` (R53). -/
  | tst (h : Hdr) (ty : IntTy) (s1 : Src) (s2 : Src) (pk : BitVec 3) (ifzero : Bool)
  /-- `SEL DST, S1, S2, pk` (R53). -/
  | sel (h : Hdr) (dst : Dst) (s1 : Src) (s2 : Src) (pk : BitVec 3)
  /-- `RETIRE` (R54). -/
  | retire (h : Hdr) 
  /-- `ADD.ty DST, S1, S2` (R56). -/
  | add (h : Hdr) (ty : IntTy) (dst : Dst) (s1 : Src) (s2 : Src) (imm : BitVec 16)
  /-- `SUB.ty DST, S1, S2` (R56). -/
  | sub (h : Hdr) (ty : IntTy) (dst : Dst) (s1 : Src) (s2 : Src) (imm : BitVec 16)
  /-- `MUL.ty DST, S1, S2` (R56). -/
  | mul (h : Hdr) (ty : IntTy) (dst : Dst) (s1 : Src) (s2 : Src) (imm : BitVec 16)
  /-- `MULH.ty DST, S1, S2` (R56). -/
  | mulh (h : Hdr) (ty : IntTy) (dst : Dst) (s1 : Src) (s2 : Src) (imm : BitVec 16)
  /-- `MAD.ty DST, S1, S2, S3` (R56). -/
  | mad (h : Hdr) (ty : IntTy) (dst : Dst) (s1 : Src) (s2 : Src) (s3 : Src) (imm : BitVec 16)
  /-- `DIV.ty DST, S1, S2` (R57). -/
  | div (h : Hdr) (ty : IntTy) (dst : Dst) (s1 : Src) (s2 : Src) (imm : BitVec 16)
  /-- `MIN.ty DST, S1, S2` (R56). -/
  | min (h : Hdr) (ty : IntTy) (dst : Dst) (s1 : Src) (s2 : Src) (imm : BitVec 16)
  /-- `MAX.ty DST, S1, S2` (R56). -/
  | max (h : Hdr) (ty : IntTy) (dst : Dst) (s1 : Src) (s2 : Src) (imm : BitVec 16)
  /-- `ABS.ty DST, S1` (R56). -/
  | abs (h : Hdr) (ty : IntTy) (dst : Dst) (s1 : Src) (imm : BitVec 16)
  /-- `NEG.ty DST, S1` (R56). -/
  | neg (h : Hdr) (ty : IntTy) (dst : Dst) (s1 : Src) (imm : BitVec 16)
  /-- `AND.ty DST, S1, S2` (R56). -/
  | and (h : Hdr) (ty : IntTy) (dst : Dst) (s1 : Src) (s2 : Src) (imm : BitVec 16)
  /-- `OR.ty DST, S1, S2` (R56). -/
  | or (h : Hdr) (ty : IntTy) (dst : Dst) (s1 : Src) (s2 : Src) (imm : BitVec 16)
  /-- `XOR.ty DST, S1, S2` (R56). -/
  | xor (h : Hdr) (ty : IntTy) (dst : Dst) (s1 : Src) (s2 : Src) (imm : BitVec 16)
  /-- `ANDN.ty DST, S1, S2` (R56). -/
  | andn (h : Hdr) (ty : IntTy) (dst : Dst) (s1 : Src) (s2 : Src) (imm : BitVec 16)
  /-- `NOT.ty DST, S1` (R56). -/
  | not (h : Hdr) (ty : IntTy) (dst : Dst) (s1 : Src) (imm : BitVec 16)
  /-- `ADDC.ty DST, S1, S2, S3, cout pk` (R58). -/
  | addc (h : Hdr) (ty : IntTy) (dst : Dst) (s1 : Src) (s2 : Src) (s3 : Src) (pk : BitVec 3)
  /-- `SHL.ty DST, S1 value, S2 count` (R60). -/
  | shl (h : Hdr) (ty : IntTy) (dst : Dst) (s1 : Src) (s2 : Src) (imm : BitVec 16)
  /-- `SHR.ty DST, S1 value, S2 count` (R60). -/
  | shr (h : Hdr) (ty : IntTy) (dst : Dst) (s1 : Src) (s2 : Src) (imm : BitVec 16)
  /-- `SAR.ty DST, S1 value, S2 count` (R60). -/
  | sar (h : Hdr) (ty : IntTy) (dst : Dst) (s1 : Src) (s2 : Src) (imm : BitVec 16)
  /-- `ROT.ty DST, S1 value, S2 count` (R60). -/
  | rot (h : Hdr) (ty : IntTy) (dst : Dst) (s1 : Src) (s2 : Src) (imm : BitVec 16)
  /-- `CLZ.ty DST, S1` (R60). -/
  | clz (h : Hdr) (ty : IntTy) (dst : Dst) (s1 : Src) (imm : BitVec 16)
  /-- `POPC.ty DST, S1` (R60). -/
  | popc (h : Hdr) (ty : IntTy) (dst : Dst) (s1 : Src) (imm : BitVec 16)
  /-- `EXT.ty DST, S1, pos, len (len1 = len - 1)` (R60). -/
  | ext (h : Hdr) (ty : IntTy) (dst : Dst) (s1 : Src) (pos : BitVec 6) (len1 : BitVec 6)
  /-- `INS.ty DST, S1 base, S2 field, pos, len` (R60). -/
  | ins (h : Hdr) (ty : IntTy) (dst : Dst) (s1 : Src) (s2 : Src) (pos : BitVec 6) (len1 : BitVec 6)
  /-- `BREV.ty DST, S1` (R60). -/
  | brev (h : Hdr) (ty : IntTy) (dst : Dst) (s1 : Src) (imm : BitVec 16)
  /-- `ADDR DST, S1 base, S2 index, scale sc, off` (R60). -/
  | addr (h : Hdr) (dst : Dst) (s1 : Src) (s2 : Src) (sc : BitVec 3) (off : BitVec 13)
  /-- `LIMM DST, value, chunk (, clear)` (R61). -/
  | limm (h : Hdr) (clear : Bool) (chunk : BitVec 2) (dst : Dst) (val : BitVec 16)
  /-- `MOV DST, S1` (R60). -/
  | mov (h : Hdr) (dst : Dst) (s1 : Src) (imm : BitVec 16)
  /-- `SEND.class o, S1` (R63). -/
  | send (h : Hdr) (cls : SendCls) (o : Out) (s1 : Src) (imm : BitVec 16)
  /-- `DEQ vN, count (cnt1 = count - 1)` (R64). -/
  | deq (h : Hdr) (ch : BitVec 5) (cnt1 : BitVec 2)
  /-- `FWD o, hA or hB` (R65). -/
  | fwd (h : Hdr) (o : Out) (hd : Head)
  /-- `TAGOF DST, hA or hB` (R66). -/
  | tagof (h : Hdr) (dst : Dst) (hd : Head)
  /-- `RDSPEC DST, number` (R67). -/
  | rdspec (h : Hdr) (dst : Dst) (num : BitVec 8)
  /-- `WRSPEC number, S1` (R67). -/
  | wrspec (h : Hdr) (s1 : Src) (num : BitVec 8)
  /-- `FADD.ty.rm DST, S1, S2 (, ftz)` (R204). -/
  | fadd (h : Hdr) (ty : FTy) (dst : Dst) (s1 : Src) (s2 : Src) (rm : Rm) (ftz : Bool)
  /-- `FSUB.ty.rm DST, S1, S2 (, ftz)` (R204). -/
  | fsub (h : Hdr) (ty : FTy) (dst : Dst) (s1 : Src) (s2 : Src) (rm : Rm) (ftz : Bool)
  /-- `FMUL.ty.rm DST, S1, S2 (, ftz)` (R204). -/
  | fmul (h : Hdr) (ty : FTy) (dst : Dst) (s1 : Src) (s2 : Src) (rm : Rm) (ftz : Bool)
  /-- `FMA.ty.rm DST, S1, S2, S3 (, ftz)` (R204). -/
  | fma (h : Hdr) (ty : FTy) (dst : Dst) (s1 : Src) (s2 : Src) (s3 : Src) (rm : Rm) (ftz : Bool)
  /-- `FMIN.ty DST, S1, S2` (R206). -/
  | fmin (h : Hdr) (ty : FTy) (dst : Dst) (s1 : Src) (s2 : Src)
  /-- `FMAX.ty DST, S1, S2` (R206). -/
  | fmax (h : Hdr) (ty : FTy) (dst : Dst) (s1 : Src) (s2 : Src)
  /-- `FCMP.ty pk, S1, S2, cond` (R206). -/
  | fcmp (h : Hdr) (ty : FTy) (s1 : Src) (s2 : Src) (pk : BitVec 3) (cond : FCond)
  /-- `FABS.ty DST, S1` (R207). -/
  | fabs (h : Hdr) (ty : FTy) (dst : Dst) (s1 : Src)
  /-- `FNEG.ty DST, S1` (R207). -/
  | fneg (h : Hdr) (ty : FTy) (dst : Dst) (s1 : Src)
  /-- `FRCP.ty.rm DST, S1 (, ftz)` (R204). -/
  | frcp (h : Hdr) (ty : FTy) (dst : Dst) (s1 : Src) (rm : Rm) (ftz : Bool)
  /-- `FRSQ.ty.rm DST, S1 (, ftz)` (R204). -/
  | frsq (h : Hdr) (ty : FTy) (dst : Dst) (s1 : Src) (rm : Rm) (ftz : Bool)
  /-- `FEXP2.ty.rm DST, S1 (, ftz)` (R204). -/
  | fexp2 (h : Hdr) (ty : FTy) (dst : Dst) (s1 : Src) (rm : Rm) (ftz : Bool)
  /-- `FLOG2.ty.rm DST, S1 (, ftz)` (R204). -/
  | flog2 (h : Hdr) (ty : FTy) (dst : Dst) (s1 : Src) (rm : Rm) (ftz : Bool)
  /-- `FSCALE.ty.rm DST, S1, S2 integer (, ftz)` (R207). -/
  | fscale (h : Hdr) (ty : FTy) (dst : Dst) (s1 : Src) (s2 : Src) (rm : Rm) (ftz : Bool)
  /-- `FCLASS.ty DST, S1` (R207). -/
  | fclass (h : Hdr) (ty : FTy) (dst : Dst) (s1 : Src)
  /-- `FSQRT.ty.rm DST, S1 (, ftz)` (R204). -/
  | fsqrt (h : Hdr) (ty : FTy) (dst : Dst) (s1 : Src) (rm : Rm) (ftz : Bool)
  /-- `VADD.ty.rm DST, S1, S2 (, ftz)` (R209). -/
  | vadd (h : Hdr) (ty : VTy) (dst : Dst) (s1 : Src) (s2 : Src) (rm : Rm) (ftz : Bool)
  /-- `VSUB.ty.rm DST, S1, S2 (, ftz)` (R209). -/
  | vsub (h : Hdr) (ty : VTy) (dst : Dst) (s1 : Src) (s2 : Src) (rm : Rm) (ftz : Bool)
  /-- `VMUL.ty.rm DST, S1, S2 (, ftz)` (R209). -/
  | vmul (h : Hdr) (ty : VTy) (dst : Dst) (s1 : Src) (s2 : Src) (rm : Rm) (ftz : Bool)
  /-- `VFMA.ty.rm DST, S1, S2, S3 (, ftz)` (R209). -/
  | vfma (h : Hdr) (ty : VTy) (dst : Dst) (s1 : Src) (s2 : Src) (s3 : Src) (rm : Rm) (ftz : Bool)
  /-- `VMIN.ty DST, S1, S2` (R209). -/
  | vmin (h : Hdr) (ty : VTy) (dst : Dst) (s1 : Src) (s2 : Src)
  /-- `VMAX.ty DST, S1, S2` (R209). -/
  | vmax (h : Hdr) (ty : VTy) (dst : Dst) (s1 : Src) (s2 : Src)
  /-- `VCMP.ty DST, S1, S2, cond` (R209). -/
  | vcmp (h : Hdr) (ty : VTy) (dst : Dst) (s1 : Src) (s2 : Src) (cond : FCond)
  /-- `VSEL.ty DST, S1, S2, S3 mask` (R209). -/
  | vsel (h : Hdr) (ty : VTy) (dst : Dst) (s1 : Src) (s2 : Src) (s3 : Src)
  /-- `VSUM.ty.rm DST, S1 (, ftz)` (R210). -/
  | vsum (h : Hdr) (ty : VTy) (dst : Dst) (s1 : Src) (rm : Rm) (ftz : Bool)
  /-- `VAMAX.ty DST, S1, S2` (R209). -/
  | vamax (h : Hdr) (ty : VTy) (dst : Dst) (s1 : Src) (s2 : Src)
  /-- `VSHUF.ty DST, S1, S2, sel, zero z` (R211). -/
  | vshuf (h : Hdr) (ty : VTy) (dst : Dst) (s1 : Src) (s2 : Src) (z : BitVec 4) (sel : BitVec 12)
  /-- `VDOT3.ty.rm DST, S1, S2, S3 (, ftz)` (R210). -/
  | vdot3 (h : Hdr) (ty : VTy) (dst : Dst) (s1 : Src) (s2 : Src) (s3 : Src) (rm : Rm) (ftz : Bool)
  /-- `CVT.tgt.rm DST, S1, from src (, fit)` (R213). -/
  | cvt (h : Hdr) (tgt : Fmt) (dst : Dst) (s1 : Src) (rm : Rm) (ftz : Bool) (src : Fmt) (fit : BitVec 4)
  /-- `VCVT.tgt.rm DST, S1, from src, part` (R213). -/
  | vcvt (h : Hdr) (tgt : Fmt) (dst : Dst) (s1 : Src) (rm : Rm) (ftz : Bool) (src : Fmt) (part : BitVec 4)
  /-- `CVTI.tgt.rm DST, S1, from src` (R213). -/
  | cvti (h : Hdr) (tgt : ITgt) (dst : Dst) (s1 : Src) (rm : Rm) (src : Fmt) (uns : Bool)
  /-- `CVTF.tgt.rm DST, S1, from src` (R213). -/
  | cvtf (h : Hdr) (tgt : Fmt) (dst : Dst) (s1 : Src) (rm : Rm) (ftz : Bool) (src : Fmt) (uns : Bool)
  /-- `SCALEQ.tgt.rm DST, S1, S2 scales, S3 base, from src, byte, part` (R215). -/
  | scaleq (h : Hdr) (tgt : Fmt) (dst : Dst) (s1 : Src) (s2 : Src) (s3 : Src) (rm : Rm) (ftz : Bool) (src : Fmt) (byte : BitVec 3) (part : BitVec 2)
  /-- `SCALEDQ.tgt.rm DST, S1 codes, S2 scales, from src, byte, part` (R215). -/
  | scaledq (h : Hdr) (tgt : Fmt) (dst : Dst) (s1 : Src) (s2 : Src) (rm : Rm) (ftz : Bool) (src : Fmt) (byte : BitVec 3) (part : BitVec 2)
  /-- `CBLD kc, S1, quarter` (R216). -/
  | cbld (h : Hdr) (s1 : Src) (kc : BitVec 2) (quarter : BitVec 2)
  /-- `CBLOOK DST, S1, kc, part` (R216). -/
  | cblook (h : Hdr) (dst : Dst) (s1 : Src) (kc : BitVec 2) (part : BitVec 2)
  /-- `SETFMT vN, S1` (R217). -/
  | setfmt (h : Hdr) (s1 : Src) (ch : BitVec 5)
  /-- `SEAL DST, S1, for tgt` (R218). -/
  | seal (h : Hdr) (dst : Dst) (s1 : Src) (tgt : Fmt)
  /-- `AMAXACC.ty DST, S1 running, S2 lanes` (R218). -/
  | amaxacc (h : Hdr) (ty : Fmt) (dst : Dst) (s1 : Src) (s2 : Src)
  /-- `CONTRACT.fmt acc, three positions, survive, u, v, ovw, half` (R228). -/
  | contract (h : Hdr) (fmt : CFmt) (s1 : Src) (s2 : Src) (s3 : Src) (role : BitVec 2) (sv : Shape) (uidx : Bool) (vidx : Bool) (acc : BitVec 2) (stile : Bool) (ovw : Bool) (half : BitVec 2)
  /-- `STAY.fmt s, hA or hB (, cm)` (R232). -/
  | stay (h : Hdr) (fmt : SFmt) (hd : Head) (stile : Bool) (cm : Bool)
  /-- `ACCZ a` (R234). -/
  | accz (h : Hdr) (acc : BitVec 2)
  /-- `ACCRD.tgt.rm o, a (, shape)` (R235). -/
  | accrd (h : Hdr) (tgt : Fmt) (o : Out) (rm : Rm) (ftz : Bool) (shape : Shape) (acc : BitVec 2) (ovr : Bool)
  /-- `ACCLD.src a, hA or hB, shape` (R236). -/
  | accld (h : Hdr) (src : Fmt) (hd : Head) (shape : Shape) (acc : BitVec 2)
  /-- `ACCSC a, S1 factor` (R237). -/
  | accsc (h : Hdr) (e8m0 : Bool) (s1 : Src) (rm : Rm) (ftz : Bool) (acc : BitVec 2)
  /-- `CTURN o, hA or hB, node, blocks (blk1 = blocks - 1)` (R238). -/
  | cturn (h : Hdr) (o : Out) (hd : Head) (node : Bool) (blk1 : BitVec 8)
  /-- `GRADPAIR.fmt acc0, acc1, s, U of half 0, U of half 1` (R230). -/
  | gradpair (h : Hdr) (fmt : CFmt) (hd0 : Head) (hd1 : Head) (sv1 : Shape) (sv0 : Shape) (idx0 : Bool) (idx1 : Bool) (acc0 : BitVec 2) (stile : Bool) (ovw : Bool) (acc1 : BitVec 2)
  /-- `ISECT.ofmt.rm o, A, B, mul, end lvl` (R248). -/
  | isectMul (h : Hdr) (o : Out) (hd0 : Head) (hd1 : Head) (ofmt : OFmt) (rm : Rm) (lvl : BitVec 4)
  /-- `ISECT.ofmt.rm o, A, tile, dot (, flat), end lvl` (R249). -/
  | isectDot (h : Hdr) (o : Out) (hd0 : Head) (ofmt : OFmt) (rm : Rm) (acc : BitVec 2) (flat : Bool) (lvl : BitVec 4)
  /-- `UNION.ofmt.rm o, A, B, op, end lvl` (R248). -/
  | union (h : Hdr) (op : UOp) (o : Out) (hd0 : Head) (hd1 : Head) (ofmt : OFmt) (rm : Rm) (lvl : BitVec 4)
  /-- `SACCI.kd a, hA or hB, row, end lvl` (R250). -/
  | sacci (h : Hdr) (kd : KTy) (hd : Head) (acc : BitVec 2) (lvl : BitVec 4) (row : BitVec 4)
  /-- `SACCF.kd.rm o, a, out ofmt, stop lvl` (R251). -/
  | saccf (h : Hdr) (kd : KTy) (o : Out) (ofmt : OFmt) (rm : Rm) (acc : BitVec 2) (lvl : BitVec 4)
  /-- `STOP o, level` (R252). -/
  | stop (h : Hdr) (o : Out) (lvl : BitVec 4)
  /-- `ROWF.fmt x, y, descriptor, op, eps` (R221). -/
  | rowf (h : Hdr) (op : RowOp) (s1 : Src) (s2 : Src) (s3 : Src) (cm : Cmpl) (fmt : Fmt) (eps : BitVec 5)
  /-- `ROWB.fmt x, dx, descriptor, op, eps` (R222). -/
  | rowb (h : Hdr) (op : RowOp) (s1 : Src) (s2 : Src) (s3 : Src) (cm : Cmpl) (fmt : Fmt) (eps : BitVec 5)
  /-- `XRED.fmt destination, source, count, sum, coh` (R254). -/
  | xred (h : Hdr) (s1 : Src) (s2 : Src) (s3 : Src) (cm : Cmpl) (fmt : Fmt) (coh : BitVec 8)
  /-- `LD.ty DST, [S1]` (R124). -/
  | ld (h : Hdr) (ty : MemTy) (dst : Dst) (s1 : Src) (cm : Cmpl)
  /-- `ST.ty [S1], S2` (R124). -/
  | st (h : Hdr) (ty : MemTy) (s1 : Src) (s2 : Src) (cm : Cmpl)
  /-- `LDS.ty DST, [S1]` (R124). -/
  | lds (h : Hdr) (ty : MemTy) (dst : Dst) (s1 : Src) (cm : Cmpl)
  /-- `STS.ty [S1], S2` (R124). -/
  | sts (h : Hdr) (ty : MemTy) (s1 : Src) (s2 : Src) (cm : Cmpl)
  /-- `TLOOK DST, [S1]` (R126). -/
  | tlook (h : Hdr) (dst : Dst) (s1 : Src) (cm : Cmpl)
  /-- `TSET [S1], S2, S3` (R126). -/
  | tset (h : Hdr) (s1 : Src) (s2 : Src) (s3 : Src) (cm : Cmpl)
  /-- `TINV [S1]` (R126). -/
  | tinv (h : Hdr) (s1 : Src) (cm : Cmpl)
  /-- `LDFE DST, [S1]` (R127). -/
  | ldfe (h : Hdr) (dst : Dst) (s1 : Src) (cm : Cmpl)
  /-- `STFE [S1], S2, S3` (R127). -/
  | stfe (h : Hdr) (s1 : Src) (s2 : Src) (s3 : Src) (cm : Cmpl)
  /-- `STREAM o, S1 address, S2 length (completion binding in SUB)` (R129). -/
  | stream (h : Hdr) (cm : Cmpl) (o : Out) (s1 : Src) (s2 : Src) (imm : BitVec 16)
  /-- `STASH [S1], S2 length, key` (R131). -/
  | stash (h : Hdr) (s1 : Src) (s2 : Src) (cm : Cmpl) (key : BitVec 12)
  /-- `UNSTASH o, key` (R132). -/
  | unstash (h : Hdr) (o : Out) (cm : Cmpl) (key : BitVec 12)
  /-- `LDP DST, [S1]` (R134). -/
  | ldp (h : Hdr) (dst : Dst) (s1 : Src) (cm : Cmpl)
  /-- `STP [S1], S2` (R134). -/
  | stp (h : Hdr) (s1 : Src) (s2 : Src) (cm : Cmpl)
  /-- `CLRP [S1], S2 length` (R134). -/
  | clrp (h : Hdr) (s1 : Src) (s2 : Src) (cm : Cmpl)
  /-- `UPD [S1], S2, op` (R135). -/
  | upd (h : Hdr) (op : UpdOp) (s1 : Src) (s2 : Src) (cm : Cmpl)
  /-- `OWN [S1], S2 length` (R136). -/
  | ownEnter (h : Hdr) (s1 : Src) (s2 : Src) (cm : Cmpl)
  /-- `OWN [S1], release` (R136). -/
  | ownRelease (h : Hdr) (s1 : Src) (cm : Cmpl)
  /-- `FENCEX x, y` (R79). -/
  | fencex (h : Hdr) (cm : Cmpl) (x : Path) (y : Path)
  /-- `CMPL o (completion binding required)` (R138). -/
  | cmplT (h : Hdr) (cm : Cmpl)
  /-- `DRAIN` (R80). -/
  | drain (h : Hdr) 
  /-- `BCPOST S1, bar` (R113). -/
  | bcpost (h : Hdr) (s1 : Src) (cm : Cmpl) (bar : BitVec 4)
  /-- `BCARM [S1], S2 length, bar` (R113). -/
  | bcarm (h : Hdr) (s1 : Src) (s2 : Src) (cm : Cmpl) (bar : BitVec 4)
  /-- `COPY [S1], [S2], S3 length, q, refill buf` (R142). -/
  | copy (h : Hdr) (s1 : Src) (s2 : Src) (s3 : Src) (cm : Cmpl) (dts : Bool) (sts : Bool) (refill : Bool) (q : BitVec 4) (buf : BitVec 5)
  /-- `COPYQ [S1], S2 length, S3 consumer set, buf` (R143). -/
  | copyqDeclare (h : Hdr) (s1 : Src) (s2 : Src) (s3 : Src) (cm : Cmpl) (buf : BitVec 5)
  /-- `COPYQ release, buf` (R143). -/
  | copyqRelease (h : Hdr) (cm : Cmpl) (buf : BitVec 5)
  /-- `CONSUMED buf` (R116). -/
  | consumed (h : Hdr) (cm : Cmpl) (buf : BitVec 5)
  /-- `COLL.fmt [S1], [S2], S3 count, op, coh` (R144). -/
  | coll (h : Hdr) (op : CollOp) (s1 : Src) (s2 : Src) (s3 : Src) (cm : Cmpl) (fmt : Fmt) (coh : BitVec 8)
  /-- `CABORT coh` (R146). -/
  | cabort (h : Hdr) (cm : Cmpl) (coh : BitVec 8)
  /-- `KVAPP [S1], S2 rows, S3 position, put, layer` (R152). -/
  | kvappPut (h : Hdr) (s1 : Src) (s2 : Src) (s3 : Src) (cm : Cmpl) (layer : BitVec 8)
  /-- `KVAPP [S1], S3 position, commit` (R148). -/
  | kvappCommit (h : Hdr) (s1 : Src) (s3 : Src) (cm : Cmpl)
  /-- `KVROT o, [S1]` (R156). -/
  | kvrot (h : Hdr) (o : Out) (s1 : Src) (cm : Cmpl)
  /-- `STEER o, hd, pk, else o2` (R280). -/
  | steer (h : Hdr) (o : Out) (hd : Head) (pk : BitVec 3) (o2 : BitVec 3)
  /-- `MERGE o, selector, va, vb` (R282). -/
  | merge (h : Hdr) (o : Out) (hd : Head) (va : BitVec 5) (vb : BitVec 5)
  /-- `FORK o, hd, also mask` (R281). -/
  | fork (h : Hdr) (o : Out) (hd : Head) (also : BitVec 8)
  /-- `SINK vN, count` (R283). -/
  | sink (h : Hdr) (ch : BitVec 5) (cnt1 : BitVec 2)
  /-- `CTL o, S1` (R284). -/
  | ctl (h : Hdr) (o : Out) (s1 : Src) (imm : BitVec 16)
  /-- `CNT DST, S1, limit, wrap pk (lim1 = limit - 1)` (R286). -/
  | cnt (h : Hdr) (dst : Dst) (s1 : Src) (pk : BitVec 3) (lim1 : BitVec 13)
  /-- `LOOPOPEN o, gk, depth (dep1 = depth - 1)` (R287). -/
  | loopopen (h : Hdr) (o : Out) (s1 : Src) (dep1 : BitVec 4)
  /-- `LOOPDONE o` (R288). -/
  | loopdone (h : Hdr) (o : Out)
  /-- `GATE o, S1, set` (R285). -/
  | gateSet (h : Hdr) (o : Out) (s1 : Src) (imm : BitVec 16)
  /-- `GATE o, S1, add` (R285). -/
  | gateAdd (h : Hdr) (o : Out) (s1 : Src) (imm : BitVec 16)
  /-- `GATE o, off` (R285). -/
  | gateOff (h : Hdr) (o : Out)
  /-- `SPLICE region` (R291). -/
  | splice (h : Hdr) (rgn : BitVec 8)
  /-- `PLANE region` (R292). -/
  | plane (h : Hdr) (rgn : BitVec 8)
  /-- `RANGE open, lo, hi, cmin, parts (p1 = P - 1)` (R293). -/
  | rangeOpen (h : Hdr) (s1 : Src) (s2 : Src) (s3 : Src) (p1 : BitVec 8)
  /-- `RANGE take, gN` (R293). -/
  | rangeTake (h : Hdr) (dst : Dst)
  /-- `RANGE close` (R293). -/
  | rangeClose (h : Hdr) 
  /-- `JOIN (o,) S1 rank, S2 size, coh (, region)` (R294). -/
  | join (h : Hdr) (rgn : Bool) (od : OutOpt) (s1 : Src) (s2 : Src) (coh : BitVec 8)
  /-- `LEAVE coh (, region)` (R295). -/
  | leave (h : Hdr) (rgn : Bool) (coh : BitVec 8)
  /-- `BAR o, coh (, region)` (R296). -/
  | bar (h : Hdr) (rgn : Bool) (o : Out) (coh : BitVec 8)
  /-- `LAUNCH (o,) S1 origin, region, queue, prio (, floating)` (R297). -/
  | launch (h : Hdr) (od : OutOpt) (s1 : Src) (rgn : BitVec 8) (q : BitVec 5) (prio : BitVec 2) (flt : Bool)
  /-- `YIELD cycles (cyc1 = cycles - 1)` (R298). -/
  | yield (h : Hdr) (cyc1 : BitVec 12)
  /-- `TRAP S1, code` (R365). -/
  | trap (h : Hdr) (s1 : Src) (code : BitVec 16)
  /-- `CHKERR pk, hd (, ifclean)` (R366). -/
  | chkerr (h : Hdr) (hd : Head) (pk : BitVec 3) (clean : Bool)
  /-- `FAULTRD DST, S1, word` (R367). -/
  | faultrdWord (h : Hdr) (dst : Dst) (s1 : Src) (wsel : BitVec 3)
  /-- `FAULTRD DST, count` (R367). -/
  | faultrdCount (h : Hdr) (dst : Dst)
  /-- `MARK` (R342). -/
  | markOwn (h : Hdr) 
  /-- `MARK (o,) coh (, requeue)` (R342). -/
  | markCohort (h : Hdr) (od : OutOpt) (coh : BitVec 8) (req : Bool)
  /-- `SNAP` (R343). -/
  | snap (h : Hdr) 
  /-- `RESUME (o,) S1 origin, S2 handle, queue, prio (, floating)` (R344). -/
  | resume (h : Hdr) (od : OutOpt) (s1 : Src) (s2 : Src) (q : BitVec 5) (prio : BitVec 2) (flt : Bool)
  /-- `SAVESET DST, [S1], S2 length` (R384). -/
  | savesetDeclare (h : Hdr) (dst : Dst) (s1 : Src) (s2 : Src)
  /-- `SAVESET notify o` (R385). -/
  | savesetNotify (h : Hdr) (o : Out)
  /-- `SAVEDROP DST, S1 number` (R384). -/
  | savedropDeclaration (h : Hdr) (dst : Dst) (s1 : Src)
  /-- `SAVEDROP notify o` (R385). -/
  | savedropNotify (h : Hdr) (o : Out)
  /-- `PFACK` (R386). -/
  | pfack (h : Hdr) 
  /-- `REPLAY hA or hB` (R368). -/
  | replay (h : Hdr) (hd : Head)
  /-- CELL_ROUND: one cycle of tile t: the sequencer gives one plane the round, and each of its cells evaluates guards, selects and fires (R33). -/
  | cellRound (t : Nat) (ups : List Upset)
  /-- RESULT_WRITE: the results of a bank whose latency has run out are written, and their slots clear (R36). -/
  | resultWrite (x : Site)
  /-- TOKEN_ARRIVAL: the oldest token in flight on output o of bank x enters its channel (R73). -/
  | tokenArrival (x : Site) (o : Nat)
  /-- FLIT_HOP: the oldest flit of output o of bank x is checked at a hop (R353). -/
  | flitHop (x : Site) (o : Nat) (k : FlitNature)
  /-- ACCESS_PERFORMED: request q is performed (R76). -/
  | accessPerformed (q : Nat) (n : ReadNature)
  /-- TRANSLATION_WALK_DONE: the walk of page v of saggar g ends (R310). -/
  | translationWalkDone (g : Nat) (v : Nat)
  /-- OWNER_UPDATE_APPLY: the owner node applies update q (R103). -/
  | ownerUpdateApply (q : Nat) (n : ReadNature)
  /-- STREAM_TOKEN_SEND: stream q reads a word and sends its next token (R129). -/
  | streamTokenSend (q : Nat) (n : ReadNature)
  /-- RUN_TOKEN_SEND: run u of bank x sends its next token (R235). -/
  | runTokenSend (x : Site) (u : Nat) (n : ReadNature)
  /-- CONTRACTION_STEP: the X unit takes one paired token of each stream of contraction u (R189). -/
  | contractionStep (x : Site) (u : Nat) (up : Option Upset)
  /-- STAY_TOKEN_TAKE: the fill u of a stay tile takes one token (R232). -/
  | stayTokenTake (x : Site) (u : Nat)
  /-- ACCLD_TOKEN_TAKE: the load u of an accumulator tile takes one token (R236). -/
  | accldTokenTake (x : Site) (u : Nat)
  /-- CORNER_TURN_TOKEN: the corner-turn node takes or sends one token of run u (R197). -/
  | cornerTurnToken (x : Site) (u : Nat)
  /-- SPARSE_UNIT_TOKEN: sparse unit u takes a token, or forms or sends output (R243). -/
  | sparseUnitToken (x : Site) (u : Nat) (up : Option Upset)
  /-- LOOP_STEP: loop-control unit u of a tile sends the tokens of one step (R272). -/
  | loopStep (x : Site) (u : Nat)
  /-- COPY_PERFORMED: copy command q is performed (R142). -/
  | copyPerformed (q : Nat) (n : ReadNature)
  /-- REFILL_START: refill copy q starts (R116). -/
  | refillStart (q : Nat)
  /-- COLLECTIVE_PERFORMED: collective q is performed; r holds what ranks of other devices sent (R145). -/
  | collectivePerformed (q : Nat) (r : List RemotePart) (n : ReadNature)
  /-- XRED_PERFORMED: exact reduction q is performed (R254). -/
  | xredPerformed (q : Nat) (r : List RemotePart) (n : ReadNature)
  /-- ABORT_TOKEN_RECEIVE: rank r of cohort k of saggar g takes the abort token a (R146). -/
  | abortTokenReceive (g : Nat) (k : Nat) (r : Nat) (a : AbortToken)
  /-- COLLECTIVE_MEMBER_TIMEOUT: 2^24 port cycles of silence of a remote member of cohort k (R295). -/
  | collectiveMemberTimeout (g : Nat) (k : Nat)
  /-- BAR_COMPLETE: the oldest barrier generation of cohort k completes (R296). -/
  | barComplete (g : Nat) (k : Nat)
  /-- JOIN_RECORD_RECEIVE: a join record of a peer device is taken (R294). -/
  | joinRecordReceive (g : Nat) (k : Nat) (r : JoinRecord)
  /-- ROW_COMMAND_PERFORMED: the row engine of tile t performs its next command (R223). -/
  | rowCommandPerformed (t : Nat) (n : ReadNature)
  /-- STASH_PERFORMED: stash write q is performed (R131). -/
  | stashPerformed (q : Nat) (n : ReadNature)
  /-- KV_COMMAND_PERFORMED: key/value command q is performed (R148). -/
  | kvCommandPerformed (q : Nat) (n : ReadNature)
  /-- LAYER_POWER_OFF: layer l over tile t, idle for 2^20 cycles, is powered off (R96). -/
  | layerPowerOff (t : Nat) (l : Layer)
  /-- LAYER_WAKE_DONE: layer l over tile t finishes waking (R96). -/
  | layerWakeDone (t : Nat) (l : Layer)
  /-- DRAIN_REACH_TILE: the drain of launch j reaches tile t (R80). -/
  | drainReachTile (j : Nat) (t : Nat)
  /-- DRAIN_PASSED_TILE: the drain of launch j has passed tile t (R81). -/
  | drainPassedTile (j : Nat) (t : Nat)
  /-- REGION_END: the drain of launch j has passed every tile (R88). -/
  | regionEnd (j : Nat)
  /-- PLANE_LOAD: the plane of launch j for tile t is carried over the vertical bus (R43). -/
  | planeLoad (j : Nat) (t : Nat)
  /-- PLANE_ACTIVATE: the loaded plane of launch j on tile t becomes active (R45). -/
  | planeActivate (j : Nat) (t : Nat)
  /-- LAUNCH_DISPATCH: the dispatcher takes one decision (R265). -/
  | launchDispatch 
  /-- DISPATCH_ENABLE: the cone first measures the reserve at 5.0 J or more (R369). -/
  | dispatchEnable 
  /-- WATCHDOG_STALL: the watchdog of slot k of tile t has counted 2^22 rounds (R261). -/
  | watchdogStall (t : Nat) (k : Nat)
  /-- YIELD_END: the yield of slot k of tile t has run out (R298). -/
  | yieldEnd (t : Nat) (k : Nat)
  /-- STATE_SCRUB: bank x reads its next word for parity (R358). -/
  | stateScrub (x : Site) (bad : Option ParityHit)
  /-- FREEZE_REACH_TILE: the freeze of launch j reaches tile t (R360). -/
  | freezeReachTile (j : Nat) (t : Nat)
  /-- TRAVERSE_BEGIN: the traverse of launch j begins (R320). -/
  | traverseBegin (j : Nat)
  /-- TRAVERSE_REACH_TILE: the traverse of launch j reaches tile t (R320). -/
  | traverseReachTile (j : Nat) (t : Nat)
  /-- CELL_SAVE: the marked cell of bank x reaches its save point (R323). -/
  | cellSave (x : Site)
  /-- SNAP_FORCED_SAVE: a snap cell has committed no SNAP within 2^16 rounds (R324). -/
  | snapForcedSave (x : Site)
  /-- TRAVERSE_COMPLETE: the traverse of launch j completes (R329). -/
  | traverseComplete (j : Nat)
  /-- RESTORE: the resume launch j restores its record (R339). -/
  | restore (j : Nat)
  /-- ROW_ALERT: row r of bank b of die d is activated, and its count may reach RMTHR (R317). -/
  | rowAlert (d : Nat) (b : Nat) (r : Nat)
  /-- NEIGHBOUR_REFRESH_DONE: the neighbour refresh of bank b of die d ends (R318). -/
  | neighbourRefreshDone (d : Nat) (b : Nat)
  /-- REFRESH_PASS: a refresh pass resets the counters of bank b of die d (R317). -/
  | refreshPass (d : Nat) (b : Nat)
  /-- PACKET_RECEIVE: port p takes a packet (R315). -/
  | packetReceive (p : Nat) (k : PacketKind)
  /-- POWER_FAIL_TRAP: the cone raises the power-fail trap, for the supply or for the reserve (R370). -/
  | powerFailTrap (supply : Bool)
  /-- GRACE_END: the grace bound expires (R372). -/
  | graceEnd 
  /-- RUN_OUT_END: phase 3 of the hold-up sequence ends (R373). -/
  | runOutEnd (n : ReadNature)
  /-- POWER_ON_START: a start: the datum counts the boot and verifies the firmware; torn lists the save records that read back torn (R393). -/
  | powerOnStart (sigOk : Bool) (torn : List Nat)
  /-- SELF_TEST_END: the self-tests end (R394). -/
  | selfTestEnd (found : SelfTest)
  /-- THERMAL_THROTTLE: the sequencers set the tile clocks for the measured inlet temperature and power (R396). -/
  | thermalThrottle (inlet : Nat) (power : Nat)
  /-- OVERTEMP_FREEZE: an inlet temperature above 55 C freezes every region (R396). -/
  | overtempFreeze (inlet : Nat)
  /-- LOAD_IMAGE: the load-image command (R390). -/
  | loadImage (c : CmdHead) (a : LoadArgs)
  /-- LAUNCH_NEW: the launch command, new option (R264). -/
  | launchNew (c : CmdHead) (a : LaunchArgs)
  /-- LAUNCH_RESUME: the launch command, resume option (R338). -/
  | launchResume (c : CmdHead) (a : LaunchArgs)
  /-- LAUNCH_DISCARD: the launch command, discard option (R360). -/
  | launchDiscard (c : CmdHead) (a : LaunchArgs)
  /-- LAUNCH_CONTINUE: the launch command, continue option (R360). -/
  | launchContinue (c : CmdHead) (a : LaunchArgs)
  /-- STATUS_SAGGAR: the status command, selector 0 (R389). -/
  | statusSaggar (c : CmdHead)
  /-- STATUS_LOG: the status command, selector 1 (R389). -/
  | statusLog (c : CmdHead) (first : Nat)
  /-- STATUS_MGMT: the status command, selector 2 (R397). -/
  | statusMgmt (c : CmdHead)
  /-- ATTEST: the attest command (R314). -/
  | attest (c : CmdHead) (nonce : List Byte)
  /-- KEY_EXCHANGE: the key-exchange command (R313). -/
  | keyExchange (c : CmdHead) (a : KeyArgs)
  /-- KILL: the kill command (R306). -/
  | kill (c : CmdHead)
  /-- KILL_SCRUB_COMPLETE: the scrub of a killed saggar is complete (R305). -/
  | killScrubComplete (g : Nat)
  /-- READOUT: the readout command (R390). -/
  | readout (c : CmdHead) (a : Nat) (len : Nat) (n : ReadNature)
  /-- UNLOAD_IMAGE: the unload-image command (R390). -/
  | unloadImage (c : CmdHead) (hash : List Byte)
  /-- COLTHR_WRITE: a write of COLTHR by saggar 0 (R265). -/
  | colthrWrite (v : Word)
  /-- RMTHR_WRITE: a write of RMTHR by saggar 0 (R317). -/
  | rmthrWrite (v : Word)
  /-- MGMT_REG_WRITE: a write of another management register (R397). -/
  | mgmtRegWrite (num : Nat) (v : Word)
  /-- SAVE_DECLARATION_ANSWER: the port die decides its oldest save-declaration request (R384). -/
  | saveDeclarationAnswer 
  /-- LINK_TRAINING: a port link comes up (R315). -/
  | linkTraining (p : Nat) (peer : Option PeerProof)
deriving DecidableEq, Repr

/-- The names of the rule instructions, without their operands. -/
inductive Op
  | nop | plog | cmp | tst | sel | retire | add | sub | mul | mulh | mad | div | min | max | abs | neg 
  | and | or | xor | andn | not | addc | shl | shr | sar | rot | clz | popc | ext | ins | brev | addr 
  | limm | mov | send | deq | fwd | tagof | rdspec | wrspec | fadd | fsub | fmul | fma | fmin | fmax 
  | fcmp | fabs | fneg | frcp | frsq | fexp2 | flog2 | fscale | fclass | fsqrt | vadd | vsub | vmul | vfma 
  | vmin | vmax | vcmp | vsel | vsum | vamax | vshuf | vdot3 | cvt | vcvt | cvti | cvtf | scaleq | scaledq 
  | cbld | cblook | setfmt | seal | amaxacc | contract | stay | accz | accrd | accld | accsc | cturn 
  | gradpair | isectMul | isectDot | union | sacci | saccf | stop | rowf | rowb | xred | ld | st | lds 
  | sts | tlook | tset | tinv | ldfe | stfe | stream | stash | unstash | ldp | stp | clrp | upd | ownEnter 
  | ownRelease | fencex | cmplT | drain | bcpost | bcarm | copy | copyqDeclare | copyqRelease | consumed 
  | coll | cabort | kvappPut | kvappCommit | kvrot | steer | merge | fork | sink | ctl | cnt | loopopen 
  | loopdone | gateSet | gateAdd | gateOff | splice | plane | rangeOpen | rangeTake | rangeClose | join 
  | leave | bar | launch | yield | trap | chkerr | faultrdWord | faultrdCount | markOwn | markCohort 
  | snap | resume | savesetDeclare | savesetNotify | savedropDeclaration | savedropNotify | pfack | replay 
deriving DecidableEq, Repr

/-- The rule instruction that a term is; none for a step of the machine. -/
def Instr.op? : Instr → Option Op
  | .nop .. => some .nop
  | .plog .. => some .plog
  | .cmp .. => some .cmp
  | .tst .. => some .tst
  | .sel .. => some .sel
  | .retire .. => some .retire
  | .add .. => some .add
  | .sub .. => some .sub
  | .mul .. => some .mul
  | .mulh .. => some .mulh
  | .mad .. => some .mad
  | .div .. => some .div
  | .min .. => some .min
  | .max .. => some .max
  | .abs .. => some .abs
  | .neg .. => some .neg
  | .and .. => some .and
  | .or .. => some .or
  | .xor .. => some .xor
  | .andn .. => some .andn
  | .not .. => some .not
  | .addc .. => some .addc
  | .shl .. => some .shl
  | .shr .. => some .shr
  | .sar .. => some .sar
  | .rot .. => some .rot
  | .clz .. => some .clz
  | .popc .. => some .popc
  | .ext .. => some .ext
  | .ins .. => some .ins
  | .brev .. => some .brev
  | .addr .. => some .addr
  | .limm .. => some .limm
  | .mov .. => some .mov
  | .send .. => some .send
  | .deq .. => some .deq
  | .fwd .. => some .fwd
  | .tagof .. => some .tagof
  | .rdspec .. => some .rdspec
  | .wrspec .. => some .wrspec
  | .fadd .. => some .fadd
  | .fsub .. => some .fsub
  | .fmul .. => some .fmul
  | .fma .. => some .fma
  | .fmin .. => some .fmin
  | .fmax .. => some .fmax
  | .fcmp .. => some .fcmp
  | .fabs .. => some .fabs
  | .fneg .. => some .fneg
  | .frcp .. => some .frcp
  | .frsq .. => some .frsq
  | .fexp2 .. => some .fexp2
  | .flog2 .. => some .flog2
  | .fscale .. => some .fscale
  | .fclass .. => some .fclass
  | .fsqrt .. => some .fsqrt
  | .vadd .. => some .vadd
  | .vsub .. => some .vsub
  | .vmul .. => some .vmul
  | .vfma .. => some .vfma
  | .vmin .. => some .vmin
  | .vmax .. => some .vmax
  | .vcmp .. => some .vcmp
  | .vsel .. => some .vsel
  | .vsum .. => some .vsum
  | .vamax .. => some .vamax
  | .vshuf .. => some .vshuf
  | .vdot3 .. => some .vdot3
  | .cvt .. => some .cvt
  | .vcvt .. => some .vcvt
  | .cvti .. => some .cvti
  | .cvtf .. => some .cvtf
  | .scaleq .. => some .scaleq
  | .scaledq .. => some .scaledq
  | .cbld .. => some .cbld
  | .cblook .. => some .cblook
  | .setfmt .. => some .setfmt
  | .seal .. => some .seal
  | .amaxacc .. => some .amaxacc
  | .contract .. => some .contract
  | .stay .. => some .stay
  | .accz .. => some .accz
  | .accrd .. => some .accrd
  | .accld .. => some .accld
  | .accsc .. => some .accsc
  | .cturn .. => some .cturn
  | .gradpair .. => some .gradpair
  | .isectMul .. => some .isectMul
  | .isectDot .. => some .isectDot
  | .union .. => some .union
  | .sacci .. => some .sacci
  | .saccf .. => some .saccf
  | .stop .. => some .stop
  | .rowf .. => some .rowf
  | .rowb .. => some .rowb
  | .xred .. => some .xred
  | .ld .. => some .ld
  | .st .. => some .st
  | .lds .. => some .lds
  | .sts .. => some .sts
  | .tlook .. => some .tlook
  | .tset .. => some .tset
  | .tinv .. => some .tinv
  | .ldfe .. => some .ldfe
  | .stfe .. => some .stfe
  | .stream .. => some .stream
  | .stash .. => some .stash
  | .unstash .. => some .unstash
  | .ldp .. => some .ldp
  | .stp .. => some .stp
  | .clrp .. => some .clrp
  | .upd .. => some .upd
  | .ownEnter .. => some .ownEnter
  | .ownRelease .. => some .ownRelease
  | .fencex .. => some .fencex
  | .cmplT .. => some .cmplT
  | .drain .. => some .drain
  | .bcpost .. => some .bcpost
  | .bcarm .. => some .bcarm
  | .copy .. => some .copy
  | .copyqDeclare .. => some .copyqDeclare
  | .copyqRelease .. => some .copyqRelease
  | .consumed .. => some .consumed
  | .coll .. => some .coll
  | .cabort .. => some .cabort
  | .kvappPut .. => some .kvappPut
  | .kvappCommit .. => some .kvappCommit
  | .kvrot .. => some .kvrot
  | .steer .. => some .steer
  | .merge .. => some .merge
  | .fork .. => some .fork
  | .sink .. => some .sink
  | .ctl .. => some .ctl
  | .cnt .. => some .cnt
  | .loopopen .. => some .loopopen
  | .loopdone .. => some .loopdone
  | .gateSet .. => some .gateSet
  | .gateAdd .. => some .gateAdd
  | .gateOff .. => some .gateOff
  | .splice .. => some .splice
  | .plane .. => some .plane
  | .rangeOpen .. => some .rangeOpen
  | .rangeTake .. => some .rangeTake
  | .rangeClose .. => some .rangeClose
  | .join .. => some .join
  | .leave .. => some .leave
  | .bar .. => some .bar
  | .launch .. => some .launch
  | .yield .. => some .yield
  | .trap .. => some .trap
  | .chkerr .. => some .chkerr
  | .faultrdWord .. => some .faultrdWord
  | .faultrdCount .. => some .faultrdCount
  | .markOwn .. => some .markOwn
  | .markCohort .. => some .markCohort
  | .snap .. => some .snap
  | .resume .. => some .resume
  | .savesetDeclare .. => some .savesetDeclare
  | .savesetNotify .. => some .savesetNotify
  | .savedropDeclaration .. => some .savedropDeclaration
  | .savedropNotify .. => some .savedropNotify
  | .pfack .. => some .pfack
  | .replay .. => some .replay
  | .cellRound .. => none
  | .resultWrite .. => none
  | .tokenArrival .. => none
  | .flitHop .. => none
  | .accessPerformed .. => none
  | .translationWalkDone .. => none
  | .ownerUpdateApply .. => none
  | .streamTokenSend .. => none
  | .runTokenSend .. => none
  | .contractionStep .. => none
  | .stayTokenTake .. => none
  | .accldTokenTake .. => none
  | .cornerTurnToken .. => none
  | .sparseUnitToken .. => none
  | .loopStep .. => none
  | .copyPerformed .. => none
  | .refillStart .. => none
  | .collectivePerformed .. => none
  | .xredPerformed .. => none
  | .abortTokenReceive .. => none
  | .collectiveMemberTimeout .. => none
  | .barComplete .. => none
  | .joinRecordReceive .. => none
  | .rowCommandPerformed .. => none
  | .stashPerformed .. => none
  | .kvCommandPerformed .. => none
  | .layerPowerOff .. => none
  | .layerWakeDone .. => none
  | .drainReachTile .. => none
  | .drainPassedTile .. => none
  | .regionEnd .. => none
  | .planeLoad .. => none
  | .planeActivate .. => none
  | .launchDispatch .. => none
  | .dispatchEnable .. => none
  | .watchdogStall .. => none
  | .yieldEnd .. => none
  | .stateScrub .. => none
  | .freezeReachTile .. => none
  | .traverseBegin .. => none
  | .traverseReachTile .. => none
  | .cellSave .. => none
  | .snapForcedSave .. => none
  | .traverseComplete .. => none
  | .restore .. => none
  | .rowAlert .. => none
  | .neighbourRefreshDone .. => none
  | .refreshPass .. => none
  | .packetReceive .. => none
  | .powerFailTrap .. => none
  | .graceEnd .. => none
  | .runOutEnd .. => none
  | .powerOnStart .. => none
  | .selfTestEnd .. => none
  | .thermalThrottle .. => none
  | .overtempFreeze .. => none
  | .loadImage .. => none
  | .launchNew .. => none
  | .launchResume .. => none
  | .launchDiscard .. => none
  | .launchContinue .. => none
  | .statusSaggar .. => none
  | .statusLog .. => none
  | .statusMgmt .. => none
  | .attest .. => none
  | .keyExchange .. => none
  | .kill .. => none
  | .killScrubComplete .. => none
  | .readout .. => none
  | .unloadImage .. => none
  | .colthrWrite .. => none
  | .rmthrWrite .. => none
  | .mgmtRegWrite .. => none
  | .saveDeclarationAnswer .. => none
  | .linkTraining .. => none

/-- The guard and scheduling fields of a rule instruction. -/
def Instr.hdr : Instr → Hdr
  | .nop h .. => h
  | .plog h .. => h
  | .cmp h .. => h
  | .tst h .. => h
  | .sel h .. => h
  | .retire h .. => h
  | .add h .. => h
  | .sub h .. => h
  | .mul h .. => h
  | .mulh h .. => h
  | .mad h .. => h
  | .div h .. => h
  | .min h .. => h
  | .max h .. => h
  | .abs h .. => h
  | .neg h .. => h
  | .and h .. => h
  | .or h .. => h
  | .xor h .. => h
  | .andn h .. => h
  | .not h .. => h
  | .addc h .. => h
  | .shl h .. => h
  | .shr h .. => h
  | .sar h .. => h
  | .rot h .. => h
  | .clz h .. => h
  | .popc h .. => h
  | .ext h .. => h
  | .ins h .. => h
  | .brev h .. => h
  | .addr h .. => h
  | .limm h .. => h
  | .mov h .. => h
  | .send h .. => h
  | .deq h .. => h
  | .fwd h .. => h
  | .tagof h .. => h
  | .rdspec h .. => h
  | .wrspec h .. => h
  | .fadd h .. => h
  | .fsub h .. => h
  | .fmul h .. => h
  | .fma h .. => h
  | .fmin h .. => h
  | .fmax h .. => h
  | .fcmp h .. => h
  | .fabs h .. => h
  | .fneg h .. => h
  | .frcp h .. => h
  | .frsq h .. => h
  | .fexp2 h .. => h
  | .flog2 h .. => h
  | .fscale h .. => h
  | .fclass h .. => h
  | .fsqrt h .. => h
  | .vadd h .. => h
  | .vsub h .. => h
  | .vmul h .. => h
  | .vfma h .. => h
  | .vmin h .. => h
  | .vmax h .. => h
  | .vcmp h .. => h
  | .vsel h .. => h
  | .vsum h .. => h
  | .vamax h .. => h
  | .vshuf h .. => h
  | .vdot3 h .. => h
  | .cvt h .. => h
  | .vcvt h .. => h
  | .cvti h .. => h
  | .cvtf h .. => h
  | .scaleq h .. => h
  | .scaledq h .. => h
  | .cbld h .. => h
  | .cblook h .. => h
  | .setfmt h .. => h
  | .seal h .. => h
  | .amaxacc h .. => h
  | .contract h .. => h
  | .stay h .. => h
  | .accz h .. => h
  | .accrd h .. => h
  | .accld h .. => h
  | .accsc h .. => h
  | .cturn h .. => h
  | .gradpair h .. => h
  | .isectMul h .. => h
  | .isectDot h .. => h
  | .union h .. => h
  | .sacci h .. => h
  | .saccf h .. => h
  | .stop h .. => h
  | .rowf h .. => h
  | .rowb h .. => h
  | .xred h .. => h
  | .ld h .. => h
  | .st h .. => h
  | .lds h .. => h
  | .sts h .. => h
  | .tlook h .. => h
  | .tset h .. => h
  | .tinv h .. => h
  | .ldfe h .. => h
  | .stfe h .. => h
  | .stream h .. => h
  | .stash h .. => h
  | .unstash h .. => h
  | .ldp h .. => h
  | .stp h .. => h
  | .clrp h .. => h
  | .upd h .. => h
  | .ownEnter h .. => h
  | .ownRelease h .. => h
  | .fencex h .. => h
  | .cmplT h .. => h
  | .drain h .. => h
  | .bcpost h .. => h
  | .bcarm h .. => h
  | .copy h .. => h
  | .copyqDeclare h .. => h
  | .copyqRelease h .. => h
  | .consumed h .. => h
  | .coll h .. => h
  | .cabort h .. => h
  | .kvappPut h .. => h
  | .kvappCommit h .. => h
  | .kvrot h .. => h
  | .steer h .. => h
  | .merge h .. => h
  | .fork h .. => h
  | .sink h .. => h
  | .ctl h .. => h
  | .cnt h .. => h
  | .loopopen h .. => h
  | .loopdone h .. => h
  | .gateSet h .. => h
  | .gateAdd h .. => h
  | .gateOff h .. => h
  | .splice h .. => h
  | .plane h .. => h
  | .rangeOpen h .. => h
  | .rangeTake h .. => h
  | .rangeClose h .. => h
  | .join h .. => h
  | .leave h .. => h
  | .bar h .. => h
  | .launch h .. => h
  | .yield h .. => h
  | .trap h .. => h
  | .chkerr h .. => h
  | .faultrdWord h .. => h
  | .faultrdCount h .. => h
  | .markOwn h .. => h
  | .markCohort h .. => h
  | .snap h .. => h
  | .resume h .. => h
  | .savesetDeclare h .. => h
  | .savesetNotify h .. => h
  | .savedropDeclaration h .. => h
  | .savedropNotify h .. => h
  | .pfack h .. => h
  | .replay h .. => h
  | .cellRound .. => {}
  | .resultWrite .. => {}
  | .tokenArrival .. => {}
  | .flitHop .. => {}
  | .accessPerformed .. => {}
  | .translationWalkDone .. => {}
  | .ownerUpdateApply .. => {}
  | .streamTokenSend .. => {}
  | .runTokenSend .. => {}
  | .contractionStep .. => {}
  | .stayTokenTake .. => {}
  | .accldTokenTake .. => {}
  | .cornerTurnToken .. => {}
  | .sparseUnitToken .. => {}
  | .loopStep .. => {}
  | .copyPerformed .. => {}
  | .refillStart .. => {}
  | .collectivePerformed .. => {}
  | .xredPerformed .. => {}
  | .abortTokenReceive .. => {}
  | .collectiveMemberTimeout .. => {}
  | .barComplete .. => {}
  | .joinRecordReceive .. => {}
  | .rowCommandPerformed .. => {}
  | .stashPerformed .. => {}
  | .kvCommandPerformed .. => {}
  | .layerPowerOff .. => {}
  | .layerWakeDone .. => {}
  | .drainReachTile .. => {}
  | .drainPassedTile .. => {}
  | .regionEnd .. => {}
  | .planeLoad .. => {}
  | .planeActivate .. => {}
  | .launchDispatch .. => {}
  | .dispatchEnable .. => {}
  | .watchdogStall .. => {}
  | .yieldEnd .. => {}
  | .stateScrub .. => {}
  | .freezeReachTile .. => {}
  | .traverseBegin .. => {}
  | .traverseReachTile .. => {}
  | .cellSave .. => {}
  | .snapForcedSave .. => {}
  | .traverseComplete .. => {}
  | .restore .. => {}
  | .rowAlert .. => {}
  | .neighbourRefreshDone .. => {}
  | .refreshPass .. => {}
  | .packetReceive .. => {}
  | .powerFailTrap .. => {}
  | .graceEnd .. => {}
  | .runOutEnd .. => {}
  | .powerOnStart .. => {}
  | .selfTestEnd .. => {}
  | .thermalThrottle .. => {}
  | .overtempFreeze .. => {}
  | .loadImage .. => {}
  | .launchNew .. => {}
  | .launchResume .. => {}
  | .launchDiscard .. => {}
  | .launchContinue .. => {}
  | .statusSaggar .. => {}
  | .statusLog .. => {}
  | .statusMgmt .. => {}
  | .attest .. => {}
  | .keyExchange .. => {}
  | .kill .. => {}
  | .killScrubComplete .. => {}
  | .readout .. => {}
  | .unloadImage .. => {}
  | .colthrWrite .. => {}
  | .rmthrWrite .. => {}
  | .mgmtRegWrite .. => {}
  | .saveDeclarationAnswer .. => {}
  | .linkTraining .. => {}

end Sys2Proof
end

