-- ==== Sys2Proof/Config.lean ====
section
/-! DEFINITION. What an implementation or nature fixes and the spec leaves open: every constant here has no body, so that
nothing in Lean can evaluate it and a proof holds whatever it is. Each is named in the assumption log. -/

namespace Sys2Proof.Config

/-- The step of the machine that comes next when the agenda of the state is empty (00 R2, 05 R73): any of them may.
(DESIGN CHOICE, log entries 3, 7.) -/
opaque freeMove : Nat → Option Instr

/-- Whether the floor of a transcendental value that lies within 2^-960 of a multiple of its last place is the upper of
its two candidates (11 R204): no such value is known. (DESIGN CHOICE, log entry 18.) -/
opaque hardCase : Nat → Nat → Bool

/-- A word that nature chose: the data that a base die or a tile store could not correct (06 R98).
(DEDUCED, log entry 49.) -/
opaque damaged : Nat → Nat → Byte

/-- Which of its stack's twelve copy engines served a command (07 R141: it affects only time), as a record names it.
(DEDUCED, log entry 24; DESIGN CHOICE, log entry 45.) -/
opaque copyEngine : Nat → Fin 12

/-- Whether a scrub finds a parity error in the word that it reads (18 R358), by the step and the cell.
(DESIGN CHOICE, log entry 100.) -/
opaque scrubFinds : Nat → Nat → Option ParityHit

/-- A value that the spec does not state, by the step and a number within it.
(DESIGN CHOICE, log entries 7, 71; DEDUCED, log entries 43, 50.) -/
opaque unstated : Nat → Nat → Nat

/-- Whether an ECDSA signature on brainpoolP384r1 over a hash verifies under a key (16 R312): key, hash, signature.
(DESIGN CHOICE, log entry 69.) -/
opaque ecdsaOk : List Byte → List Byte → List Byte → Bool

/-- The ECDSA signature of a hash with a private key (16 R312): r then s. (DESIGN CHOICE, log entry 69.) -/
opaque ecdsaSign : List Byte → List Byte → List Byte

/-- The device secret fused at manufacture (16 R312). (DESIGN CHOICE, log entry 69.) -/
opaque deviceSecret : List Byte

/-- The public half of the key pair that the datum draws for a key exchange (16 R313), by the count of exchanges.
(DESIGN CHOICE, log entry 69.) -/
opaque datumPublic : Nat → List Byte

/-- The secret that ECDH gives for the datum's pair of an exchange and a public key (16 R313). (DESIGN CHOICE, log entry 69.) -/
opaque sharedSecret : Nat → List Byte → List Byte

/-- The memory key that the datum draws for a saggar (16 R311), by a count of draws. (DESIGN CHOICE, log entry 69.) -/
opaque memoryKey : Nat → Nat → List Byte

/-- The GCM tag of a message under a key (16 R312, 20 R388): key, IV, header, body. (DESIGN CHOICE, log entry 69.) -/
opaque gcmTag : List Byte → List Byte → List Byte → List Byte → List Byte

/-- AES-256-XTS of one data unit (19 R379): key, tweak, bytes. (DESIGN CHOICE, log entry 69.) -/
opaque xtsSeal : List Byte → Nat → List Byte → List Byte

/-- Whether certificates chain to the manufacturing authority, and the key that they certify (16 R314, R315).
(DESIGN CHOICE, log entry 69.) -/
opaque chainOk : List Byte → Bool
opaque certifiedKey : List Byte → List Byte

/-- The nonce that the datum gives a peer device on a port, and whether the other fields of a peer's report are those that it
expects (16 R314, R315). (DESIGN CHOICE, log entry 69.) -/
opaque linkNonce : Nat → List Byte
opaque expectedPeer : List Byte → Bool

/-- The secret of a link with a peer device, by the peer's attestation key, and the key of a link of the host, which the
transport security sublayer sets up (16 R315). (DESIGN CHOICE, log entry 69.) -/
opaque linkSecret : List Byte → List Byte
opaque hostLinkKey : Nat → List Byte

/-- The device identity and the firmware measurement that an attestation report carries (16 R314).
(DESIGN CHOICE, log entry 68.) -/
opaque deviceId : List Byte
opaque firmwareHash : List Byte

/-- The published plat map as the attestation report hashes it: whether the package is in bisque mode, and the disable map
(16 R314, 18 R363); its layout is not stated. (DESIGN CHOICE, log entry 68.) -/
opaque platMap : Bool → List Byte → List Byte

/-- The LFSR seed of saggar 0, which the firmware fixes (16 R302). (DEDUCED, log entry 67.) -/
opaque firmwareSeed : Nat

/-- The certificates that go with an attestation report (16 R314): their contents are not stated.
(DESIGN CHOICE, log entry 68.) -/
opaque certificates : List Byte

/-- Tvedpiol's image key (20 R391). (DESIGN CHOICE, log entry 69.) -/
opaque imageKey : List Byte

/-- The sensor readings of the management registers (20 R397): number and time of reading. (DESIGN CHOICE, log entry 70.) -/
opaque sensor : Nat → Nat → Nat

/-- Where the device places a page of a saggar: the base die, and the bank and row within it (06 R98, 16 R317).
(DESIGN CHOICE, log entry 70.) -/
opaque placement : Nat → Nat → Nat × Nat × Nat

end Sys2Proof.Config
end

