-- ==== Sys2Proof/Decode.lean ====
section
/-! DEFINITION. The decoder of rule words, total on every 128-bit word and rejecting by the reasons of R43, and after it
the encoder, written from the same tables (spec/03 R27, R40, R41, R43 and the encoding tables of spec/04 to spec/19). -/

namespace Sys2Proof

/-! ### The code sets of the fields -/

def IntTy.valid (c : BitVec 4) : Bool :=
  match c.toNat with
  | 0 | 1 | 2 | 3 => true
  | _ => false

def IntTy.ofCode (c : BitVec 4) : IntTy :=
  match c.toNat with
  | 0 => .i32 | 1 => .n32 | 2 => .i64 | 3 => .n64
  | _ => .i32

def MemTy.valid (c : BitVec 4) : Bool :=
  match c.toNat with
  | 0 | 1 | 2 | 3 | 4 | 5 | 6 | 7 => true
  | _ => false

def MemTy.ofCode (c : BitVec 4) : MemTy :=
  match c.toNat with
  | 0 => .i32 | 1 => .n32 | 2 => .i64 | 3 => .n64 | 4 => .i8 | 5 => .n8
  | 6 => .i16 | 7 => .n16
  | _ => .i32

def ICond.valid (c : BitVec 3) : Bool :=
  match c.toNat with
  | 0 | 1 | 2 | 3 | 4 | 5 => true
  | _ => false

def ICond.ofCode (c : BitVec 3) : ICond :=
  match c.toNat with
  | 0 => .eq | 1 => .ne | 2 => .lt | 3 => .le | 4 => .gt | 5 => .ge
  | _ => .eq

def FCond.valid (c : BitVec 3) : Bool :=
  match c.toNat with
  | 0 | 1 | 2 | 3 | 4 | 5 | 6 => true
  | _ => false

def FCond.ofCode (c : BitVec 3) : FCond :=
  match c.toNat with
  | 0 => .eq | 1 => .ne | 2 => .lt | 3 => .le | 4 => .gt | 5 => .ge
  | 6 => .un
  | _ => .eq

def Rm.valid (c : BitVec 3) : Bool :=
  match c.toNat with
  | 0 | 1 | 2 | 3 | 4 => true
  | _ => false

def Rm.ofCode (c : BitVec 3) : Rm :=
  match c.toNat with
  | 0 => .rne | 1 => .rz | 2 => .rd | 3 => .ru | 4 => .sr
  | _ => .rne

def FTy.valid (c : BitVec 4) : Bool :=
  match c.toNat with
  | 0 | 1 | 2 | 3 => true
  | _ => false

def FTy.ofCode (c : BitVec 4) : FTy :=
  match c.toNat with
  | 0 => .f64 | 1 => .f32 | 2 => .bf16 | 3 => .f16
  | _ => .f64

def VTy.valid (c : BitVec 4) : Bool :=
  match c.toNat with
  | 1 | 2 | 3 => true
  | _ => false

def VTy.ofCode (c : BitVec 4) : VTy :=
  match c.toNat with
  | 1 => .f32 | 2 => .bf16 | 3 => .f16
  | _ => .f32

def Fmt.valid (c : BitVec 4) : Bool :=
  match c.toNat with
  | 0 | 1 | 2 | 3 | 4 | 5 | 6 | 7 | 8 | 9 | 10 | 14 => true
  | _ => false

def Fmt.ofCode (c : BitVec 4) : Fmt :=
  match c.toNat with
  | 0 => .fp64 | 1 => .fp32 | 2 => .bf16 | 3 => .fp16 | 4 => .e4m3 | 5 => .e5m2
  | 6 => .cb4 | 7 => .int8 | 8 => .int32 | 9 => .int64 | 10 => .raw | 14 => .e8m0
  | _ => .fp64

def ITgt.valid (c : BitVec 4) : Bool :=
  match c.toNat with
  | 0 | 1 | 2 | 3 | 4 => true
  | _ => false

def ITgt.ofCode (c : BitVec 4) : ITgt :=
  match c.toNat with
  | 0 => .i32 | 1 => .n32 | 2 => .i64 | 3 => .n64 | 4 => .i8
  | _ => .i32

def SendCls.valid (c : BitVec 4) : Bool :=
  match c.toNat with
  | 0 | 1 | 2 => true
  | _ => false

def SendCls.ofCode (c : BitVec 4) : SendCls :=
  match c.toNat with
  | 0 => .data | 1 => .hdr | 2 => .last
  | _ => .data

def CFmt.valid (c : BitVec 4) : Bool :=
  match c.toNat with
  | 0 | 1 | 2 | 3 | 4 | 6 | 7 => true
  | _ => false

def CFmt.ofCode (c : BitVec 4) : CFmt :=
  match c.toNat with
  | 0 => .f64 | 1 => .f32 | 2 => .bf16 | 3 => .f16 | 4 => .f8 | 6 => .cb4
  | 7 => .i8
  | _ => .f64

def SFmt.valid (c : BitVec 4) : Bool :=
  match c.toNat with
  | 1 | 2 | 3 | 4 | 5 | 6 | 7 => true
  | _ => false

def SFmt.ofCode (c : BitVec 4) : SFmt :=
  match c.toNat with
  | 1 => .f32 | 2 => .bf16 | 3 => .f16 | 4 => .e4m3 | 5 => .e5m2 | 6 => .cb4
  | 7 => .i8
  | _ => .f32

def Shape.valid (c : BitVec 2) : Bool :=
  match c.toNat with
  | 0 | 1 | 2 | 3 => true
  | _ => false

def Shape.ofCode (c : BitVec 2) : Shape :=
  match c.toNat with
  | 0 => .ij | 1 => .i | 2 => .j | 3 => .none
  | _ => .ij

def OFmt.valid (c : BitVec 2) : Bool :=
  match c.toNat with
  | 0 | 1 | 2 => true
  | _ => false

def OFmt.ofCode (c : BitVec 2) : OFmt :=
  match c.toNat with
  | 0 => .f32 | 1 => .bf16 | 2 => .f16
  | _ => .f32

def UOp.valid (c : BitVec 4) : Bool :=
  match c.toNat with
  | 0 | 1 | 2 | 3 => true
  | _ => false

def UOp.ofCode (c : BitVec 4) : UOp :=
  match c.toNat with
  | 0 => .add | 1 => .sub | 2 => .max | 3 => .min
  | _ => .add

def KTy.valid (c : BitVec 4) : Bool :=
  match c.toNat with
  | 1 | 8 => true
  | _ => false

def KTy.ofCode (c : BitVec 4) : KTy :=
  match c.toNat with
  | 1 => .f32 | 8 => .i32
  | _ => .f32

def RowOp.valid (c : BitVec 4) : Bool :=
  match c.toNat with
  | 0 | 1 | 2 => true
  | _ => false

def RowOp.ofCode (c : BitVec 4) : RowOp :=
  match c.toNat with
  | 0 => .softmax | 1 => .rmsnorm | 2 => .layernorm
  | _ => .softmax

def CollOp.valid (c : BitVec 4) : Bool :=
  match c.toNat with
  | 0 | 1 | 2 | 3 | 4 | 5 => true
  | _ => false

def CollOp.ofCode (c : BitVec 4) : CollOp :=
  match c.toNat with
  | 0 => .allreduce | 1 => .reducescatter | 2 => .allgather | 3 => .broadcast | 4 => .alltoall | 5 => .allmax
  | _ => .allreduce

def UpdOp.valid (c : BitVec 4) : Bool :=
  match c.toNat with
  | 0 | 1 | 2 | 3 | 4 | 5 | 6 | 7 | 8 | 9 | 10 | 11 | 12 | 13 | 14 => true
  | _ => false

def UpdOp.ofCode (c : BitVec 4) : UpdOp :=
  match c.toNat with
  | 0 => .add32 | 1 => .add64 | 2 => .mini32 | 3 => .mini64 | 4 => .maxi32 | 5 => .maxi64
  | 6 => .minn32 | 7 => .minn64 | 8 => .maxn32 | 9 => .maxn64 | 10 => .or64 | 11 => .and64
  | 12 => .xor64 | 13 => .fadd32 | 14 => .fadd64
  | _ => .add32

def Path.valid (c : BitVec 4) : Bool :=
  match c.toNat with
  | 0 | 1 | 2 | 3 | 4 | 5 => true
  | _ => false

def Path.ofCode (c : BitVec 4) : Path :=
  match c.toNat with
  | 0 => .l | 1 => .c | 2 => .x | 3 => .w | 4 => .v | 5 => .h
  | _ => .l

/-! ### The fields of a word (R27) -/

/-- The fields of a rule word, most significant first, as R27 lays them out. -/
structure RuleFields where
  pcare : BitVec 8
  pval  : BitVec 8
  cta   : BitVec 10
  ctb   : BitVec 10
  sbw   : BitVec 4
  pset  : BitVec 8
  pclr  : BitVec 8
  deq   : BitVec 2
  prio  : BitVec 4
  rzHi  : BitVec 2
  opc   : BitVec 8
  sub   : BitVec 4
  dst   : BitVec 6
  s1    : BitVec 6
  s2    : BitVec 6
  s3    : BitVec 6
  mod   : BitVec 16
  stall : BitVec 4
  sbset : BitVec 4
  reuse : BitVec 3
  rzLo  : BitVec 1
deriving DecidableEq, Repr

/-- The word's fields, each at its place of R27. -/
def splitWord (w : BitVec 128) : RuleFields where
  pcare := w.extractLsb' 120 8
  pval  := w.extractLsb' 112 8
  cta   := w.extractLsb' 102 10
  ctb   := w.extractLsb' 92 10
  sbw   := w.extractLsb' 88 4
  pset  := w.extractLsb' 80 8
  pclr  := w.extractLsb' 72 8
  deq   := w.extractLsb' 70 2
  prio  := w.extractLsb' 66 4
  rzHi  := w.extractLsb' 64 2
  opc   := w.extractLsb' 56 8
  sub   := w.extractLsb' 52 4
  dst   := w.extractLsb' 46 6
  s1    := w.extractLsb' 40 6
  s2    := w.extractLsb' 34 6
  s3    := w.extractLsb' 28 6
  mod   := w.extractLsb' 12 16
  stall := w.extractLsb' 8 4
  sbset := w.extractLsb' 4 4
  reuse := w.extractLsb' 1 3
  rzLo  := w.extractLsb' 0 1

/-- The word that the fields make (R27). -/
def joinWord (f : RuleFields) : BitVec 128 :=
  f.pcare ++ f.pval ++ f.cta ++ f.ctb ++ f.sbw ++ f.pset ++ f.pclr ++ f.deq ++ f.prio ++ f.rzHi ++ f.opc ++ f.sub ++
    f.dst ++ f.s1 ++ f.s2 ++ f.s3 ++ f.mod ++ f.stall ++ f.sbset ++ f.reuse ++ f.rzLo

/-- The `len` bits of MOD from its bit `lo`, which is bit 12 + lo of the word. -/
def RuleFields.m (f : RuleFields) (lo len : Nat) : BitVec len := f.mod.extractLsb' lo len

/-! ### Operand codes (R21) -/

/-- The source that a code names; codes that name none read as zero here, and are refused below. -/
def Src.ofCode (c : BitVec 6) : Src :=
  if c.toNat < 0x20 then .g (BitVec.ofNat 5 c.toNat)
  else if c.toNat = 0x20 then .head .A
  else if c.toNat = 0x21 then .head .B
  else if c.toNat < 0x26 then .d (BitVec.ofNat 2 (c.toNat - 0x22))
  else if c.toNat = 0x26 then .zero
  else if c.toNat = 0x27 then .imm
  else if 0x30 ≤ c.toNat ∧ c.toNat < 0x38 then .m (BitVec.ofNat 3 (c.toNat - 0x30))
  else .zero

def Src.code : Src → BitVec 6
  | .g n => BitVec.ofNat 6 n.toNat
  | .head .A => 0x20
  | .head .B => 0x21
  | .d n => BitVec.ofNat 6 (0x22 + n.toNat)
  | .zero => 0x26
  | .imm => 0x27
  | .m n => BitVec.ofNat 6 (0x30 + n.toNat)

/-- The destination that a code names (R21). -/
def Dst.ofCode (c : BitVec 6) : Dst :=
  if c.toNat < 0x20 then .g (BitVec.ofNat 5 c.toNat)
  else if 0x28 ≤ c.toNat ∧ c.toNat < 0x30 then .o (BitVec.ofNat 3 (c.toNat - 0x28))
  else if 0x30 ≤ c.toNat ∧ c.toNat < 0x38 then .m (BitVec.ofNat 3 (c.toNat - 0x30))
  else .zero

def Dst.code : Dst → BitVec 6
  | .g n => BitVec.ofNat 6 n.toNat
  | .zero => 0x26
  | .o n => BitVec.ofNat 6 (0x28 + n.toNat)
  | .m n => BitVec.ofNat 6 (0x30 + n.toNat)

def Head.ofCode (c : BitVec 6) : Head := if c = 0x21 then .B else .A
def Head.code : Head → BitVec 6
  | .A => 0x20
  | .B => 0x21

def Out.ofCode (c : BitVec 6) : Out := BitVec.ofNat 3 (c.toNat - 0x28)
def Out.code (o : Out) : BitVec 6 := BitVec.ofNat 6 (0x28 + o.toNat)

def OutOpt.ofCode (c : BitVec 6) : OutOpt := if c = 0x26 then none else some (Out.ofCode c)
def OutOpt.code : OutOpt → BitVec 6
  | none => 0x26
  | some o => Out.code o

def Cmpl.ofCode (c : BitVec 4) : Cmpl := if c.toNat < 8 then none else some (BitVec.ofNat 3 c.toNat)
def Cmpl.code : Cmpl → BitVec 4
  | none => 0
  | some o => BitVec.ofNat 4 (8 + o.toNat)

def boolOf (b : BitVec 1) : Bool := b = 1
def bitVecOf (b : Bool) : BitVec 1 := if b then 1 else 0

def ChanTest.ofCode (c : BitVec 10) : Option ChanTest :=
  if c.toNat < 512 then none
  else some { ch := c.extractLsb' 4 5, cls := if c.extractLsb' 0 1 = 1#1 then none else some (c.extractLsb' 1 3) }
def ChanTest.code : Option ChanTest → BitVec 10
  | none => 0
  | some t => 1#1 ++ t.ch ++ (match t.cls with | none => 1#4 | some k => k ++ 0#1)

def slotOfCode (c : BitVec 4) : Option (BitVec 3) := if c.toNat < 8 then none else some (BitVec.ofNat 3 c.toNat)
def slotCode : Option (BitVec 3) → BitVec 4
  | none => 0
  | some o => BitVec.ofNat 4 (8 + o.toNat)

/-- The guard and scheduling fields of a word. -/
def hdrOf (f : RuleFields) : Hdr where
  pcare := f.pcare
  pval  := f.pval
  cta   := ChanTest.ofCode f.cta
  ctb   := ChanTest.ofCode f.ctb
  sbw   := slotOfCode f.sbw
  pset  := f.pset
  pclr  := f.pclr
  deqA  := boolOf (f.deq.extractLsb' 1 1)
  deqB  := boolOf (f.deq.extractLsb' 0 1)
  prio  := f.prio
  stall := f.stall
  sbset := slotOfCode f.sbset
  reuse := f.reuse

/-! ### The places of the operands -/

/-- What an instruction allows in DST. -/
inductive DstPos
  | none | gmoz | gm | out | outOpt | gEven | gEvenOz
deriving DecidableEq, Repr

/-- What an instruction allows in a source position. -/
inductive SrcPos
  | none | src | srcImm | head | gmdh | gmdhz | gOnly | contract
deriving DecidableEq, Repr

/-- A reserved operand code (R43, reason 0x03). -/
def reservedCode (c : BitVec 6) : Bool := decide (0x38 ≤ c.toNat)

def isG (c : BitVec 6) : Bool := decide (c.toNat < 0x20)
def isO (c : BitVec 6) : Bool := decide (0x28 ≤ c.toNat ∧ c.toNat < 0x30)
def isM (c : BitVec 6) : Bool := decide (0x30 ≤ c.toNat ∧ c.toNat < 0x38)
def isD (c : BitVec 6) : Bool := decide (0x22 ≤ c.toNat ∧ c.toNat < 0x26)
def isH (c : BitVec 6) : Bool := decide (c.toNat = 0x20 ∨ c.toNat = 0x21)

def DstPos.ok (p : DstPos) (c : BitVec 6) : Bool :=
  match p with
  | .none => c == 0x26
  | .gmoz => isG c || isM c || isO c || c == 0x26
  | .gm => isG c || isM c
  | .out => isO c
  | .outOpt => isO c || c == 0x26
  | .gEven => isG c && decide (c.toNat % 2 = 0)
  | .gEvenOz => (isG c && decide (c.toNat % 2 = 0)) || isO c || c == 0x26

/-- The codes legal in a source position, an immediate apart where R43 gives it a reason of its own. -/
def SrcPos.ok (p : SrcPos) (c : BitVec 6) : Bool :=
  match p with
  | .none => c == 0x26
  | .src => isG c || isM c || isD c || isH c || c == 0x26 || c == 0x27
  | .srcImm => isG c || isM c || isD c || isH c || c == 0x26 || c == 0x27
  | .head => isH c
  | .gmdh => isG c || isM c || isD c || isH c || c == 0x27
  | .gmdhz => isG c || isM c || isD c || isH c || c == 0x26 || c == 0x27
  | .gOnly => isG c
  | .contract => isH c || c == 0x26

/-- An immediate in a source position of an instruction that takes none there (R43, reason 0x0C). -/
def SrcPos.badImm (p : SrcPos) (c : BitVec 6) : Bool :=
  match p with
  | .src | .gmdh | .gmdhz => c == 0x27
  | _ => false

/-! ### Conditions on MOD that an instruction's description states (R43, reason 0x0B) -/

/-- A DEQ bit of the word names channel n. -/
def RuleFields.deqNames (f : RuleFields) (n : BitVec 5) : Bool :=
  (f.deq.extractLsb' 1 1 == 1#1 && f.cta.extractLsb' 4 5 == n) ||
  (f.deq.extractLsb' 0 1 == 1#1 && f.ctb.extractLsb' 4 5 == n)

/-- The channel of the head that a code names. -/
def RuleFields.headCh (f : RuleFields) (c : BitVec 6) : BitVec 5 :=
  if c = 0x20 then f.cta.extractLsb' 4 5 else f.ctb.extractLsb' 4 5

/-- A DEQ bit names the channel of the head that a code names. -/
def RuleFields.deqHead (f : RuleFields) (c : BitVec 6) : Bool := isH c && f.deqNames (f.headCh c)

/-- The output number in DST. -/
def RuleFields.outNo (f : RuleFields) : BitVec 3 := Out.ofCode f.dst

/-- The width of a format's elements (R158); E8M0 has 8 bits. -/
def fmtWidth (c : Nat) : Nat :=
  match c with
  | 0 => 64 | 1 => 32 | 2 => 16 | 3 => 16 | 4 => 8 | 5 => 8 | 6 => 4 | 7 => 8 | 8 => 32 | 9 => 64 | 10 => 64
  | 14 => 8 | _ => 64

/-- EXT and INS: pos + len is at most the width (R59). -/
def RuleFields.posLenOk (f : RuleFields) : Bool :=
  decide ((f.m 10 6).toNat + (f.m 4 6).toNat + 1 ≤ if f.sub.toNat / 2 = 1 then 64 else 32)

/-- The special registers that RDSPEC may name (R47). -/
def specReadable (n : BitVec 8) : Bool :=
  decide (n.toNat ≤ 0x06 ∨ (0x08 ≤ n.toNat ∧ n.toNat ≤ 0x0D) ∨ n.toNat = 0x18)

/-- The special registers that WRSPEC may name (R47). -/
def specWritable (n : BitVec 8) : Bool := n == 0x08 || n == 0x09 || n == 0x0A || n == 0x18

/-- VSHUF.f32 names lanes 0 to 3 in two selectors, and nothing else (R211). -/
def RuleFields.vshufOk (f : RuleFields) : Bool :=
  f.sub != 1 || (decide ((f.m 0 3).toNat ≤ 3) && decide ((f.m 3 3).toNat ≤ 3) && f.m 6 6 == 0 && f.m 14 2 == 0)

def isFloatFmt (c : BitVec 4) : Bool := decide (c.toNat ≤ 5)
def isIntFmt (c : BitVec 4) : Bool := decide (7 ≤ c.toNat ∧ c.toNat ≤ 9)

/-- CVT's source and fit (R212, R214). -/
def RuleFields.cvtOk (f : RuleFields) : Bool :=
  (isFloatFmt (f.m 8 4) || f.m 8 4 == 14) &&
  (f.m 4 4 == 0 || ((f.m 4 4 == 4 || f.m 4 4 == 5 || f.m 4 4 == 7) && f.sub == 14 && f.m 13 3 == 3))

/-- VCVT's source and part (R213). -/
def RuleFields.vcvtOk (f : RuleFields) : Bool :=
  isFloatFmt (f.m 8 4) &&
  (let ws := fmtWidth (f.m 8 4).toNat
   let wt := fmtWidth f.sub.toNat
   decide (((f.m 4 4).toNat + 1) * (64 / max ws wt) * ws ≤ 64))

/-- CVTI's source, its sign and its rounding (R212). -/
def RuleFields.cvtiOk (f : RuleFields) : Bool :=
  (isFloatFmt (f.m 8 4) && f.m 7 1 == 0) || (isIntFmt (f.m 8 4) && f.m 13 3 == 0)

def RuleFields.cvtfOk (f : RuleFields) : Bool := isIntFmt (f.m 8 4)

/-- SCALEQ's source and part (R212, R215). -/
def RuleFields.scaleqOk (f : RuleFields) : Bool :=
  (f.m 8 4 == 1 || f.m 8 4 == 2 || f.m 8 4 == 3) &&
  decide ((f.m 3 2).toNat < 8 / (64 / fmtWidth (f.m 8 4).toNat))

/-- SCALEDQ's source and part (R212, R215). -/
def RuleFields.scaledqOk (f : RuleFields) : Bool :=
  (f.m 8 4 == 4 || f.m 8 4 == 5 || f.m 8 4 == 7) &&
  decide ((f.m 3 2).toNat < 8 / (64 / fmtWidth f.sub.toNat))

def RuleFields.sealOk (f : RuleFields) : Bool := f.m 8 4 == 4 || f.m 8 4 == 5 || f.m 8 4 == 7

/-- The role of CONTRACT's positions: the codes of U and V (R226). -/
def RuleFields.contractUV (f : RuleFields) : BitVec 6 × BitVec 6 :=
  match (f.m 14 2).toNat with
  | 0 => (f.s2, f.s3)
  | 1 => (f.s1, f.s3)
  | _ => (f.s1, f.s2)

/-- CONTRACT's stay position, or its third position with a unit stay, is unused (R227, reason 0x04). -/
def RuleFields.contractPosOk (f : RuleFields) : Bool :=
  match (f.m 14 2).toNat with
  | 0 => f.s1 == 0x26
  | 1 => f.s2 == 0x26
  | _ => f.s3 == 0x26

/-- CONTRACT's conditions of R227 and R181 with reason 0x0B. -/
def RuleFields.contractOk (f : RuleFields) : Bool :=
  let u := f.contractUV.1
  let v := f.contractUV.2
  let unitStay := f.m 14 2 == 3
  let unitU := u == 0x26
  let unitV := v == 0x26
  let fp64 := f.sub == 0
  (unitU || unitV || u != v) &&
  (!unitU || f.m 11 1 == 0) && (!unitV || f.m 10 1 == 0) &&
  (!unitStay || f.m 7 1 == 0) &&
  !f.deqHead u && !f.deqHead v &&
  f.m 4 2 != 3 &&
  !(fp64 && (!unitStay || unitU || unitV || f.m 8 1 == 1)) &&
  !(f.sub == 1 && !unitStay && f.m 7 1 == 1) &&
  !((unitStay && unitU) || (unitStay && unitV) || (unitU && unitV))

/-- GRADPAIR's conditions of R229. -/
def RuleFields.gradpairOk (f : RuleFields) : Bool :=
  f.m 8 2 != f.m 4 2 && !(f.sub == 1 && f.m 7 1 == 1) && !f.deqHead f.s1 && !f.deqHead f.s2

/-- STAY's conditions of R231. -/
def RuleFields.stayOk (f : RuleFields) : Bool := !(f.sub == 1 && f.m 7 1 == 1) && !f.deqHead f.s1

/-- ACCRD's shape is zero unless it overrides (R233). -/
def RuleFields.accrdOk (f : RuleFields) : Bool := f.m 7 1 == 1 || f.m 10 2 == 0

/-- ACCLD's conditions of R233. -/
def RuleFields.accldOk (f : RuleFields) : Bool := !(f.sub == 0 && f.m 8 1 == 1) && !f.deqHead f.s1

/-- SACCF's conditions of R251. -/
def RuleFields.saccfOk (f : RuleFields) : Bool :=
  f.m 4 4 != 0 && (f.sub != 8 || (f.m 14 2 == 0 && f.m 11 3 == 0))

/-- ROWF and ROWB: the row format, and no eps with softmax (R220). -/
def RuleFields.rowOk (f : RuleFields) : Bool :=
  (f.m 8 4 == 1 || f.m 8 4 == 2 || f.m 8 4 == 3) && (f.sub != 0 || f.m 3 5 == 0)

def RuleFields.collOk (f : RuleFields) : Bool :=
  f.m 8 4 == 0 || f.m 8 4 == 1 || f.m 8 4 == 2 || f.m 8 4 == 8 || f.m 8 4 == 9

/-- MERGE's channels (R279). -/
def RuleFields.mergeOk (f : RuleFields) : Bool :=
  f.m 11 5 != f.m 6 5 && f.m 11 5 != f.headCh f.s1 && f.m 6 5 != f.headCh f.s1 &&
  !f.deqNames (f.m 11 5) && !f.deqNames (f.m 6 5)

/-- FORK's mask (R279). -/
def RuleFields.forkOk (f : RuleFields) : Bool :=
  f.m 8 8 != 0 && !(f.m 8 8).getLsbD f.outNo.toNat

/-- LOOPOPEN's depth and registers (R279). -/
def RuleFields.loopopenOk (f : RuleFields) : Bool :=
  f.m 12 4 != 15 && decide (f.s1.toNat + 2 * ((f.m 12 4).toNat + 1) - 1 ≤ 31)

/-- STREAM's length in MOD (R128). -/
def RuleFields.streamOk (f : RuleFields) : Bool :=
  if f.s2 = 0x27 then decide (1 ≤ f.mod.toNat ∧ f.mod.toNat ≤ 0x7FFF) else f.mod == 0


/-! ### The table of instructions (R41 and the encoding tables) -/

/-- The instruction that an opcode and a variant name; none when one of them is undefined. -/
def opOf (opc sub : Nat) : Option Op :=
  match opc with
  | 0x00 => match sub with
    | 0 => some .nop
    | _ => none
  | 0x01 => match sub with
    | 0 => some .plog
    | _ => none
  | 0x02 => match sub with
    | 0 | 1 | 2 | 3 => some .cmp
    | _ => none
  | 0x03 => match sub with
    | 0 | 1 | 2 | 3 => some .tst
    | _ => none
  | 0x04 => match sub with
    | 0 => some .sel
    | _ => none
  | 0x05 => match sub with
    | 0 => some .retire
    | _ => none
  | 0x10 => match sub with
    | 0 | 1 | 2 | 3 => some .add
    | _ => none
  | 0x11 => match sub with
    | 0 | 1 | 2 | 3 => some .sub
    | _ => none
  | 0x12 => match sub with
    | 0 | 1 | 2 | 3 => some .mul
    | _ => none
  | 0x13 => match sub with
    | 0 | 1 | 2 | 3 => some .mulh
    | _ => none
  | 0x14 => match sub with
    | 0 | 1 | 2 | 3 => some .mad
    | _ => none
  | 0x15 => match sub with
    | 0 | 1 | 2 | 3 => some .div
    | _ => none
  | 0x16 => match sub with
    | 0 | 1 | 2 | 3 => some .min
    | _ => none
  | 0x17 => match sub with
    | 0 | 1 | 2 | 3 => some .max
    | _ => none
  | 0x18 => match sub with
    | 0 | 2 => some .abs
    | _ => none
  | 0x19 => match sub with
    | 0 | 1 | 2 | 3 => some .neg
    | _ => none
  | 0x1A => match sub with
    | 0 | 1 | 2 | 3 => some .and
    | _ => none
  | 0x1B => match sub with
    | 0 | 1 | 2 | 3 => some .or
    | _ => none
  | 0x1C => match sub with
    | 0 | 1 | 2 | 3 => some .xor
    | _ => none
  | 0x1D => match sub with
    | 0 | 1 | 2 | 3 => some .andn
    | _ => none
  | 0x1E => match sub with
    | 0 | 1 | 2 | 3 => some .not
    | _ => none
  | 0x1F => match sub with
    | 0 | 1 | 2 | 3 => some .addc
    | _ => none
  | 0x20 => match sub with
    | 0 | 1 | 2 | 3 => some .shl
    | _ => none
  | 0x21 => match sub with
    | 0 | 1 | 2 | 3 => some .shr
    | _ => none
  | 0x22 => match sub with
    | 0 | 1 | 2 | 3 => some .sar
    | _ => none
  | 0x23 => match sub with
    | 0 | 1 | 2 | 3 => some .rot
    | _ => none
  | 0x24 => match sub with
    | 0 | 1 | 2 | 3 => some .clz
    | _ => none
  | 0x25 => match sub with
    | 0 | 1 | 2 | 3 => some .popc
    | _ => none
  | 0x26 => match sub with
    | 0 | 1 | 2 | 3 => some .ext
    | _ => none
  | 0x27 => match sub with
    | 0 | 1 | 2 | 3 => some .ins
    | _ => none
  | 0x28 => match sub with
    | 0 | 1 | 2 | 3 => some .brev
    | _ => none
  | 0x29 => match sub with
    | 0 => some .addr
    | _ => none
  | 0x2A => match sub with
    | 0 | 1 | 2 | 3 | 4 | 5 | 6 | 7 => some .limm
    | _ => none
  | 0x2B => match sub with
    | 0 => some .mov
    | _ => none
  | 0x30 => match sub with
    | 0 | 1 | 2 => some .send
    | _ => none
  | 0x31 => match sub with
    | 0 => some .deq
    | _ => none
  | 0x32 => match sub with
    | 0 => some .fwd
    | _ => none
  | 0x33 => match sub with
    | 0 => some .tagof
    | _ => none
  | 0x34 => match sub with
    | 0 => some .rdspec
    | _ => none
  | 0x35 => match sub with
    | 0 => some .wrspec
    | _ => none
  | 0x40 => match sub with
    | 0 | 1 | 2 | 3 => some .fadd
    | _ => none
  | 0x41 => match sub with
    | 0 | 1 | 2 | 3 => some .fsub
    | _ => none
  | 0x42 => match sub with
    | 0 | 1 | 2 | 3 => some .fmul
    | _ => none
  | 0x43 => match sub with
    | 0 | 1 | 2 | 3 => some .fma
    | _ => none
  | 0x44 => match sub with
    | 0 | 1 | 2 | 3 => some .fmin
    | _ => none
  | 0x45 => match sub with
    | 0 | 1 | 2 | 3 => some .fmax
    | _ => none
  | 0x46 => match sub with
    | 0 | 1 | 2 | 3 => some .fcmp
    | _ => none
  | 0x47 => match sub with
    | 0 | 1 | 2 | 3 => some .fabs
    | _ => none
  | 0x48 => match sub with
    | 0 | 1 | 2 | 3 => some .fneg
    | _ => none
  | 0x49 => match sub with
    | 0 | 1 | 2 | 3 => some .frcp
    | _ => none
  | 0x4A => match sub with
    | 0 | 1 | 2 | 3 => some .frsq
    | _ => none
  | 0x4B => match sub with
    | 0 | 1 | 2 | 3 => some .fexp2
    | _ => none
  | 0x4C => match sub with
    | 0 | 1 | 2 | 3 => some .flog2
    | _ => none
  | 0x4D => match sub with
    | 0 | 1 | 2 | 3 => some .fscale
    | _ => none
  | 0x4E => match sub with
    | 0 | 1 | 2 | 3 => some .fclass
    | _ => none
  | 0x4F => match sub with
    | 0 | 1 | 2 | 3 => some .fsqrt
    | _ => none
  | 0x50 => match sub with
    | 1 | 2 | 3 => some .vadd
    | _ => none
  | 0x51 => match sub with
    | 1 | 2 | 3 => some .vsub
    | _ => none
  | 0x52 => match sub with
    | 1 | 2 | 3 => some .vmul
    | _ => none
  | 0x53 => match sub with
    | 1 | 2 | 3 => some .vfma
    | _ => none
  | 0x54 => match sub with
    | 1 | 2 | 3 => some .vmin
    | _ => none
  | 0x55 => match sub with
    | 1 | 2 | 3 => some .vmax
    | _ => none
  | 0x56 => match sub with
    | 1 | 2 | 3 => some .vcmp
    | _ => none
  | 0x57 => match sub with
    | 1 | 2 | 3 => some .vsel
    | _ => none
  | 0x58 => match sub with
    | 1 | 2 | 3 => some .vsum
    | _ => none
  | 0x59 => match sub with
    | 1 | 2 | 3 => some .vamax
    | _ => none
  | 0x5A => match sub with
    | 1 | 2 | 3 => some .vshuf
    | _ => none
  | 0x5B => match sub with
    | 1 | 2 | 3 => some .vdot3
    | _ => none
  | 0x60 => match sub with
    | 0 | 1 | 2 | 3 | 4 | 5 | 14 => some .cvt
    | _ => none
  | 0x61 => match sub with
    | 0 | 1 | 2 | 3 | 4 | 5 => some .vcvt
    | _ => none
  | 0x62 => match sub with
    | 0 | 1 | 2 | 3 | 4 => some .cvti
    | _ => none
  | 0x63 => match sub with
    | 0 | 1 | 2 | 3 | 4 | 5 => some .cvtf
    | _ => none
  | 0x64 => match sub with
    | 4 | 5 | 7 => some .scaleq
    | _ => none
  | 0x65 => match sub with
    | 1 | 2 | 3 => some .scaledq
    | _ => none
  | 0x66 => match sub with
    | 0 => some .cbld
    | _ => none
  | 0x67 => match sub with
    | 0 => some .cblook
    | _ => none
  | 0x68 => match sub with
    | 0 => some .setfmt
    | _ => none
  | 0x69 => match sub with
    | 0 => some .seal
    | _ => none
  | 0x6A => match sub with
    | 1 | 2 | 3 | 4 | 5 => some .amaxacc
    | _ => none
  | 0x70 => match sub with
    | 0 | 1 | 2 | 3 | 4 | 6 | 7 => some .contract
    | _ => none
  | 0x71 => match sub with
    | 1 | 2 | 3 | 4 | 5 | 6 | 7 => some .stay
    | _ => none
  | 0x72 => match sub with
    | 0 => some .accz
    | _ => none
  | 0x73 => match sub with
    | 0 | 1 | 2 | 3 | 4 | 5 | 8 => some .accrd
    | _ => none
  | 0x74 => match sub with
    | 0 | 1 | 2 | 3 | 8 => some .accld
    | _ => none
  | 0x75 => match sub with
    | 0 | 1 => some .accsc
    | _ => none
  | 0x76 => match sub with
    | 0 => some .cturn
    | _ => none
  | 0x77 => match sub with
    | 1 | 2 | 3 | 4 | 6 | 7 => some .gradpair
    | _ => none
  | 0x80 => match sub with
    | 0 => some .isectMul
    | 1 => some .isectDot
    | _ => none
  | 0x81 => match sub with
    | 0 | 1 | 2 | 3 => some .union
    | _ => none
  | 0x82 => match sub with
    | 1 | 8 => some .sacci
    | _ => none
  | 0x83 => match sub with
    | 1 | 8 => some .saccf
    | _ => none
  | 0x84 => match sub with
    | 0 => some .stop
    | _ => none
  | 0x85 => match sub with
    | 0 | 1 | 2 => some .rowf
    | _ => none
  | 0x86 => match sub with
    | 0 | 1 | 2 => some .rowb
    | _ => none
  | 0x87 => match sub with
    | 0 => some .xred
    | _ => none
  | 0x90 => match sub with
    | 0 | 1 | 2 | 3 | 4 | 5 | 6 | 7 => some .ld
    | _ => none
  | 0x91 => match sub with
    | 0 | 1 | 2 | 3 | 4 | 5 | 6 | 7 => some .st
    | _ => none
  | 0x92 => match sub with
    | 0 | 1 | 2 | 3 | 4 | 5 | 6 | 7 => some .lds
    | _ => none
  | 0x93 => match sub with
    | 0 | 1 | 2 | 3 | 4 | 5 | 6 | 7 => some .sts
    | _ => none
  | 0x94 => match sub with
    | 0 => some .tlook
    | _ => none
  | 0x95 => match sub with
    | 0 => some .tset
    | _ => none
  | 0x96 => match sub with
    | 0 => some .tinv
    | _ => none
  | 0x97 => match sub with
    | 0 => some .ldfe
    | _ => none
  | 0x98 => match sub with
    | 0 => some .stfe
    | _ => none
  | 0x99 => match sub with
    | 0 | 8 | 9 | 10 | 11 | 12 | 13 | 14 | 15 => some .stream
    | _ => none
  | 0x9A => match sub with
    | 0 => some .stash
    | _ => none
  | 0x9B => match sub with
    | 0 => some .unstash
    | _ => none
  | 0xA0 => match sub with
    | 0 => some .ldp
    | _ => none
  | 0xA1 => match sub with
    | 0 => some .stp
    | _ => none
  | 0xA2 => match sub with
    | 0 => some .clrp
    | _ => none
  | 0xA3 => match sub with
    | 0 | 1 | 2 | 3 | 4 | 5 | 6 | 7 | 8 | 9 | 10 | 11 | 12 | 13 | 14 => some .upd
    | _ => none
  | 0xA4 => match sub with
    | 0 => some .ownEnter
    | 1 => some .ownRelease
    | _ => none
  | 0xA5 => match sub with
    | 0 => some .fencex
    | _ => none
  | 0xA6 => match sub with
    | 0 => some .cmplT
    | _ => none
  | 0xA7 => match sub with
    | 0 => some .drain
    | _ => none
  | 0xA8 => match sub with
    | 0 => some .bcpost
    | _ => none
  | 0xA9 => match sub with
    | 0 => some .bcarm
    | _ => none
  | 0xB0 => match sub with
    | 0 => some .copy
    | _ => none
  | 0xB1 => match sub with
    | 0 => some .copyqDeclare
    | 1 => some .copyqRelease
    | _ => none
  | 0xB2 => match sub with
    | 0 => some .consumed
    | _ => none
  | 0xB3 => match sub with
    | 0 | 1 | 2 | 3 | 4 | 5 => some .coll
    | _ => none
  | 0xB4 => match sub with
    | 0 => some .cabort
    | _ => none
  | 0xB5 => match sub with
    | 0 => some .kvappPut
    | 1 => some .kvappCommit
    | _ => none
  | 0xB6 => match sub with
    | 0 => some .kvrot
    | _ => none
  | 0xC0 => match sub with
    | 0 => some .steer
    | _ => none
  | 0xC1 => match sub with
    | 0 => some .merge
    | _ => none
  | 0xC2 => match sub with
    | 0 => some .fork
    | _ => none
  | 0xC3 => match sub with
    | 0 => some .sink
    | _ => none
  | 0xC4 => match sub with
    | 0 => some .ctl
    | _ => none
  | 0xC5 => match sub with
    | 0 => some .cnt
    | _ => none
  | 0xC6 => match sub with
    | 0 => some .loopopen
    | _ => none
  | 0xC7 => match sub with
    | 0 => some .loopdone
    | _ => none
  | 0xC8 => match sub with
    | 0 => some .gateSet
    | 1 => some .gateAdd
    | 2 => some .gateOff
    | _ => none
  | 0xD0 => match sub with
    | 0 => some .splice
    | _ => none
  | 0xD1 => match sub with
    | 0 => some .plane
    | _ => none
  | 0xD2 => match sub with
    | 0 => some .rangeOpen
    | 1 => some .rangeTake
    | 2 => some .rangeClose
    | _ => none
  | 0xD3 => match sub with
    | 0 | 1 => some .join
    | _ => none
  | 0xD4 => match sub with
    | 0 | 1 => some .leave
    | _ => none
  | 0xD5 => match sub with
    | 0 | 1 => some .bar
    | _ => none
  | 0xD6 => match sub with
    | 0 => some .launch
    | _ => none
  | 0xD7 => match sub with
    | 0 => some .yield
    | _ => none
  | 0xE0 => match sub with
    | 0 => some .trap
    | _ => none
  | 0xE1 => match sub with
    | 0 => some .chkerr
    | _ => none
  | 0xE2 => match sub with
    | 0 => some .faultrdWord
    | 1 => some .faultrdCount
    | _ => none
  | 0xE3 => match sub with
    | 0 => some .markOwn
    | 1 => some .markCohort
    | _ => none
  | 0xE4 => match sub with
    | 0 => some .snap
    | _ => none
  | 0xE5 => match sub with
    | 0 => some .resume
    | _ => none
  | 0xE6 => match sub with
    | 0 => some .savesetDeclare
    | 1 => some .savesetNotify
    | _ => none
  | 0xE7 => match sub with
    | 0 => some .savedropDeclaration
    | 1 => some .savedropNotify
    | _ => none
  | 0xE8 => match sub with
    | 0 => some .pfack
    | _ => none
  | 0xE9 => match sub with
    | 0 => some .replay
    | _ => none
  | _ => none

/-- How many opcodes R41's table defines in each of its groups; they are the lowest of the group. -/
def groupSizes : List Nat := [6, 16, 12, 6, 16, 12, 11, 8, 8, 12, 10, 7, 9, 8, 10]

/-- The opcodes that R41 defines. -/
def opcDefined (opc : Nat) : Bool := opc % 16 < groupSizes.getD (opc / 16) 0

/-- What each instruction allows in DST. -/
def Op.dstPos : Op → DstPos
  | .nop | .plog | .cmp | .tst | .retire | .deq | .wrspec | .fcmp | .cbld | .setfmt
  | .contract | .stay | .accz | .accld | .accsc | .gradpair | .sacci | .rowf | .rowb | .xred
  | .st | .sts | .tset | .tinv | .stfe | .stash | .stp | .clrp | .upd | .ownEnter
  | .ownRelease | .fencex | .cmplT | .drain | .bcpost | .bcarm | .copy | .copyqDeclare | .copyqRelease | .consumed
  | .coll | .cabort | .kvappPut | .kvappCommit | .sink | .splice | .plane | .rangeOpen | .rangeClose | .leave
  | .yield | .trap | .chkerr | .markOwn | .snap | .pfack | .replay => .none
  | .sel | .add | .sub | .mul | .mulh | .mad | .div | .min | .max | .abs
  | .neg | .and | .or | .xor | .andn | .not | .addc | .shl | .shr | .sar
  | .rot | .clz | .popc | .ext | .ins | .brev | .addr | .mov | .tagof | .rdspec
  | .fadd | .fsub | .fmul | .fma | .fmin | .fmax | .fabs | .fneg | .frcp | .frsq
  | .fexp2 | .flog2 | .fscale | .fclass | .fsqrt | .vadd | .vsub | .vmul | .vfma | .vmin
  | .vmax | .vcmp | .vsel | .vsum | .vamax | .vshuf | .vdot3 | .cvt | .vcvt | .cvti
  | .cvtf | .scaleq | .scaledq | .cblook | .seal | .amaxacc | .ld | .lds | .tlook | .ldp
  | .cnt | .faultrdWord | .faultrdCount | .savesetDeclare | .savedropDeclaration => .gmoz
  | .limm => .gm
  | .send | .fwd | .accrd | .cturn | .isectMul | .isectDot | .union | .saccf | .stop | .stream
  | .unstash | .kvrot | .steer | .merge | .fork | .ctl | .loopopen | .loopdone | .gateSet | .gateAdd
  | .gateOff | .bar | .savesetNotify | .savedropNotify => .out
  | .ldfe => .gEvenOz
  | .rangeTake => .gEven
  | .join | .launch | .markCohort | .resume => .outOpt

/-- What each instruction allows in S1. -/
def Op.s1Pos : Op → SrcPos
  | .nop | .plog | .retire | .limm | .deq | .rdspec | .accz | .accrd | .saccf | .stop
  | .unstash | .fencex | .cmplT | .drain | .copyqRelease | .consumed | .cabort | .sink | .loopdone | .gateOff
  | .splice | .plane | .rangeTake | .rangeClose | .leave | .bar | .yield | .faultrdCount | .markOwn | .markCohort
  | .snap | .savesetNotify | .savedropNotify | .pfack => .none
  | .cmp | .tst | .sel | .addc | .ext | .ins | .addr | .wrspec | .fadd | .fsub
  | .fmul | .fma | .fmin | .fmax | .fcmp | .fabs | .fneg | .frcp | .frsq | .fexp2
  | .flog2 | .fscale | .fclass | .fsqrt | .vadd | .vsub | .vmul | .vfma | .vmin | .vmax
  | .vcmp | .vsel | .vsum | .vamax | .vshuf | .vdot3 | .cvt | .vcvt | .cvti | .cvtf
  | .scaleq | .scaledq | .cbld | .cblook | .setfmt | .seal | .amaxacc | .rowf | .rowb | .xred
  | .ld | .st | .lds | .sts | .tlook | .tset | .tinv | .ldfe | .stfe | .stream
  | .stash | .ldp | .stp | .clrp | .upd | .ownEnter | .ownRelease | .bcpost | .bcarm | .copy
  | .copyqDeclare | .coll | .kvappPut | .kvappCommit | .kvrot | .cnt | .rangeOpen | .join | .launch | .resume
  | .savesetDeclare => .src
  | .add | .sub | .mul | .mulh | .mad | .div | .min | .max | .abs | .neg
  | .and | .or | .xor | .andn | .not | .shl | .shr | .sar | .rot | .clz
  | .popc | .brev | .mov | .send | .ctl | .gateSet | .gateAdd => .srcImm
  | .fwd | .tagof | .stay | .accld | .cturn | .gradpair | .isectMul | .isectDot | .union | .sacci
  | .steer | .merge | .fork | .chkerr | .replay => .head
  | .contract => .contract
  | .accsc | .faultrdWord | .savedropDeclaration => .gmdh
  | .loopopen => .gOnly
  | .trap => .gmdhz

/-- What each instruction allows in S2. -/
def Op.s2Pos : Op → SrcPos
  | .nop | .plog | .retire | .abs | .neg | .not | .clz | .popc | .ext | .brev
  | .limm | .mov | .send | .deq | .fwd | .tagof | .rdspec | .wrspec | .fabs | .fneg
  | .frcp | .frsq | .fexp2 | .flog2 | .fclass | .fsqrt | .vsum | .cvt | .vcvt | .cvti
  | .cvtf | .cbld | .cblook | .setfmt | .seal | .stay | .accz | .accrd | .accld | .accsc
  | .cturn | .isectDot | .sacci | .saccf | .stop | .ld | .lds | .tlook | .tinv | .ldfe
  | .unstash | .ldp | .ownRelease | .fencex | .cmplT | .drain | .bcpost | .copyqRelease | .consumed | .cabort
  | .kvappCommit | .kvrot | .steer | .merge | .fork | .sink | .ctl | .cnt | .loopopen | .loopdone
  | .gateSet | .gateAdd | .gateOff | .splice | .plane | .rangeTake | .rangeClose | .leave | .bar | .launch
  | .yield | .trap | .chkerr | .faultrdWord | .faultrdCount | .markOwn | .markCohort | .snap | .savesetNotify | .savedropDeclaration
  | .savedropNotify | .pfack | .replay => .none
  | .cmp | .tst | .sel | .addc | .ins | .addr | .fadd | .fsub | .fmul | .fma
  | .fmin | .fmax | .fcmp | .fscale | .vadd | .vsub | .vmul | .vfma | .vmin | .vmax
  | .vcmp | .vsel | .vamax | .vshuf | .vdot3 | .scaleq | .scaledq | .amaxacc | .rowf | .rowb
  | .xred | .st | .sts | .tset | .stfe | .stash | .stp | .clrp | .upd | .ownEnter
  | .bcarm | .copy | .copyqDeclare | .coll | .kvappPut | .rangeOpen | .join | .savesetDeclare => .src
  | .add | .sub | .mul | .mulh | .mad | .div | .min | .max | .and | .or
  | .xor | .andn | .shl | .shr | .sar | .rot | .stream => .srcImm
  | .contract => .contract
  | .gradpair | .isectMul | .union => .head
  | .resume => .gmdh

/-- What each instruction allows in S3. -/
def Op.s3Pos : Op → SrcPos
  | .nop | .plog | .cmp | .tst | .sel | .retire | .add | .sub | .mul | .mulh
  | .div | .min | .max | .abs | .neg | .and | .or | .xor | .andn | .not
  | .shl | .shr | .sar | .rot | .clz | .popc | .ext | .ins | .brev | .addr
  | .limm | .mov | .send | .deq | .fwd | .tagof | .rdspec | .wrspec | .fadd | .fsub
  | .fmul | .fmin | .fmax | .fcmp | .fabs | .fneg | .frcp | .frsq | .fexp2 | .flog2
  | .fscale | .fclass | .fsqrt | .vadd | .vsub | .vmul | .vmin | .vmax | .vcmp | .vsum
  | .vamax | .vshuf | .cvt | .vcvt | .cvti | .cvtf | .scaledq | .cbld | .cblook | .setfmt
  | .seal | .amaxacc | .stay | .accz | .accrd | .accld | .accsc | .cturn | .gradpair | .isectMul
  | .isectDot | .union | .sacci | .saccf | .stop | .ld | .st | .lds | .sts | .tlook
  | .tinv | .ldfe | .stream | .stash | .unstash | .ldp | .stp | .clrp | .upd | .ownEnter
  | .ownRelease | .fencex | .cmplT | .drain | .bcpost | .bcarm | .copyqRelease | .consumed | .cabort | .kvrot
  | .steer | .merge | .fork | .sink | .ctl | .cnt | .loopopen | .loopdone | .gateSet | .gateAdd
  | .gateOff | .splice | .plane | .rangeTake | .rangeClose | .join | .leave | .bar | .launch | .yield
  | .trap | .chkerr | .faultrdWord | .faultrdCount | .markOwn | .markCohort | .snap | .resume | .savesetDeclare | .savesetNotify
  | .savedropDeclaration | .savedropNotify | .pfack | .replay => .none
  | .mad => .srcImm
  | .addc | .fma | .vfma | .vsel | .vdot3 | .scaleq | .rowf | .rowb | .xred | .tset
  | .stfe | .copy | .copyqDeclare | .coll | .kvappPut | .kvappCommit | .rangeOpen => .src
  | .contract => .contract

/-- The instructions whose MOD is the immediate of a source field that holds 0x27, and else zero. -/
def Op.takesImm : Op → Bool
  | .add | .sub | .mul | .mulh | .mad | .div | .min | .max | .abs | .neg
  | .and | .or | .xor | .andn | .not | .shl | .shr | .sar | .rot | .clz
  | .popc | .brev | .mov | .send | .ctl | .gateSet | .gateAdd => true
  | _ => false

/-- MOD is as the encoding table of the instruction lays it out (R43, reason 0x0B). -/
def modOk (op : Op) (f : RuleFields) : Bool :=
  match op with
  | .nop => f.m 0 16 == 0
  | .plog => f.m 0 3 == 0
  | .cmp => ICond.valid (f.m 10 3) && f.m 0 10 == 0
  | .tst => f.m 0 12 == 0
  | .sel => f.m 0 13 == 0
  | .retire => f.m 0 16 == 0
  | .add => (f.s1 == 0x27 || f.s2 == 0x27 || f.mod == 0)
  | .sub => (f.s1 == 0x27 || f.s2 == 0x27 || f.mod == 0)
  | .mul => (f.s1 == 0x27 || f.s2 == 0x27 || f.mod == 0)
  | .mulh => (f.s1 == 0x27 || f.s2 == 0x27 || f.mod == 0)
  | .mad => (f.s1 == 0x27 || f.s2 == 0x27 || f.s3 == 0x27 || f.mod == 0)
  | .div => (f.s1 == 0x27 || f.s2 == 0x27 || f.mod == 0)
  | .min => (f.s1 == 0x27 || f.s2 == 0x27 || f.mod == 0)
  | .max => (f.s1 == 0x27 || f.s2 == 0x27 || f.mod == 0)
  | .abs => (f.s1 == 0x27 || f.mod == 0)
  | .neg => (f.s1 == 0x27 || f.mod == 0)
  | .and => (f.s1 == 0x27 || f.s2 == 0x27 || f.mod == 0)
  | .or => (f.s1 == 0x27 || f.s2 == 0x27 || f.mod == 0)
  | .xor => (f.s1 == 0x27 || f.s2 == 0x27 || f.mod == 0)
  | .andn => (f.s1 == 0x27 || f.s2 == 0x27 || f.mod == 0)
  | .not => (f.s1 == 0x27 || f.mod == 0)
  | .addc => f.m 0 13 == 0
  | .shl => (f.s1 == 0x27 || f.s2 == 0x27 || f.mod == 0)
  | .shr => (f.s1 == 0x27 || f.s2 == 0x27 || f.mod == 0)
  | .sar => (f.s1 == 0x27 || f.s2 == 0x27 || f.mod == 0)
  | .rot => (f.s1 == 0x27 || f.s2 == 0x27 || f.mod == 0)
  | .clz => (f.s1 == 0x27 || f.mod == 0)
  | .popc => (f.s1 == 0x27 || f.mod == 0)
  | .ext => f.m 0 4 == 0 && (f.posLenOk)
  | .ins => f.m 0 4 == 0 && (f.posLenOk)
  | .brev => (f.s1 == 0x27 || f.mod == 0)
  | .addr => true
  | .limm => true
  | .mov => (f.s1 == 0x27 || f.mod == 0)
  | .send => (f.s1 == 0x27 || f.mod == 0)
  | .deq => f.m 0 9 == 0 && (!f.deqNames (f.m 11 5))
  | .fwd => f.m 0 16 == 0
  | .tagof => f.m 0 16 == 0
  | .rdspec => f.m 0 8 == 0 && (specReadable (f.m 8 8))
  | .wrspec => f.m 0 8 == 0 && (specWritable (f.m 8 8))
  | .fadd => Rm.valid (f.m 13 3) && f.m 0 12 == 0
  | .fsub => Rm.valid (f.m 13 3) && f.m 0 12 == 0
  | .fmul => Rm.valid (f.m 13 3) && f.m 0 12 == 0
  | .fma => Rm.valid (f.m 13 3) && f.m 0 12 == 0
  | .fmin => f.m 0 16 == 0
  | .fmax => f.m 0 16 == 0
  | .fcmp => FCond.valid (f.m 10 3) && f.m 0 10 == 0
  | .fabs => f.m 0 16 == 0
  | .fneg => f.m 0 16 == 0
  | .frcp => Rm.valid (f.m 13 3) && f.m 0 12 == 0
  | .frsq => Rm.valid (f.m 13 3) && f.m 0 12 == 0
  | .fexp2 => Rm.valid (f.m 13 3) && f.m 0 12 == 0
  | .flog2 => Rm.valid (f.m 13 3) && f.m 0 12 == 0
  | .fscale => Rm.valid (f.m 13 3) && f.m 0 12 == 0
  | .fclass => f.m 0 16 == 0
  | .fsqrt => Rm.valid (f.m 13 3) && f.m 0 12 == 0
  | .vadd => Rm.valid (f.m 13 3) && f.m 0 12 == 0
  | .vsub => Rm.valid (f.m 13 3) && f.m 0 12 == 0
  | .vmul => Rm.valid (f.m 13 3) && f.m 0 12 == 0
  | .vfma => Rm.valid (f.m 13 3) && f.m 0 12 == 0
  | .vmin => f.m 0 16 == 0
  | .vmax => f.m 0 16 == 0
  | .vcmp => f.m 13 3 == 0 && FCond.valid (f.m 10 3) && f.m 0 10 == 0
  | .vsel => f.m 0 16 == 0
  | .vsum => Rm.valid (f.m 13 3) && f.m 0 12 == 0
  | .vamax => f.m 0 16 == 0
  | .vshuf => (f.vshufOk)
  | .vdot3 => Rm.valid (f.m 13 3) && f.m 0 12 == 0
  | .cvt => Rm.valid (f.m 13 3) && Fmt.valid (f.m 8 4) && f.m 0 4 == 0 && (f.cvtOk)
  | .vcvt => Rm.valid (f.m 13 3) && Fmt.valid (f.m 8 4) && f.m 0 4 == 0 && (f.vcvtOk)
  | .cvti => Rm.valid (f.m 13 3) && f.m 12 1 == 0 && Fmt.valid (f.m 8 4) && f.m 0 7 == 0 && (f.cvtiOk)
  | .cvtf => Rm.valid (f.m 13 3) && Fmt.valid (f.m 8 4) && f.m 0 7 == 0 && (f.cvtfOk)
  | .scaleq => Rm.valid (f.m 13 3) && Fmt.valid (f.m 8 4) && f.m 0 3 == 0 && (f.scaleqOk)
  | .scaledq => Rm.valid (f.m 13 3) && Fmt.valid (f.m 8 4) && f.m 0 3 == 0 && (f.scaledqOk)
  | .cbld => f.m 0 12 == 0
  | .cblook => f.m 0 12 == 0
  | .setfmt => f.m 0 11 == 0
  | .seal => f.m 12 4 == 0 && Fmt.valid (f.m 8 4) && f.m 0 8 == 0 && (f.sealOk)
  | .amaxacc => f.m 0 16 == 0
  | .contract => Shape.valid (f.m 12 2) && f.m 0 4 == 0 && (f.contractOk)
  | .stay => f.m 8 8 == 0 && f.m 0 6 == 0 && (f.stayOk)
  | .accz => f.m 10 6 == 0 && f.m 0 8 == 0
  | .accrd => Rm.valid (f.m 13 3) && Shape.valid (f.m 10 2) && f.m 0 7 == 0 && (f.accrdOk)
  | .accld => f.m 12 4 == 0 && Shape.valid (f.m 10 2) && f.m 0 8 == 0 && (f.accldOk)
  | .accsc => Rm.valid (f.m 13 3) && f.m 10 2 == 0 && f.m 0 8 == 0
  | .cturn => f.m 0 7 == 0 && (!f.deqHead f.s1)
  | .gradpair => Shape.valid (f.m 14 2) && Shape.valid (f.m 12 2) && f.m 0 4 == 0 && (f.gradpairOk)
  | .isectMul => OFmt.valid (f.m 14 2) && Rm.valid (f.m 11 3) && f.m 9 2 == 0 && f.m 8 1 == 0 && f.m 0 4 == 0 && ((f.m 4 4 != 0) && !f.deqHead f.s1 && !f.deqHead f.s2)
  | .isectDot => OFmt.valid (f.m 14 2) && Rm.valid (f.m 11 3) && f.m 0 4 == 0 && ((f.m 4 4 != 0) && !f.deqHead f.s1)
  | .union => OFmt.valid (f.m 14 2) && Rm.valid (f.m 11 3) && f.m 8 3 == 0 && f.m 0 4 == 0 && ((f.m 4 4 != 0) && !f.deqHead f.s1 && !f.deqHead f.s2)
  | .sacci => f.m 10 6 == 0 && ((f.m 4 4 != 0) && !f.deqHead f.s1)
  | .saccf => OFmt.valid (f.m 14 2) && Rm.valid (f.m 11 3) && f.m 10 1 == 0 && f.m 0 4 == 0 && (f.saccfOk)
  | .stop => f.m 0 12 == 0 && (f.m 12 4 != 0)
  | .rowf => (f.m 12 4 == 0 || decide (8 ≤ (f.m 12 4).toNat)) && Fmt.valid (f.m 8 4) && f.m 0 3 == 0 && (f.rowOk)
  | .rowb => (f.m 12 4 == 0 || decide (8 ≤ (f.m 12 4).toNat)) && Fmt.valid (f.m 8 4) && f.m 0 3 == 0 && (f.rowOk)
  | .xred => (f.m 12 4 == 0 || decide (8 ≤ (f.m 12 4).toNat)) && Fmt.valid (f.m 8 4) && (f.m 8 4 == 1 || f.m 8 4 == 2)
  | .ld => (f.m 12 4 == 0 || decide (8 ≤ (f.m 12 4).toNat)) && f.m 0 12 == 0
  | .st => (f.m 12 4 == 0 || decide (8 ≤ (f.m 12 4).toNat)) && f.m 0 12 == 0
  | .lds => (f.m 12 4 == 0 || decide (8 ≤ (f.m 12 4).toNat)) && f.m 0 12 == 0
  | .sts => (f.m 12 4 == 0 || decide (8 ≤ (f.m 12 4).toNat)) && f.m 0 12 == 0
  | .tlook => (f.m 12 4 == 0 || decide (8 ≤ (f.m 12 4).toNat)) && f.m 0 12 == 0
  | .tset => (f.m 12 4 == 0 || decide (8 ≤ (f.m 12 4).toNat)) && f.m 0 12 == 0
  | .tinv => (f.m 12 4 == 0 || decide (8 ≤ (f.m 12 4).toNat)) && f.m 0 12 == 0
  | .ldfe => (f.m 12 4 == 0 || decide (8 ≤ (f.m 12 4).toNat)) && f.m 0 12 == 0
  | .stfe => (f.m 12 4 == 0 || decide (8 ≤ (f.m 12 4).toNat)) && f.m 0 12 == 0
  | .stream => (f.streamOk)
  | .stash => (f.m 12 4 == 0 || decide (8 ≤ (f.m 12 4).toNat))
  | .unstash => (f.m 12 4 == 0 || decide (8 ≤ (f.m 12 4).toNat))
  | .ldp => (f.m 12 4 == 0 || decide (8 ≤ (f.m 12 4).toNat)) && f.m 0 12 == 0
  | .stp => (f.m 12 4 == 0 || decide (8 ≤ (f.m 12 4).toNat)) && f.m 0 12 == 0
  | .clrp => (f.m 12 4 == 0 || decide (8 ≤ (f.m 12 4).toNat)) && f.m 0 12 == 0
  | .upd => (f.m 12 4 == 0 || decide (8 ≤ (f.m 12 4).toNat)) && f.m 0 12 == 0
  | .ownEnter => (f.m 12 4 == 0 || decide (8 ≤ (f.m 12 4).toNat)) && f.m 0 12 == 0
  | .ownRelease => (f.m 12 4 == 0 || decide (8 ≤ (f.m 12 4).toNat)) && f.m 0 12 == 0
  | .fencex => (f.m 12 4 == 0 || decide (8 ≤ (f.m 12 4).toNat)) && Path.valid (f.m 8 4) && Path.valid (f.m 4 4) && f.m 0 4 == 0
  | .cmplT => (f.m 12 4 == 0 || decide (8 ≤ (f.m 12 4).toNat)) && f.m 0 12 == 0 && (f.m 15 1 == 1)
  | .drain => f.m 0 16 == 0
  | .bcpost => (f.m 12 4 == 0 || decide (8 ≤ (f.m 12 4).toNat)) && f.m 0 8 == 0
  | .bcarm => (f.m 12 4 == 0 || decide (8 ≤ (f.m 12 4).toNat)) && f.m 0 8 == 0
  | .copy => (f.m 12 4 == 0 || decide (8 ≤ (f.m 12 4).toNat)) && ((f.m 9 1 == 1) || (f.m 0 5 == 0))
  | .copyqDeclare => (f.m 12 4 == 0 || decide (8 ≤ (f.m 12 4).toNat)) && f.m 5 7 == 0
  | .copyqRelease => (f.m 12 4 == 0 || decide (8 ≤ (f.m 12 4).toNat)) && f.m 5 7 == 0
  | .consumed => (f.m 12 4 == 0 || decide (8 ≤ (f.m 12 4).toNat)) && f.m 5 7 == 0
  | .coll => (f.m 12 4 == 0 || decide (8 ≤ (f.m 12 4).toNat)) && Fmt.valid (f.m 8 4) && (f.collOk)
  | .cabort => (f.m 12 4 == 0 || decide (8 ≤ (f.m 12 4).toNat)) && f.m 8 4 == 0
  | .kvappPut => (f.m 12 4 == 0 || decide (8 ≤ (f.m 12 4).toNat)) && f.m 0 4 == 0
  | .kvappCommit => (f.m 12 4 == 0 || decide (8 ≤ (f.m 12 4).toNat)) && f.m 0 12 == 0
  | .kvrot => (f.m 12 4 == 0 || decide (8 ≤ (f.m 12 4).toNat)) && f.m 0 12 == 0
  | .steer => f.m 0 10 == 0 && (f.m 10 3 != f.outNo)
  | .merge => f.m 0 6 == 0 && (f.mergeOk)
  | .fork => f.m 0 8 == 0 && (f.forkOk)
  | .sink => f.m 0 9 == 0 && (!f.deqNames (f.m 11 5))
  | .ctl => (f.s1 == 0x27 || f.mod == 0)
  | .cnt => true
  | .loopopen => f.m 0 12 == 0 && (f.loopopenOk)
  | .loopdone => f.m 0 16 == 0
  | .gateSet => (f.s1 == 0x27 || f.mod == 0)
  | .gateAdd => (f.s1 == 0x27 || f.mod == 0)
  | .gateOff => f.m 0 16 == 0
  | .splice => f.m 0 8 == 0
  | .plane => f.m 0 8 == 0
  | .rangeOpen => f.m 0 8 == 0 && (decide ((f.m 8 8).toNat < 192))
  | .rangeTake => f.m 0 16 == 0
  | .rangeClose => f.m 0 16 == 0
  | .join => f.m 8 8 == 0
  | .leave => f.m 8 8 == 0
  | .bar => f.m 8 8 == 0
  | .launch => true
  | .yield => f.m 0 4 == 0
  | .trap => true
  | .chkerr => f.m 0 12 == 0 && (!f.deqHead f.s1)
  | .faultrdWord => f.m 0 13 == 0
  | .faultrdCount => f.m 0 16 == 0
  | .markOwn => f.m 0 16 == 0
  | .markCohort => f.m 0 7 == 0
  | .snap => f.m 0 16 == 0
  | .resume => f.m 8 8 == 0
  | .savesetDeclare => f.m 0 16 == 0
  | .savesetNotify => f.m 0 16 == 0
  | .savedropDeclaration => f.m 0 16 == 0
  | .savedropNotify => f.m 0 16 == 0
  | .pfack => f.m 0 16 == 0
  | .replay => f.m 0 16 == 0 && (!f.deqHead f.s1)

/-- The operand conditions that an instruction states beyond its positions (R43, reason 0x04). -/
def operandsOk (op : Op) (f : RuleFields) : Bool :=
  match op with
  | .isectMul => f.s1 != f.s2
  | .union => f.s1 != f.s2
  | .launch => (f.m 0 1 == 1) == (f.s1 == 0x26#6)
  | .resume => (f.m 0 1 == 1) == (f.s1 == 0x26#6)
  | .contract => f.contractPosOk
  | _ => true

/-- The element formats that the word of an instruction names as its type, format or target, as codes of R158 (R393). -/
def namedFormats (op : Op) (f : RuleFields) : List Nat :=
  match op with
  | .fadd => [f.sub.toNat]
  | .fsub => [f.sub.toNat]
  | .fmul => [f.sub.toNat]
  | .fma => [f.sub.toNat]
  | .fmin => [f.sub.toNat]
  | .fmax => [f.sub.toNat]
  | .fcmp => [f.sub.toNat]
  | .fabs => [f.sub.toNat]
  | .fneg => [f.sub.toNat]
  | .frcp => [f.sub.toNat]
  | .frsq => [f.sub.toNat]
  | .fexp2 => [f.sub.toNat]
  | .flog2 => [f.sub.toNat]
  | .fscale => [f.sub.toNat]
  | .fclass => [f.sub.toNat]
  | .fsqrt => [f.sub.toNat]
  | .vadd => [f.sub.toNat]
  | .vsub => [f.sub.toNat]
  | .vmul => [f.sub.toNat]
  | .vfma => [f.sub.toNat]
  | .vmin => [f.sub.toNat]
  | .vmax => [f.sub.toNat]
  | .vcmp => [f.sub.toNat]
  | .vsel => [f.sub.toNat]
  | .vsum => [f.sub.toNat]
  | .vamax => [f.sub.toNat]
  | .vshuf => [f.sub.toNat]
  | .vdot3 => [f.sub.toNat]
  | .cvt => [f.sub.toNat] ++ [(f.m 8 4).toNat] ++ (if f.m 4 4 = 0 then [] else [(f.m 4 4).toNat])
  | .vcvt => [f.sub.toNat] ++ [(f.m 8 4).toNat]
  | .cvti => (if f.sub.toNat = 4 then [7] else []) ++ [(f.m 8 4).toNat]
  | .cvtf => [f.sub.toNat] ++ [(f.m 8 4).toNat]
  | .scaleq => [f.sub.toNat] ++ [(f.m 8 4).toNat]
  | .scaledq => [f.sub.toNat] ++ [(f.m 8 4).toNat]
  | .seal => [(f.m 8 4).toNat]
  | .amaxacc => [f.sub.toNat]
  | .contract => (if f.sub.toNat = 4 then [4, 5] else [f.sub.toNat])
  | .stay => [f.sub.toNat]
  | .accrd => [f.sub.toNat]
  | .accld => [f.sub.toNat]
  | .gradpair => (if f.sub.toNat = 4 then [4, 5] else [f.sub.toNat])
  | .isectMul => [(f.m 14 2).toNat + 1]
  | .isectDot => [(f.m 14 2).toNat + 1]
  | .union => [(f.m 14 2).toNat + 1]
  | .saccf => [(f.m 14 2).toNat + 1]
  | .xred => [(f.m 8 4).toNat]
  | _ => []

/-! ### Validation of one word (R43) -/

/-- What a plane says of its words beyond the word itself: which outputs of the cell are bound, how many regions the
image has, and whether the device is in bisque mode (R43, R289, R393). -/
structure WordCtx where
  bound   : BitVec 8 := 0xFF
  regions : Nat := 256
  bisque  : Bool := false
deriving DecidableEq, Repr

/-- The outputs that a word names outside DST: a completion binding, a FORK mask, STEER's second output (R43). -/
def outsNamed (op : Op) (f : RuleFields) : BitVec 8 :=
  let cm := if f.m 15 1 = 1#1 then 1#8 <<< (f.m 12 3).toNat else 0#8
  match op with
  | .fork => f.m 8 8
  | .steer => 1#8 <<< (f.m 10 3).toNat
  | .stream => if f.sub.toNat < 8 then 0#8 else 1#8 <<< (f.sub.toNat - 8)
  | .ld | .st | .lds | .sts | .tlook | .tset | .tinv | .ldfe | .stfe | .stash | .unstash | .ldp | .stp | .clrp | .upd
  | .ownEnter | .ownRelease | .fencex | .cmplT | .bcpost | .bcarm | .copy | .copyqDeclare | .copyqRelease | .consumed
  | .coll | .cabort | .kvappPut | .kvappCommit | .kvrot | .rowf | .rowb | .xred => cm
  | _ => 0#8

/-- The region number that a word names, if any (R289). -/
def regionNamed (op : Op) (f : RuleFields) : Option Nat :=
  match op with
  | .splice | .plane | .launch => some (f.m 8 8).toNat
  | _ => none

/-- The formats that a bisque device refuses (R393). -/
def bisqueFormat (c : Nat) : Bool := c == 0 || c == 3 || c == 4 || c == 5 || c == 6 || c == 7

/-- Reason 0x06: a head or a DEQ bit of a test that is disabled. -/
def headDisabled (f : RuleFields) : Bool :=
  (f.cta.extractLsb' 9 1 == 0#1 && (f.s1 == 0x20 || f.s2 == 0x20 || f.s3 == 0x20 || f.deq.extractLsb' 1 1 == 1#1)) ||
  (f.ctb.extractLsb' 9 1 == 0#1 && (f.s1 == 0x21 || f.s2 == 0x21 || f.s3 == 0x21 || f.deq.extractLsb' 0 1 == 1#1))

/-- Reason 0x07 for one test: disabled with another bit set, or any class with a class. -/
def testBad (c : BitVec 10) : Bool :=
  (c.extractLsb' 9 1 == 0#1 && c != 0#10) || (c.extractLsb' 0 1 == 1#1 && c.extractLsb' 1 3 != 0#3)

/-- Reason 0x0D for one position: a REUSE bit on neither a g nor an m code. -/
def reuseBad (f : RuleFields) : Bool :=
  (f.reuse.getLsbD 2 && !(isG f.s1 || isM f.s1)) || (f.reuse.getLsbD 1 && !(isG f.s2 || isM f.s2)) ||
  (f.reuse.getLsbD 0 && !(isG f.s3 || isM f.s3))

/-- The lowest reason of R43 that applies to an instruction word, none when it is legal. -/
def reason (cx : WordCtx) (f : RuleFields) : Option Nat :=
  if !opcDefined f.opc.toNat then some 0x01
  else match opOf f.opc.toNat f.sub.toNat with
  | none => some 0x02
  | some op =>
    if reservedCode f.dst || reservedCode f.s1 || reservedCode f.s2 || reservedCode f.s3 then some 0x03
    else if !(op.dstPos.ok f.dst && op.s1Pos.ok f.s1 && op.s2Pos.ok f.s2 && op.s3Pos.ok f.s3 && operandsOk op f) then some 0x04
    else if isO f.dst && !cx.bound.getLsbD f.outNo.toNat then some 0x05
    else if headDisabled f then some 0x06
    else if testBad f.cta || testBad f.ctb ||
        (f.cta.extractLsb' 9 1 == 1#1 && f.ctb.extractLsb' 9 1 == 1#1 && f.cta.extractLsb' 4 5 == f.ctb.extractLsb' 4 5) then some 0x07
    else if f.pval &&& ~~~ f.pcare != 0#8 then some 0x08
    else if (f.sbw.getLsbD 3 == false && f.sbw != 0#4) || (f.sbset.getLsbD 3 == false && f.sbset != 0#4) then some 0x09
    else if f.rzHi != 0#2 || f.rzLo != 0#1 then some 0x0A
    else if !modOk op f || (outsNamed op f &&& ~~~ cx.bound != 0#8) ||
        (match regionNamed op f with | none => false | some r => decide (cx.regions ≤ r)) ||
        (cx.bisque && (namedFormats op f).any bisqueFormat) then some 0x0B
    else if op.s1Pos.badImm f.s1 || op.s2Pos.badImm f.s2 || op.s3Pos.badImm f.s3 then some 0x0C
    else if reuseBad f then some 0x0D
    else none


/-- The instruction of a legal word. -/
def build (op : Op) (f : RuleFields) : Instr :=
  let h := hdrOf f
  match op with
  | .nop => .nop h 
  | .plog => .plog h (f.m 13 3) (f.m 10 3) (f.m 7 3) (f.m 3 4)
  | .cmp => .cmp h (IntTy.ofCode f.sub) (Src.ofCode f.s1) (Src.ofCode f.s2) (f.m 13 3) (ICond.ofCode (f.m 10 3))
  | .tst => .tst h (IntTy.ofCode f.sub) (Src.ofCode f.s1) (Src.ofCode f.s2) (f.m 13 3) (boolOf (f.m 12 1))
  | .sel => .sel h (Dst.ofCode f.dst) (Src.ofCode f.s1) (Src.ofCode f.s2) (f.m 13 3)
  | .retire => .retire h 
  | .add => .add h (IntTy.ofCode f.sub) (Dst.ofCode f.dst) (Src.ofCode f.s1) (Src.ofCode f.s2) f.mod
  | .sub => .sub h (IntTy.ofCode f.sub) (Dst.ofCode f.dst) (Src.ofCode f.s1) (Src.ofCode f.s2) f.mod
  | .mul => .mul h (IntTy.ofCode f.sub) (Dst.ofCode f.dst) (Src.ofCode f.s1) (Src.ofCode f.s2) f.mod
  | .mulh => .mulh h (IntTy.ofCode f.sub) (Dst.ofCode f.dst) (Src.ofCode f.s1) (Src.ofCode f.s2) f.mod
  | .mad => .mad h (IntTy.ofCode f.sub) (Dst.ofCode f.dst) (Src.ofCode f.s1) (Src.ofCode f.s2) (Src.ofCode f.s3) f.mod
  | .div => .div h (IntTy.ofCode f.sub) (Dst.ofCode f.dst) (Src.ofCode f.s1) (Src.ofCode f.s2) f.mod
  | .min => .min h (IntTy.ofCode f.sub) (Dst.ofCode f.dst) (Src.ofCode f.s1) (Src.ofCode f.s2) f.mod
  | .max => .max h (IntTy.ofCode f.sub) (Dst.ofCode f.dst) (Src.ofCode f.s1) (Src.ofCode f.s2) f.mod
  | .abs => .abs h (IntTy.ofCode f.sub) (Dst.ofCode f.dst) (Src.ofCode f.s1) f.mod
  | .neg => .neg h (IntTy.ofCode f.sub) (Dst.ofCode f.dst) (Src.ofCode f.s1) f.mod
  | .and => .and h (IntTy.ofCode f.sub) (Dst.ofCode f.dst) (Src.ofCode f.s1) (Src.ofCode f.s2) f.mod
  | .or => .or h (IntTy.ofCode f.sub) (Dst.ofCode f.dst) (Src.ofCode f.s1) (Src.ofCode f.s2) f.mod
  | .xor => .xor h (IntTy.ofCode f.sub) (Dst.ofCode f.dst) (Src.ofCode f.s1) (Src.ofCode f.s2) f.mod
  | .andn => .andn h (IntTy.ofCode f.sub) (Dst.ofCode f.dst) (Src.ofCode f.s1) (Src.ofCode f.s2) f.mod
  | .not => .not h (IntTy.ofCode f.sub) (Dst.ofCode f.dst) (Src.ofCode f.s1) f.mod
  | .addc => .addc h (IntTy.ofCode f.sub) (Dst.ofCode f.dst) (Src.ofCode f.s1) (Src.ofCode f.s2) (Src.ofCode f.s3) (f.m 13 3)
  | .shl => .shl h (IntTy.ofCode f.sub) (Dst.ofCode f.dst) (Src.ofCode f.s1) (Src.ofCode f.s2) f.mod
  | .shr => .shr h (IntTy.ofCode f.sub) (Dst.ofCode f.dst) (Src.ofCode f.s1) (Src.ofCode f.s2) f.mod
  | .sar => .sar h (IntTy.ofCode f.sub) (Dst.ofCode f.dst) (Src.ofCode f.s1) (Src.ofCode f.s2) f.mod
  | .rot => .rot h (IntTy.ofCode f.sub) (Dst.ofCode f.dst) (Src.ofCode f.s1) (Src.ofCode f.s2) f.mod
  | .clz => .clz h (IntTy.ofCode f.sub) (Dst.ofCode f.dst) (Src.ofCode f.s1) f.mod
  | .popc => .popc h (IntTy.ofCode f.sub) (Dst.ofCode f.dst) (Src.ofCode f.s1) f.mod
  | .ext => .ext h (IntTy.ofCode f.sub) (Dst.ofCode f.dst) (Src.ofCode f.s1) (f.m 10 6) (f.m 4 6)
  | .ins => .ins h (IntTy.ofCode f.sub) (Dst.ofCode f.dst) (Src.ofCode f.s1) (Src.ofCode f.s2) (f.m 10 6) (f.m 4 6)
  | .brev => .brev h (IntTy.ofCode f.sub) (Dst.ofCode f.dst) (Src.ofCode f.s1) f.mod
  | .addr => .addr h (Dst.ofCode f.dst) (Src.ofCode f.s1) (Src.ofCode f.s2) (f.m 13 3) (f.m 0 13)
  | .limm => .limm h (boolOf (f.sub.extractLsb' 2 1)) (f.sub.extractLsb' 0 2) (Dst.ofCode f.dst) f.mod
  | .mov => .mov h (Dst.ofCode f.dst) (Src.ofCode f.s1) f.mod
  | .send => .send h (SendCls.ofCode f.sub) (Out.ofCode f.dst) (Src.ofCode f.s1) f.mod
  | .deq => .deq h (f.m 11 5) (f.m 9 2)
  | .fwd => .fwd h (Out.ofCode f.dst) (Head.ofCode f.s1)
  | .tagof => .tagof h (Dst.ofCode f.dst) (Head.ofCode f.s1)
  | .rdspec => .rdspec h (Dst.ofCode f.dst) (f.m 8 8)
  | .wrspec => .wrspec h (Src.ofCode f.s1) (f.m 8 8)
  | .fadd => .fadd h (FTy.ofCode f.sub) (Dst.ofCode f.dst) (Src.ofCode f.s1) (Src.ofCode f.s2) (Rm.ofCode (f.m 13 3)) (boolOf (f.m 12 1))
  | .fsub => .fsub h (FTy.ofCode f.sub) (Dst.ofCode f.dst) (Src.ofCode f.s1) (Src.ofCode f.s2) (Rm.ofCode (f.m 13 3)) (boolOf (f.m 12 1))
  | .fmul => .fmul h (FTy.ofCode f.sub) (Dst.ofCode f.dst) (Src.ofCode f.s1) (Src.ofCode f.s2) (Rm.ofCode (f.m 13 3)) (boolOf (f.m 12 1))
  | .fma => .fma h (FTy.ofCode f.sub) (Dst.ofCode f.dst) (Src.ofCode f.s1) (Src.ofCode f.s2) (Src.ofCode f.s3) (Rm.ofCode (f.m 13 3)) (boolOf (f.m 12 1))
  | .fmin => .fmin h (FTy.ofCode f.sub) (Dst.ofCode f.dst) (Src.ofCode f.s1) (Src.ofCode f.s2)
  | .fmax => .fmax h (FTy.ofCode f.sub) (Dst.ofCode f.dst) (Src.ofCode f.s1) (Src.ofCode f.s2)
  | .fcmp => .fcmp h (FTy.ofCode f.sub) (Src.ofCode f.s1) (Src.ofCode f.s2) (f.m 13 3) (FCond.ofCode (f.m 10 3))
  | .fabs => .fabs h (FTy.ofCode f.sub) (Dst.ofCode f.dst) (Src.ofCode f.s1)
  | .fneg => .fneg h (FTy.ofCode f.sub) (Dst.ofCode f.dst) (Src.ofCode f.s1)
  | .frcp => .frcp h (FTy.ofCode f.sub) (Dst.ofCode f.dst) (Src.ofCode f.s1) (Rm.ofCode (f.m 13 3)) (boolOf (f.m 12 1))
  | .frsq => .frsq h (FTy.ofCode f.sub) (Dst.ofCode f.dst) (Src.ofCode f.s1) (Rm.ofCode (f.m 13 3)) (boolOf (f.m 12 1))
  | .fexp2 => .fexp2 h (FTy.ofCode f.sub) (Dst.ofCode f.dst) (Src.ofCode f.s1) (Rm.ofCode (f.m 13 3)) (boolOf (f.m 12 1))
  | .flog2 => .flog2 h (FTy.ofCode f.sub) (Dst.ofCode f.dst) (Src.ofCode f.s1) (Rm.ofCode (f.m 13 3)) (boolOf (f.m 12 1))
  | .fscale => .fscale h (FTy.ofCode f.sub) (Dst.ofCode f.dst) (Src.ofCode f.s1) (Src.ofCode f.s2) (Rm.ofCode (f.m 13 3)) (boolOf (f.m 12 1))
  | .fclass => .fclass h (FTy.ofCode f.sub) (Dst.ofCode f.dst) (Src.ofCode f.s1)
  | .fsqrt => .fsqrt h (FTy.ofCode f.sub) (Dst.ofCode f.dst) (Src.ofCode f.s1) (Rm.ofCode (f.m 13 3)) (boolOf (f.m 12 1))
  | .vadd => .vadd h (VTy.ofCode f.sub) (Dst.ofCode f.dst) (Src.ofCode f.s1) (Src.ofCode f.s2) (Rm.ofCode (f.m 13 3)) (boolOf (f.m 12 1))
  | .vsub => .vsub h (VTy.ofCode f.sub) (Dst.ofCode f.dst) (Src.ofCode f.s1) (Src.ofCode f.s2) (Rm.ofCode (f.m 13 3)) (boolOf (f.m 12 1))
  | .vmul => .vmul h (VTy.ofCode f.sub) (Dst.ofCode f.dst) (Src.ofCode f.s1) (Src.ofCode f.s2) (Rm.ofCode (f.m 13 3)) (boolOf (f.m 12 1))
  | .vfma => .vfma h (VTy.ofCode f.sub) (Dst.ofCode f.dst) (Src.ofCode f.s1) (Src.ofCode f.s2) (Src.ofCode f.s3) (Rm.ofCode (f.m 13 3)) (boolOf (f.m 12 1))
  | .vmin => .vmin h (VTy.ofCode f.sub) (Dst.ofCode f.dst) (Src.ofCode f.s1) (Src.ofCode f.s2)
  | .vmax => .vmax h (VTy.ofCode f.sub) (Dst.ofCode f.dst) (Src.ofCode f.s1) (Src.ofCode f.s2)
  | .vcmp => .vcmp h (VTy.ofCode f.sub) (Dst.ofCode f.dst) (Src.ofCode f.s1) (Src.ofCode f.s2) (FCond.ofCode (f.m 10 3))
  | .vsel => .vsel h (VTy.ofCode f.sub) (Dst.ofCode f.dst) (Src.ofCode f.s1) (Src.ofCode f.s2) (Src.ofCode f.s3)
  | .vsum => .vsum h (VTy.ofCode f.sub) (Dst.ofCode f.dst) (Src.ofCode f.s1) (Rm.ofCode (f.m 13 3)) (boolOf (f.m 12 1))
  | .vamax => .vamax h (VTy.ofCode f.sub) (Dst.ofCode f.dst) (Src.ofCode f.s1) (Src.ofCode f.s2)
  | .vshuf => .vshuf h (VTy.ofCode f.sub) (Dst.ofCode f.dst) (Src.ofCode f.s1) (Src.ofCode f.s2) (f.m 12 4) (f.m 0 12)
  | .vdot3 => .vdot3 h (VTy.ofCode f.sub) (Dst.ofCode f.dst) (Src.ofCode f.s1) (Src.ofCode f.s2) (Src.ofCode f.s3) (Rm.ofCode (f.m 13 3)) (boolOf (f.m 12 1))
  | .cvt => .cvt h (Fmt.ofCode f.sub) (Dst.ofCode f.dst) (Src.ofCode f.s1) (Rm.ofCode (f.m 13 3)) (boolOf (f.m 12 1)) (Fmt.ofCode (f.m 8 4)) (f.m 4 4)
  | .vcvt => .vcvt h (Fmt.ofCode f.sub) (Dst.ofCode f.dst) (Src.ofCode f.s1) (Rm.ofCode (f.m 13 3)) (boolOf (f.m 12 1)) (Fmt.ofCode (f.m 8 4)) (f.m 4 4)
  | .cvti => .cvti h (ITgt.ofCode f.sub) (Dst.ofCode f.dst) (Src.ofCode f.s1) (Rm.ofCode (f.m 13 3)) (Fmt.ofCode (f.m 8 4)) (boolOf (f.m 7 1))
  | .cvtf => .cvtf h (Fmt.ofCode f.sub) (Dst.ofCode f.dst) (Src.ofCode f.s1) (Rm.ofCode (f.m 13 3)) (boolOf (f.m 12 1)) (Fmt.ofCode (f.m 8 4)) (boolOf (f.m 7 1))
  | .scaleq => .scaleq h (Fmt.ofCode f.sub) (Dst.ofCode f.dst) (Src.ofCode f.s1) (Src.ofCode f.s2) (Src.ofCode f.s3) (Rm.ofCode (f.m 13 3)) (boolOf (f.m 12 1)) (Fmt.ofCode (f.m 8 4)) (f.m 5 3) (f.m 3 2)
  | .scaledq => .scaledq h (Fmt.ofCode f.sub) (Dst.ofCode f.dst) (Src.ofCode f.s1) (Src.ofCode f.s2) (Rm.ofCode (f.m 13 3)) (boolOf (f.m 12 1)) (Fmt.ofCode (f.m 8 4)) (f.m 5 3) (f.m 3 2)
  | .cbld => .cbld h (Src.ofCode f.s1) (f.m 14 2) (f.m 12 2)
  | .cblook => .cblook h (Dst.ofCode f.dst) (Src.ofCode f.s1) (f.m 14 2) (f.m 12 2)
  | .setfmt => .setfmt h (Src.ofCode f.s1) (f.m 11 5)
  | .seal => .seal h (Dst.ofCode f.dst) (Src.ofCode f.s1) (Fmt.ofCode (f.m 8 4))
  | .amaxacc => .amaxacc h (Fmt.ofCode f.sub) (Dst.ofCode f.dst) (Src.ofCode f.s1) (Src.ofCode f.s2)
  | .contract => .contract h (CFmt.ofCode f.sub) (Src.ofCode f.s1) (Src.ofCode f.s2) (Src.ofCode f.s3) (f.m 14 2) (Shape.ofCode (f.m 12 2)) (boolOf (f.m 11 1)) (boolOf (f.m 10 1)) (f.m 8 2) (boolOf (f.m 7 1)) (boolOf (f.m 6 1)) (f.m 4 2)
  | .stay => .stay h (SFmt.ofCode f.sub) (Head.ofCode f.s1) (boolOf (f.m 7 1)) (boolOf (f.m 6 1))
  | .accz => .accz h (f.m 8 2)
  | .accrd => .accrd h (Fmt.ofCode f.sub) (Out.ofCode f.dst) (Rm.ofCode (f.m 13 3)) (boolOf (f.m 12 1)) (Shape.ofCode (f.m 10 2)) (f.m 8 2) (boolOf (f.m 7 1))
  | .accld => .accld h (Fmt.ofCode f.sub) (Head.ofCode f.s1) (Shape.ofCode (f.m 10 2)) (f.m 8 2)
  | .accsc => .accsc h (boolOf (f.sub.extractLsb' 0 1)) (Src.ofCode f.s1) (Rm.ofCode (f.m 13 3)) (boolOf (f.m 12 1)) (f.m 8 2)
  | .cturn => .cturn h (Out.ofCode f.dst) (Head.ofCode f.s1) (boolOf (f.m 15 1)) (f.m 7 8)
  | .gradpair => .gradpair h (CFmt.ofCode f.sub) (Head.ofCode f.s1) (Head.ofCode f.s2) (Shape.ofCode (f.m 14 2)) (Shape.ofCode (f.m 12 2)) (boolOf (f.m 11 1)) (boolOf (f.m 10 1)) (f.m 8 2) (boolOf (f.m 7 1)) (boolOf (f.m 6 1)) (f.m 4 2)
  | .isectMul => .isectMul h (Out.ofCode f.dst) (Head.ofCode f.s1) (Head.ofCode f.s2) (OFmt.ofCode (f.m 14 2)) (Rm.ofCode (f.m 11 3)) (f.m 4 4)
  | .isectDot => .isectDot h (Out.ofCode f.dst) (Head.ofCode f.s1) (OFmt.ofCode (f.m 14 2)) (Rm.ofCode (f.m 11 3)) (f.m 9 2) (boolOf (f.m 8 1)) (f.m 4 4)
  | .union => .union h (UOp.ofCode f.sub) (Out.ofCode f.dst) (Head.ofCode f.s1) (Head.ofCode f.s2) (OFmt.ofCode (f.m 14 2)) (Rm.ofCode (f.m 11 3)) (f.m 4 4)
  | .sacci => .sacci h (KTy.ofCode f.sub) (Head.ofCode f.s1) (f.m 8 2) (f.m 4 4) (f.m 0 4)
  | .saccf => .saccf h (KTy.ofCode f.sub) (Out.ofCode f.dst) (OFmt.ofCode (f.m 14 2)) (Rm.ofCode (f.m 11 3)) (f.m 8 2) (f.m 4 4)
  | .stop => .stop h (Out.ofCode f.dst) (f.m 12 4)
  | .rowf => .rowf h (RowOp.ofCode f.sub) (Src.ofCode f.s1) (Src.ofCode f.s2) (Src.ofCode f.s3) (Cmpl.ofCode (f.m 12 4)) (Fmt.ofCode (f.m 8 4)) (f.m 3 5)
  | .rowb => .rowb h (RowOp.ofCode f.sub) (Src.ofCode f.s1) (Src.ofCode f.s2) (Src.ofCode f.s3) (Cmpl.ofCode (f.m 12 4)) (Fmt.ofCode (f.m 8 4)) (f.m 3 5)
  | .xred => .xred h (Src.ofCode f.s1) (Src.ofCode f.s2) (Src.ofCode f.s3) (Cmpl.ofCode (f.m 12 4)) (Fmt.ofCode (f.m 8 4)) (f.m 0 8)
  | .ld => .ld h (MemTy.ofCode f.sub) (Dst.ofCode f.dst) (Src.ofCode f.s1) (Cmpl.ofCode (f.m 12 4))
  | .st => .st h (MemTy.ofCode f.sub) (Src.ofCode f.s1) (Src.ofCode f.s2) (Cmpl.ofCode (f.m 12 4))
  | .lds => .lds h (MemTy.ofCode f.sub) (Dst.ofCode f.dst) (Src.ofCode f.s1) (Cmpl.ofCode (f.m 12 4))
  | .sts => .sts h (MemTy.ofCode f.sub) (Src.ofCode f.s1) (Src.ofCode f.s2) (Cmpl.ofCode (f.m 12 4))
  | .tlook => .tlook h (Dst.ofCode f.dst) (Src.ofCode f.s1) (Cmpl.ofCode (f.m 12 4))
  | .tset => .tset h (Src.ofCode f.s1) (Src.ofCode f.s2) (Src.ofCode f.s3) (Cmpl.ofCode (f.m 12 4))
  | .tinv => .tinv h (Src.ofCode f.s1) (Cmpl.ofCode (f.m 12 4))
  | .ldfe => .ldfe h (Dst.ofCode f.dst) (Src.ofCode f.s1) (Cmpl.ofCode (f.m 12 4))
  | .stfe => .stfe h (Src.ofCode f.s1) (Src.ofCode f.s2) (Src.ofCode f.s3) (Cmpl.ofCode (f.m 12 4))
  | .stream => .stream h (Cmpl.ofCode f.sub) (Out.ofCode f.dst) (Src.ofCode f.s1) (Src.ofCode f.s2) f.mod
  | .stash => .stash h (Src.ofCode f.s1) (Src.ofCode f.s2) (Cmpl.ofCode (f.m 12 4)) (f.m 0 12)
  | .unstash => .unstash h (Out.ofCode f.dst) (Cmpl.ofCode (f.m 12 4)) (f.m 0 12)
  | .ldp => .ldp h (Dst.ofCode f.dst) (Src.ofCode f.s1) (Cmpl.ofCode (f.m 12 4))
  | .stp => .stp h (Src.ofCode f.s1) (Src.ofCode f.s2) (Cmpl.ofCode (f.m 12 4))
  | .clrp => .clrp h (Src.ofCode f.s1) (Src.ofCode f.s2) (Cmpl.ofCode (f.m 12 4))
  | .upd => .upd h (UpdOp.ofCode f.sub) (Src.ofCode f.s1) (Src.ofCode f.s2) (Cmpl.ofCode (f.m 12 4))
  | .ownEnter => .ownEnter h (Src.ofCode f.s1) (Src.ofCode f.s2) (Cmpl.ofCode (f.m 12 4))
  | .ownRelease => .ownRelease h (Src.ofCode f.s1) (Cmpl.ofCode (f.m 12 4))
  | .fencex => .fencex h (Cmpl.ofCode (f.m 12 4)) (Path.ofCode (f.m 8 4)) (Path.ofCode (f.m 4 4))
  | .cmplT => .cmplT h (Cmpl.ofCode (f.m 12 4))
  | .drain => .drain h 
  | .bcpost => .bcpost h (Src.ofCode f.s1) (Cmpl.ofCode (f.m 12 4)) (f.m 8 4)
  | .bcarm => .bcarm h (Src.ofCode f.s1) (Src.ofCode f.s2) (Cmpl.ofCode (f.m 12 4)) (f.m 8 4)
  | .copy => .copy h (Src.ofCode f.s1) (Src.ofCode f.s2) (Src.ofCode f.s3) (Cmpl.ofCode (f.m 12 4)) (boolOf (f.m 11 1)) (boolOf (f.m 10 1)) (boolOf (f.m 9 1)) (f.m 5 4) (f.m 0 5)
  | .copyqDeclare => .copyqDeclare h (Src.ofCode f.s1) (Src.ofCode f.s2) (Src.ofCode f.s3) (Cmpl.ofCode (f.m 12 4)) (f.m 0 5)
  | .copyqRelease => .copyqRelease h (Cmpl.ofCode (f.m 12 4)) (f.m 0 5)
  | .consumed => .consumed h (Cmpl.ofCode (f.m 12 4)) (f.m 0 5)
  | .coll => .coll h (CollOp.ofCode f.sub) (Src.ofCode f.s1) (Src.ofCode f.s2) (Src.ofCode f.s3) (Cmpl.ofCode (f.m 12 4)) (Fmt.ofCode (f.m 8 4)) (f.m 0 8)
  | .cabort => .cabort h (Cmpl.ofCode (f.m 12 4)) (f.m 0 8)
  | .kvappPut => .kvappPut h (Src.ofCode f.s1) (Src.ofCode f.s2) (Src.ofCode f.s3) (Cmpl.ofCode (f.m 12 4)) (f.m 4 8)
  | .kvappCommit => .kvappCommit h (Src.ofCode f.s1) (Src.ofCode f.s3) (Cmpl.ofCode (f.m 12 4))
  | .kvrot => .kvrot h (Out.ofCode f.dst) (Src.ofCode f.s1) (Cmpl.ofCode (f.m 12 4))
  | .steer => .steer h (Out.ofCode f.dst) (Head.ofCode f.s1) (f.m 13 3) (f.m 10 3)
  | .merge => .merge h (Out.ofCode f.dst) (Head.ofCode f.s1) (f.m 11 5) (f.m 6 5)
  | .fork => .fork h (Out.ofCode f.dst) (Head.ofCode f.s1) (f.m 8 8)
  | .sink => .sink h (f.m 11 5) (f.m 9 2)
  | .ctl => .ctl h (Out.ofCode f.dst) (Src.ofCode f.s1) f.mod
  | .cnt => .cnt h (Dst.ofCode f.dst) (Src.ofCode f.s1) (f.m 13 3) (f.m 0 13)
  | .loopopen => .loopopen h (Out.ofCode f.dst) (Src.ofCode f.s1) (f.m 12 4)
  | .loopdone => .loopdone h (Out.ofCode f.dst)
  | .gateSet => .gateSet h (Out.ofCode f.dst) (Src.ofCode f.s1) f.mod
  | .gateAdd => .gateAdd h (Out.ofCode f.dst) (Src.ofCode f.s1) f.mod
  | .gateOff => .gateOff h (Out.ofCode f.dst)
  | .splice => .splice h (f.m 8 8)
  | .plane => .plane h (f.m 8 8)
  | .rangeOpen => .rangeOpen h (Src.ofCode f.s1) (Src.ofCode f.s2) (Src.ofCode f.s3) (f.m 8 8)
  | .rangeTake => .rangeTake h (Dst.ofCode f.dst)
  | .rangeClose => .rangeClose h 
  | .join => .join h (boolOf (f.sub.extractLsb' 0 1)) (OutOpt.ofCode f.dst) (Src.ofCode f.s1) (Src.ofCode f.s2) (f.m 0 8)
  | .leave => .leave h (boolOf (f.sub.extractLsb' 0 1)) (f.m 0 8)
  | .bar => .bar h (boolOf (f.sub.extractLsb' 0 1)) (Out.ofCode f.dst) (f.m 0 8)
  | .launch => .launch h (OutOpt.ofCode f.dst) (Src.ofCode f.s1) (f.m 8 8) (f.m 3 5) (f.m 1 2) (boolOf (f.m 0 1))
  | .yield => .yield h (f.m 4 12)
  | .trap => .trap h (Src.ofCode f.s1) f.mod
  | .chkerr => .chkerr h (Head.ofCode f.s1) (f.m 13 3) (boolOf (f.m 12 1))
  | .faultrdWord => .faultrdWord h (Dst.ofCode f.dst) (Src.ofCode f.s1) (f.m 13 3)
  | .faultrdCount => .faultrdCount h (Dst.ofCode f.dst)
  | .markOwn => .markOwn h 
  | .markCohort => .markCohort h (OutOpt.ofCode f.dst) (f.m 8 8) (boolOf (f.m 7 1))
  | .snap => .snap h 
  | .resume => .resume h (OutOpt.ofCode f.dst) (Src.ofCode f.s1) (Src.ofCode f.s2) (f.m 3 5) (f.m 1 2) (boolOf (f.m 0 1))
  | .savesetDeclare => .savesetDeclare h (Dst.ofCode f.dst) (Src.ofCode f.s1) (Src.ofCode f.s2)
  | .savesetNotify => .savesetNotify h (Out.ofCode f.dst)
  | .savedropDeclaration => .savedropDeclaration h (Dst.ofCode f.dst) (Src.ofCode f.s1)
  | .savedropNotify => .savedropNotify h (Out.ofCode f.dst)
  | .pfack => .pfack h 
  | .replay => .replay h (Head.ofCode f.s1)


/-- Why a word gives no instruction: it is the empty-slot word (R28), or it has a reason of R43. -/
inductive Reject
  | emptySlot
  | configuration (code : Nat)
deriving DecidableEq, Repr

/-- The decoder: total on every word, for a plane that says `cx` of it. -/
def decodeIn (cx : WordCtx) (w : BitVec 128) : Except Reject Instr :=
  if w = 0#128 then .error .emptySlot
  else
    let f := splitWord w
    match reason cx f with
    | some c => .error (.configuration c)
    | none =>
      match opOf f.opc.toNat f.sub.toNat with
      | none => .error (.configuration 0x02)
      | some op => .ok (build op f)

/-- The instruction of a word of an active plane, which R43 has checked. -/
def decode (w : BitVec 128) : Option Instr :=
  match decodeIn {} w with
  | .ok i => some i
  | .error _ => none

/-- The 128-bit word whose 16 bytes stand in memory, bits 7:0 first (R27). -/
def wordOfBytes (bs : List Byte) : BitVec 128 := BitVec.ofNat 128 (ofLeBytes (bs.take 16))

/-- The decoder from bytes: a word takes 16 bytes, and the rest is left. -/
def decodeBytes (bs : List Byte) : Option (Instr × List Byte) :=
  if bs.length < 16 then none
  else (decode (wordOfBytes bs)).map fun i => (i, bs.drop 16)

/-- The instruction of the word whose bits are w, as spec/opcode_table.json numbers them. -/
def decodeTableWord (_nbits w : Nat) : Option Instr := (decodeBytes (leBytes 16 w)).map (·.1)

/-! ### The encoder -/

/-- The fields of a word with the guard and scheduling fields h and nothing in use. -/
def encHdr (h : Hdr) : RuleFields where
  pcare := h.pcare
  pval  := h.pval
  cta   := ChanTest.code h.cta
  ctb   := ChanTest.code h.ctb
  sbw   := slotCode h.sbw
  pset  := h.pset
  pclr  := h.pclr
  deq   := bitVecOf h.deqA ++ bitVecOf h.deqB
  prio  := h.prio
  rzHi  := 0
  opc   := 0
  sub   := 0
  dst   := 0x26
  s1    := 0x26
  s2    := 0x26
  s3    := 0x26
  mod   := 0
  stall := h.stall
  sbset := slotCode h.sbset
  reuse := h.reuse
  rzLo  := 0


/-- The fields of a rule instruction, at the codes of its encoding table; a step of the machine has none, and encodes
as the empty-slot word (R28). -/
def encodeFields : Instr → RuleFields
  | .nop h  => { encHdr h with opc := 0x00 }
  | .plog h pd pa pb tt => { encHdr h with opc := 0x01, mod := (pd ++ pa ++ pb ++ tt ++ 0#3) }
  | .cmp h ty s1 s2 pk cond => { encHdr h with opc := 0x02, sub := ty.code, s1 := (Src.code s1), s2 := (Src.code s2), mod := (pk ++ cond.code ++ 0#10) }
  | .tst h ty s1 s2 pk ifzero => { encHdr h with opc := 0x03, sub := ty.code, s1 := (Src.code s1), s2 := (Src.code s2), mod := (pk ++ (bitVecOf ifzero) ++ 0#12) }
  | .sel h dst s1 s2 pk => { encHdr h with opc := 0x04, dst := (Dst.code dst), s1 := (Src.code s1), s2 := (Src.code s2), mod := (pk ++ 0#13) }
  | .retire h  => { encHdr h with opc := 0x05 }
  | .add h ty dst s1 s2 imm => { encHdr h with opc := 0x10, sub := ty.code, dst := (Dst.code dst), s1 := (Src.code s1), s2 := (Src.code s2), mod := imm }
  | .sub h ty dst s1 s2 imm => { encHdr h with opc := 0x11, sub := ty.code, dst := (Dst.code dst), s1 := (Src.code s1), s2 := (Src.code s2), mod := imm }
  | .mul h ty dst s1 s2 imm => { encHdr h with opc := 0x12, sub := ty.code, dst := (Dst.code dst), s1 := (Src.code s1), s2 := (Src.code s2), mod := imm }
  | .mulh h ty dst s1 s2 imm => { encHdr h with opc := 0x13, sub := ty.code, dst := (Dst.code dst), s1 := (Src.code s1), s2 := (Src.code s2), mod := imm }
  | .mad h ty dst s1 s2 s3 imm => { encHdr h with opc := 0x14, sub := ty.code, dst := (Dst.code dst), s1 := (Src.code s1), s2 := (Src.code s2), s3 := (Src.code s3), mod := imm }
  | .div h ty dst s1 s2 imm => { encHdr h with opc := 0x15, sub := ty.code, dst := (Dst.code dst), s1 := (Src.code s1), s2 := (Src.code s2), mod := imm }
  | .min h ty dst s1 s2 imm => { encHdr h with opc := 0x16, sub := ty.code, dst := (Dst.code dst), s1 := (Src.code s1), s2 := (Src.code s2), mod := imm }
  | .max h ty dst s1 s2 imm => { encHdr h with opc := 0x17, sub := ty.code, dst := (Dst.code dst), s1 := (Src.code s1), s2 := (Src.code s2), mod := imm }
  | .abs h ty dst s1 imm => { encHdr h with opc := 0x18, sub := ty.code, dst := (Dst.code dst), s1 := (Src.code s1), mod := imm }
  | .neg h ty dst s1 imm => { encHdr h with opc := 0x19, sub := ty.code, dst := (Dst.code dst), s1 := (Src.code s1), mod := imm }
  | .and h ty dst s1 s2 imm => { encHdr h with opc := 0x1A, sub := ty.code, dst := (Dst.code dst), s1 := (Src.code s1), s2 := (Src.code s2), mod := imm }
  | .or h ty dst s1 s2 imm => { encHdr h with opc := 0x1B, sub := ty.code, dst := (Dst.code dst), s1 := (Src.code s1), s2 := (Src.code s2), mod := imm }
  | .xor h ty dst s1 s2 imm => { encHdr h with opc := 0x1C, sub := ty.code, dst := (Dst.code dst), s1 := (Src.code s1), s2 := (Src.code s2), mod := imm }
  | .andn h ty dst s1 s2 imm => { encHdr h with opc := 0x1D, sub := ty.code, dst := (Dst.code dst), s1 := (Src.code s1), s2 := (Src.code s2), mod := imm }
  | .not h ty dst s1 imm => { encHdr h with opc := 0x1E, sub := ty.code, dst := (Dst.code dst), s1 := (Src.code s1), mod := imm }
  | .addc h ty dst s1 s2 s3 pk => { encHdr h with opc := 0x1F, sub := ty.code, dst := (Dst.code dst), s1 := (Src.code s1), s2 := (Src.code s2), s3 := (Src.code s3), mod := (pk ++ 0#13) }
  | .shl h ty dst s1 s2 imm => { encHdr h with opc := 0x20, sub := ty.code, dst := (Dst.code dst), s1 := (Src.code s1), s2 := (Src.code s2), mod := imm }
  | .shr h ty dst s1 s2 imm => { encHdr h with opc := 0x21, sub := ty.code, dst := (Dst.code dst), s1 := (Src.code s1), s2 := (Src.code s2), mod := imm }
  | .sar h ty dst s1 s2 imm => { encHdr h with opc := 0x22, sub := ty.code, dst := (Dst.code dst), s1 := (Src.code s1), s2 := (Src.code s2), mod := imm }
  | .rot h ty dst s1 s2 imm => { encHdr h with opc := 0x23, sub := ty.code, dst := (Dst.code dst), s1 := (Src.code s1), s2 := (Src.code s2), mod := imm }
  | .clz h ty dst s1 imm => { encHdr h with opc := 0x24, sub := ty.code, dst := (Dst.code dst), s1 := (Src.code s1), mod := imm }
  | .popc h ty dst s1 imm => { encHdr h with opc := 0x25, sub := ty.code, dst := (Dst.code dst), s1 := (Src.code s1), mod := imm }
  | .ext h ty dst s1 pos len1 => { encHdr h with opc := 0x26, sub := ty.code, dst := (Dst.code dst), s1 := (Src.code s1), mod := (pos ++ len1 ++ 0#4) }
  | .ins h ty dst s1 s2 pos len1 => { encHdr h with opc := 0x27, sub := ty.code, dst := (Dst.code dst), s1 := (Src.code s1), s2 := (Src.code s2), mod := (pos ++ len1 ++ 0#4) }
  | .brev h ty dst s1 imm => { encHdr h with opc := 0x28, sub := ty.code, dst := (Dst.code dst), s1 := (Src.code s1), mod := imm }
  | .addr h dst s1 s2 sc off => { encHdr h with opc := 0x29, dst := (Dst.code dst), s1 := (Src.code s1), s2 := (Src.code s2), mod := (sc ++ off) }
  | .limm h clear chunk dst val => { encHdr h with opc := 0x2A, sub := (0#1 ++ (bitVecOf clear) ++ chunk), dst := (Dst.code dst), mod := val }
  | .mov h dst s1 imm => { encHdr h with opc := 0x2B, dst := (Dst.code dst), s1 := (Src.code s1), mod := imm }
  | .send h cls o s1 imm => { encHdr h with opc := 0x30, sub := cls.code, dst := (Out.code o), s1 := (Src.code s1), mod := imm }
  | .deq h ch cnt1 => { encHdr h with opc := 0x31, mod := (ch ++ cnt1 ++ 0#9) }
  | .fwd h o hd => { encHdr h with opc := 0x32, dst := (Out.code o), s1 := (Head.code hd) }
  | .tagof h dst hd => { encHdr h with opc := 0x33, dst := (Dst.code dst), s1 := (Head.code hd) }
  | .rdspec h dst num => { encHdr h with opc := 0x34, dst := (Dst.code dst), mod := (num ++ 0#8) }
  | .wrspec h s1 num => { encHdr h with opc := 0x35, s1 := (Src.code s1), mod := (num ++ 0#8) }
  | .fadd h ty dst s1 s2 rm ftz => { encHdr h with opc := 0x40, sub := ty.code, dst := (Dst.code dst), s1 := (Src.code s1), s2 := (Src.code s2), mod := (rm.code ++ (bitVecOf ftz) ++ 0#12) }
  | .fsub h ty dst s1 s2 rm ftz => { encHdr h with opc := 0x41, sub := ty.code, dst := (Dst.code dst), s1 := (Src.code s1), s2 := (Src.code s2), mod := (rm.code ++ (bitVecOf ftz) ++ 0#12) }
  | .fmul h ty dst s1 s2 rm ftz => { encHdr h with opc := 0x42, sub := ty.code, dst := (Dst.code dst), s1 := (Src.code s1), s2 := (Src.code s2), mod := (rm.code ++ (bitVecOf ftz) ++ 0#12) }
  | .fma h ty dst s1 s2 s3 rm ftz => { encHdr h with opc := 0x43, sub := ty.code, dst := (Dst.code dst), s1 := (Src.code s1), s2 := (Src.code s2), s3 := (Src.code s3), mod := (rm.code ++ (bitVecOf ftz) ++ 0#12) }
  | .fmin h ty dst s1 s2 => { encHdr h with opc := 0x44, sub := ty.code, dst := (Dst.code dst), s1 := (Src.code s1), s2 := (Src.code s2) }
  | .fmax h ty dst s1 s2 => { encHdr h with opc := 0x45, sub := ty.code, dst := (Dst.code dst), s1 := (Src.code s1), s2 := (Src.code s2) }
  | .fcmp h ty s1 s2 pk cond => { encHdr h with opc := 0x46, sub := ty.code, s1 := (Src.code s1), s2 := (Src.code s2), mod := (pk ++ cond.code ++ 0#10) }
  | .fabs h ty dst s1 => { encHdr h with opc := 0x47, sub := ty.code, dst := (Dst.code dst), s1 := (Src.code s1) }
  | .fneg h ty dst s1 => { encHdr h with opc := 0x48, sub := ty.code, dst := (Dst.code dst), s1 := (Src.code s1) }
  | .frcp h ty dst s1 rm ftz => { encHdr h with opc := 0x49, sub := ty.code, dst := (Dst.code dst), s1 := (Src.code s1), mod := (rm.code ++ (bitVecOf ftz) ++ 0#12) }
  | .frsq h ty dst s1 rm ftz => { encHdr h with opc := 0x4A, sub := ty.code, dst := (Dst.code dst), s1 := (Src.code s1), mod := (rm.code ++ (bitVecOf ftz) ++ 0#12) }
  | .fexp2 h ty dst s1 rm ftz => { encHdr h with opc := 0x4B, sub := ty.code, dst := (Dst.code dst), s1 := (Src.code s1), mod := (rm.code ++ (bitVecOf ftz) ++ 0#12) }
  | .flog2 h ty dst s1 rm ftz => { encHdr h with opc := 0x4C, sub := ty.code, dst := (Dst.code dst), s1 := (Src.code s1), mod := (rm.code ++ (bitVecOf ftz) ++ 0#12) }
  | .fscale h ty dst s1 s2 rm ftz => { encHdr h with opc := 0x4D, sub := ty.code, dst := (Dst.code dst), s1 := (Src.code s1), s2 := (Src.code s2), mod := (rm.code ++ (bitVecOf ftz) ++ 0#12) }
  | .fclass h ty dst s1 => { encHdr h with opc := 0x4E, sub := ty.code, dst := (Dst.code dst), s1 := (Src.code s1) }
  | .fsqrt h ty dst s1 rm ftz => { encHdr h with opc := 0x4F, sub := ty.code, dst := (Dst.code dst), s1 := (Src.code s1), mod := (rm.code ++ (bitVecOf ftz) ++ 0#12) }
  | .vadd h ty dst s1 s2 rm ftz => { encHdr h with opc := 0x50, sub := ty.code, dst := (Dst.code dst), s1 := (Src.code s1), s2 := (Src.code s2), mod := (rm.code ++ (bitVecOf ftz) ++ 0#12) }
  | .vsub h ty dst s1 s2 rm ftz => { encHdr h with opc := 0x51, sub := ty.code, dst := (Dst.code dst), s1 := (Src.code s1), s2 := (Src.code s2), mod := (rm.code ++ (bitVecOf ftz) ++ 0#12) }
  | .vmul h ty dst s1 s2 rm ftz => { encHdr h with opc := 0x52, sub := ty.code, dst := (Dst.code dst), s1 := (Src.code s1), s2 := (Src.code s2), mod := (rm.code ++ (bitVecOf ftz) ++ 0#12) }
  | .vfma h ty dst s1 s2 s3 rm ftz => { encHdr h with opc := 0x53, sub := ty.code, dst := (Dst.code dst), s1 := (Src.code s1), s2 := (Src.code s2), s3 := (Src.code s3), mod := (rm.code ++ (bitVecOf ftz) ++ 0#12) }
  | .vmin h ty dst s1 s2 => { encHdr h with opc := 0x54, sub := ty.code, dst := (Dst.code dst), s1 := (Src.code s1), s2 := (Src.code s2) }
  | .vmax h ty dst s1 s2 => { encHdr h with opc := 0x55, sub := ty.code, dst := (Dst.code dst), s1 := (Src.code s1), s2 := (Src.code s2) }
  | .vcmp h ty dst s1 s2 cond => { encHdr h with opc := 0x56, sub := ty.code, dst := (Dst.code dst), s1 := (Src.code s1), s2 := (Src.code s2), mod := (0#3 ++ cond.code ++ 0#10) }
  | .vsel h ty dst s1 s2 s3 => { encHdr h with opc := 0x57, sub := ty.code, dst := (Dst.code dst), s1 := (Src.code s1), s2 := (Src.code s2), s3 := (Src.code s3) }
  | .vsum h ty dst s1 rm ftz => { encHdr h with opc := 0x58, sub := ty.code, dst := (Dst.code dst), s1 := (Src.code s1), mod := (rm.code ++ (bitVecOf ftz) ++ 0#12) }
  | .vamax h ty dst s1 s2 => { encHdr h with opc := 0x59, sub := ty.code, dst := (Dst.code dst), s1 := (Src.code s1), s2 := (Src.code s2) }
  | .vshuf h ty dst s1 s2 z sel => { encHdr h with opc := 0x5A, sub := ty.code, dst := (Dst.code dst), s1 := (Src.code s1), s2 := (Src.code s2), mod := (z ++ sel) }
  | .vdot3 h ty dst s1 s2 s3 rm ftz => { encHdr h with opc := 0x5B, sub := ty.code, dst := (Dst.code dst), s1 := (Src.code s1), s2 := (Src.code s2), s3 := (Src.code s3), mod := (rm.code ++ (bitVecOf ftz) ++ 0#12) }
  | .cvt h tgt dst s1 rm ftz src fit => { encHdr h with opc := 0x60, sub := tgt.code, dst := (Dst.code dst), s1 := (Src.code s1), mod := (rm.code ++ (bitVecOf ftz) ++ src.code ++ fit ++ 0#4) }
  | .vcvt h tgt dst s1 rm ftz src part => { encHdr h with opc := 0x61, sub := tgt.code, dst := (Dst.code dst), s1 := (Src.code s1), mod := (rm.code ++ (bitVecOf ftz) ++ src.code ++ part ++ 0#4) }
  | .cvti h tgt dst s1 rm src uns => { encHdr h with opc := 0x62, sub := tgt.code, dst := (Dst.code dst), s1 := (Src.code s1), mod := (rm.code ++ 0#1 ++ src.code ++ (bitVecOf uns) ++ 0#7) }
  | .cvtf h tgt dst s1 rm ftz src uns => { encHdr h with opc := 0x63, sub := tgt.code, dst := (Dst.code dst), s1 := (Src.code s1), mod := (rm.code ++ (bitVecOf ftz) ++ src.code ++ (bitVecOf uns) ++ 0#7) }
  | .scaleq h tgt dst s1 s2 s3 rm ftz src byte part => { encHdr h with opc := 0x64, sub := tgt.code, dst := (Dst.code dst), s1 := (Src.code s1), s2 := (Src.code s2), s3 := (Src.code s3), mod := (rm.code ++ (bitVecOf ftz) ++ src.code ++ byte ++ part ++ 0#3) }
  | .scaledq h tgt dst s1 s2 rm ftz src byte part => { encHdr h with opc := 0x65, sub := tgt.code, dst := (Dst.code dst), s1 := (Src.code s1), s2 := (Src.code s2), mod := (rm.code ++ (bitVecOf ftz) ++ src.code ++ byte ++ part ++ 0#3) }
  | .cbld h s1 kc quarter => { encHdr h with opc := 0x66, s1 := (Src.code s1), mod := (kc ++ quarter ++ 0#12) }
  | .cblook h dst s1 kc part => { encHdr h with opc := 0x67, dst := (Dst.code dst), s1 := (Src.code s1), mod := (kc ++ part ++ 0#12) }
  | .setfmt h s1 ch => { encHdr h with opc := 0x68, s1 := (Src.code s1), mod := (ch ++ 0#11) }
  | .seal h dst s1 tgt => { encHdr h with opc := 0x69, dst := (Dst.code dst), s1 := (Src.code s1), mod := (0#4 ++ tgt.code ++ 0#8) }
  | .amaxacc h ty dst s1 s2 => { encHdr h with opc := 0x6A, sub := ty.code, dst := (Dst.code dst), s1 := (Src.code s1), s2 := (Src.code s2) }
  | .contract h fmt s1 s2 s3 role sv uidx vidx acc stile ovw half => { encHdr h with opc := 0x70, sub := fmt.code, s1 := (Src.code s1), s2 := (Src.code s2), s3 := (Src.code s3), mod := (role ++ sv.code ++ (bitVecOf uidx) ++ (bitVecOf vidx) ++ acc ++ (bitVecOf stile) ++ (bitVecOf ovw) ++ half ++ 0#4) }
  | .stay h fmt hd stile cm => { encHdr h with opc := 0x71, sub := fmt.code, s1 := (Head.code hd), mod := (0#8 ++ (bitVecOf stile) ++ (bitVecOf cm) ++ 0#6) }
  | .accz h acc => { encHdr h with opc := 0x72, mod := (0#6 ++ acc ++ 0#8) }
  | .accrd h tgt o rm ftz shape acc ovr => { encHdr h with opc := 0x73, sub := tgt.code, dst := (Out.code o), mod := (rm.code ++ (bitVecOf ftz) ++ shape.code ++ acc ++ (bitVecOf ovr) ++ 0#7) }
  | .accld h src hd shape acc => { encHdr h with opc := 0x74, sub := src.code, s1 := (Head.code hd), mod := (0#4 ++ shape.code ++ acc ++ 0#8) }
  | .accsc h e8m0 s1 rm ftz acc => { encHdr h with opc := 0x75, sub := (0#3 ++ (bitVecOf e8m0)), s1 := (Src.code s1), mod := (rm.code ++ (bitVecOf ftz) ++ 0#2 ++ acc ++ 0#8) }
  | .cturn h o hd node blk1 => { encHdr h with opc := 0x76, dst := (Out.code o), s1 := (Head.code hd), mod := ((bitVecOf node) ++ blk1 ++ 0#7) }
  | .gradpair h fmt hd0 hd1 sv1 sv0 idx0 idx1 acc0 stile ovw acc1 => { encHdr h with opc := 0x77, sub := fmt.code, s1 := (Head.code hd0), s2 := (Head.code hd1), mod := (sv1.code ++ sv0.code ++ (bitVecOf idx0) ++ (bitVecOf idx1) ++ acc0 ++ (bitVecOf stile) ++ (bitVecOf ovw) ++ acc1 ++ 0#4) }
  | .isectMul h o hd0 hd1 ofmt rm lvl => { encHdr h with opc := 0x80, dst := (Out.code o), s1 := (Head.code hd0), s2 := (Head.code hd1), mod := (ofmt.code ++ rm.code ++ 0#2 ++ 0#1 ++ lvl ++ 0#4) }
  | .isectDot h o hd0 ofmt rm acc flat lvl => { encHdr h with opc := 0x80, sub := 1, dst := (Out.code o), s1 := (Head.code hd0), mod := (ofmt.code ++ rm.code ++ acc ++ (bitVecOf flat) ++ lvl ++ 0#4) }
  | .union h op o hd0 hd1 ofmt rm lvl => { encHdr h with opc := 0x81, sub := op.code, dst := (Out.code o), s1 := (Head.code hd0), s2 := (Head.code hd1), mod := (ofmt.code ++ rm.code ++ 0#3 ++ lvl ++ 0#4) }
  | .sacci h kd hd acc lvl row => { encHdr h with opc := 0x82, sub := kd.code, s1 := (Head.code hd), mod := (0#6 ++ acc ++ lvl ++ row) }
  | .saccf h kd o ofmt rm acc lvl => { encHdr h with opc := 0x83, sub := kd.code, dst := (Out.code o), mod := (ofmt.code ++ rm.code ++ 0#1 ++ acc ++ lvl ++ 0#4) }
  | .stop h o lvl => { encHdr h with opc := 0x84, dst := (Out.code o), mod := (lvl ++ 0#12) }
  | .rowf h op s1 s2 s3 cm fmt eps => { encHdr h with opc := 0x85, sub := op.code, s1 := (Src.code s1), s2 := (Src.code s2), s3 := (Src.code s3), mod := ((Cmpl.code cm) ++ fmt.code ++ eps ++ 0#3) }
  | .rowb h op s1 s2 s3 cm fmt eps => { encHdr h with opc := 0x86, sub := op.code, s1 := (Src.code s1), s2 := (Src.code s2), s3 := (Src.code s3), mod := ((Cmpl.code cm) ++ fmt.code ++ eps ++ 0#3) }
  | .xred h s1 s2 s3 cm fmt coh => { encHdr h with opc := 0x87, s1 := (Src.code s1), s2 := (Src.code s2), s3 := (Src.code s3), mod := ((Cmpl.code cm) ++ fmt.code ++ coh) }
  | .ld h ty dst s1 cm => { encHdr h with opc := 0x90, sub := ty.code, dst := (Dst.code dst), s1 := (Src.code s1), mod := ((Cmpl.code cm) ++ 0#12) }
  | .st h ty s1 s2 cm => { encHdr h with opc := 0x91, sub := ty.code, s1 := (Src.code s1), s2 := (Src.code s2), mod := ((Cmpl.code cm) ++ 0#12) }
  | .lds h ty dst s1 cm => { encHdr h with opc := 0x92, sub := ty.code, dst := (Dst.code dst), s1 := (Src.code s1), mod := ((Cmpl.code cm) ++ 0#12) }
  | .sts h ty s1 s2 cm => { encHdr h with opc := 0x93, sub := ty.code, s1 := (Src.code s1), s2 := (Src.code s2), mod := ((Cmpl.code cm) ++ 0#12) }
  | .tlook h dst s1 cm => { encHdr h with opc := 0x94, dst := (Dst.code dst), s1 := (Src.code s1), mod := ((Cmpl.code cm) ++ 0#12) }
  | .tset h s1 s2 s3 cm => { encHdr h with opc := 0x95, s1 := (Src.code s1), s2 := (Src.code s2), s3 := (Src.code s3), mod := ((Cmpl.code cm) ++ 0#12) }
  | .tinv h s1 cm => { encHdr h with opc := 0x96, s1 := (Src.code s1), mod := ((Cmpl.code cm) ++ 0#12) }
  | .ldfe h dst s1 cm => { encHdr h with opc := 0x97, dst := (Dst.code dst), s1 := (Src.code s1), mod := ((Cmpl.code cm) ++ 0#12) }
  | .stfe h s1 s2 s3 cm => { encHdr h with opc := 0x98, s1 := (Src.code s1), s2 := (Src.code s2), s3 := (Src.code s3), mod := ((Cmpl.code cm) ++ 0#12) }
  | .stream h cm o s1 s2 imm => { encHdr h with opc := 0x99, sub := (Cmpl.code cm), dst := (Out.code o), s1 := (Src.code s1), s2 := (Src.code s2), mod := imm }
  | .stash h s1 s2 cm key => { encHdr h with opc := 0x9A, s1 := (Src.code s1), s2 := (Src.code s2), mod := ((Cmpl.code cm) ++ key) }
  | .unstash h o cm key => { encHdr h with opc := 0x9B, dst := (Out.code o), mod := ((Cmpl.code cm) ++ key) }
  | .ldp h dst s1 cm => { encHdr h with opc := 0xA0, dst := (Dst.code dst), s1 := (Src.code s1), mod := ((Cmpl.code cm) ++ 0#12) }
  | .stp h s1 s2 cm => { encHdr h with opc := 0xA1, s1 := (Src.code s1), s2 := (Src.code s2), mod := ((Cmpl.code cm) ++ 0#12) }
  | .clrp h s1 s2 cm => { encHdr h with opc := 0xA2, s1 := (Src.code s1), s2 := (Src.code s2), mod := ((Cmpl.code cm) ++ 0#12) }
  | .upd h op s1 s2 cm => { encHdr h with opc := 0xA3, sub := op.code, s1 := (Src.code s1), s2 := (Src.code s2), mod := ((Cmpl.code cm) ++ 0#12) }
  | .ownEnter h s1 s2 cm => { encHdr h with opc := 0xA4, s1 := (Src.code s1), s2 := (Src.code s2), mod := ((Cmpl.code cm) ++ 0#12) }
  | .ownRelease h s1 cm => { encHdr h with opc := 0xA4, sub := 1, s1 := (Src.code s1), mod := ((Cmpl.code cm) ++ 0#12) }
  | .fencex h cm x y => { encHdr h with opc := 0xA5, mod := ((Cmpl.code cm) ++ x.code ++ y.code ++ 0#4) }
  | .cmplT h cm => { encHdr h with opc := 0xA6, mod := ((Cmpl.code cm) ++ 0#12) }
  | .drain h  => { encHdr h with opc := 0xA7 }
  | .bcpost h s1 cm bar => { encHdr h with opc := 0xA8, s1 := (Src.code s1), mod := ((Cmpl.code cm) ++ bar ++ 0#8) }
  | .bcarm h s1 s2 cm bar => { encHdr h with opc := 0xA9, s1 := (Src.code s1), s2 := (Src.code s2), mod := ((Cmpl.code cm) ++ bar ++ 0#8) }
  | .copy h s1 s2 s3 cm dts sts refill q buf => { encHdr h with opc := 0xB0, s1 := (Src.code s1), s2 := (Src.code s2), s3 := (Src.code s3), mod := ((Cmpl.code cm) ++ (bitVecOf dts) ++ (bitVecOf sts) ++ (bitVecOf refill) ++ q ++ buf) }
  | .copyqDeclare h s1 s2 s3 cm buf => { encHdr h with opc := 0xB1, s1 := (Src.code s1), s2 := (Src.code s2), s3 := (Src.code s3), mod := ((Cmpl.code cm) ++ 0#7 ++ buf) }
  | .copyqRelease h cm buf => { encHdr h with opc := 0xB1, sub := 1, mod := ((Cmpl.code cm) ++ 0#7 ++ buf) }
  | .consumed h cm buf => { encHdr h with opc := 0xB2, mod := ((Cmpl.code cm) ++ 0#7 ++ buf) }
  | .coll h op s1 s2 s3 cm fmt coh => { encHdr h with opc := 0xB3, sub := op.code, s1 := (Src.code s1), s2 := (Src.code s2), s3 := (Src.code s3), mod := ((Cmpl.code cm) ++ fmt.code ++ coh) }
  | .cabort h cm coh => { encHdr h with opc := 0xB4, mod := ((Cmpl.code cm) ++ 0#4 ++ coh) }
  | .kvappPut h s1 s2 s3 cm layer => { encHdr h with opc := 0xB5, s1 := (Src.code s1), s2 := (Src.code s2), s3 := (Src.code s3), mod := ((Cmpl.code cm) ++ layer ++ 0#4) }
  | .kvappCommit h s1 s3 cm => { encHdr h with opc := 0xB5, sub := 1, s1 := (Src.code s1), s3 := (Src.code s3), mod := ((Cmpl.code cm) ++ 0#12) }
  | .kvrot h o s1 cm => { encHdr h with opc := 0xB6, dst := (Out.code o), s1 := (Src.code s1), mod := ((Cmpl.code cm) ++ 0#12) }
  | .steer h o hd pk o2 => { encHdr h with opc := 0xC0, dst := (Out.code o), s1 := (Head.code hd), mod := (pk ++ o2 ++ 0#10) }
  | .merge h o hd va vb => { encHdr h with opc := 0xC1, dst := (Out.code o), s1 := (Head.code hd), mod := (va ++ vb ++ 0#6) }
  | .fork h o hd also => { encHdr h with opc := 0xC2, dst := (Out.code o), s1 := (Head.code hd), mod := (also ++ 0#8) }
  | .sink h ch cnt1 => { encHdr h with opc := 0xC3, mod := (ch ++ cnt1 ++ 0#9) }
  | .ctl h o s1 imm => { encHdr h with opc := 0xC4, dst := (Out.code o), s1 := (Src.code s1), mod := imm }
  | .cnt h dst s1 pk lim1 => { encHdr h with opc := 0xC5, dst := (Dst.code dst), s1 := (Src.code s1), mod := (pk ++ lim1) }
  | .loopopen h o s1 dep1 => { encHdr h with opc := 0xC6, dst := (Out.code o), s1 := (Src.code s1), mod := (dep1 ++ 0#12) }
  | .loopdone h o => { encHdr h with opc := 0xC7, dst := (Out.code o) }
  | .gateSet h o s1 imm => { encHdr h with opc := 0xC8, dst := (Out.code o), s1 := (Src.code s1), mod := imm }
  | .gateAdd h o s1 imm => { encHdr h with opc := 0xC8, sub := 1, dst := (Out.code o), s1 := (Src.code s1), mod := imm }
  | .gateOff h o => { encHdr h with opc := 0xC8, sub := 2, dst := (Out.code o) }
  | .splice h rgn => { encHdr h with opc := 0xD0, mod := (rgn ++ 0#8) }
  | .plane h rgn => { encHdr h with opc := 0xD1, mod := (rgn ++ 0#8) }
  | .rangeOpen h s1 s2 s3 p1 => { encHdr h with opc := 0xD2, s1 := (Src.code s1), s2 := (Src.code s2), s3 := (Src.code s3), mod := (p1 ++ 0#8) }
  | .rangeTake h dst => { encHdr h with opc := 0xD2, sub := 1, dst := (Dst.code dst) }
  | .rangeClose h  => { encHdr h with opc := 0xD2, sub := 2 }
  | .join h rgn od s1 s2 coh => { encHdr h with opc := 0xD3, sub := (0#3 ++ (bitVecOf rgn)), dst := (OutOpt.code od), s1 := (Src.code s1), s2 := (Src.code s2), mod := (0#8 ++ coh) }
  | .leave h rgn coh => { encHdr h with opc := 0xD4, sub := (0#3 ++ (bitVecOf rgn)), mod := (0#8 ++ coh) }
  | .bar h rgn o coh => { encHdr h with opc := 0xD5, sub := (0#3 ++ (bitVecOf rgn)), dst := (Out.code o), mod := (0#8 ++ coh) }
  | .launch h od s1 rgn q prio flt => { encHdr h with opc := 0xD6, dst := (OutOpt.code od), s1 := (Src.code s1), mod := (rgn ++ q ++ prio ++ (bitVecOf flt)) }
  | .yield h cyc1 => { encHdr h with opc := 0xD7, mod := (cyc1 ++ 0#4) }
  | .trap h s1 code => { encHdr h with opc := 0xE0, s1 := (Src.code s1), mod := code }
  | .chkerr h hd pk clean => { encHdr h with opc := 0xE1, s1 := (Head.code hd), mod := (pk ++ (bitVecOf clean) ++ 0#12) }
  | .faultrdWord h dst s1 wsel => { encHdr h with opc := 0xE2, dst := (Dst.code dst), s1 := (Src.code s1), mod := (wsel ++ 0#13) }
  | .faultrdCount h dst => { encHdr h with opc := 0xE2, sub := 1, dst := (Dst.code dst) }
  | .markOwn h  => { encHdr h with opc := 0xE3 }
  | .markCohort h od coh req => { encHdr h with opc := 0xE3, sub := 1, dst := (OutOpt.code od), mod := (coh ++ (bitVecOf req) ++ 0#7) }
  | .snap h  => { encHdr h with opc := 0xE4 }
  | .resume h od s1 s2 q prio flt => { encHdr h with opc := 0xE5, dst := (OutOpt.code od), s1 := (Src.code s1), s2 := (Src.code s2), mod := (0#8 ++ q ++ prio ++ (bitVecOf flt)) }
  | .savesetDeclare h dst s1 s2 => { encHdr h with opc := 0xE6, dst := (Dst.code dst), s1 := (Src.code s1), s2 := (Src.code s2) }
  | .savesetNotify h o => { encHdr h with opc := 0xE6, sub := 1, dst := (Out.code o) }
  | .savedropDeclaration h dst s1 => { encHdr h with opc := 0xE7, dst := (Dst.code dst), s1 := (Src.code s1) }
  | .savedropNotify h o => { encHdr h with opc := 0xE7, sub := 1, dst := (Out.code o) }
  | .pfack h  => { encHdr h with opc := 0xE8 }
  | .replay h hd => { encHdr h with opc := 0xE9, s1 := (Head.code hd) }
  | .cellRound .. => splitWord 0
  | .resultWrite .. => splitWord 0
  | .tokenArrival .. => splitWord 0
  | .flitHop .. => splitWord 0
  | .accessPerformed .. => splitWord 0
  | .translationWalkDone .. => splitWord 0
  | .ownerUpdateApply .. => splitWord 0
  | .streamTokenSend .. => splitWord 0
  | .runTokenSend .. => splitWord 0
  | .contractionStep .. => splitWord 0
  | .stayTokenTake .. => splitWord 0
  | .accldTokenTake .. => splitWord 0
  | .cornerTurnToken .. => splitWord 0
  | .sparseUnitToken .. => splitWord 0
  | .loopStep .. => splitWord 0
  | .copyPerformed .. => splitWord 0
  | .refillStart .. => splitWord 0
  | .collectivePerformed .. => splitWord 0
  | .xredPerformed .. => splitWord 0
  | .abortTokenReceive .. => splitWord 0
  | .collectiveMemberTimeout .. => splitWord 0
  | .barComplete .. => splitWord 0
  | .joinRecordReceive .. => splitWord 0
  | .rowCommandPerformed .. => splitWord 0
  | .stashPerformed .. => splitWord 0
  | .kvCommandPerformed .. => splitWord 0
  | .layerPowerOff .. => splitWord 0
  | .layerWakeDone .. => splitWord 0
  | .drainReachTile .. => splitWord 0
  | .drainPassedTile .. => splitWord 0
  | .regionEnd .. => splitWord 0
  | .planeLoad .. => splitWord 0
  | .planeActivate .. => splitWord 0
  | .launchDispatch .. => splitWord 0
  | .dispatchEnable .. => splitWord 0
  | .watchdogStall .. => splitWord 0
  | .yieldEnd .. => splitWord 0
  | .stateScrub .. => splitWord 0
  | .freezeReachTile .. => splitWord 0
  | .traverseBegin .. => splitWord 0
  | .traverseReachTile .. => splitWord 0
  | .cellSave .. => splitWord 0
  | .snapForcedSave .. => splitWord 0
  | .traverseComplete .. => splitWord 0
  | .restore .. => splitWord 0
  | .rowAlert .. => splitWord 0
  | .neighbourRefreshDone .. => splitWord 0
  | .refreshPass .. => splitWord 0
  | .packetReceive .. => splitWord 0
  | .powerFailTrap .. => splitWord 0
  | .graceEnd .. => splitWord 0
  | .runOutEnd .. => splitWord 0
  | .powerOnStart .. => splitWord 0
  | .selfTestEnd .. => splitWord 0
  | .thermalThrottle .. => splitWord 0
  | .overtempFreeze .. => splitWord 0
  | .loadImage .. => splitWord 0
  | .launchNew .. => splitWord 0
  | .launchResume .. => splitWord 0
  | .launchDiscard .. => splitWord 0
  | .launchContinue .. => splitWord 0
  | .statusSaggar .. => splitWord 0
  | .statusLog .. => splitWord 0
  | .statusMgmt .. => splitWord 0
  | .attest .. => splitWord 0
  | .keyExchange .. => splitWord 0
  | .kill .. => splitWord 0
  | .killScrubComplete .. => splitWord 0
  | .readout .. => splitWord 0
  | .unloadImage .. => splitWord 0
  | .colthrWrite .. => splitWord 0
  | .rmthrWrite .. => splitWord 0
  | .mgmtRegWrite .. => splitWord 0
  | .saveDeclarationAnswer .. => splitWord 0
  | .linkTraining .. => splitWord 0

/-- The word of a rule instruction (R27). -/
def encode (i : Instr) : BitVec 128 := joinWord (encodeFields i)

/-- The bytes of a rule instruction as a plane holds them, bits 7:0 first (R27). -/
def encodeBytes (i : Instr) : List Byte := leBytes 16 (encode i).toNat


end Sys2Proof
end

