-- ==== Sys2Proof/Machine/Float.lean ====
section
/-! DEFINITION. Numbers: exact values, the formats of R158 to R163, rounding (R165 to R168), conversions (R170 to R173) and
the exact arithmetic that the instructions of groups 0x4_ to 0x8_ round. -/

namespace Sys2Proof.Machine

/-- An exact real, an infinity or a NaN. A finite value is `(-1)^neg * (m + x) * 2^e` with `x = 0`, or with some `x`
strictly between 0 and 1 when `stk` is set: a real known to as many bits as any rounding looks at. -/
inductive FVal
  | nan (neg : Bool)
  | inf (neg : Bool)
  | fin (neg : Bool) (m : Nat) (e : Int) (stk : Bool)
deriving DecidableEq, Repr

/-- A floating-point format (R159): exponent and fraction widths, bias, and whether it is E4M3, which has no infinity. -/
structure FFmt where
  ew   : Nat
  mw   : Nat
  bias : Nat
  e4m3 : Bool := false
deriving DecidableEq, Repr

def fp64 : FFmt := { ew := 11, mw := 52, bias := 1023 }
def fp32 : FFmt := { ew := 8, mw := 23, bias := 127 }
def bf16 : FFmt := { ew := 8, mw := 7, bias := 127 }
def fp16 : FFmt := { ew := 5, mw := 10, bias := 15 }
def e4m3 : FFmt := { ew := 4, mw := 3, bias := 7, e4m3 := true }
def e5m2 : FFmt := { ew := 5, mw := 2, bias := 15 }

/-- The width of an encoding. -/
def FFmt.width (f : FFmt) : Nat := 1 + f.ew + f.mw

/-- The two FP8 formats saturate (R166). -/
def FFmt.saturates (f : FFmt) : Bool := f.width == 8

/-- The floating-point format of a format code (R158); none for the others. -/
def fpOf? : Fmt → Option FFmt
  | .fp64 => some Machine.fp64
  | .fp32 => some Machine.fp32
  | .bf16 => some Machine.bf16
  | .fp16 => some Machine.fp16
  | .e4m3 => some Machine.e4m3
  | .e5m2 => some Machine.e5m2
  | _ => none

/-- The greatest exponent field of a finite value. -/
def FFmt.topExp (f : FFmt) : Nat := if f.e4m3 then 2 ^ f.ew - 1 else 2 ^ f.ew - 2

/-- The encoding of the largest finite magnitude (R160). -/
def FFmt.maxBits (f : FFmt) : Nat := (f.topExp <<< f.mw) + (if f.e4m3 then 2 ^ f.mw - 2 else 2 ^ f.mw - 1)

/-- The encoding with a sign. -/
def FFmt.signed (f : FFmt) (neg : Bool) (b : Nat) : Nat := b2n neg <<< (f.ew + f.mw) ||| b

/-- The infinity of a sign (R160); E4M3 has none and gives its canonical NaN (R165). -/
def FFmt.infBits (f : FFmt) (neg : Bool) : Nat :=
  f.signed neg (if f.e4m3 then 2 ^ (f.ew + f.mw) - 1 else (2 ^ f.ew - 1) <<< f.mw)

/-- The canonical NaN of a sign (R160, R161). -/
def FFmt.nanBits (f : FFmt) (neg : Bool) : Nat :=
  f.signed neg (if f.e4m3 then 2 ^ (f.ew + f.mw) - 1 else ((2 ^ f.ew - 1) <<< f.mw) + 2 ^ (f.mw - 1))

/-- The value of an encoding (R159). -/
def FFmt.decode (f : FFmt) (b : Nat) : FVal :=
  let neg := b.testBit (f.ew + f.mw)
  let e := bits b f.mw f.ew
  let m := bits b 0 f.mw
  let emin : Int := 1 - f.bias - f.mw
  if e = 2 ^ f.ew - 1 ∧ (f.e4m3 = false ∨ m = 2 ^ f.mw - 1) then
    if m = 0 then .inf neg else .nan neg
  else if e = 0 then .fin neg m emin false
  else .fin neg (2 ^ f.mw + m) (emin + (e - 1 : Nat)) false

/-- An encoding is subnormal. -/
def FFmt.isSubnormal (f : FFmt) (b : Nat) : Bool := bits b f.mw f.ew == 0 && bits b 0 f.mw != 0

/-- The sign bit alone, which is the zero of an encoding's sign. -/
def FFmt.zeroOf (f : FFmt) (b : Nat) : Nat := f.signed (b.testBit (f.ew + f.mw)) 0

/-! ### The rounding environment: the LFSR and the sticky flags -/

/-- What rounding reads and changes: the LFSR (R168) and the flags raised so far (R169). -/
structure REnv where
  lfsr  : BitVec 32 := 1
  flags : BitVec 6 := 0
deriving DecidableEq, Repr

def flagInvalid : BitVec 6 := 0x01
def flagDivZero : BitVec 6 := 0x02
def flagOverflow : BitVec 6 := 0x04
def flagUnderflow : BitVec 6 := 0x08
def flagInexact : BitVec 6 := 0x10
def flagIntOverflow : BitVec 6 := 0x20

def REnv.raise (r : REnv) (f : BitVec 6) : REnv := { r with flags := r.flags ||| f }
def REnv.raiseIf (r : REnv) (c : Bool) (f : BitVec 6) : REnv := if c then r.raise f else r

/-- One step of the LFSR (R42). -/
def lfsrNext (l : BitVec 32) : BitVec 32 :=
  let s := l >>> 1
  if l.getLsbD 0 then s ^^^ 0x80200003#32 else s

/-- The LFSR steps once for every value rounded under .sr (R168). (DEDUCED, log entry 17.) -/
def REnv.stepSr (r : REnv) (rm : Rm) : REnv :=
  match rm with
  | .sr => { r with lfsr := lfsrNext r.lfsr }
  | _ => r

/-! ### Rounding (R165 to R168) -/

/-- The part of a magnitude below its last kept place: `num / 2^sh` of that place, and a little more when `stk`. -/
structure Frac where
  num : Nat
  sh  : Nat
  stk : Bool
deriving DecidableEq, Repr

def Frac.isZero (f : Frac) : Bool := f.num == 0 && !f.stk

/-- Whether the magnitude goes up to its next place, under a mode with the LFSR value r (R165, R168). -/
def Frac.up (f : Frac) (rm : Rm) (neg odd : Bool) (r : Nat) : Bool :=
  if f.isZero then false
  else match rm with
  | .rne => decide (2 ^ f.sh < 2 * f.num) || (2 * f.num == 2 ^ f.sh && (f.stk || odd))
  | .rz => false
  | .rd => neg
  | .ru => !neg
  | .sr =>
    if neg then
      -- lo is the greater magnitude: floor((x - lo) * 2^32 / (hi - lo)), and r < t keeps the smaller magnitude
      let whole := (2 ^ f.sh - f.num) * 2 ^ 32
      let t := if f.stk then (whole - 1) / 2 ^ f.sh else whole / 2 ^ f.sh
      !(decide (r < t))
    else decide (r < f.num * 2 ^ 32 / 2 ^ f.sh)

/-- A finite non-zero magnitude split at the place 2^q: the whole part and the rest. -/
def splitAt (m : Nat) (e q : Int) (stk : Bool) : Nat × Frac :=
  if q ≤ e then
    (m <<< (e - q).toNat, { num := 0, sh := 1, stk := stk })
  else
    let sh := (q - e).toNat
    (m >>> sh, { num := m % 2 ^ sh, sh := sh, stk := stk })

/-- The result of overflow (R166). -/
def FFmt.overflowBits (f : FFmt) (rm : Rm) (neg : Bool) : Nat :=
  let max := f.signed neg f.maxBits
  let inf := f.infBits neg
  if f.saturates then max
  else match rm with
  | .rne => inf
  | .rz | .sr => max
  | .rd => if neg then inf else max
  | .ru => if neg then max else inf

/-- The encoding of the magnitude n * 2^q of a format, where q is the place of its last fraction bit and n has at most
one bit more than the fraction. -/
def FFmt.encodeMag (f : FFmt) (n : Nat) (q : Int) : Nat :=
  if n < 2 ^ f.mw then n
  else ((q + f.mw + f.bias).toNat <<< f.mw) + (n - 2 ^ f.mw)

/-- fp_round (R42, R165): the encoding, and the environment with the flags raised and the LFSR stepped. -/
def fpRound (f : FFmt) (rm : Rm) (ftz : Bool) (x : FVal) (env : REnv) : Nat × REnv :=
  let env := env.stepSr rm
  match x with
  | .nan neg => (f.nanBits neg, env)
  | .inf neg => (f.infBits neg, env.raiseIf f.e4m3 flagInvalid)
  | .fin neg m e stk =>
    if m = 0 ∧ stk = false then (f.signed neg 0, env)
    else
      let emin : Int := 1 - f.bias
      let top : Int := if m = 0 then e - 1 else e + Nat.log2 m
      let q : Int := max top emin - f.mw
      let (n, fr) := splitAt m e q stk
      let up := fr.up rm neg (n % 2 == 1) env.lfsr.toNat
      let n' := if up then n + 1 else n
      let inexact := !fr.isZero
      let b := f.encodeMag n' q
      if f.maxBits < b then (f.overflowBits rm neg, env.raise (flagOverflow ||| flagInexact))
      else
        let tiny := decide (n' < 2 ^ f.mw)
        let env := env.raiseIf inexact flagInexact
        let env := env.raiseIf (tiny && inexact) flagUnderflow
        if ftz && tiny && n' != 0 then (f.signed neg 0, env.raise (flagUnderflow ||| flagInexact))
        else (f.signed neg b, env)

/-! ### Exact arithmetic -/

/-- A value, and whether the operation that gave it is invalid (R161). -/
structure FRes where
  val     : FVal
  invalid : Bool := false
  divZero : Bool := false
deriving DecidableEq, Repr

def FRes.bad : FRes := { val := .nan false, invalid := true }

def FVal.isNan : FVal → Bool
  | .nan _ => true
  | _ => false

def FVal.isInf : FVal → Bool
  | .inf _ => true
  | _ => false

def FVal.isZero : FVal → Bool
  | .fin _ m _ stk => m == 0 && !stk
  | _ => false

def FVal.neg? : FVal → Bool
  | .nan n => n
  | .inf n => n
  | .fin n _ _ _ => n

def FVal.negate : FVal → FVal
  | .nan n => .nan (!n)
  | .inf n => .inf (!n)
  | .fin n m e s => .fin (!n) m e s

def FVal.abs : FVal → FVal
  | .nan _ => .nan false
  | .inf _ => .inf false
  | .fin _ m e s => .fin false m e s

def FVal.zero (neg : Bool := false) : FVal := .fin neg 0 0 false
def FVal.one : FVal := .fin false 1 0 false

/-- The exact value of an integer. -/
def FVal.ofInt (x : Int) : FVal := .fin (decide (x < 0)) x.natAbs 0 false

/-- The signed mantissa of an exact finite value at the place 2^e', which is at most its own. -/
def FVal.scaledAt (x : FVal) (e' : Int) : Int :=
  match x with
  | .fin n m e _ => let v : Int := (m <<< (e - e').toNat : Nat); if n then -v else v
  | _ => 0

/-- The exponent of an exact finite value's last bit. -/
def FVal.exp : FVal → Int
  | .fin _ _ e _ => e
  | _ => 0

/-- The first NaN among the operands, in order (R161). (DEDUCED, log entry 19.) -/
def firstNan (xs : List FVal) : Option FVal := xs.find? FVal.isNan

/-- The exact value with mantissa v at 2^e; a zero takes the sign given. -/
def FVal.mk (v : Int) (e : Int) (zeroNeg : Bool) : FVal :=
  if v = 0 then .fin zeroNeg 0 0 false else .fin (decide (v < 0)) v.natAbs e false

/-- The product of two exact values. -/
def fmulV (a b : FVal) : FRes :=
  match firstNan [a, b] with
  | some n => { val := n }
  | none =>
    let neg := a.neg? != b.neg?
    if (a.isInf && b.isZero) || (b.isInf && a.isZero) then .bad
    else if a.isInf || b.isInf then { val := .inf neg }
    else match a, b with
    | .fin _ m e _, .fin _ m' e' _ => { val := .fin neg (m * m') (e + e') false }
    | _, _ => { val := .zero neg }

/-- The sum of two exact values; the mode settles the sign of an exact zero (R165). (DEDUCED, log entry 16.) -/
def faddV (rm : Rm) (a b : FVal) : FRes :=
  match firstNan [a, b] with
  | some n => { val := n }
  | none =>
    if a.isInf && b.isInf && a.neg? != b.neg? then .bad
    else if a.isInf then { val := a }
    else if b.isInf then { val := b }
    else
      let e := min a.exp b.exp
      let zn := if a.neg? = b.neg? then a.neg? else rm == .rd
      { val := FVal.mk (a.scaledAt e + b.scaledAt e) e zn }

/-- The difference of two exact values; a NaN keeps its sign for R161. -/
def fsubV (rm : Rm) (a b : FVal) : FRes :=
  match firstNan [a, b] with
  | some n => { val := n }
  | none => faddV rm a b.negate

/-- a * b + c, rounded nowhere (R204, R205). -/
def ffmaV (rm : Rm) (a b c : FVal) : FRes :=
  if (a.isInf && b.isZero) || (b.isInf && a.isZero) then .bad
  else match firstNan [a, b, c] with
  | some n => { val := n }
  | none => faddV rm (fmulV a b).val c

/-- The exact sum of any number of exact values (R165): a NaN in order first, opposite infinities invalid, and an exact
zero negative when every term is a negative zero or the mode is .rd. (DEDUCED, log entry 16.) -/
def fsumV (rm : Rm) (xs : List FVal) : FRes :=
  match firstNan xs with
  | some n => { val := n }
  | none =>
    let pinf := xs.any fun x => x.isInf && !x.neg?
    let ninf := xs.any fun x => x.isInf && x.neg?
    if pinf && ninf then .bad
    else if pinf then { val := .inf false }
    else if ninf then { val := .inf true }
    else
      let e := xs.foldl (fun a x => min a x.exp) 0
      let allNegZero := xs.all fun x => x.isZero && x.neg?
      { val := FVal.mk (xs.foldl (fun a x => a + x.scaledAt e) 0) e (allNegZero || rm == .rd) }

/-- The exact product of any number of exact values: a NaN operand in order first, then infinity times zero (R161, R205).
(DEDUCED, log entries 16, 19.) -/
def fprodV (xs : List FVal) : FRes :=
  match firstNan xs with
  | some n => { val := n }
  | none =>
    if xs.any FVal.isInf && xs.any FVal.isZero then .bad
    else xs.foldl (fun r x => { val := (fmulV r.val x).val }) { val := .one }

/-- The exact product with a power of two. -/
def FVal.scaleBy (x : FVal) (k : Int) : FVal :=
  match x with
  | .fin n m e s => .fin n m (e + k) s
  | v => v

/-- The bits that an inexact quotient, root or function is carried to. -/
def workBits : Nat := 200

/-- The quotient of two finite magnitudes, the divisor not zero, to `workBits` places below its leading bit. -/
def quotV (neg : Bool) (m : Nat) (e : Int) (m' : Nat) (e' : Int) : FVal :=
  if m = 0 then .zero neg
  else
    let k := workBits + Nat.log2 m' + 1
    let q := (m <<< k) / m'
    .fin neg q (e - e' - k) (decide ((m <<< k) % m' ≠ 0))

/-- The quotient a / b of two values, b not zero. -/
def fdivV (a b : FVal) : FRes :=
  match firstNan [a, b] with
  | some n => { val := n }
  | none =>
    let neg := a.neg? != b.neg?
    if a.isInf && b.isInf then .bad
    else if a.isZero && b.isZero then .bad
    else if a.isInf then { val := .inf neg }
    else if b.isInf then { val := .zero neg }
    else if b.isZero then { val := .inf neg, divZero := true }
    else match a, b with
    | .fin _ m e _, .fin _ m' e' _ => { val := quotV neg m e m' e' }
    | _, _ => { val := .zero neg }

/-- The whole square root of n, by `k` bits from the top. -/
def isqrtBits (n : Nat) : Nat → Nat → Nat
  | 0, r => r
  | k + 1, r =>
    let r' := r + 2 ^ k
    isqrtBits n k (if r' * r' ≤ n then r' else r)

def isqrt (n : Nat) : Nat := isqrtBits n (Nat.log2 n / 2 + 1) 0

/-- A finite positive magnitude brought to an even exponent. -/
def evenExp (m : Nat) (e : Int) : Nat × Int := if e % 2 = 0 then (m, e) else (2 * m, e - 1)

/-- The square root (R204, R205). -/
def fsqrtV (a : FVal) : FRes :=
  match a with
  | .nan n => { val := .nan n }
  | .inf n => if n then .bad else { val := .inf false }
  | .fin n m e _ =>
    if m = 0 then { val := .zero n }
    else if n then .bad
    else
      let (m, e) := evenExp m e
      let x := m <<< (2 * workBits)
      let r := isqrt x
      { val := .fin false r (e / 2 - workBits) (decide (r * r ≠ x)) }

/-- 1 / a (R204, R205). -/
def frcpV (a : FVal) : FRes :=
  match a with
  | .nan n => { val := .nan n }
  | .inf n => { val := .zero n }
  | .fin n m e _ => if m = 0 then { val := .inf n, divZero := true } else { val := quotV n 1 0 m e }

/-- 1 / sqrt a (R204, R205). -/
def frsqV (a : FVal) : FRes :=
  match a with
  | .nan n => { val := .nan n }
  | .inf n => if n then .bad else { val := .zero false }
  | .fin n m e _ =>
    if m = 0 then { val := .inf n, divZero := true }
    else if n then .bad
    else
      let (m, e) := evenExp m e
      let k := workBits + Nat.log2 m
      let r := isqrt ((1 <<< (2 * k)) / m)
      { val := .fin false r (-(e / 2) - k) (decide (r * r * m ≠ 1 <<< (2 * k))) }

/-! ### The transcendental functions: enclosures in fixed point -/

/-- The sum of z^(2i+1)/(2i+1) for i from `i`, in units of 2^-p, every term rounded down. -/
def atanhTerms (p z2 : Nat) : Nat → Nat → Nat → Nat → Nat
  | 0, _, _, acc => acc
  | fuel + 1, i, pw, acc => atanhTerms p z2 fuel (i + 1) ((pw * z2) >>> p) (acc + pw / (2 * i + 1))

/-- 2 * atanh(num/den) in units of 2^-p, low by at most 4 * p + 8. -/
def lnRatio (p num den : Nat) : Nat :=
  let z := (num <<< p) / den
  2 * atanhTerms p ((z * z) >>> p) (p / 2 + 4) 0 z 0

/-- ln 2 in units of 2^-p, low by at most 4 * p + 8. -/
def ln2 (p : Nat) : Nat := lnRatio p 1 3

/-- The sum of x^n/n! from n on, in units of 2^-p, every term rounded down. -/
def expTerms (p x : Nat) : Nat → Nat → Nat → Nat → Nat
  | 0, _, _, acc => acc
  | fuel + 1, n, t, acc => expTerms p x fuel (n + 1) (((t * x) >>> p) / (n + 1)) (acc + t)

/-- e^x for x in [0, 1), in units of 2^-p, low by at most 4 * p + 8. -/
def expFix (p x : Nat) : Nat := expTerms p x (p / 2 + 8) 0 (1 <<< p) 0

/-- The margin of error of these enclosures, in units of 2^-p. -/
def slack (p : Nat) : Nat := 64 * p + 64

/-- The floor at 2^-(p - 64) of a value known to lie between lo and lo + 2 * slack units of 2^-p, when both ends have the same.
(DESIGN CHOICE, log entry 18.) -/
def settle (p lo : Nat) : Option (Nat × Int) :=
  let a := lo >>> 64
  let b := (lo + 2 * slack p) >>> 64
  if a = b then some (a, -((p : Int) - 64)) else none

/-- The first precision that settles a value; where none does, the free choice of `Config.hardCase`.
(DESIGN CHOICE, log entry 18.) -/
def settleAt (approx : Nat → Nat) : List Nat → Nat × Int
  | [] => ((approx 1024 >>> 64) + b2n (Config.hardCase (approx 1024) 1024), -960)
  | p :: ps =>
    match settle p (approx p) with
    | some r => r
    | none => settleAt approx ps

def precisions : List Nat := [256, 384, 640, 1024]

/-- 2^f for a fraction f = num / 2^sh, low end of the enclosure. (DESIGN CHOICE, log entry 18.) -/
def exp2Frac (num sh p : Nat) : Nat :=
  let f := if p ≥ sh then num <<< (p - sh) else num >>> (sh - p)
  expFix p ((f * ln2 p) >>> p)

/-- The value just above or just below 1. -/
def nearOne (below : Bool) : FVal :=
  if below then .fin false (2 ^ 200 - 1) (-200) true else .fin false (2 ^ 200) (-200) true

/-- 2^a (R204, R205). -/
def fexp2V (a : FVal) : FRes :=
  match a with
  | .nan n => { val := .nan n }
  | .inf n => { val := if n then .zero false else .inf false }
  | .fin n m e _ =>
    if m = 0 then { val := .one }
    else
      let top : Int := e + Nat.log2 m
      if 14 < top then { val := .fin false 1 (if n then -40000 else 40000) true }
      else if top < -160 then { val := nearOne n }
      else if 0 ≤ e then
        let k : Int := (m <<< e.toNat : Nat)
        { val := .fin false 1 (if n then -k else k) false }
      else
        let sh := (-e).toNat
        let v : Int := if n then -(m : Int) else m
        let k := v / (2 ^ sh : Nat)
        let num := (v % (2 ^ sh : Nat)).toNat
        if num = 0 then { val := .fin false 1 k false }
        else
          let (r, e') := settleAt (exp2Frac num sh) precisions
          { val := .fin false r (e' + k) true }

/-- log2 of m / 2^sh in [1, 2), low end of the enclosure. (DESIGN CHOICE, log entry 18.) -/
def log2Frac (m sh p : Nat) : Nat :=
  let l := lnRatio p (m - 2 ^ sh) (m + 2 ^ sh)
  (l <<< p) / (ln2 p + slack p / 8)

/-- log2 a (R204, R205). -/
def flog2V (a : FVal) : FRes :=
  match a with
  | .nan n => { val := .nan n }
  | .inf n => if n then .bad else { val := .inf false }
  | .fin n m e _ =>
    if m = 0 then { val := .inf true, divZero := true }
    else if n then .bad
    else
      let sh := Nat.log2 m
      let k : Int := e + sh
      if m = 2 ^ sh then { val := FVal.mk k 0 false }
      else
        let (r, e') := settleAt (log2Frac m sh) precisions
        -- k + r * 2^e' with r * 2^e' in (0, 1); a negative whole part turns the floor around
        let v : Int := k * (2 ^ (-e').toNat : Nat) + r
        if 0 ≤ v then { val := .fin false v.toNat e' true }
        else { val := .fin true ((-v).toNat - 1) e' true }

/-- e^x for the fraction left of x after k times ln 2, low end of the enclosure. -/
def expAt (x : Int) (sh : Nat) (k : Int) (p : Nat) : Nat :=
  let xf : Int := if p ≥ sh then x * (2 ^ (p - sh) : Nat) else x / (2 ^ (sh - p) : Nat)
  let r : Int := xf - k * (ln2 (p + 24) : Int) / (2 ^ 24 : Nat) - 8
  expFix p r.toNat

/-- e^a, correctly rounded where it is rounded (R221). -/
def fexpV (a : FVal) : FRes :=
  match a with
  | .nan n => { val := .nan n }
  | .inf n => { val := if n then .zero false else .inf false }
  | .fin n m e _ =>
    if m = 0 then { val := .one }
    else
      let top : Int := e + Nat.log2 m
      if 12 < top then { val := .fin false 1 (if n then -40000 else 40000) true }
      else if top < -160 then { val := nearOne n }
      else
        let sh := if e < 0 then (-e).toNat else 0
        let mag : Int := (if e < 0 then m else m <<< e.toNat : Nat)
        let x : Int := if n then -mag else mag
        -- k = floor (x / ln 2), from 256 bits of ln 2
        let k : Int := (x * (2 ^ 256 : Nat)) / ((ln2 256 : Int) * (2 ^ sh : Nat))
        let (r, e') := settleAt (expAt x sh k) precisions
        { val := .fin false r (e' + k) true }

/-! ### Comparison -/

/-- Finite values and infinities in order; none when either is a NaN. -/
def fcmpV (a b : FVal) : Option Ordering :=
  match a, b with
  | .nan _, _ => none
  | _, .nan _ => none
  | .inf n, .inf n' => some (if n = n' then .eq else if n then .lt else .gt)
  | .inf n, _ => some (if n then .lt else .gt)
  | _, .inf n => some (if n then .gt else .lt)
  | x, y =>
    let e := min x.exp y.exp
    some (compare (x.scaledAt e) (y.scaledAt e))

/-! ### Conversions (R170 to R173) -/

/-- Float to float (R170): the same format returns its bits, except for the flush. -/
def cvtFF (src tgt : FFmt) (rm : Rm) (ftz : Bool) (b : Nat) (env : REnv) : Nat × REnv :=
  if src = tgt then
    let env := env.stepSr rm
    if ftz && src.isSubnormal b then (src.zeroOf b, env.raise (flagUnderflow ||| flagInexact)) else (b, env)
  else fpRound tgt rm ftz (src.decode b) env

/-- A value rounded to an integer under a mode: the integer, and whether rounding changed it. -/
def roundInt (rm : Rm) (neg : Bool) (m : Nat) (e : Int) (stk : Bool) (r : Nat) : Int × Bool :=
  let (n, fr) := splitAt m e 0 stk
  let n' := if fr.up rm neg (n % 2 == 1) r then n + 1 else n
  (if neg then -(n' : Int) else n', !fr.isZero)

/-- Float to integer (R171): the two's complement pattern in w bits. -/
def cvtFI (signed : Bool) (w : Nat) (rm : Rm) (x : FVal) (env : REnv) : Nat × REnv :=
  let env := env.stepSr rm
  let lo : Int := if signed then -(2 ^ (w - 1) : Nat) else 0
  let hi : Int := if signed then (2 ^ (w - 1) : Nat) - 1 else (2 ^ w : Nat) - 1
  match x with
  | .nan _ => (0, env.raise flagInvalid)
  | .inf n => (wrap w (if n then lo else hi), env.raise flagInvalid)
  | .fin n m e stk =>
    let (v, inexact) := roundInt rm n m e stk env.lfsr.toNat
    if hi < v then (wrap w hi, env.raise flagInvalid)
    else if v < lo then (wrap w lo, env.raise flagInvalid)
    else (wrap w v, env.raiseIf inexact flagInexact)

/-- Integer to integer (R172). -/
def cvtII (signed : Bool) (w : Nat) (v : Int) (env : REnv) : Nat × REnv :=
  let lo : Int := if signed then -(2 ^ (w - 1) : Nat) else 0
  let hi : Int := if signed then (2 ^ (w - 1) : Nat) - 1 else (2 ^ w : Nat) - 1
  if hi < v then (wrap w hi, env.raise flagOverflow)
  else if v < lo then (wrap w lo, env.raise flagOverflow)
  else (wrap w v, env)

/-- The value of an E8M0 byte (R162). -/
def e8m0Val (b : Nat) : FVal := if b = 0xFF then .nan false else .fin false 1 ((b : Int) - 127) false

/-- A value times an E8M0 scale (R162): 0xFF makes it a NaN of its sign. -/
def scaleE8m0 (x : FVal) (b : Nat) : FVal :=
  if b = 0xFF then .nan x.neg? else x.scaleBy ((b : Int) - 127)

/-- A value divided by an E8M0 scale, with the same rule for 0xFF (R215). -/
def unscaleE8m0 (x : FVal) (b : Nat) : FVal :=
  if b = 0xFF then .nan x.neg? else x.scaleBy (127 - (b : Int))

/-- Float to E8M0 (R173). (DEDUCED, log entry 20.) -/
def cvtToE8m0 (rm : Rm) (x : FVal) (env : REnv) : Nat × REnv :=
  let env := env.stepSr rm
  match x with
  | .nan _ => (0xFF, env.raise flagInvalid)
  | .inf _ => (0xFF, env.raise flagInvalid)
  | .fin _ m e _ =>
    if m = 0 then (0x00, env.raise (flagUnderflow ||| flagInexact))
    else
      let sh := Nat.log2 m
      let k : Int := e + sh
      let fr : Frac := { num := m % 2 ^ sh, sh := sh, stk := false }
      if k < -127 then (0x00, env.raise (flagUnderflow ||| flagInexact))
      else if 127 < k ∨ (k = 127 ∧ fr.isZero = false) then (0xFE, env.raise (flagOverflow ||| flagInexact))
      else
        let code := (k + 127).toNat
        -- the two neighbours are the codes `code` and `code + 1`, halfway apart at 1.5 * 2^k
        let up := fr.up rm false (code % 2 == 1) env.lfsr.toNat
        (if up then code + 1 else code, env.raiseIf (!fr.isZero) flagInexact)

/-- CVT to E8M0 with a fit code (R214): the smallest scale e whose 2^(e-127) * T reaches the magnitude. -/
def cvtFit (t : Nat) (x : FVal) (env : REnv) : Nat × REnv :=
  match x with
  | .nan _ => (0xFF, env.raise flagInvalid)
  | .inf _ => (0xFF, env.raise flagInvalid)
  | .fin _ m e _ =>
    if m = 0 then (0x00, env)
    else
      let covers (c : Nat) : Bool :=
        match fcmpV (.fin false t ((c : Int) - 127) false) (.fin false m e false) with
        | some .lt => false
        | _ => true
      match (List.range 0xFF).find? covers with
      | some c => (c, env)
      | none => (0xFE, env.raise (flagOverflow ||| flagInexact))

end Sys2Proof.Machine
end

