-- ==== Sys2Proof/Machine/Cell.lean ====
section
/-! DEFINITION. The state of one bank of a cell (R7, R44, R45): registers, history, tiles, channels, outputs, scoreboard,
special registers, rules, and the work in flight of its units. All of it is plain data. -/

namespace Sys2Proof.Machine

/-! ### Association lists: what an unlisted key holds is the caller's default -/

/-- The value under a key. -/
def alGet {α β : Type} [DecidableEq α] (k : α) : List (α × β) → Option β
  | [] => none
  | (k', v) :: r => if k = k' then some v else alGet k r

/-- The list with the value under a key replaced, or added at the end. -/
def alPut {α β : Type} [DecidableEq α] (k : α) (v : β) : List (α × β) → List (α × β)
  | [] => [(k, v)]
  | (k', v') :: r => if k = k' then (k, v) :: r else (k', v') :: alPut k v r

/-- The list without a key. -/
def alErase {α β : Type} [DecidableEq α] (k : α) : List (α × β) → List (α × β)
  | [] => []
  | (k', v') :: r => if k = k' then alErase k r else (k', v') :: alErase k r

/-- The list with element n replaced; a list that is too short is filled up with its default first, so that what is
written is read back whatever the list. -/
def setAt {α : Type} (d : α) : List α → Nat → α → List α
  | [], 0, v => [v]
  | [], n + 1, v => d :: setAt d [] n v
  | _ :: r, 0, v => v :: r
  | a :: r, n + 1, v => a :: setAt d r n v

/-- The n-th element of a list, or a default. -/
def nth {α : Type} (d : α) : List α → Nat → α
  | [], _ => d
  | a :: _, 0 => a
  | _ :: r, n + 1 => nth d r n

/-! ### Tokens (R69, R70, R355) -/

/-- The class codes of a token (R69). -/
def clsData : BitVec 3 := 0
def clsHdr : BitVec 3 := 1
def clsLast : BitVec 3 := 2
def clsStop : BitVec 3 := 3
def clsCtl : BitVec 3 := 4
def clsDrain : BitVec 3 := 5
def clsMarker : BitVec 3 := 6
def clsCmpl : BitVec 3 := 7

/-- A token, with its pair's source and its sequence number there (R70). `stream` names the stream and the word that a
stream's token carries (R129); `seqr` marks the tokens of a tile sequencer (R80, R368); `acc` holds the accesses after which
a completion token orders, each with the path on which it does so (R78, R296). -/
structure Token where
  cls     : BitVec 3
  payload : Word
  etag    : Bool := false
  src     : Site
  out     : Nat
  seq     : Nat
  stream  : Option (Nat × Nat) := none
  seqr    : Bool := false
  acc     : List (Path × Nat) := []
deriving DecidableEq, Repr

/-- A token that its sender still holds: whether it has taken its slot at the consumer (R119, R129, R244). -/
structure GTok where
  cls     : BitVec 3
  payload : Word
  etag    : Bool := false
  slot    : Bool := false
  stream  : Option (Nat × Nat) := none
  seqr    : Bool := false
  acc     : List (Path × Nat) := []
deriving DecidableEq, Repr

/-- The tokens that one rule makes on one output (R72): those ready and not yet gone, the slots taken at commit for
tokens still to be made, whether more will come, and whether it is the run of a unit, which a freeze stops (R360). -/
structure Group where
  id     : Nat
  toks   : List GTok := []
  resv   : Nat := 0
  closed : Bool := false
  run    : Bool := false
deriving DecidableEq, Repr

/-- An output binding of the plane (R392): the consumer's relative tile, cell and channel. -/
structure Binding where
  yx   : Bool
  tile : Nat
  cell : Nat
  ch   : Nat
deriving DecidableEq, Repr

/-- One output of a bank: its binding, its gate (R285), whether it is a notify binding (R385), the tokens sent so far
(R70), the groups waiting to leave (R72), the tokens on the link (R73), the copies kept until the consumer removes them
(R355), and the tokens that a REPLAY asked for again (R368). -/
structure OutState where
  bind   : Option Binding := none
  gateOn : Bool := false
  credit : BitVec 32 := 0
  notify : Bool := false
  sent   : Nat := 0
  groups : List Group := []
  flight : List Token := []
  kept   : List Token := []
  resend : List Token := []
deriving DecidableEq, Repr

/-- The scale latch of a channel (R178): the mark L, the block length, the scale bytes, and the count of elements
removed since. -/
structure Latch where
  last   : Bool := false
  blen   : Nat := 32
  n      : Nat := 1
  scales : BitVec 48 := 0x7F
  k      : Nat := 0
deriving DecidableEq, Repr

/-- One input channel of a bank: the tokens present, oldest first; the slots that senders have taken for tokens not yet
arrived; the latch; the format entry (R174); the next sequence number of each pair (R70), a pair being named by the
sender's relative tile, cell and output; the re-injection counts
(R355); and, once the cell has saved, how many of its tokens are channel contents, the others being caught (R325). -/
structure Chan where
  toks   : List Token := []
  taken  : Nat := 0
  latch  : Latch := {}
  fmt    : BitVec 16 := 0xA000
  expect : List ((Nat × Nat × Nat) × Nat) := []
  reinj  : List ((Nat × Nat × Nat × Nat) × Nat) := []
  kept   : Nat := 0
deriving DecidableEq, Repr

/-! ### Registers, history, tiles -/

/-- A register that a result can be written to. -/
inductive Reg
  | g (n : Nat) | m (n : Nat)
deriving DecidableEq, Repr

/-- A history entry; while its result is not yet written it names the firing that will write it (R50). -/
structure HistEntry where
  val  : Word := 0
  pend : Option Nat := none
deriving DecidableEq, Repr

/-- The kinds that an accumulator tile records (R224). -/
inductive AccKind
  | fp32 | int32 | fp64lo | fp64hi
deriving DecidableEq, Repr

/-- An accumulator tile (R224, R246): its 256 elements in row-major order, its records, its occupancy bits (bit 16i + j),
and the firing that owns it, with its rule and the ROUNDS at its commit (R194). (DESIGN CHOICE, log entry 5.) -/
structure AccTile where
  el     : List (BitVec 32) := List.replicate 256 0
  kind   : AccKind := .fp32
  shape  : Shape := .ij
  occ    : BitVec 256 := 0
  owner  : Option (Nat × Nat × Word) := none
deriving DecidableEq, Repr

/-- A stay tile (R182, R224): 256 places of 16 bits, the recorded format and codebook, and a scale byte a sub-tile.
(DESIGN CHOICE, log entry 5.) -/
structure StayTile where
  el     : List (BitVec 16) := List.replicate 256 0
  fmt    : Fmt := .bf16
  cb     : Nat := 0
  scales : List Nat := List.replicate 16 0x7F
deriving DecidableEq, Repr

/-! ### Results not yet written (R36, R51) -/

/-- One write of a result that is still to come. -/
inductive PWrite
  | reg (r : Reg) (v : Word)
  | acc (n : Nat) (el : List (BitVec 32))
  | tok (o : Nat) (t : GTok)
deriving DecidableEq, Repr

/-- A result not yet written: the firing it belongs to, its rule, the rounds of the plane still to run (none when a
request or a unit outside the bank will write it), the latency that it began with, and its writes. -/
structure Pend where
  id     : Nat
  rule   : Nat
  left   : Option Nat
  lat    : Nat := 0
  writes : List PWrite
deriving DecidableEq, Repr

/-- The resources of a footprint (R30, R48). -/
inductive Res
  | p (n : Nat) | v (n : Nat) | sb (n : Nat) | g (n : Nat) | m (n : Nat) | o (n : Nat) | hist
  | acc (n : Nat) | stay (n : Nat) | kb (n : Nat) | fmt (n : Nat) | all
deriving DecidableEq, Repr

/-- The block that STALL puts on the readers and writers of a destination (R37): the rounds left, and the destination. -/
structure StallBlock where
  left : Nat
  res  : Res
deriving DecidableEq, Repr

/-! ### The units in flight (R225, R242, R272) -/

/-- An element that a unit took: its exact value without its scale, and its scale byte (R176). -/
structure Elem where
  val   : FVal
  scale : Nat := 0x7F
deriving DecidableEq, Repr

/-- One stream of a contraction: its channel, none for the unit; its index (false i, true j); the elements of the vector
being filled and the tokens that brought them; and the count of elements taken. -/
structure CStream where
  ch    : Option Nat := none
  idxJ  : Bool := false
  buf   : List Elem := []
  held  : List Word := []
  count : Nat := 0
deriving DecidableEq, Repr

/-- A contraction in flight (R228): its format, stay tile and the position at which NaN order counts it, streams, the
surviving indices, its accumulator, overwrite, the half it holds, and the steps added. -/
structure Contraction where
  fmt    : CFmt
  stay   : Option Nat
  role   : Nat
  u      : CStream
  v      : CStream
  surv   : Shape
  acc    : Nat
  ovw    : Bool
  half   : Nat
  steps  : Nat := 0
deriving DecidableEq, Repr

/-- A STAY in flight (R232). -/
structure StayFill where
  ch    : Nat
  fmt   : SFmt
  tile  : Nat
  cm    : Bool
  count : Nat := 0
  seen  : List (Nat × Nat) := []
deriving DecidableEq, Repr

/-- An ACCLD in flight (R236). -/
structure AccFill where
  ch    : Nat
  fmt   : Fmt
  acc   : Nat
  shape : Shape
  count : Nat := 0
deriving DecidableEq, Repr

/-- An ACCRD or SACCF run: its output, the tokens still to send, the number sent, and the ends of rounds of the plane since
the commit (R235, R251). -/
structure RunOut where
  out  : Nat
  toks : List (BitVec 3 × Word)
  sent : Nat := 0
  age  : Nat := 0
deriving DecidableEq, Repr

/-- A corner turn in flight (R197, R198, R238): the blocks still to end, the elements of the block being taken and their
count, the scales seen of its sub-tiles, and the tokens of the turned block still to send. -/
structure CTurn where
  ch     : Nat
  out    : Nat
  node   : Nat
  blocks : Nat
  el     : List Nat := []
  count  : Nat := 0
  scales : List (Nat × Nat) := []
  outq   : List (BitVec 3 × Word) := []
deriving DecidableEq, Repr

/-- The operations of the sparse units (R247, R250). -/
inductive SparseOp
  | mul | dot (acc : Nat) (flat : Bool) | union (op : UOp) | scatter (acc : Nat) (ty : KTy) (row : Nat)
deriving DecidableEq, Repr

/-- One input of a sparse unit: its channel, whether a fiber of it has begun and whether that fiber is closed, the last
coordinate and the count of the elements consumed of it, and those that a dot fiber keeps. -/
structure SIn where
  ch     : Nat
  begun  : Bool := false
  closed : Bool := false
  last   : Option Nat := none
  count  : Nat := 0
  el     : List (Nat × FVal) := []
deriving DecidableEq, Repr

/-- A sparse unit in flight (R242 to R250): the count of fibers, the output element held back, the tokens formed and not
yet sent, and whether its last stop has been formed. -/
structure Sparse where
  op    : SparseOp
  out   : Option Nat
  ofmt  : OFmt
  rm    : Rm
  lvl   : Nat
  a     : SIn
  b     : Option SIn := none
  fiber : Nat := 0
  held  : Option (Nat × Nat) := none
  outq  : List (BitVec 3 × Word) := []
  final : Bool := false
deriving DecidableEq, Repr

/-- A level of a loop nest (R272). -/
structure LoopLevel where
  c : Nat
  b : BitVec 32
  s : BitVec 32
  x : Nat := 0
deriving DecidableEq, Repr

/-- A loop nest held by a cell on an output (R272, R287): its first unit, the number of units, and the stop token still
to follow its step's data token. -/
structure Nest where
  out    : Nat
  first  : Nat
  units  : Nat
  levels : List LoopLevel
  stop   : Option Nat := none
  done   : Bool := false
deriving DecidableEq, Repr

/-- The work of a bank that goes on after its rule's commit. -/
inductive UnitWork
  | contraction (c : Contraction)
  | stayFill (f : StayFill)
  | accFill (f : AccFill)
  | run (r : RunOut)
  | cturn (t : CTurn)
  | sparse (s : Sparse)
  | nest (n : Nest)
deriving DecidableEq, Repr

/-- A unit in flight: its number, the firing that started it and its rule; the ends of rounds before it may act, which is
from the round after the commit (R228, R232); and whether it stands still after a fault that it raised.
(DEDUCED, log entry 26.) -/
structure UnitRec where
  id     : Nat
  firing : Nat
  rule   : Nat
  work   : UnitWork
  wait   : Nat := 2
  dead   : Bool := false
deriving DecidableEq, Repr

/-! ### Marks of a traverse (R323 to R326) -/

/-- Where a cell stands in a traverse: not marked, marked (with the forced-save flag), or saved. -/
inductive MarkState
  | clear | marked (forced : Bool) | saved
deriving DecidableEq, Repr

/-! ### The bank -/

/-- What a round adds to the counters of a cell: they change only between rounds (R48). -/
structure Tally where
  aborts     : Nat := 0
  shortHolds : Nat := 0
  longWaits  : Nat := 0
  reuseMiss  : Nat := 0
deriving DecidableEq, Repr

/-- One bank (R44): the state of a cell on one plane slot. `due` is what the open round adds to its counters; `loadSets` holds
what the channel format entries add to the read set of each rule, fixed when the plane is loaded (R176). `known` holds the accesses after which the accesses that the
cell issues on a path are ordered: those whose tokens it has tested, and those that its fences cover (R78, R79). The defaults
are the values of R45 at activation.
(DESIGN CHOICE, log entry 5.) -/
structure Bank where
  g        : List Word := List.replicate 32 0
  m        : List Word := List.replicate 8 0
  p        : BitVec 8 := 0
  d        : List HistEntry := List.replicate 4 {}
  acc      : List AccTile := List.replicate 4 {}
  stay     : List StayTile := List.replicate 2 {}
  kb       : List (List (BitVec 16)) := List.replicate 4 (List.replicate 16 0)
  chans    : List Chan := List.replicate 32 {}
  outs     : List OutState := List.replicate 8 {}
  sb       : List (Option (Nat × Nat)) := List.replicate 8 none
  lfsr     : BitVec 32 := 1
  sticky   : BitVec 6 := 0
  fair     : Nat := 0
  rounds   : Word := 0
  aborts   : Word := 0
  shortHolds : Word := 0
  longWaits  : Word := 0
  reuseMiss  : Word := 0
  due      : Tally := {}
  discards : Word := 0
  chkint   : BitVec 16 := 0x0400
  scrub    : Nat := 0
  scrubAge : Nat := 0
  retired  : Bool := false
  rules    : List (BitVec 128) := List.replicate 16 0
  soft     : List (BitVec 16) := List.replicate 16 0
  conf     : List (BitVec 16) := List.replicate 16 0
  loadSets : List (List Res) := List.replicate 16 []
  pend     : List Pend := []
  stalls   : List StallBlock := []
  reuse    : List (List (Option (BitVec 6))) := List.replicate 4 [none, none, none]
  units    : List UnitRec := []
  busy     : Nat := 0
  retry    : List (Nat × Bool) := []
  retryUps : List Upset := []
  mark     : MarkState := .clear
  markWait : List Nat := []
  snapAge  : Nat := 0
  snapDue  : Bool := false
  forced   : Bool := false
  drainIn  : List (Nat × Nat × Nat × Nat) := []
  markIn   : List (Nat × Nat × Nat × Nat) := []
  known    : List (Path × Nat) := []
  trapped  : List Nat := []
  halted   : Bool := false
  drainHeld : Bool := false
deriving DecidableEq, Repr

end Sys2Proof.Machine
end

