-- ==== Sys2Proof/Machine/Types.lean ====
section
/-! DEFINITION. The plain data of the tiles, the requests, the launches, the saggars, the cohorts and the save store. -/

namespace Sys2Proof.Machine

/-! ### Faults as the spec records them (R361) -/

/-- Where a fault stands: what word 0 of its record names (R361). -/
structure Where where
  saggar : Nat := 0
  region : Nat := 0xFF
  ptile  : Nat := 0
  rtile  : Nat := 0
  cell   : Nat := 0
  slot   : Nat := 0
  rule   : Nat := 0
  plane  : Nat := 0
  rounds : Nat := 0
  word   : BitVec 128 := 0
deriving DecidableEq, Repr

/-- A second party of a record (word 3 of R361). -/
inductive Party
  | none
  | cell (tile cell slot rule : Nat)
  | engine (tile engine queue stack : Nat)
  | port (p : Nat)
deriving DecidableEq, Repr

/-- A fault or trap that is raised: its class (R362) and what its record holds (R361). -/
structure Raise where
  cls    : Nat
  reason : Nat := 0
  more   : Nat := 0
  source : Nat := 0
  addr   : Nat := 0
  party  : Party := .none
  a      : Word := 0
  b      : Word := 0
deriving DecidableEq, Repr

/-- A record of a saggar's fault log: its sequence number and its eight words (R361). -/
structure LogRec where
  seq   : Nat
  words : List Word
deriving DecidableEq, Repr

/-! ### Requests (R75, R76, R99, R100) -/

/-- An operand of an engine: a virtual address; or a package tile and a partition-relative offset, with the form in which
the instruction names it (R76, R122). -/
inductive Place
  | hbm (a : Nat)
  | store (tile off named : Nat)
deriving DecidableEq, Repr

/-- What a request asks for, with its operands as they were at commit. A collective without an operation is an exact
reduction; a BCPOST holds whether its barrier is complete (R114); a CABORT holds the ranks that still have to advance and
those to which its abort token is on its way (R146). -/
inductive ReqOp
  | ld (a n : Nat) (sgn : Bool)
  | st (a n : Nat) (d : Word)
  | lds (a n : Nat) (sgn : Bool)
  | sts (a n : Nat) (d : Word)
  | tlook (v : Word)
  | tset (line : Nat) (v user : Word)
  | tinv (line : Nat)
  | ldfe (a : Nat)
  | stfe (a : Nat) (lo hi : Word)
  | ldp (a : Nat)
  | stp (a : Nat) (d : Word)
  | clrp (a n : Nat)
  | upd (op : UpdOp) (a : Nat) (d : Word)
  | ownEnter (a n : Nat)
  | ownRelease (a : Nat)
  | fence (x y : Path)
  | cmpl
  | bcarm (b base n : Nat)
  | bcpost (b : Nat) (complete : Bool)
  | stream (a n next : Nat) (buf : List GTok) (bad : Bool)
  | stash (off n key : Nat)
  | unstash (key : Nat) (rec? : Option Nat) (next : Nat) (buf : List GTok) (bad : Bool)
  | copy (d s : Place) (n : Nat) (refill : Option Nat) (started : Bool)
  | copyqDeclare (h base n rtile : Nat) (cells : List Nat)
  | copyqRelease (h : Nat)
  | consumed (h : Nat)
  | kvput (desc off pos layer : Nat)
  | kvcommit (desc pos : Nat)
  | kvrot (desc : Nat)
  | coll (op : Option CollOp) (d s n : Nat) (fmt : Fmt) (k rank attempt : Nat)
  | cabort (k rank attempt : Nat) (left sent : List Nat)
  | bar (k rank : Nat)
  | row (fwd : Bool) (op : RowOp) (x out : Nat) (desc : Word) (fmt : Fmt) (eps : Nat)
  | join (k rank : Nat)
  | launch (j : Nat)
  | resume (j : Nat)
  | mark (k : Option Nat) (requeue started : Bool) (waiting running : List Nat)
  | saveset (base n : Nat)
  | savedrop (num : Nat)
deriving DecidableEq, Repr

/-- Where the value of a request goes. -/
inductive ReqDst
  | none
  | reg (r : Reg)
  | pair (r0 r1 : Reg)
  | out (o : Nat)
deriving DecidableEq, Repr

/-- A request that has been committed. Its number is that of the firing that issued it; `cgroup` is the group that keeps
the slot of its completion token (R119); `after` holds the fences that it waits for (R79); `walk` names the page whose walk it waits for, `walked` holds the pages whose walks it has had (R310); `backed` that it has been
counted as delayed by a neighbour refresh (R318); `deferred` that it is held or waits at a base
die (R106, R107); `performed` that it is performed and only the tokens of its run remain (R100);
`placed` that an engine has begun to write for it, and with what status it ends (R90, R117), and `wrote` the ranges that it
has written so far; `past` holds the accesses that
are ordered before it (R78); `joint` those that a fence, a CMPL or a BAR covers, and those that the token of a post orders
beside its own (R79, R114, R138, R296), each with the path on which it does so;
`lost` that it has raised a fault after which it is never performed (R121); `spent` that the last token
of its run has been sent; `held` that it was parked at the save point of its cell, and `answers` and `late` are the answers
and the status that come while it is (R327). (DEDUCED, log entry 51.) -/
structure Req where
  id       : Nat
  site     : Site
  launch   : Nat
  saggar   : Nat
  rule     : Nat
  word     : BitVec 128
  path     : Path
  op       : ReqOp
  dst      : ReqDst := .none
  cout     : Option Nat := none
  cgroup   : Nat := 0
  queue    : Option Nat := none
  after    : List Nat := []
  walk     : Option Nat := none
  deferred : Bool := false
  faulted  : Bool := false
  walked   : List Nat := []
  backed   : Bool := false
  performed : Bool := false
  placed   : Option Nat := none
  wrote    : List (Nat × Nat) := []
  past     : List Nat := []
  lost     : Bool := false
  spent    : Bool := false
  held     : Bool := false
  late     : Nat := 0
  joint    : List (Path × Nat) := []
  answers  : List Word := []
  answered : Bool := false
deriving DecidableEq, Repr

/-- A byte that a write of one path changed, as readers on the paths of `hidden` may still see it (R79): the byte before and
whether its word was uncorrectable, the access and the cell that wrote it, the accesses that are ordered before that one (R78),
and the readers that have already seen the new value, a reader being a path and the cell on whose behalf it reads, or none for
the host (R77). The lags of a byte stand in the order of its writes. (DEDUCED, log entry 34.) -/
structure Lag where
  key    : Nat
  old    : Byte
  acc    : Nat
  site   : Option Site
  path   : Path
  hidden : List Path
  past   : List Nat := []
  seen   : List (Path × Option Site) := []
  bad    : Bool := false
deriving DecidableEq, Repr

/-! ### Tiles -/

/-- Where a plane slot of a tile stands. -/
inductive SlotPhase
  | free | reserved | loaded | active
deriving DecidableEq, Repr

/-- How far a freeze has gone on a tile's plane (R360): not there, reached, stopped. -/
inductive Halt
  | go | reached | stopped
deriving DecidableEq, Repr

/-- A plane slot of a tile: its launch, phase, weights (R267) and the planes, each a slot and its launch, that
it took weight from, whether it is active and waits for the start of its region (R265), freeze, drain and traverse reach, counters (R259), stall
watchdog (R261), yield (R298) and corrected checks (R347). -/
structure Slot where
  phase     : SlotPhase := .free
  launch    : Nat := 0
  weight    : Nat := 0
  base      : Nat := 0
  took      : List (Nat × Nat) := []
  waits     : Bool := false
  halt      : Halt := .go
  drained   : Bool := false
  traversed : Bool := false
  counters  : List Word := List.replicate 12 0
  wd        : Nat := 0
  progress  : Bool := false
  yield     : Nat := 0
  corrected : Nat := 0
  decoupled : List (Nat × Nat) := []
deriving DecidableEq, Repr

/-- The range unit while a plane holds it (R274). -/
structure RangeUnit where
  slot : Nat
  lo   : Nat
  hi   : Nat
  next : Nat
  p    : Nat
  cmin : Nat
deriving DecidableEq, Repr

/-- A stacked layer's power (R96): whether it is off, whether it is waking, and its idle cycles. -/
structure LayerPower where
  off    : Bool := false
  waking : Bool := false
  idle   : Nat := 0
deriving DecidableEq, Repr

/-- An entry of a translation cache (R309): its saggar, the page's base and size. -/
structure TlbEntry where
  saggar : Nat
  base   : Nat
  size   : Nat
deriving DecidableEq, Repr

/-- A tile: its plane slots, frame table and position in it, the record of handed-on rounds (R268), loop-control units
(the holder's slot, cell and output, R272), range unit, corner-turn nodes (the run that uses each, R238), row engine
queue (R223), layers, translation cache (most recently used first, R309), clock in units of 250 MHz (R396), and whether its
update port has applied an update in this tile cycle (R103). (DESIGN CHOICE, log entry 6.) -/
structure Tile where
  slots  : List Slot := List.replicate 4 {}
  table  : List Nat := List.replicate 64 4
  pos    : Nat := 0
  last   : Nat := 3
  loops  : List (Option (Nat × Nat × Nat)) := List.replicate 4 none
  range  : Option RangeUnit := none
  nodes  : List (Option Nat) := [none, none]
  rows   : List Nat := []
  planeStore : LayerPower := {}
  stash  : LayerPower := {}
  tlb    : List TlbEntry := []
  clock  : Nat := 4
  updPort : Bool := false
deriving DecidableEq, Repr

/-- A stash record (R131): its saggar, tile, key and bytes, the 8-byte words of it that are poisoned (R352), and its
address in the overflow region when it lies there (R111). -/
structure StashRec where
  id     : Nat
  saggar : Nat
  tile   : Nat
  key    : Nat
  bytes  : List Byte
  bad    : List Nat := []
  overAt : Option Nat := none
  taken  : Bool := false
deriving DecidableEq, Repr

/-! ### Saggar objects -/

/-- The states of a saggar (R301). -/
inductive SagState
  | free | created | loaded | killing
deriving DecidableEq, Repr

/-- The attribute of a page (R307). -/
inductive PageAttr
  | rw | ro | once
deriving DecidableEq, Repr

/-- A mapped page (R307). -/
structure Page where
  base : Nat
  size : Nat
  attr : PageAttr
deriving DecidableEq, Repr

/-- The states of a byte-counting barrier (R113). -/
inductive BarState
  | idle | armed | posted | complete | overrun
deriving DecidableEq, Repr

/-- A byte-counting barrier (R112, R113): its range, balance, the launch that armed it, the post that waits, and the writes
that it has counted, with those ordered before them (R114). -/
structure Barrier where
  st     : BarState := .idle
  bal    : Int := 0
  base   : Nat := 0
  len    : Nat := 0
  launch : Nat := 0
  by_    : Where := {}
  post   : Option Nat := none
  writes : List Nat := []
deriving DecidableEq, Repr

/-- A declared copy-queue buffer (R116, R143). -/
structure Buffer where
  handle : Nat
  base   : Nat
  len    : Nat
  rtile  : Nat
  cells  : List Nat
  gen    : Nat := 0
  done   : List Nat := []
  launch : Nat
deriving DecidableEq, Repr

/-- A loaded image (R391): its hash and its bytes. -/
structure Image where
  hash  : List Byte
  bytes : List Byte
deriving DecidableEq, Repr

/-- An image being loaded (R390). -/
structure LoadBuf where
  total   : Nat
  got     : List Byte
  restore : Option Nat
  maps    : List (Nat × Nat × Nat)
  ending  : Option CmdHead := none
deriving DecidableEq, Repr

/-- A readout that a neighbour refresh delays (R318, R390): the command, the range, nature's part of the read, and the requests
delayed before it. -/
structure Readout where
  cmd    : CmdHead
  a      : Nat
  len    : Nat
  n      : ReadNature := {}
  before : List Nat := []
deriving DecidableEq, Repr

/-- A must-save declaration (R374, R375). -/
structure Decl where
  image   : List Byte
  num     : Nat
  base    : Nat
  len     : Nat
  byImage : Bool
deriving DecidableEq, Repr

/-- The range unit as a tile record saves it (R332). -/
structure RangeSnap where
  lo   : Nat
  hi   : Nat
  next : Nat
  p    : Nat
  cmin : Nat
deriving DecidableEq, Repr

/-- What a tile record holds (R328, R332): the relative tile, the range unit, the bytes of the partition that are not zero
and its full granules and tag entries, all relative to the partition, the stash records and the side-memory entries. -/
structure TileSnap where
  rtile : Nat
  range : Option RangeSnap := none
  bytes : List (Nat × Byte) := []
  full  : List Nat := []
  tags  : List (Nat × Word) := []
  stash : List StashRec := []
  side  : List (Nat × Word) := []
deriving DecidableEq, Repr

/-- A saved region (R329): its handle, the launch that it was, where its record stands and its bytes, whether a resume
launch is queued, the tiles that it left, and what its record says of its cells (relative tile and cell) and tiles.
(DESIGN CHOICE, log entry 61.) -/
structure Saved where
  handle : Nat
  launch : Nat
  base   : Nat
  bytes  : List Byte
  queued : Bool := false
  old    : List (Nat × Nat) := []
  cells  : List ((Nat × Nat) × Bank) := []
  tiles  : List TileSnap := []
deriving DecidableEq, Repr

/-- A saggar (R301, R302): its state, command keys (host to device, device to host; R312), resources, pages, images, history (R314), declarations,
fault log (R361), counters, barriers, buffers, saved regions, the space reserved for records (R321), and whether it was made in bisque mode,
with pages of stack 0 alone (R393).
(DESIGN CHOICE, log entry 6.) -/
structure Saggar where
  st       : SagState := .free
  gen      : BitVec 32 := 0
  tenant   : List Byte := []
  keys     : Option (List Byte × List Byte) := none
  ctrIn    : Nat := 0
  ctrOut   : Nat := 0
  res      : Resources := {}
  lineBase : Nat := 0
  pages    : List Page := []
  images   : List Image := []
  load     : Option LoadBuf := none
  history  : List Byte := List.replicate 48 0
  decls    : List Decl := []
  log      : List LogRec := []
  nextSeq  : BitVec 32 := 0
  recFaults : Nat := 0
  overflow : BitVec 32 := 0
  backoff  : BitVec 32 := 0
  drops    : Nat := 0
  barriers : List Barrier := List.replicate 16 {}
  buffers  : List Buffer := []
  saved    : List Saved := []
  reserved : List (Nat × Nat × Nat) := []
  early    : Bool := false
deriving DecidableEq, Repr

/-- A range of the owner table (R102). -/
structure OwnerRange where
  saggar : Nat
  base   : Nat
  len    : Nat
  site   : Site
  launch : Nat
  rtile  : Nat
deriving DecidableEq, Repr

/-! ### Cohorts (R294 to R296) -/

/-- A member of a cohort: a cell, a region, or a rank of another device. -/
inductive MemberId
  | cell (launch rtile cell : Nat)
  | region (launch : Nat)
  | remote (device : Nat)
deriving DecidableEq, Repr

/-- A member with its rank, its attempt number (R146), whether it has left, and its arrival in the current barrier
generation (R296). -/
structure Member where
  rank    : Nat
  who     : MemberId
  attempt : Nat := 0
  gone    : Bool := false
  arrived : Bool := false
deriving DecidableEq, Repr

structure Cohort where
  saggar  : Nat
  num     : Nat
  size    : Nat
  formed  : Bool := false
  closing : Bool := false
  gen     : Nat := 0
  members : List Member := []
deriving DecidableEq, Repr

/-! ### Launches -/

/-- Where the end of a region is reported (R88, R297): to the host, or on a binding of the bank that launched it, as the
request of this number. -/
inductive EndTo
  | host
  | req (q : Nat)
  | nowhere
deriving DecidableEq, Repr

/-- One tile of a launch: its relative and package numbers, the slot it holds, and whether it has been released. -/
structure LTile where
  rtile  : Nat
  tile   : Nat
  slot   : Option Nat := none
  passed : Bool := false
deriving DecidableEq, Repr

/-- Where a launch stands: in a queue; placed, its planes loading; running; saved under a handle (R329). -/
inductive LPhase
  | queued | placed | running | saved
deriving DecidableEq, Repr

/-- A traverse in progress (R320 to R329): whether the region goes back to its queue, whether it has begun, the space
reserved, and the MARK requests that report it. -/
structure Traverse where
  requeue : Bool
  begun   : Bool := false
  base    : Nat := 0
  len     : Nat := 0
  marks   : List Nat := []
  forDispatch : Bool := false
deriving DecidableEq, Repr

/-- A launch, or a region started by SPLICE or PLANE, which keeps its predecessor's launch number `no` (R12). `resume` is
the RESUME that waits for the start of the restored region (R344). -/
structure Launch where
  num      : Nat
  no       : Nat := 0
  saggar   : Nat
  image    : List Byte
  region   : Nat
  queue    : Nat
  prio     : Nat
  floating : Bool
  origin   : Nat
  placed   : Nat := 0
  phase    : LPhase := .queued
  tiles    : List LTile := []
  stamp    : Nat := 0
  endTo    : EndTo := .host
  resume   : Option Nat := none
  takes    : Bool := false
  succ     : Option (Bool × Nat) := none
  pred     : Option (Bool × Nat) := none
  draining : Bool := false
  heldDrain : Option Site := none
  freeze   : Bool := false
  causes   : List Nat := []
  trav     : Option Traverse := none
  baseWeight : Nat := 4
deriving DecidableEq, Repr

/-! ### The save store (R377 to R382) -/

/-- A saggar record of the save store as the datum reads it (R378, R379): its offset, what its header says, its payload
opened, whether it is whole (R381), and whether a restore has claimed it (R382). -/
structure SaveRec where
  off     : Nat := 0
  gen     : Nat
  saggar  : Nat
  tenant  : List Byte
  image   : List Byte
  num     : Nat
  byImage : Bool
  base    : Nat
  bytes   : List Byte
  full    : List Nat
  bad     : List Nat
  whole   : Bool := true
  claimed : Bool := false
deriving DecidableEq, Repr

/-- The device-state record as the datum reads it (R379). -/
structure DeviceRec where
  off    : Nat := 0
  gen    : Nat
  boots  : Nat
  platMap  : List Byte
  disabled : SelfTest
  supply : Bool
  logs   : List (Nat × List LogRec)
  tenants : List (Nat × List Byte)
  overflow : List (Nat × BitVec 32)
  drops  : List (Nat × Nat)
  endpoint : Nat
  decls  : List (Nat × List Byte × List Byte × Nat × Nat)
  whole  : Bool := true
deriving DecidableEq, Repr

/-- The save store (R377): its control block, the records of the latest sequence as they were written, and the bytes of the
store, by offset, now and before that sequence. (DESIGN CHOICE, log entry 6.) -/
structure SaveStore where
  boots  : Nat := 0
  gen    : Nat := 0
  device : Option DeviceRec := none
  recs   : List SaveRec := []
  cells  : List Host.Cell := []
  prior  : List Host.Cell := []
deriving DecidableEq, Repr

/-! ### Power, start-up and the command endpoint -/

/-- The service of the package (R393, R394): not started, bisque mode, firmware refused, full service. -/
inductive Service
  | off | bisque | refused | full
deriving DecidableEq, Repr

/-- The phases of the hold-up sequence (R371): none, grace (with the saggars whose phase 2 is open), run-out, ended. -/
inductive HoldUp
  | none
  | grace (open_ : List Nat)
  | runOut
  | ended
deriving DecidableEq, Repr

/-- A message from the device to the host (R388, R389): its type, saggar, counter, status, the words and bytes of its body, and
its tag. -/
structure Answer where
  type   : Nat
  saggar : Nat
  ctr    : Nat
  status : Nat
  words  : List Word := []
  bytes  : List Byte := []
  tag    : List Byte := []
deriving DecidableEq, Repr

/-- A row-activation counter of a base die (R317). -/
structure RowCount where
  die  : Nat
  bank : Nat
  row  : Nat
  n    : Nat
deriving DecidableEq, Repr

/-- The state of a port (R315, R387): whether its link is up, the key of the link, its drop counter, and its peer endpoints.
(DESIGN CHOICE, log entry 6.) -/
structure Port where
  up    : Bool := false
  key   : List Byte := []
  drops : BitVec 32 := 0
  peers : List Nat := []
deriving DecidableEq, Repr

/-! ### An open round (R33) -/

/-- A rule chosen in the round that is open: its bank, its index, whether it lacks a port (R39), and whether it was chosen in
an earlier round, whose retries end with this one (R348). -/
structure Firing where
  site  : Site
  rule  : Nat
  short : Bool := false
  again : Bool := false
deriving DecidableEq, Repr

/-- The round that is open: its tile and plane slot, the chosen rules not yet fired, in the order in which they fire, and
the upsets of the round. -/
structure Round where
  live   : Option (Nat × Nat) := none
  firing : List Firing := []
  ups    : List Upset := []
deriving DecidableEq, Repr

end Sys2Proof.Machine
end

