-- ==== Sys2Proof/Machine/Descriptor.lean ====
section
/-! DEFINITION. The sequence descriptor of the key/value commands: its fields, its chain of slots, its staging area and its
commit words (R149 to R151, R154). -/

namespace Sys2Proof.Machine

/-! ### The sequence descriptor (R149, R150) -/

/-- An entry of a chain: relative tile, slots a layer, offset of the first slot. -/
structure ChainEntry where
  tile  : Nat
  limit : Nat
  base  : Nat
deriving DecidableEq, Repr

/-- A sequence descriptor. -/
structure SeqDesc where
  layers  : Nat
  heads   : Nat
  dim     : Nat
  window  : Nat
  staging : Nat
  commit  : Nat
  rot     : Nat
  chain   : List ChainEntry
  ok      : Bool
deriving DecidableEq, Repr

/-- Whether two relative tiles differ by one in tile row or by one in tile column, but not in both. -/
def adjacent (a b : Nat) : Bool :=
  let far (x y : Nat) : Nat := if x ≤ y then y - x else x - y
  far (a / 16) (b / 16) + far (a % 16) (b % 16) = 1

/-- The chain entry in a word. -/
def chainEntry (w : Nat) : ChainEntry := { tile := bits w 58 6, limit := bits w 48 8, base := bits w 0 23 }

/-- The descriptor in 160 bytes, and whether it keeps the constraints of R149. (DEDUCED, log entry 41.) -/
def seqDesc (bs : List Byte) : SeqDesc :=
  let w (k : Nat) : Nat := ofLeBytes ((bs.drop (8 * k)).take 8)
  let c := bits (w 0) 44 4 + 1
  let entries := (List.range c).map fun j => w (4 + j)
  let chain := entries.map chainEntry
  { layers := bits (w 0) 56 8 + 1
    heads := bits (w 0) 52 4 + 1
    dim := 16 * (bits (w 0) 48 4 + 1)
    window := bits (w 0) 0 32
    staging := bits (w 1) 0 48
    commit := bits (w 2) 0 48
    rot := w 3
    chain := chain
    ok := bits (w 0) 32 12 = 0 && bits (w 1) 48 16 = 0 && bits (w 1) 0 48 % 16 = 0 && bits (w 2) 48 16 = 0
      && bits (w 2) 0 48 % 8 = 0 && entries.all (fun e => bits e 56 2 = 0 && bits e 23 25 = 0)
      && chain.all (fun e => 1 ≤ e.limit && e.base % 16 = 0)
      && (List.range 16).all (fun j => j < c || w (4 + j) = 0)
      && (chain.zip (chain.drop 1)).all (fun (a, b) => adjacent a.tile b.tile) }

/-- S, the slots per layer. -/
def SeqDesc.slots (d : SeqDesc) : Nat := (d.chain.map (·.limit)).foldl (· + ·) 0

/-- The size of a slot. -/
def SeqDesc.slotSize (d : SeqDesc) : Nat := 128 * d.heads * d.dim + 16 * ((d.heads + 1) / 2)

/-- The entry and the index in it of ring slot k. -/
def findSlot : List ChainEntry → Nat → Option (ChainEntry × Nat)
  | [], _ => none
  | e :: r, k => if k < e.limit then some (e, k) else findSlot r (k - e.limit)

/-- The relative tile and the offset of the slot of block b of layer l. -/
def SeqDesc.slotAt (d : SeqDesc) (l b : Nat) : Option (Nat × Nat) :=
  (findSlot d.chain (b % d.slots)).map fun (e, i) => (e.tile, e.base + (l * e.limit + i) * d.slotSize)

/-- The staging area of layer l, and the places in it (R151). -/
def SeqDesc.area (d : SeqDesc) (l : Nat) : Nat := d.staging + l * (16 + 512 * d.heads + 256 * d.heads * d.dim)
def SeqDesc.areaSize (d : SeqDesc) : Nat := 16 + 512 * d.heads + 256 * d.heads * d.dim
def SeqDesc.amaxAt (d : SeqDesc) (l p h k : Nat) : Nat := d.area l + 16 + 8 * (d.heads * p + h) + 4 * k
def SeqDesc.rowAt (d : SeqDesc) (l p h k : Nat) : Nat :=
  d.area l + 16 + 512 * d.heads + 4 * d.dim * (d.heads * p + h) + 2 * d.dim * k

/-- The commit word of position n (R154). -/
def SeqDesc.commitAt (d : SeqDesc) (n : Nat) : Nat := d.commit + 8 * (n % (64 * d.slots))

end Sys2Proof.Machine
end

