-- ==== Sys2Proof/Machine/Image.lean ====
section
/-! DEFINITION. Reading an Icone image and a plane body (R391, R392). -/

namespace Sys2Proof.Machine

/-- n bytes from an offset, as a little-endian number; bytes beyond the end read as zero. -/
def leAt (bs : List Byte) (off n : Nat) : Nat := ofLeBytes ((bs.drop off).take n)

/-! ### Header and tables (R391) -/

def Image.regions (i : Image) : Nat := leAt i.bytes 0x10 2
def Image.planes (i : Image) : Nat := leAt i.bytes 0x12 2
def Image.segments (i : Image) : Nat := leAt i.bytes 0x14 4
def Image.decls (i : Image) : Nat := leAt i.bytes 0x18 2
def Image.launches (i : Image) : Nat := leAt i.bytes 0x1A 2

def Image.regionOff (_ : Image) (r : Nat) : Nat := 128 + 48 * r
def Image.planeOff (i : Image) (p : Nat) : Nat := 128 + 48 * i.regions + 16 * p
def Image.segOff (i : Image) (k : Nat) : Nat := 128 + 48 * i.regions + 16 * i.planes + 16 * k
def Image.declOff (i : Image) (k : Nat) : Nat := i.segOff i.segments + 16 * k
def Image.launchOff (i : Image) (k : Nat) : Nat := i.declOff i.decls + 8 * k

/-- The default origin, the tile count and the first plane of a region. -/
def Image.origin (i : Image) (r : Nat) : Nat := bits (leAt i.bytes (i.regionOff r + 0x20) 8) 0 6
def Image.tileCount (i : Image) (r : Nat) : Nat := bits (leAt i.bytes (i.regionOff r + 0x20) 8) 8 6 + 1
def Image.firstPlane (i : Image) (r : Nat) : Nat := bits (leAt i.bytes (i.regionOff r + 0x20) 8) 16 9

/-- The relative tile, region, length and body offset of a plane. -/
def Image.planeTile (i : Image) (p : Nat) : Nat := bits (leAt i.bytes (i.planeOff p) 8) 0 6
def Image.planeRegion (i : Image) (p : Nat) : Nat := bits (leAt i.bytes (i.planeOff p) 8) 8 8
def Image.planeLen (i : Image) (p : Nat) : Nat := bits (leAt i.bytes (i.planeOff p) 8) 32 32
def Image.bodyOff (i : Image) (p : Nat) : Nat := leAt i.bytes (i.planeOff p + 8) 8

/-- The planes of a region, in ascending relative tile. -/
def Image.regionPlanes (i : Image) (r : Nat) : List Nat := (List.range (i.tileCount r)).map (i.firstPlane r + ·)

/-- The plat of a region: the relative tiles of its planes (R391). -/
def Image.plat (i : Image) (r : Nat) : List Nat := (i.regionPlanes r).map i.planeTile

/-- The image plane number of a region's plane on a relative tile. -/
def Image.planeOf (i : Image) (r t : Nat) : Option Nat := (i.regionPlanes r).find? (i.planeTile · = t)

/-- A data segment: its address and bytes. -/
def Image.segment (i : Image) (k : Nat) : Nat × List Byte :=
  let w := leAt i.bytes (i.segOff k + 8) 8
  (bits (leAt i.bytes (i.segOff k) 8) 0 48, (i.bytes.drop (16 * bits w 32 32)).take (bits w 0 32))

/-- A must-save declaration of the image: its base and length. -/
def Image.decl (i : Image) (k : Nat) : Nat × Nat :=
  (bits (leAt i.bytes (i.declOff k) 8) 0 48, leAt i.bytes (i.declOff k + 8) 4)

/-- The launch line k: region, queue, priority. -/
def Image.launchLine (i : Image) (k : Nat) : Nat × Nat × Nat :=
  let w := leAt i.bytes (i.launchOff k) 8
  (bits w 0 8, bits w 8 5, bits w 13 2)

/-- Whether the planes of a region stand together, in ascending relative tile, and name the region (R391). -/
def Image.regionOk (i : Image) (r : Nat) : Bool :=
  let w := leAt i.bytes (i.regionOff r + 0x20) 8
  let ps := i.regionPlanes r
  bits w 6 2 = 0 && bits w 14 2 = 0 && bits w 25 39 = 0 && leAt i.bytes (i.regionOff r + 0x28) 8 = 0
    && ps.all (fun p => p < i.planes && i.planeRegion p = r)
    && (ps.zip (ps.drop 1)).all (fun (p, q) => i.planeTile p < i.planeTile q)

/-- Whether a plane's entry and body agree (R392): its length is 0x18008 + 16 n for the count n of its extension, n is at
most 2,047, and the body lies before the signature block. -/
def Image.planeOk (i : Image) (p : Nat) : Bool :=
  let w := leAt i.bytes (i.planeOff p) 8
  let n := leAt i.bytes (i.bodyOff p + 0x18000) 8
  bits w 6 2 = 0 && bits w 16 16 = 0 && i.bodyOff p % 16 = 0 && i.planeLen p = 0x18008 + 16 * n && n ≤ 2047
    && i.bodyOff p + i.planeLen p + 96 ≤ i.bytes.length && i.planeRegion p < i.regions

/-- Where a UTF-8 text stands: how many bytes of its character are still to come, and between what bounds the next lies. -/
structure Utf8 where
  need : Nat := 0
  lo   : Nat := 0x80
  hi   : Nat := 0xBF

/-- The next byte of a UTF-8 text; none when it cannot stand there. -/
def Utf8.next (t : Utf8) (b : Nat) : Option Utf8 :=
  if 0 < t.need then (if t.lo ≤ b && b ≤ t.hi then some { need := t.need - 1 } else none)
  else if b < 0x80 then some {}
  else if 0xC2 ≤ b && b ≤ 0xDF then some { need := 1 }
  else if 0xE0 ≤ b && b ≤ 0xEF then
    some { need := 2, lo := if b = 0xE0 then 0xA0 else 0x80, hi := if b = 0xED then 0x9F else 0xBF }
  else if 0xF0 ≤ b && b ≤ 0xF4 then
    some { need := 3, lo := if b = 0xF0 then 0x90 else 0x80, hi := if b = 0xF4 then 0x8F else 0xBF }
  else none

/-- Whether the bytes of a name are UTF-8 padded with zeros (R391). -/
def nameOk (bs : List Byte) : Bool :=
  let text := bs.takeWhile (· ≠ 0)
  (bs.drop text.length).all (· = 0)
    && ((text.foldl (fun (t : Option Utf8) b => t.bind (·.next b.toNat)) (some {})).map fun t => decide (t.need = 0)).getD false

/-- The bodies of an image: the offset and length of each plane, then of each data segment, in the order of the tables (R391). -/
def Image.bodies (i : Image) : List (Nat × Nat) :=
  ((List.range i.planes).map fun p => (i.bodyOff p, i.planeLen p))
    ++ (List.range i.segments).map fun k => (16 * leAt i.bytes (i.segOff k + 12) 4, leAt i.bytes (i.segOff k + 8) 4)

/-- Whether bodies stand in their order from an offset on, each at a multiple of 16, with zero bytes between, up to an end. -/
def Image.laidOut (i : Image) (last : Nat) : Nat → List (Nat × Nat) → Bool
  | from_, [] => decide (from_ ≤ last)
  | from_, (off, n) :: r =>
    off % 16 = 0 && decide (from_ ≤ off) && ((i.bytes.drop from_).take (off - from_)).all (· = 0) && i.laidOut last (off + n) r

/-- Whether the header and the tables keep the constraints of R391. -/
def Image.wellFormed (i : Image) : Bool :=
  leAt i.bytes 0 4 = 0x4349584F && leAt i.bytes 4 2 = 1 && leAt i.bytes 8 8 = i.bytes.length
    && 1 ≤ i.regions && i.regions ≤ 256 && 1 ≤ i.planes && i.planes ≤ 512 && i.decls ≤ 256
    && leAt i.bytes 0x1C 4 = 0 && ((i.bytes.drop 0x60).take 32).all (· = 0)
    && i.laidOut (i.bytes.length - 96) (i.launchOff i.launches) i.bodies && 96 ≤ i.bytes.length
    && nameOk ((i.bytes.drop 0x20).take 32) && nameOk ((i.bytes.drop 0x40).take 32)
    && (List.range i.regions).all (fun r => nameOk ((i.bytes.drop (i.regionOff r)).take 32))
    && (List.range i.planes).all (fun p => (i.regionPlanes (i.planeRegion p)).contains p)
    && (List.range i.regions).all i.regionOk && (List.range i.planes).all i.planeOk
    && (List.range i.segments).all (fun k =>
        bits (leAt i.bytes (i.segOff k) 8) 48 16 = 0
          && 16 * leAt i.bytes (i.segOff k + 12) 4 + leAt i.bytes (i.segOff k + 8) 4 + 96 ≤ i.bytes.length)
    && (List.range i.decls).all (fun k =>
        bits (leAt i.bytes (i.declOff k) 8) 48 16 = 0 && leAt i.bytes (i.declOff k + 12) 4 = 0)
    && (List.range i.launches).all (fun k =>
        bits (leAt i.bytes (i.launchOff k) 8) 15 49 = 0 && (i.launchLine k).1 < i.regions)

/-! ### Plane bodies (R392) -/

/-- Rule word r, software row r, format entry n and output binding o of a cell, from a plane body. -/
def bodyRule (b : List Byte) (c r : Nat) : BitVec 128 := BitVec.ofNat 128 (leAt b (512 * c + 16 * r) 16)
def bodySoft (b : List Byte) (c r : Nat) : BitVec 16 := BitVec.ofNat 16 (leAt b (512 * c + 0x100 + 2 * r) 2)
def bodyFmt (b : List Byte) (c n : Nat) : BitVec 16 := BitVec.ofNat 16 (leAt b (512 * c + 0x120 + 2 * n) 2)
def bodyBind (b : List Byte) (c o : Nat) : Nat := leAt b (512 * c + 0x160 + 8 * o) 8

/-- The extension entries: cell, register code, value. -/
def bodyInits (b : List Byte) : List (Nat × Nat × Word) :=
  (List.range (leAt b 0x18000 8)).map fun k =>
    let w := leAt b (0x18008 + 16 * k) 8
    (bits w 0 8, bits w 8 6, BitVec.ofNat 64 (leAt b (0x18010 + 16 * k) 8))

/-- The binding that a binding word states; none when the output is not bound. -/
def decodeBind (w : Nat) : Option Binding :=
  if bitOf w 63 then some { yx := bitOf w 62, tile := bits w 56 6, cell := bits w 48 8, ch := bits w 43 5 } else none

end Sys2Proof.Machine
end

