-- ==== Sys2Proof/Machine/State.lean ====
section
/-! DEFINITION. The state of the package: everything that the spec gives the machine, as plain data, and its value right
after reset; the faults and refusals of the model. -/

namespace Sys2Proof.Machine

/-- The stops of the model. -/
inductive Fault
  /-- Raised by a rule instruction that is run when no rule is chosen to fire: no round is open. The machine fires a rule
  only inside a round (R33), so the stop says that the question has no meaning on the hardware. Safe. -/
  | noFiring
deriving DecidableEq, Repr

/-- The refusals of the model. -/
inductive Refusal
  /-- Raised by an arm of the dispatcher whose instruction has no meaning in this model yet. Safe: nothing is proved of
  what the hardware does there. -/
  | notModelled (mnemonic : String)
deriving DecidableEq, Repr

/-- The package. Memory is one list of cells: HBM of saggar g at virtual address a stands at key g × 2^48 + a, and byte b
of tile t's store at key 2^60 + t × 2^23 + b. (DESIGN CHOICE, log entry 7.) -/
structure State where
  /-- the steps of the machine that come next (00 R2, R73); when it is empty they are free (`Config.freeMove`) -/
  agenda   : List Instr
  /-- a count of steps, which only names the free values (the model's own field) -/
  tick     : Nat
  /-- the next firing, request and record number (the model's own field) -/
  nextId   : Nat
  round    : Round
  banks    : List (Site × Bank)
  tiles    : List Tile
  mem      : List Host.Cell
  /-- full 8-byte words of write-once pages (R105), by word key -/
  full     : List Nat
  /-- 8-byte words stored with the poison code (R98, R350), by word key -/
  poison   : List Nat
  /-- full 16-byte granules of the tile stores (R94), by granule key -/
  granules : List Nat
  /-- tag-table entries that are not zero (R92): tile, line, entry -/
  tags     : List ((Nat × Nat) × Word)
  /-- side-memory entries that are not zero (R219): tile, saggar, entry -/
  side     : List ((Nat × Nat × Nat) × Word)
  /-- side-memory entries that hold the statistics of a row that bore a tag (R345, R352) -/
  sideBad  : List (Nat × Nat × Nat)
  stashed  : List StashRec
  lags     : List Lag
  /-- corrected errors of HBM, by base die (R98), and of flits, by hop (R353) -/
  eccCount : List (Nat × Nat)
  hopCount : List ((Nat × Nat) × Nat)
  reqs     : List Req
  /-- presence loads held, in order, by base die; and those that wait for an entry (R106, R107) -/
  deferred : List (Nat × Nat)
  waiting  : List (Nat × Nat)
  owners   : List OwnerRange
  /-- engine translation caches by fabric stack and kind (R309) -/
  engineTlb : List (Nat × List TlbEntry)
  /-- walks held: walker, saggar, page; and misses that wait for one (R310) -/
  walks    : List (Nat × Nat × Nat)
  walkWait : List (Nat × Nat × Nat)
  saggars  : List Saggar
  cohorts  : List Cohort
  launches : List Launch
  /-- launch queues (R264): launch numbers in order of arrival -/
  queues   : List (List Nat)
  /-- the queue from which each priority last dispatched (R265) -/
  lastQ    : List (Option Nat)
  nextLaunch : Nat
  stamp    : Nat
  /-- save-declaration requests on their way to the port die, and those that it has decided, with their answers (R376) -/
  saveReqs : List Nat
  saveAnswers : List (Nat × Word)
  colthr   : Nat
  rmthr    : Nat
  alerts   : List (BitVec 32)
  backoff  : List (BitVec 32)
  rows     : List RowCount
  /-- banks under a neighbour refresh (R318) -/
  refreshing : List (Nat × Nat)
  /-- requests that a neighbour refresh delayed and that are still to be served, in order of arrival, by bank (R318) -/
  delayed  : List ((Nat × Nat) × Nat)
  ports    : List Port
  /-- the memory keys in the key slots of the base dies, by die and slot (R311) -/
  keySlots : List ((Nat × Nat) × List Byte)
  /-- the tenant hash bound to a saggar of a peer device, as its join records gave it (R316) -/
  bound    : List ((Nat × Nat) × List Byte)
  service  : Service
  degraded : Bool
  tilesOff : List Nat
  storeOff : List Nat
  stashOff : List Nat
  channelsOff : List Nat
  portsOff : List Nat
  dispatchOn : Bool
  holdUp   : HoldUp
  supplyTrap : Bool
  store    : SaveStore
  exchanges : Nat
  endpointDrops : Nat
  answers  : List Answer
  /-- readouts that a neighbour refresh delays, in order of arrival (R318) -/
  readouts : List Readout
deriving DecidableEq, Repr

/-- The machine right after reset: power just applied, nothing started, every register at the value that R45, R265, R317
and the inventory name. (DESIGN CHOICE, log entries 5, 6, 7.) -/
def State.reset : State where
  agenda   := []
  tick     := 0
  nextId   := 1
  round    := {}
  banks    := []
  tiles    := List.replicate 64 {}
  mem      := []
  full     := []
  poison   := []
  granules := []
  tags     := []
  side     := []
  sideBad  := []
  stashed  := []
  lags     := []
  eccCount := []
  hopCount := []
  reqs     := []
  deferred := []
  waiting  := []
  owners   := []
  engineTlb := []
  walks    := []
  walkWait := []
  saggars  := List.replicate 16 {}
  cohorts  := []
  launches := []
  queues   := List.replicate 32 []
  lastQ    := List.replicate 4 none
  nextLaunch := 0
  stamp    := 0
  saveReqs := []
  saveAnswers := []
  colthr   := 12
  rmthr    := 4096
  alerts   := List.replicate 8 0
  backoff  := List.replicate 256 0
  rows     := []
  refreshing := []
  delayed  := []
  ports    := List.replicate 16 {}
  keySlots := []
  bound    := []
  service  := .off
  degraded := false
  tilesOff := []
  storeOff := []
  stashOff := []
  channelsOff := []
  portsOff := []
  dispatchOn := false
  holdUp   := .none
  supplyTrap := false
  store    := {}
  exchanges := 0
  endpointDrops := 0
  answers  := []
  readouts := []

end Sys2Proof.Machine
end

