-- ==== Sys2Proof/Machine/Ops.lean ====
section
/-! DEFINITION. The named operations over the state: memories, registers, tokens, results, and taking an exception. -/

namespace Sys2Proof.Machine

/-! ### Access to the parts of the state -/

def State.bank (s : State) (x : Site) : Bank := (alGet x s.banks).getD {}
def State.setBank (s : State) (x : Site) (b : Bank) : State := { s with banks := alPut x b s.banks }
def State.modBank (s : State) (x : Site) (f : Bank → Bank) : State := s.setBank x (f (s.bank x))

def State.tile (s : State) (t : Nat) : Tile := s.tiles.getD t {}
def State.modTile (s : State) (t : Nat) (f : Tile → Tile) : State := { s with tiles := setAt {} s.tiles t (f (s.tile t)) }

def State.slot (s : State) (t k : Nat) : Slot := (s.tile t).slots.getD k {}
def State.modSlot (s : State) (t k : Nat) (f : Slot → Slot) : State :=
  s.modTile t fun tl => { tl with slots := setAt {} tl.slots k (f (tl.slots.getD k {})) }

def State.saggar (s : State) (g : Nat) : Saggar := s.saggars.getD g {}
def State.modSaggar (s : State) (g : Nat) (f : Saggar → Saggar) : State :=
  { s with saggars := setAt {} s.saggars g (f (s.saggar g)) }

def State.launch? (s : State) (j : Nat) : Option Launch := s.launches.find? (·.num = j)
def State.modLaunch (s : State) (j : Nat) (f : Launch → Launch) : State :=
  { s with launches := s.launches.map fun l => if l.num = j then f l else l }

def State.req? (s : State) (q : Nat) : Option Req := s.reqs.find? (·.id = q)
def State.modReq (s : State) (q : Nat) (f : Req → Req) : State :=
  { s with reqs := s.reqs.map fun r => if r.id = q then f r else r }
def State.dropReq (s : State) (q : Nat) : State := { s with reqs := s.reqs.filter (·.id ≠ q) }

/-- The launch whose plane stands in the slot of a bank. -/
def State.launchAt (s : State) (x : Site) : Option Launch :=
  let k := s.slot x.tile x.slot
  if k.phase = .free then none else s.launch? k.launch

/-- The number of the launch of a bank's plane; 0 when there is none. (DEDUCED, log entry 58.) -/
def State.launchNum (s : State) (x : Site) : Nat := (s.slot x.tile x.slot).launch

/-- The saggar of a bank's plane. -/
def State.saggarOf (s : State) (x : Site) : Nat := ((s.launchAt x).map (·.saggar)).getD 0

/-- The relative tile of a bank's plane. -/
def State.rtileOf (s : State) (x : Site) : Nat :=
  (((s.launchAt x).bind fun l => l.tiles.find? (·.tile = x.tile)).map (·.rtile)).getD 0

def State.image? (s : State) (g : Nat) (hash : List Byte) : Option Image := (s.saggar g).images.find? (·.hash = hash)

/-- The image plane number of a bank's plane (R47). -/
def State.planeNum (s : State) (x : Site) : Nat :=
  (((s.launchAt x).bind fun l => (s.image? l.saggar l.image).bind fun i => i.planeOf l.region (s.rtileOf x))).getD 0

/-- Add one to a progress counter of a plane slot (R259). -/
def State.count (s : State) (t k n : Nat) : State :=
  s.modSlot t k fun sl => { sl with counters := setAt 0 sl.counters n (sl.counters.getD n 0 + 1) }

/-- A progress event of the plane of a bank (R261). -/
def State.progress (s : State) (x : Site) : State := s.modSlot x.tile x.slot fun sl => { sl with progress := true }

def Bank.out (b : Bank) (o : Nat) : OutState := b.outs.getD o {}
def Bank.modOut (b : Bank) (o : Nat) (f : OutState → OutState) : Bank := { b with outs := setAt {} b.outs o (f (b.out o)) }
def Bank.chan (b : Bank) (n : Nat) : Chan := b.chans.getD n {}
def Bank.modChan (b : Bank) (n : Nat) (f : Chan → Chan) : Bank := { b with chans := setAt {} b.chans n (f (b.chan n)) }

/-! ### Memory: one list of cells, strictly rising, with no cell equal to what an unlisted address reads as -/

/-- What an address that no cell lists reads as: every granted resource is scrubbed to zero first (R305).
(DESIGN CHOICE, log entry 2.) -/
def unlisted (_ : Nat) : Byte := 0

/-- The byte at a key. (DESIGN CHOICE, log entry 2.) -/
def Memory.get : List Host.Cell → Nat → Byte
  | [], a => unlisted a
  | (k, v) :: r, a => if a = k then v else if a < k then unlisted a else Memory.get r a

/-- The memory with the byte at a key replaced. (DESIGN CHOICE, log entry 2.) -/
def Memory.put : List Host.Cell → Nat → Byte → List Host.Cell
  | [], a, v => if v = unlisted a then [] else [(a, v)]
  | (k, w) :: r, a, v =>
    if a < k then (if v = unlisted a then (k, w) :: r else (a, v) :: (k, w) :: r)
    else if a = k then (if v = unlisted a then r else (a, v) :: r)
    else (k, w) :: Memory.put r a v

/-- Every key of the list lies above a. -/
def Memory.above (a : Nat) (m : List Host.Cell) : Bool := m.all fun c => a < c.1

/-- The canonical form of a memory. (DESIGN CHOICE, log entry 2.) -/
def Memory.wf : List Host.Cell → Bool
  | [] => true
  | (k, v) :: r => v ≠ unlisted k && Memory.above k r && Memory.wf r

/-- A sorted set of keys. -/
def setMem (a : Nat) : List Nat → Bool
  | [] => false
  | k :: r => if a = k then true else if a < k then false else setMem a r

def setAdd (a : Nat) : List Nat → List Nat
  | [] => [a]
  | k :: r => if a < k then a :: k :: r else if a = k then k :: r else k :: setAdd a r

def setDel (a : Nat) : List Nat → List Nat
  | [] => []
  | k :: r => if a = k then r else if a < k then k :: r else k :: setDel a r

/-- The key of a virtual address of a saggar. (DESIGN CHOICE, log entry 2.) -/
def hbmKey (g a : Nat) : Nat := g * 2 ^ 48 + a % 2 ^ 48

/-- The key of a physical byte of a tile's store. (DESIGN CHOICE, log entry 2.) -/
def storeKey (t off : Nat) : Nat := 2 ^ 60 + t * 2 ^ 23 + off % 2 ^ 23

/-- The key of a partition-relative byte of a saggar in a tile's store (R91). -/
def partKey (s : State) (g t off : Nat) : Nat := storeKey t ((s.saggar g).lineBase * 2048 + off)

/-- The size in bytes of a saggar's partition of a tile store. -/
def State.partSize (s : State) (g : Nat) : Nat := (s.saggar g).res.lines * 2048

def State.byte (s : State) (k : Nat) : Byte := Memory.get s.mem k
def State.setByte (s : State) (k : Nat) (v : Byte) : State := { s with mem := Memory.put s.mem k v }

/-- n bytes from a key. -/
def State.bytes (s : State) (k n : Nat) : List Byte := (List.range n).map fun i => s.byte (k + i)

/-- The bytes written from a key upward. -/
def State.setBytes (s : State) (k : Nat) : List Byte → State
  | [] => s
  | b :: r => State.setBytes (s.setByte k b) (k + 1) r

/-- The little-endian number of n bytes from a key (R124). -/
def State.num (s : State) (k n : Nat) : Nat := ofLeBytes (s.bytes k n)

/-! ### Registers and history -/

def Bank.reg (b : Bank) : Reg → Word
  | .g n => b.g.getD n 0
  | .m n => b.m.getD n 0

def Bank.setReg (b : Bank) (r : Reg) (v : Word) : Bank :=
  match r with
  | .g n => { b with g := setAt 0 b.g n v }
  | .m n => { b with m := setAt 0 b.m n v }

/-- push_history of R42: the new entry enters d1 and d4 is dropped; its result may still be to come (R50). -/
def Bank.push (b : Bank) (v : Word) (pend : Option Nat) : Bank :=
  { b with d := ({ val := v, pend := pend } :: b.d).take 4 }

/-- Whether a register is the destination of a result not yet written (R36). -/
def Bank.regPending (b : Bank) (r : Reg) : Bool :=
  b.pend.any fun p => p.writes.any fun w => match w with | .reg r' _ => r' = r | _ => false

/-- Whether a tile is pending: an ACCSC is scaling it (R237). -/
def Bank.accPending (b : Bank) (n : Nat) : Bool :=
  b.pend.any fun p => p.writes.any fun w => match w with | .acc n' _ => n' = n | _ => false

/-- pred_update of R42, on all eight predicates at once. -/
def predUpdate (p set clr : BitVec 8) : BitVec 8 := (p &&& ~~~clr) ||| (set &&& ~~~clr) ||| (set &&& clr &&& ~~~p)

def Bank.setPred (b : Bank) (k : BitVec 3) (v : Bool) : Bank :=
  { b with p := if v then b.p ||| (1#8 <<< k.toNat) else b.p &&& ~~~(1#8 <<< k.toNat) }

/-! ### Tokens (R69 to R73, R355) -/

/-- The consumer of an output: the bank and the channel, when the plane is active there (R82). -/
def State.consumer (s : State) (x : Site) (o : Nat) : Option (Site × Nat) := do
  let bd ← ((s.bank x).out o).bind
  let l ← s.launchAt x
  let t ← l.tiles.find? (·.rtile = bd.tile)
  let k ← t.slot
  let sl := s.slot t.tile k
  if sl.phase = .active && sl.launch = l.num then some ({ tile := t.tile, slot := k, cell := bd.cell }, bd.ch) else none

/-- Whether a token is no marker: a marker takes no slot (R323). -/
def notMarker (t : Token) : Bool := t.cls ≠ clsMarker

/-- The slots of a channel that are neither held by a token nor taken for one: four in all; a marker takes none. -/
def Chan.free (c : Chan) : Nat := 4 - ((c.toks.filter notMarker).length + c.taken)

/-- The free slots at the consumer of an output. (DEDUCED, log entry 12.) -/
def State.freeSlots (s : State) (x : Site) (o : Nat) : Nat :=
  match s.consumer x o with
  | some (y, n) => ((s.bank y).chan n).free
  | none => 0

/-- Whether n tokens may take a slot on an output: free slots, and credit while the gate is enabled (R35, R285).
(DEDUCED, log entry 11.) -/
def State.canSend (s : State) (x : Site) (o n : Nat) : Bool :=
  n ≤ s.freeSlots x o && (!((s.bank x).out o).gateOn || n ≤ ((s.bank x).out o).credit.toNat)

/-- Take one slot at the consumer, and one credit when asked and the gate is enabled. -/
def State.takeSlot (s : State) (x : Site) (o : Nat) (credit : Bool) : State :=
  match s.consumer x o with
  | none => s
  | some (y, n) =>
    let s := s.modBank y fun b => b.modChan n fun c => { c with taken := c.taken + 1 }
    if credit then s.modBank x fun b => b.modOut o fun p => if p.gateOn then { p with credit := p.credit - 1 } else p
    else s

/-- Give back a slot that was taken for a token that will not come, with the credit paid for it. (DEDUCED, log entry 11.) -/
def State.freeSlot (s : State) (x : Site) (o : Nat) : State :=
  let s := s.modBank x fun b => b.modOut o fun p => if p.gateOn then { p with credit := p.credit + 1 } else p
  match s.consumer x o with
  | none => s
  | some (y, n) => s.modBank y fun b => b.modChan n fun c => { c with taken := c.taken - 1 }

/-- A token that leaves an output: it takes the next sequence number of the pair, and a copy is kept (R70, R355). -/
def OutState.leave (x : Site) (o : Nat) (p : OutState) (t : GTok) : OutState :=
  let k : Token := { cls := t.cls, payload := t.payload, etag := t.etag, src := x, out := o, seq := p.sent,
                     stream := t.stream, seqr := t.seqr, acc := t.acc }
  { p with sent := p.sent + 1, flight := p.flight ++ [k], kept := p.kept ++ [k] }

/-- The tokens that hold their slots and stand before no earlier group leave (R72), but not before tokens that
are to be sent again (R368); a run that a freeze has stopped sends nothing more (R360). -/
def OutState.pump (x : Site) (o : Nat) (frozen : Bool) : Nat → OutState → OutState
  | 0, p => p
  | f + 1, p =>
    if !p.resend.isEmpty then p
    else match p.groups with
    | [] => p
    | g :: gs =>
      match g.toks with
      | [] => if g.closed && g.resv = 0 then OutState.pump x o frozen f { p with groups := gs } else p
      | t :: ts =>
        if t.slot && !(frozen && g.run) then
          OutState.pump x o frozen f ({ p with groups := { g with toks := ts } :: gs }.leave x o t)
        else p

/-- The steps that a pump of an output can take. -/
def OutState.work (p : OutState) : Nat := p.groups.foldl (fun n g => n + g.toks.length + 1) 1

def State.pumpOnce (s : State) (x : Site) (o : Nat) : State :=
  s.modBank x fun b => b.modOut o fun p => p.pump x o ((s.slot x.tile x.slot).halt = .stopped) p.work

/-- The token at the front of an output that waits for its slot: it takes one when one is free, and a credit unless a
sequencer sends it: a drain or notify token (R285, R372). -/
def State.pump (s : State) (x : Site) (o : Nat) : Nat → State
  | 0 => s
  | f + 1 =>
    let s := s.pumpOnce x o
    match ((s.bank x).out o).groups with
    | g :: gs =>
      match g.toks with
      | t :: ts =>
        let pays := !t.seqr
        if t.slot = false && (if pays then s.canSend x o 1 else 0 < s.freeSlots x o) then
          State.pump ((s.takeSlot x o pays).modBank x fun b => b.modOut o fun p =>
            { p with groups := { g with toks := { t with slot := true } :: ts } :: gs }) x o f
        else s
      | [] => s
    | [] => s

/-- Move what can leave an output. -/
def State.flush (s : State) (x : Site) (o : Nat) : State := s.pump x o (((s.bank x).out o).groups.length + 1)

/-- Add a group to an output. -/
def State.addGroup (s : State) (x : Site) (o : Nat) (g : Group) : State :=
  s.modBank x fun b => b.modOut o fun p => { p with groups := p.groups ++ [g] }

/-- Change a group of an output. -/
def State.modGroup (s : State) (x : Site) (o id : Nat) (f : Group → Group) : State :=
  s.modBank x fun b => b.modOut o fun p => { p with groups := p.groups.map fun g => if g.id = id then f g else g }

/-- Put a token into the place that a group keeps for it, its slot already taken, and let it leave. -/
def State.fillGroup (s : State) (x : Site) (o id : Nat) (t : GTok) : State :=
  (s.modGroup x o id fun g => { g with toks := g.toks ++ [{ t with slot := true }], resv := g.resv - 1 }).flush x o

/-- Close a group: no further token is made in it. -/
def State.closeGroup (s : State) (x : Site) (o id : Nat) : State :=
  (s.modGroup x o id fun g => { g with closed := true }).flush x o

/-- A run of tokens ends: a slot that its group kept and did not use is free again. -/
def State.endRun (s : State) (x : Site) (o id : Nat) : State :=
  let n := ((((s.bank x).out o).groups.find? (·.id = id)).map (·.resv)).getD 0
  (((n.fold (fun _ _ s => s.freeSlot x o) s).modGroup x o id fun g => { g with resv := 0, closed := true })).flush x o

/-- send of R42 for one token that leaves at once: a group of its own, its slot taken now. (DEDUCED, log entry 31.) -/
def State.emit (s : State) (x : Site) (o id : Nat) (t : GTok) : State :=
  ((s.takeSlot x o true).addGroup x o { id := id, toks := [{ t with slot := true }], closed := true }).flush x o

/-- Take a slot for each of n tokens that the group will make later. -/
def State.reserve (s : State) (x : Site) (o id n : Nat) (closed run : Bool) : State :=
  (n.fold (fun _ _ s => s.takeSlot x o true) s).addGroup x o { id := id, resv := n, closed := closed, run := run }

/-- Whether a token is the word of a stream, which is read again to be sent again (R368). -/
def State.rereads (s : State) (t : Token) : Bool :=
  match t.stream.bind fun e => s.req? e.1 with
  | some r => match r.op with
    | .stream .. => true
    | _ => false
  | none => false

/-- The tokens that a consumer asked for again leave, up to the next word of a stream; then what waited behind them. -/
def State.sendAgain (s : State) (x : Site) (o : Nat) : State :=
  let p := (s.bank x).out o
  let now := p.resend.takeWhile fun t => !(s.rereads t)
  (s.modBank x fun b => b.modOut o fun p =>
    { p with flight := p.flight ++ now, resend := p.resend.drop now.length }).flush x o

/-- A sender's copy of a token is dropped when the consumer removes the token (R355). -/
def State.ack (s : State) (t : Token) : State :=
  s.modBank t.src fun b => b.modOut t.out fun p => { p with kept := p.kept.filter (·.seq ≠ t.seq) }

/-- The head of a channel leaves it, its slot is free and its sender is told. (DEDUCED, log entry 11.) -/
def State.popHead (s : State) (x : Site) (n : Nat) : State :=
  match ((s.bank x).chan n).toks with
  | [] => s
  | t :: ts => (s.modBank x fun b => b.modChan n fun c => { c with toks := ts }).ack t

/-! ### Results (R36, R38, R51) -/

/-- A unit whose instruction is final only when it ends (R225, R242); a loop nest is none (R277). -/
def UnitWork.holdsFinal : UnitWork → Bool
  | .nest _ => false
  | _ => true

/-- Whether nothing of a firing is still to come: no result, unit or request. -/
def State.isFinal (s : State) (x : Site) (id : Nat) : Bool :=
  let b := s.bank x
  !(b.pend.any (·.id = id)) && !(b.units.any fun u => u.firing = id && u.work.holdsFinal) && !(s.reqs.any fun r => r.id = id && !r.performed)

/-- The scoreboard slots whose firings are final clear (R38). -/
def State.clearFinal (s : State) (x : Site) : State :=
  s.modBank x fun b => { b with sb := b.sb.map fun e => match e with
    | some (r, id) => if s.isFinal x id then none else some (r, id)
    | none => none }

def PWrite.apply (x : Site) (id : Nat) (s : State) : PWrite → State
  | .reg r v => s.modBank x fun b => b.setReg r v
  | .acc n el => s.modBank x fun b => { b with acc := setAt {} b.acc n { (b.acc.getD n {}) with el := el } }
  | .tok o t => s.fillGroup x o id t

/-- Write a result that is still to come, and clear what waits for it (R36, R50). -/
def State.writePend (s : State) (x : Site) (p : Pend) : State :=
  let s := s.modBank x fun b =>
    { b with pend := b.pend.filter (·.id ≠ p.id)
             d := b.d.map fun e => if e.pend = some p.id then { e with pend := none } else e }
  (p.writes.foldl (PWrite.apply x p.id) s).clearFinal x

/-- Write every result of a bank whose latency has run out. -/
def State.writeDue (s : State) (x : Site) : State :=
  ((s.bank x).pend.filter (·.left = some 0)).foldl (fun s p => s.writePend x p) s

/-! ### What is ordered before an access (R78, R79) -/

/-- Whether an access still matters to an order: it is outstanding, or a byte that it wrote is not seen on every path. -/
def State.live (s : State) (a : Nat) : Bool := s.reqs.any (·.id = a) || s.lags.any (·.acc = a)

/-- Some accesses, each once, without those that no longer matter. -/
def State.prune (s : State) (l : List (Path × Nat)) : List (Path × Nat) := l.eraseDups.filter fun e => s.live e.2

/-- The accesses that a cell knows to be ordered before its own on a path. -/
def Bank.knownOn (b : Bank) (p : Path) : List Nat := (b.known.filter (·.1 = p)).map (·.2)

/-- A cell learns that some accesses are ordered before its own: it has tested their tokens, or has fenced them. -/
def State.learn (s : State) (x : Site) (l : List (Path × Nat)) : State :=
  if l.isEmpty then s else s.modBank x fun b => { b with known := s.prune (b.known ++ l) }

/-! ### MARK requests (R342) -/

/-- Whether a request is parked at a save point (R327), rather than run out; the runs of streams are units (R326). -/
def Req.parks (r : Req) : Bool :=
  match r.op with
  | .ldp .. => r.deferred
  | .bcpost _ complete => !complete
  | .coll .. | .bar .. | .mark .. | .join .. | .launch .. | .resume .. | .stream .. | .unstash .. => true
  | .copy _ _ _ (some _) started => !started
  | _ => false

/-- A request that R327 parks, when it can still be answered: once the run-out has begun it never is (R373). -/
def State.parked? (s : State) (q : Nat) : Option Req := if s.holdUp = .runOut then none else s.req? q

/-- A MARK has sent its last token: it is outstanding no longer. Of a parked one whose region is saved, the record is brought up
to date next (R327, R336). -/
def State.endMark (s : State) (r : Req) : State :=
  if r.held then { s.modReq r.id fun q => { q with answered := true } with agenda := s.agenda ++ [.traverseBegin r.launch] }
  else
    let s := match r.dst with
      | .out o => s.endRun r.site o r.id
      | _ => s
    (s.dropReq r.id).clearFinal r.site

/-- The members that a MARK waits for or whose traverse it reports change; with none left it ends. -/
def State.settleMark (s : State) (q : Nat) (f : List Nat × List Nat → List Nat × List Nat) : State :=
  match s.parked? q with
  | none => s
  | some r =>
    match r.op with
    | .mark k rq st w u =>
      let (w, u) := f (w, u)
      let s := s.modReq q fun r => { r with op := .mark k rq st w u }
      if st && w.isEmpty && u.isEmpty then s.endMark r else s
    | _ => s

/-! ### Taking an exception (R359 to R362) -/

/-- Where a rule of a bank stands, as word 0 of a fault record names it (R361). -/
def State.whereAt (s : State) (x : Site) (k : Nat) : Where :=
  let l := s.launchAt x
  { saggar := (l.map (·.saggar)).getD 0
    region := (l.map (·.region)).getD 0xFF
    ptile := x.tile
    rtile := s.rtileOf x
    cell := x.cell
    slot := x.slot
    rule := k
    plane := s.planeNum x
    rounds := (s.bank x).rounds.toNat % 2 ^ 32
    word := (s.bank x).rules.getD k 0 }

/-- Word 3 of a record. -/
def Party.word : Party → Nat
  | .none => 0
  | .cell t c k r => 1 <<< 60 ||| t <<< 54 ||| c <<< 46 ||| k <<< 44 ||| r <<< 40
  | .engine t e q st => 2 <<< 60 ||| t <<< 54 ||| e <<< 36 ||| q <<< 32 ||| st <<< 27
  | .port p => 3 <<< 60 ||| p <<< 28

/-- The eight words of a record (R361). -/
def recordWords (w : Where) (r : Raise) : List Word :=
  [ BitVec.ofNat 64 (r.cls <<< 56 ||| r.reason <<< 48 ||| w.saggar <<< 44 ||| w.region <<< 36 ||| w.ptile <<< 30
      ||| w.rtile <<< 24 ||| w.cell <<< 16 ||| w.slot <<< 14 ||| w.rule <<< 10 ||| w.plane <<< 1),
    BitVec.ofNat 64 (w.rounds <<< 32 ||| (Nat.min r.more 0xFFFF) <<< 16 ||| r.source <<< 12),
    BitVec.ofNat 64 (r.addr % 2 ^ 48),
    BitVec.ofNat 64 r.party.word,
    r.a, r.b,
    w.word.setWidth 64, (w.word >>> 64).setWidth 64 ]

/-- Write one record to the log of a saggar: the newest 64 stay (R361). -/
def State.logFault (s : State) (g : Nat) (w : Where) (r : Raise) : State :=
  s.modSaggar g fun sg =>
    let l := sg.log ++ [{ seq := sg.nextSeq.toNat, words := recordWords w r }]
    { sg with log := l.drop (l.length - 64), nextSeq := sg.nextSeq + 1 }

/-- The banks of a launch: its tiles' slots and the cells listed there. -/
def State.banksOf (s : State) (j : Nat) : List Site :=
  (s.banks.map (·.1)).filter fun x => let k := s.slot x.tile x.slot; k.phase ≠ .free && k.launch = j

/-- A traverse is abandoned (R330): its reservation is freed, the cells are no longer marked, no marker stays, no MARK
reports it, and no request of it is parked any more. -/
def State.abandonTraverse (s : State) (j : Nat) : State :=
  match s.launch? j with
  | none => s
  | some l =>
    match l.trav with
    | none => s
    | some v =>
      let s := s.modLaunch j fun l =>
        { l with trav := none, draining := l.draining || l.heldDrain.isSome, heldDrain := none }
      let s := s.modSaggar l.saggar fun sg => { sg with reserved := sg.reserved.filter (·.1 ≠ j) }
      let s := l.tiles.foldl (fun s t => match t.slot with
        | some k => s.modSlot t.tile k fun sl => { sl with traversed := false }
        | none => s) s
      let s := v.marks.foldl (fun s q => s.settleMark q fun (w, u) => (w, u.erase j)) s
      let s : State := { s with reqs := s.reqs.map fun r => if r.launch = j then { r with held := false } else r }
      (s.banksOf j).foldl (fun s x => s.modBank x fun b =>
        { b with
          mark := .clear, markIn := [], markWait := [], snapAge := 0, snapDue := false, forced := false, drainHeld := false
          chans := b.chans.map fun c => { c with toks := c.toks.filter notMarker, kept := 0 }
          outs := b.outs.map fun o => { o with flight := o.flight.filter notMarker } }) s

/-- A launch begins to freeze (R360): the freeze then reaches its tiles one by one. Any traverse of it is abandoned. -/
def State.freezeLaunch (s : State) (cls j : Nat) : State :=
  (s.abandonTraverse j).modLaunch j fun l => { l with freeze := true, causes := l.causes ++ [cls] }

/-- Taking a fault or trap: one record in the owner's log, and the launches named begin to freeze (R360, R361). -/
def State.takeFault (s : State) (g : Nat) (w : Where) (r : Raise) (js : List Nat) : State :=
  js.foldl (State.freezeLaunch · r.cls) (s.logFault g w r)

/-- A fault of a rule, unit or request of a bank: the record goes to its saggar and its region freezes (R362). -/
def State.raiseAt (s : State) (x : Site) (k : Nat) (r : Raise) : State :=
  let w := s.whereAt x k
  s.takeFault w.saggar w r ((s.launchAt x).map (·.num)).toList

/-- A fault of a bank that no rule word raised. -/
def State.raiseCell (s : State) (x : Site) (r : Raise) : State :=
  let w : Where := { s.whereAt x 0 with rule := 0, word := 0 }
  s.takeFault w.saggar w r ((s.launchAt x).map (·.num)).toList

/-- The chosen rules of one bank that have not yet fired are withdrawn, each a hold (R36, R359). (DEDUCED, log entry 9.) -/
def State.withdraw (s : State) (x : Site) : State :=
  let n := (s.round.firing.filter (·.site = x)).length
  let s := { s with round := { s.round with firing := s.round.firing.filter (·.site ≠ x) } }
  n.fold (fun _ _ s => s.count x.tile x.slot 5) s

/-- No rule of a bank is ready any more: it has raised a fault or trap, and holds its state until its region goes on.
(DEDUCED, log entry 25.) -/
def State.haltBank (s : State) (x : Site) : State := s.modBank x fun b => { b with halted := true }

/-- A precise fault or trap (R359): the raising rule and the rules after it in the round are withdrawn, and the bank keeps
the state just before the raising rule. (DEDUCED, log entry 25.) -/
def State.raisePrecise (s : State) (x : Site) (k : Nat) (r : Raise) : State :=
  (((s.raiseAt x k r).count x.tile x.slot 5).withdraw x).haltBank x

/-- Whether a class of R362 is resumable. (DEDUCED, log entry 64.) -/
def resumable (cls : Nat) : Bool := [0x03, 0x04, 0x08, 0x10, 0x24, 0x5F].contains cls

/-- The return from an exception: a frozen launch whose causes are all resumable goes on (R360). A software trap commits
with its guard-word effects only, and a request that faulted on translation is to be performed again.
(DEDUCED, log entries 25, 64.) -/
def State.continueLaunch (s : State) (j : Nat) : State :=
  let s : State := s.modLaunch j fun l => { l with freeze := false, causes := [] }
  let s : State := match s.launch? j with
    | none => s
    | some l => l.tiles.foldl (fun s t => match t.slot with
        | some k => s.modSlot t.tile k fun sl => { sl with halt := .go, wd := 0 }
        | none => s) s
  let s := (s.banksOf j).foldl (fun s x => s.modBank x fun b =>
    { b with halted := false, units := b.units.map fun u => { u with dead := false } }) s
  { s with reqs := s.reqs.map fun r => if r.launch = j then { r with faulted := false } else r }

end Sys2Proof.Machine
end

