-- ==== Sys2Proof/Machine/Footprint.lean ====
section
/-! DEFINITION. Footprints and the conflict matrix (R30, R31, R48, R176, R200), and what a rule pushes (R49). -/

namespace Sys2Proof.Machine

/-- The operand positions of a rule instruction: its sources in S1 to S3, its destination, its completion binding. -/
structure View where
  s1 : Option Src := none
  s2 : Option Src := none
  s3 : Option Src := none
  dst : Option Dst := none
  cm : Option Nat := none
deriving DecidableEq, Repr

def cmplOut (c : Cmpl) : Option Nat := c.map BitVec.toNat
def outDst (c : OutOpt) : Option Dst := c.map Dst.o

/-- The operands of a rule instruction. -/
def Instr.view : Instr → View
  | .nop _  => {  }
  | .plog _ _ _ _ _ => {  }
  | .cmp _ _ s1 s2 _ _ => { s1 := some s1, s2 := some s2 }
  | .tst _ _ s1 s2 _ _ => { s1 := some s1, s2 := some s2 }
  | .sel _ dst s1 s2 _ => { dst := some dst, s1 := some s1, s2 := some s2 }
  | .retire _  => {  }
  | .add _ _ dst s1 s2 _ => { dst := some dst, s1 := some s1, s2 := some s2 }
  | .sub _ _ dst s1 s2 _ => { dst := some dst, s1 := some s1, s2 := some s2 }
  | .mul _ _ dst s1 s2 _ => { dst := some dst, s1 := some s1, s2 := some s2 }
  | .mulh _ _ dst s1 s2 _ => { dst := some dst, s1 := some s1, s2 := some s2 }
  | .mad _ _ dst s1 s2 s3 _ => { dst := some dst, s1 := some s1, s2 := some s2, s3 := some s3 }
  | .div _ _ dst s1 s2 _ => { dst := some dst, s1 := some s1, s2 := some s2 }
  | .min _ _ dst s1 s2 _ => { dst := some dst, s1 := some s1, s2 := some s2 }
  | .max _ _ dst s1 s2 _ => { dst := some dst, s1 := some s1, s2 := some s2 }
  | .abs _ _ dst s1 _ => { dst := some dst, s1 := some s1 }
  | .neg _ _ dst s1 _ => { dst := some dst, s1 := some s1 }
  | .and _ _ dst s1 s2 _ => { dst := some dst, s1 := some s1, s2 := some s2 }
  | .or _ _ dst s1 s2 _ => { dst := some dst, s1 := some s1, s2 := some s2 }
  | .xor _ _ dst s1 s2 _ => { dst := some dst, s1 := some s1, s2 := some s2 }
  | .andn _ _ dst s1 s2 _ => { dst := some dst, s1 := some s1, s2 := some s2 }
  | .not _ _ dst s1 _ => { dst := some dst, s1 := some s1 }
  | .addc _ _ dst s1 s2 s3 _ => { dst := some dst, s1 := some s1, s2 := some s2, s3 := some s3 }
  | .shl _ _ dst s1 s2 _ => { dst := some dst, s1 := some s1, s2 := some s2 }
  | .shr _ _ dst s1 s2 _ => { dst := some dst, s1 := some s1, s2 := some s2 }
  | .sar _ _ dst s1 s2 _ => { dst := some dst, s1 := some s1, s2 := some s2 }
  | .rot _ _ dst s1 s2 _ => { dst := some dst, s1 := some s1, s2 := some s2 }
  | .clz _ _ dst s1 _ => { dst := some dst, s1 := some s1 }
  | .popc _ _ dst s1 _ => { dst := some dst, s1 := some s1 }
  | .ext _ _ dst s1 _ _ => { dst := some dst, s1 := some s1 }
  | .ins _ _ dst s1 s2 _ _ => { dst := some dst, s1 := some s1, s2 := some s2 }
  | .brev _ _ dst s1 _ => { dst := some dst, s1 := some s1 }
  | .addr _ dst s1 s2 _ _ => { dst := some dst, s1 := some s1, s2 := some s2 }
  | .limm _ _ _ dst _ => { dst := some dst }
  | .mov _ dst s1 _ => { dst := some dst, s1 := some s1 }
  | .send _ _ o s1 _ => { dst := some (.o o), s1 := some s1 }
  | .deq _ _ _ => {  }
  | .fwd _ o hd => { dst := some (.o o), s1 := some (.head hd) }
  | .tagof _ dst hd => { dst := some dst, s1 := some (.head hd) }
  | .rdspec _ dst _ => { dst := some dst }
  | .wrspec _ s1 _ => { s1 := some s1 }
  | .fadd _ _ dst s1 s2 _ _ => { dst := some dst, s1 := some s1, s2 := some s2 }
  | .fsub _ _ dst s1 s2 _ _ => { dst := some dst, s1 := some s1, s2 := some s2 }
  | .fmul _ _ dst s1 s2 _ _ => { dst := some dst, s1 := some s1, s2 := some s2 }
  | .fma _ _ dst s1 s2 s3 _ _ => { dst := some dst, s1 := some s1, s2 := some s2, s3 := some s3 }
  | .fmin _ _ dst s1 s2 => { dst := some dst, s1 := some s1, s2 := some s2 }
  | .fmax _ _ dst s1 s2 => { dst := some dst, s1 := some s1, s2 := some s2 }
  | .fcmp _ _ s1 s2 _ _ => { s1 := some s1, s2 := some s2 }
  | .fabs _ _ dst s1 => { dst := some dst, s1 := some s1 }
  | .fneg _ _ dst s1 => { dst := some dst, s1 := some s1 }
  | .frcp _ _ dst s1 _ _ => { dst := some dst, s1 := some s1 }
  | .frsq _ _ dst s1 _ _ => { dst := some dst, s1 := some s1 }
  | .fexp2 _ _ dst s1 _ _ => { dst := some dst, s1 := some s1 }
  | .flog2 _ _ dst s1 _ _ => { dst := some dst, s1 := some s1 }
  | .fscale _ _ dst s1 s2 _ _ => { dst := some dst, s1 := some s1, s2 := some s2 }
  | .fclass _ _ dst s1 => { dst := some dst, s1 := some s1 }
  | .fsqrt _ _ dst s1 _ _ => { dst := some dst, s1 := some s1 }
  | .vadd _ _ dst s1 s2 _ _ => { dst := some dst, s1 := some s1, s2 := some s2 }
  | .vsub _ _ dst s1 s2 _ _ => { dst := some dst, s1 := some s1, s2 := some s2 }
  | .vmul _ _ dst s1 s2 _ _ => { dst := some dst, s1 := some s1, s2 := some s2 }
  | .vfma _ _ dst s1 s2 s3 _ _ => { dst := some dst, s1 := some s1, s2 := some s2, s3 := some s3 }
  | .vmin _ _ dst s1 s2 => { dst := some dst, s1 := some s1, s2 := some s2 }
  | .vmax _ _ dst s1 s2 => { dst := some dst, s1 := some s1, s2 := some s2 }
  | .vcmp _ _ dst s1 s2 _ => { dst := some dst, s1 := some s1, s2 := some s2 }
  | .vsel _ _ dst s1 s2 s3 => { dst := some dst, s1 := some s1, s2 := some s2, s3 := some s3 }
  | .vsum _ _ dst s1 _ _ => { dst := some dst, s1 := some s1 }
  | .vamax _ _ dst s1 s2 => { dst := some dst, s1 := some s1, s2 := some s2 }
  | .vshuf _ _ dst s1 s2 _ _ => { dst := some dst, s1 := some s1, s2 := some s2 }
  | .vdot3 _ _ dst s1 s2 s3 _ _ => { dst := some dst, s1 := some s1, s2 := some s2, s3 := some s3 }
  | .cvt _ _ dst s1 _ _ _ _ => { dst := some dst, s1 := some s1 }
  | .vcvt _ _ dst s1 _ _ _ _ => { dst := some dst, s1 := some s1 }
  | .cvti _ _ dst s1 _ _ _ => { dst := some dst, s1 := some s1 }
  | .cvtf _ _ dst s1 _ _ _ _ => { dst := some dst, s1 := some s1 }
  | .scaleq _ _ dst s1 s2 s3 _ _ _ _ _ => { dst := some dst, s1 := some s1, s2 := some s2, s3 := some s3 }
  | .scaledq _ _ dst s1 s2 _ _ _ _ _ => { dst := some dst, s1 := some s1, s2 := some s2 }
  | .cbld _ s1 _ _ => { s1 := some s1 }
  | .cblook _ dst s1 _ _ => { dst := some dst, s1 := some s1 }
  | .setfmt _ s1 _ => { s1 := some s1 }
  | .seal _ dst s1 _ => { dst := some dst, s1 := some s1 }
  | .amaxacc _ _ dst s1 s2 => { dst := some dst, s1 := some s1, s2 := some s2 }
  | .contract _ _ s1 s2 s3 _ _ _ _ _ _ _ _ => { s1 := some s1, s2 := some s2, s3 := some s3 }
  | .stay _ _ hd _ _ => { s1 := some (.head hd) }
  | .accz _ _ => {  }
  | .accrd _ _ o _ _ _ _ _ => { dst := some (.o o) }
  | .accld _ _ hd _ _ => { s1 := some (.head hd) }
  | .accsc _ _ s1 _ _ _ => { s1 := some s1 }
  | .cturn _ o hd _ _ => { dst := some (.o o), s1 := some (.head hd) }
  | .gradpair _ _ hd0 hd1 _ _ _ _ _ _ _ _ => { s1 := some (.head hd0), s2 := some (.head hd1) }
  | .isectMul _ o hd0 hd1 _ _ _ => { dst := some (.o o), s1 := some (.head hd0), s2 := some (.head hd1) }
  | .isectDot _ o hd0 _ _ _ _ _ => { dst := some (.o o), s1 := some (.head hd0) }
  | .union _ _ o hd0 hd1 _ _ _ => { dst := some (.o o), s1 := some (.head hd0), s2 := some (.head hd1) }
  | .sacci _ _ hd _ _ _ => { s1 := some (.head hd) }
  | .saccf _ _ o _ _ _ _ => { dst := some (.o o) }
  | .stop _ o _ => { dst := some (.o o) }
  | .rowf _ _ s1 s2 s3 cm _ _ => { s1 := some s1, s2 := some s2, s3 := some s3, cm := cmplOut cm }
  | .rowb _ _ s1 s2 s3 cm _ _ => { s1 := some s1, s2 := some s2, s3 := some s3, cm := cmplOut cm }
  | .xred _ s1 s2 s3 cm _ _ => { s1 := some s1, s2 := some s2, s3 := some s3, cm := cmplOut cm }
  | .ld _ _ dst s1 cm => { dst := some dst, s1 := some s1, cm := cmplOut cm }
  | .st _ _ s1 s2 cm => { s1 := some s1, s2 := some s2, cm := cmplOut cm }
  | .lds _ _ dst s1 cm => { dst := some dst, s1 := some s1, cm := cmplOut cm }
  | .sts _ _ s1 s2 cm => { s1 := some s1, s2 := some s2, cm := cmplOut cm }
  | .tlook _ dst s1 cm => { dst := some dst, s1 := some s1, cm := cmplOut cm }
  | .tset _ s1 s2 s3 cm => { s1 := some s1, s2 := some s2, s3 := some s3, cm := cmplOut cm }
  | .tinv _ s1 cm => { s1 := some s1, cm := cmplOut cm }
  | .ldfe _ dst s1 cm => { dst := some dst, s1 := some s1, cm := cmplOut cm }
  | .stfe _ s1 s2 s3 cm => { s1 := some s1, s2 := some s2, s3 := some s3, cm := cmplOut cm }
  | .stream _ cm o s1 s2 _ => { cm := cmplOut cm, dst := some (.o o), s1 := some s1, s2 := some s2 }
  | .stash _ s1 s2 cm _ => { s1 := some s1, s2 := some s2, cm := cmplOut cm }
  | .unstash _ o cm _ => { dst := some (.o o), cm := cmplOut cm }
  | .ldp _ dst s1 cm => { dst := some dst, s1 := some s1, cm := cmplOut cm }
  | .stp _ s1 s2 cm => { s1 := some s1, s2 := some s2, cm := cmplOut cm }
  | .clrp _ s1 s2 cm => { s1 := some s1, s2 := some s2, cm := cmplOut cm }
  | .upd _ _ s1 s2 cm => { s1 := some s1, s2 := some s2, cm := cmplOut cm }
  | .ownEnter _ s1 s2 cm => { s1 := some s1, s2 := some s2, cm := cmplOut cm }
  | .ownRelease _ s1 cm => { s1 := some s1, cm := cmplOut cm }
  | .fencex _ cm _ _ => { cm := cmplOut cm }
  | .cmplT _ cm => { cm := cmplOut cm }
  | .drain _  => {  }
  | .bcpost _ s1 cm _ => { s1 := some s1, cm := cmplOut cm }
  | .bcarm _ s1 s2 cm _ => { s1 := some s1, s2 := some s2, cm := cmplOut cm }
  | .copy _ s1 s2 s3 cm _ _ _ _ _ => { s1 := some s1, s2 := some s2, s3 := some s3, cm := cmplOut cm }
  | .copyqDeclare _ s1 s2 s3 cm _ => { s1 := some s1, s2 := some s2, s3 := some s3, cm := cmplOut cm }
  | .copyqRelease _ cm _ => { cm := cmplOut cm }
  | .consumed _ cm _ => { cm := cmplOut cm }
  | .coll _ _ s1 s2 s3 cm _ _ => { s1 := some s1, s2 := some s2, s3 := some s3, cm := cmplOut cm }
  | .cabort _ cm _ => { cm := cmplOut cm }
  | .kvappPut _ s1 s2 s3 cm _ => { s1 := some s1, s2 := some s2, s3 := some s3, cm := cmplOut cm }
  | .kvappCommit _ s1 s3 cm => { s1 := some s1, s3 := some s3, cm := cmplOut cm }
  | .kvrot _ o s1 cm => { dst := some (.o o), s1 := some s1, cm := cmplOut cm }
  | .steer _ o hd _ _ => { dst := some (.o o), s1 := some (.head hd) }
  | .merge _ o hd _ _ => { dst := some (.o o), s1 := some (.head hd) }
  | .fork _ o hd _ => { dst := some (.o o), s1 := some (.head hd) }
  | .sink _ _ _ => {  }
  | .ctl _ o s1 _ => { dst := some (.o o), s1 := some s1 }
  | .cnt _ dst s1 _ _ => { dst := some dst, s1 := some s1 }
  | .loopopen _ o s1 _ => { dst := some (.o o), s1 := some s1 }
  | .loopdone _ o => { dst := some (.o o) }
  | .gateSet _ o s1 _ => { dst := some (.o o), s1 := some s1 }
  | .gateAdd _ o s1 _ => { dst := some (.o o), s1 := some s1 }
  | .gateOff _ o => { dst := some (.o o) }
  | .splice _ _ => {  }
  | .plane _ _ => {  }
  | .rangeOpen _ s1 s2 s3 _ => { s1 := some s1, s2 := some s2, s3 := some s3 }
  | .rangeTake _ dst => { dst := some dst }
  | .rangeClose _  => {  }
  | .join _ _ od s1 s2 _ => { dst := outDst od, s1 := some s1, s2 := some s2 }
  | .leave _ _ _ => {  }
  | .bar _ _ o _ => { dst := some (.o o) }
  | .launch _ od s1 _ _ _ _ => { dst := outDst od, s1 := some s1 }
  | .yield _ _ => {  }
  | .trap _ s1 _ => { s1 := some s1 }
  | .chkerr _ hd _ _ => { s1 := some (.head hd) }
  | .faultrdWord _ dst s1 _ => { dst := some dst, s1 := some s1 }
  | .faultrdCount _ dst => { dst := some dst }
  | .markOwn _  => {  }
  | .markCohort _ od _ _ => { dst := outDst od }
  | .snap _  => {  }
  | .resume _ od s1 s2 _ _ _ => { dst := outDst od, s1 := some s1, s2 := some s2 }
  | .savesetDeclare _ dst s1 s2 => { dst := some dst, s1 := some s1, s2 := some s2 }
  | .savesetNotify _ o => { dst := some (.o o) }
  | .savedropDeclaration _ dst s1 => { dst := some dst, s1 := some s1 }
  | .savedropNotify _ o => { dst := some (.o o) }
  | .pfack _  => {  }
  | .replay _ hd => { s1 := some (.head hd) }
  | .cellRound .. => {}
  | .resultWrite .. => {}
  | .tokenArrival .. => {}
  | .flitHop .. => {}
  | .accessPerformed .. => {}
  | .translationWalkDone .. => {}
  | .ownerUpdateApply .. => {}
  | .streamTokenSend .. => {}
  | .runTokenSend .. => {}
  | .contractionStep .. => {}
  | .stayTokenTake .. => {}
  | .accldTokenTake .. => {}
  | .cornerTurnToken .. => {}
  | .sparseUnitToken .. => {}
  | .loopStep .. => {}
  | .copyPerformed .. => {}
  | .refillStart .. => {}
  | .collectivePerformed .. => {}
  | .xredPerformed .. => {}
  | .abortTokenReceive .. => {}
  | .collectiveMemberTimeout .. => {}
  | .barComplete .. => {}
  | .joinRecordReceive .. => {}
  | .rowCommandPerformed .. => {}
  | .stashPerformed .. => {}
  | .kvCommandPerformed .. => {}
  | .layerPowerOff .. => {}
  | .layerWakeDone .. => {}
  | .drainReachTile .. => {}
  | .drainPassedTile .. => {}
  | .regionEnd .. => {}
  | .planeLoad .. => {}
  | .planeActivate .. => {}
  | .launchDispatch .. => {}
  | .dispatchEnable .. => {}
  | .watchdogStall .. => {}
  | .yieldEnd .. => {}
  | .stateScrub .. => {}
  | .freezeReachTile .. => {}
  | .traverseBegin .. => {}
  | .traverseReachTile .. => {}
  | .cellSave .. => {}
  | .snapForcedSave .. => {}
  | .traverseComplete .. => {}
  | .restore .. => {}
  | .rowAlert .. => {}
  | .neighbourRefreshDone .. => {}
  | .refreshPass .. => {}
  | .packetReceive .. => {}
  | .powerFailTrap .. => {}
  | .graceEnd .. => {}
  | .runOutEnd .. => {}
  | .powerOnStart .. => {}
  | .selfTestEnd .. => {}
  | .thermalThrottle .. => {}
  | .overtempFreeze .. => {}
  | .loadImage .. => {}
  | .launchNew .. => {}
  | .launchResume .. => {}
  | .launchDiscard .. => {}
  | .launchContinue .. => {}
  | .statusSaggar .. => {}
  | .statusLog .. => {}
  | .statusMgmt .. => {}
  | .attest .. => {}
  | .keyExchange .. => {}
  | .kill .. => {}
  | .killScrubComplete .. => {}
  | .readout .. => {}
  | .unloadImage .. => {}
  | .colthrWrite .. => {}
  | .rmthrWrite .. => {}
  | .mgmtRegWrite .. => {}
  | .saveDeclarationAnswer .. => {}
  | .linkTraining .. => {}

/-- Groups 0x1_, 0x2_ and 0x4_ to 0x6_ but FCMP, CBLD and SETFMT; SEL, TAGOF, RDSPEC; CNT; FAULTRD (R49, R201, R277,
R364). -/
def Op.pushes : Op → Bool
  | .add | .sub | .mul | .mulh | .mad | .div | .min | .max | .abs | .neg | .and | .or | .xor | .andn | .not | .addc
  | .shl | .shr | .sar | .rot | .clz | .popc | .ext | .ins | .brev | .addr | .limm | .mov
  | .sel | .tagof | .rdspec | .cnt | .faultrdWord | .faultrdCount
  | .fadd | .fsub | .fmul | .fma | .fmin | .fmax | .fabs | .fneg | .frcp | .frsq | .fexp2 | .flog2 | .fscale | .fclass
  | .fsqrt | .vadd | .vsub | .vmul | .vfma | .vmin | .vmax | .vcmp | .vsel | .vsum | .vamax | .vshuf | .vdot3
  | .cvt | .vcvt | .cvti | .cvtf | .scaleq | .scaledq | .cblook | .seal | .amaxacc => true
  | _ => false

def Instr.pushes (i : Instr) : Bool := ((Instr.op? i).map Op.pushes).getD false

/-- The instructions that consume the channels of their head operands after commit (R30: written by "an instruction that
consumes from vN"). -/
def Op.consumes : Op → Bool
  | .contract | .gradpair | .stay | .accld | .cturn | .isectMul | .isectDot | .union | .sacci | .replay => true
  | _ => false

/-- The channel that a head operand reads (R21). -/
def Hdr.headCh (h : Hdr) : Head → Option Nat
  | .A => h.cta.map (·.ch.toNat)
  | .B => h.ctb.map (·.ch.toNat)

def Src.res (h : Hdr) : Src → List Res
  | .g n => [.g n.toNat]
  | .m n => [.m n.toNat]
  | .d _ => [.hist]
  | .head x => match Hdr.headCh h x with | some n => [.v n, .fmt n] | none => []
  | .zero => []
  | .imm => []

def Dst.res : Dst → List Res
  | .g n => [.g n.toNat]
  | .m n => [.m n.toNat]
  | .o n => [.o n.toNat]
  | .zero => []

/-- The channels that the head operands of a rule read. -/
def Src.headChs (h : Hdr) : Option Src → List Nat
  | some (.head x) => (Hdr.headCh h x).toList
  | _ => []

def Instr.headChs (i : Instr) : List Nat :=
  let v := Instr.view i
  Src.headChs (Instr.hdr i) v.s1 ++ Src.headChs (Instr.hdr i) v.s2 ++ Src.headChs (Instr.hdr i) v.s3

def bitNums (b : BitVec 8) : List Nat := (List.range 8).filter fun k => b.getLsbD k

/-- The special registers that are footprint resources (R48). -/
def specRes (num : Nat) : List Res :=
  if num = 0x0A then (List.range 8).map .p
  else if num = 0x0B then (List.range 8).map .sb
  else if num = 0x0C then (List.range 16).map .v
  else if num = 0x0D then (List.range 16).map fun k => .v (16 + k)
  else []

def stayRes (f32 stile : Bool) : List Res := if f32 then [.stay 0, .stay 1] else [.stay (b2n stile)]

/-- An accumulator tile, with the odd tile of its pair for FP64 (R186). -/
def accRes (pair : Bool) (a : Nat) : List Res := if pair then [.acc a, .acc (a + 1)] else [.acc a]

/-- The resources that an instruction's own description names as read, beyond its operand fields. -/
def Instr.extraReads : Instr → List Res
  | .plog _ _ pa pb _ => [.p pa.toNat, .p pb.toNat]
  | .sel _ _ _ _ pk => [.p pk.toNat]
  | .limm _ clear _ dst _ => if clear then [] else Dst.res dst
  | .deq _ ch _ => [.v ch.toNat]
  | .rdspec _ _ num => specRes num.toNat
  | .cblook _ _ _ kc _ => [.kb kc.toNat]
  | .contract _ fmt _ _ _ role _ _ _ _ st _ _ => if role = 3 then [] else stayRes (fmt = .f32) st
  | .gradpair _ fmt _ _ _ _ _ _ _ st _ _ => stayRes (fmt = .f32) st
  | .accrd _ _ _ _ _ _ acc _ => [.acc acc.toNat]
  | .accsc _ _ _ _ _ acc => [.acc acc.toNat]
  | .saccf _ _ _ _ _ acc _ => [.acc acc.toNat]
  | .isectDot _ _ _ _ _ acc _ _ => [.acc acc.toNat]
  | .steer _ _ _ pk _ => [.p pk.toNat]
  | .merge _ _ _ va vb => [.v va.toNat, .v vb.toNat]
  | .sink _ ch _ => [.v ch.toNat]
  | .loopopen _ _ s1 dep1 => match s1 with
    | .g k => (List.range (2 * (dep1.toNat + 1))).map fun n => .g (k.toNat + n)
    | _ => []
  | .snap _ => (List.range 32).map .v
  | _ => []

/-- The resources that an instruction's own description names as written, beyond its operand fields. -/
def Instr.extraWrites : Instr → List Res
  | .plog _ pd _ _ _ => [.p pd.toNat]
  | .cmp _ _ _ _ pk _ => [.p pk.toNat]
  | .tst _ _ _ _ pk _ => [.p pk.toNat]
  | .fcmp _ _ _ _ pk _ => [.p pk.toNat]
  | .addc _ _ _ _ _ _ pk => [.p pk.toNat]
  | .cnt _ _ _ pk _ => [.p pk.toNat]
  | .chkerr _ _ pk _ => [.p pk.toNat]
  | .retire _ => [.all]
  | .snap _ => [.all]
  | .deq _ ch _ => [.v ch.toNat]
  | .sink _ ch _ => [.v ch.toNat]
  | .wrspec _ _ num => specRes num.toNat
  | .cbld _ _ kc _ => [.kb kc.toNat]
  | .setfmt _ _ ch => [.fmt ch.toNat]
  | .contract _ fmt _ _ _ _ _ _ _ acc _ _ _ => accRes (fmt = .f64) acc.toNat
  | .gradpair _ _ _ _ _ _ _ _ acc0 _ _ acc1 => [.acc acc0.toNat, .acc acc1.toNat]
  | .stay _ fmt _ st _ => stayRes (fmt = .f32) st
  | .accz _ acc => [.acc acc.toNat]
  | .accld _ src _ _ acc => accRes (src = .fp64) acc.toNat
  | .accsc _ _ _ _ _ acc => [.acc acc.toNat]
  | .sacci _ _ _ acc _ _ => [.acc acc.toNat]
  | .saccf _ _ _ _ _ acc _ => [.acc acc.toNat]
  | .ldfe _ dst _ _ => match dst with | .g n => [.g (n.toNat + 1)] | _ => []
  | .rangeTake _ dst => match dst with | .g n => [.g (n.toNat + 1)] | _ => []
  | .steer _ _ _ _ o2 => [.o o2.toNat]
  | .merge _ _ _ va vb => [.v va.toNat, .v vb.toNat]
  | .fork _ _ _ also => (bitNums also).map .o
  | _ => []

def chanTestRes : Option ChanTest → List Res
  | some t => [.v t.ch.toNat]
  | none => []

/-- The read set of a rule (R30), without what the channel format entries add. -/
def Instr.reads (i : Instr) : List Res :=
  let h := Instr.hdr i
  let v := Instr.view i
  (bitNums h.pcare).map .p ++ chanTestRes h.cta ++ chanTestRes h.ctb
    ++ (h.sbw.map fun k => [Res.sb k.toNat]).getD []
    ++ ([v.s1, v.s2, v.s3].filterMap id).flatMap (Src.res h) ++ Instr.extraReads i

/-- The write set of a rule (R30). -/
def Instr.writes (i : Instr) : List Res :=
  let h := Instr.hdr i
  let v := Instr.view i
  (bitNums (h.pset ||| h.pclr)).map .p
    ++ (if h.deqA then chanTestRes h.cta else []) ++ (if h.deqB then chanTestRes h.ctb else [])
    ++ (h.sbset.map fun k => [Res.sb k.toNat]).getD []
    ++ (v.dst.map Dst.res).getD [] ++ (v.cm.map fun o => [Res.o o]).getD []
    ++ (if Instr.pushes i then [.hist] else [])
    ++ (if ((Instr.op? i).map Op.consumes).getD false then (Instr.headChs i).map .v else []) ++ Instr.extraWrites i

/-! ### Channel format entries (R174) -/

def fmtCode (e : BitVec 16) : BitVec 4 := e.extractLsb' 12 4
def fmtSsrc (e : BitVec 16) : Nat := (e.extractLsb' 10 2).toNat
def fmtSreg (e : BitVec 16) : Nat := (e.extractLsb' 7 3).toNat
def fmtCb (e : BitVec 16) : Nat := (e.extractLsb' 5 2).toNat
def fmtRm (e : BitVec 16) : Rm := Rm.ofCode (e.extractLsb' 2 3)
def fmtFtz (e : BitVec 16) : Bool := e.getLsbD 1

/-- Whether an entry is valid (R175). -/
def fmtValid (e : BitVec 16) : Bool :=
  let f := (fmtCode e).toNat
  f ≤ 0xA && Rm.valid (e.extractLsb' 2 3) && fmtSsrc e ≠ 3 && (fmtSsrc e = 0 || (4 ≤ f && f ≤ 7))
    && (fmtSreg e = 0 || fmtSsrc e = 2) && (fmtCb e = 0 || f = 6) && !e.getLsbD 0

/-- What reading elements of a channel adds to a read set (R176): its scale register, and its codebook for CB4. -/
def entryRes (e : BitVec 16) : List Res :=
  (if fmtSsrc e = 2 then [.m (fmtSreg e)] else []) ++ (if fmtCode e = 6 then [.kb (fmtCb e)] else [])

/-- The instructions that read elements of a channel, through a head operand or as a unit takes its tokens (R176, R200). The
others read a payload whole, or only move it. -/
def Op.readsElems : Op → Bool
  | .fadd | .fsub | .fmul | .fma | .fmin | .fmax | .fcmp | .fabs | .fneg | .frcp | .frsq | .fexp2 | .flog2 | .fscale
  | .fclass | .fsqrt | .vadd | .vsub | .vmul | .vfma | .vmin | .vmax | .vcmp | .vsel | .vsum | .vamax | .vshuf | .vdot3
  | .cvt | .vcvt | .cvtf | .cvti | .scaleq | .scaledq | .seal | .amaxacc => true
  | .contract | .gradpair | .stay | .accld | .cturn | .isectMul | .isectDot | .union | .sacci => true
  | _ => false

/-- The pairs of accumulator tiles in which some rule of a cell can record the kinds of FP64. (DEDUCED, log entry 82.) -/
def f64Pairs (is : List (Option Instr)) : List Nat := is.filterMap fun i => match i with
  | some (.contract _ .f64 _ _ _ _ _ _ _ acc _ _ _) => some (acc.toNat / 2)
  | some (.accld _ .fp64 _ _ acc) => some (acc.toNat / 2)
  | _ => none

/-- Both tiles of a pair. -/
def pairRes (a : Nat) : List Res := [.acc (2 * (a / 2)), .acc (2 * (a / 2) + 1)]

/-- The channels of whose tokens a rule reads elements: those of its head operands, but for the operands that are read whole (an
integer, a count, a word of scales; R207, R213, R215). -/
def Instr.elemChs (i : Instr) : List Nat :=
  let of_ (s : Src) : List Nat := Src.headChs (Instr.hdr i) (some s)
  match i with
  | .fscale _ _ _ s1 _ _ _ | .scaleq _ _ _ s1 _ _ _ _ _ _ _ | .scaledq _ _ _ s1 _ _ _ _ _ _ => of_ s1
  | .cvtf .. => []
  | .cvti _ _ _ s1 _ src _ => match src with
    | .int8 | .int32 | .int64 => []
    | _ => of_ s1
  | _ => Instr.headChs i

/-- What the channels of the head operands add at plane load (R176): their scale registers where elements are read, and their
codebooks where a head is read at all (R200). A channel that a SETFMT of the cell names counts with every register and codebook.
An ACCRD reads a pair where FP64 can stand (R235). (DEDUCED, log entry 82.) -/
def Instr.loadReads (entry : Nat → BitVec 16) (named pairs : List Nat) (i : Instr) : List Res :=
  (if ((Instr.op? i).map Op.readsElems).getD false then (Instr.headChs i).flatMap fun n =>
      let all := if named.contains n then (List.range 8).map .m ++ (List.range 4).map .kb else entryRes (entry n)
      if (Instr.elemChs i).contains n then all else all.filter fun r => match r with | .kb _ => true | _ => false
    else [])
  ++ match i with
    | .accrd _ _ _ _ _ _ acc _ => if pairs.contains (acc.toNat / 2) then pairRes acc.toNat else []
    | _ => []

/-! ### The conflict matrix (R30, R31) -/

/-- Whether a write set meets a set; RETIRE and SNAP conflict with every word (R54, R343). -/
def meets (w r : List Res) : Bool := w.contains .all || r.contains .all || w.any fun x => r.contains x

/-- Two rules conflict when the write set of either meets the read or the write set of the other; two pushes alone do
not (R30). -/
def conflicts (r1 w1 r2 w2 : List Res) : Bool :=
  meets w1 r2 || meets w2 r1 || (w1.filter (· ≠ Res.hist)).any (fun x => x = .all || w2.contains x) || w2.contains .all

/-- The channels that the SETFMTs of a cell name (R176). -/
def setfmtChs (is : List (Option Instr)) : List Nat :=
  is.filterMap fun i => match i with | some (.setfmt _ _ ch) => some ch.toNat | _ => none

/-- What the format entries add to the read sets of a cell's rules (R176). -/
def loadSetsOf (entry : Nat → BitVec 16) (is : List (Option Instr)) : List (List Res) :=
  is.map fun i => (i.map (Instr.loadReads entry (setfmtChs is) (f64Pairs is))).getD []

/-- The derived matrix ORed with the software matrix and its transpose, the diagonal ignored (R31). -/
def confRows (entry : Nat → BitVec 16) (soft : List (BitVec 16)) (is : List (Option Instr)) : List (BitVec 16) :=
  let fp := (is.zip (loadSetsOf entry is)).map fun (i, r) => i.map fun i => (Instr.reads i ++ r, Instr.writes i)
  (List.range 16).map fun a =>
    (List.range 16).foldl (fun (row : BitVec 16) b =>
      let derived := match fp.getD a none, fp.getD b none with
        | some (r1, w1), some (r2, w2) => conflicts r1 w1 r2 w2
        | _, _ => false
      if a ≠ b && (derived || (soft.getD a 0).getLsbD b || (soft.getD b 0).getLsbD a) then row ||| (1#16 <<< b) else row) 0

/-! ### Unit classes and latencies -/

/-- The unit classes (R9). -/
inductive UnitClass
  | x | a | m | c
deriving DecidableEq, Repr

/-- The unit class of an opcode (R9). (DEDUCED, log entry 13.) -/
def unitClass (opc : Nat) : UnitClass :=
  if 0x70 ≤ opc && opc ≤ 0x77 then .x
  else if 0x80 ≤ opc && opc ≤ 0x83 then .x
  else if 0x10 ≤ opc && opc ≤ 0x6F then (if 0x30 ≤ opc && opc ≤ 0x35 then .c else .a)
  else if 0x85 ≤ opc && opc ≤ 0x87 then .m
  else if 0x90 ≤ opc && opc ≤ 0xB6 then .m
  else .c

def UnitClass.idx : UnitClass → Nat
  | .x => 0 | .a => 1 | .m => 2 | .c => 3

/-- The opcode of a rule word. -/
def opcOf (w : BitVec 128) : Nat := (w.extractLsb' 56 8).toNat

end Sys2Proof.Machine
end

