-- ==== Sys2Proof/Machine/Operands.lean ====
section
/-! DEFINITION. Reading sources (R40, R176, R200), removing tokens from a channel (R34, R178, R179), writing destinations
(R40, R51), and the firing that an instruction's meaning is given. -/

namespace Sys2Proof.Machine

/-! ### Sources -/

/-- The head token that hA or hB reads (R40). (DEDUCED, log entry 14.) -/
def Bank.headTok (b : Bank) (h : Hdr) (hd : Head) : Option Token := (Hdr.headCh h hd).bind fun n => (b.chan n).toks.head?

/-- The payload that hA or hB reads; a rule fires only while its test finds a token (R29). (DEDUCED, log entry 14.) -/
def Bank.headWord (b : Bank) (h : Hdr) (hd : Head) : Word := ((b.headTok h hd).map (·.payload)).getD 0

/-- A source's 64 bits (R40); `imm` is the MOD field. -/
def Bank.raw (b : Bank) (h : Hdr) (imm : BitVec 16) : Src → Word
  | .g n => b.reg (.g n.toNat)
  | .m n => b.reg (.m n.toNat)
  | .head hd => b.headWord h hd
  | .d n => (b.d.getD n.toNat {}).val
  | .zero => 0
  | .imm => imm.signExtend 64

/-- The low n bits of a source (R40). -/
def Bank.low (b : Bank) (h : Hdr) (imm : BitVec 16) (n : Nat) (s : Src) : Nat := (b.raw h imm s).toNat % 2 ^ n

/-- The widths of R158. -/
def fmtBits : Fmt → Nat
  | .fp64 => 64 | .fp32 => 32 | .bf16 => 16 | .fp16 => 16 | .e4m3 => 8 | .e5m2 => 8
  | .cb4 => 4 | .int8 => 8 | .int32 => 32 | .int64 => 64 | .raw => 64 | .e8m0 => 8

/-- The format that an entry names. -/
def fmtOf (e : BitVec 16) : Fmt := Fmt.ofCode (fmtCode e)

/-- The value of an encoding of a format (R159 to R164); CB4 needs a codebook and is read by `Bank.elemRaw`. -/
def decodeAs (t : Fmt) (bits : Nat) : FVal :=
  match fpOf? t with
  | some f => f.decode bits
  | none => match t with
    | .e8m0 => e8m0Val bits
    | .int8 => .ofInt (toSigned 8 bits)
    | .int32 => .ofInt (toSigned 32 bits)
    | _ => .ofInt (toSigned 64 bits)

/-- A value rounded to a format under a mode (R165, R171, R173). -/
def roundTo (t : Fmt) (rm : Rm) (ftz : Bool) (v : FVal) (env : REnv) : Nat × REnv :=
  match fpOf? t with
  | some f => fpRound f rm ftz v env
  | none => match t with
    | .e8m0 => cvtToE8m0 rm v env
    | .int8 => cvtFI true 8 rm v env
    | .int32 => cvtFI true 32 rm v env
    | _ => cvtFI true 64 rm v env

/-- Entry c of codebook k (R163). -/
def Bank.codebook (b : Bank) (k c : Nat) : Nat := ((b.kb.getD k []).getD c 0).toNat

/-- An element's value before its scale: decoded under the entry, with flush-to-zero of inputs (R167, R176). -/
def Bank.elemRaw (b : Bank) (entry : BitVec 16) (bits : Nat) : FVal :=
  match fmtOf entry with
  | .cb4 => Machine.bf16.decode (b.codebook (fmtCb entry) bits)
  | t => match fpOf? t with
    | some f => f.decode (if fmtFtz entry && f.isSubnormal bits then f.zeroOf bits else bits)
    | none => decodeAs t bits

/-- The scale byte that a latch gives the element at position k (R178). -/
def Latch.scaleAt (l : Latch) (k : Nat) : Nat := bits l.scales.toNat (8 * (k / l.blen % l.n)) 8

/-- The scale byte of element e of the head of a channel (R176, R178); 1.0 when the entry names no scale. -/
def Bank.scaleByte (b : Bank) (n e : Nat) : Nat :=
  let c := b.chan n
  match fmtSsrc c.fmt with
  | 1 => c.latch.scaleAt (c.latch.k + e)
  | 2 => (b.reg (.m (fmtSreg c.fmt))).toNat % 256
  | _ => 0x7F

/-- Element e of a payload. -/
def elemBits (w : Nat) (payload : Word) (e : Nat) : Nat := bits payload.toNat (e * w) w

/-- Whether a value is neither a NaN nor an infinity. -/
def FVal.isFin : FVal → Bool
  | .fin .. => true
  | _ => false

/-- A value converted to the type of the reading instruction: under the entry's mode unless it is exact (R176). A NaN and an
infinity take their LFSR step (R168). (DEDUCED, log entry 17.) -/
def convElem (t : Fmt) (rm : Rm) (v : FVal) (env : REnv) : Nat × REnv :=
  let r := roundTo t .rne false v { lfsr := env.lfsr, flags := 0 }
  if r.2.flags = 0 && v.isFin then (r.1, env) else roundTo t rm false v env

/-- Element e of the head of channel n, read as type t (R176, R200); one without a scale whose exact format is t is taken as it
stands, and that of CB4 is BF16 (R163). (DEDUCED, log entry 17.) -/
def Bank.readElem (b : Bank) (n : Nat) (payload : Word) (t : Fmt) (e : Nat) (env : REnv) : Nat × REnv :=
  let entry := (b.chan n).fmt
  let w := (fmtBits t)
  match fmtOf entry with
  | .raw => (elemBits w payload e, env)
  | f =>
    let x := elemBits (fmtBits f) payload e
    if f = .cb4 ∧ t = .bf16 ∧ fmtSsrc entry = 0 then (b.codebook (fmtCb entry) x, env)
    else if f = t ∧ fmtSsrc entry = 0 then
      match fpOf? t with
      | some ff => (if fmtFtz entry && ff.isSubnormal x then ff.zeroOf x else x, env)
      | none => (x, env)
    else
      let v := b.elemRaw entry x
      convElem t (fmtRm entry) (if fmtSsrc entry = 0 then v else scaleE8m0 v (b.scaleByte n e)) env

/-- Elements `from` to `from + count - 1` of a floating-point source of type t (R200), in ascending order. -/
def Bank.readElems (b : Bank) (h : Hdr) (s : Src) (t : Fmt) (first count : Nat) (env : REnv) : List Nat × REnv :=
  match s with
  | .head hd =>
    match Hdr.headCh h hd with
    | some n => (List.range count).foldl (fun (acc : List Nat × REnv) e =>
        let r := b.readElem n (b.headWord h hd) t (first + e) acc.2
        (acc.1 ++ [r.1], r.2)) ([], env)
    | none => (List.replicate count 0, env)
  | s => ((List.range count).map fun e => elemBits (fmtBits t) (b.raw h 0 s) (first + e), env)

/-- A scalar floating-point source of type t (R200). -/
def Bank.readScalar (b : Bank) (h : Hdr) (s : Src) (t : Fmt) (env : REnv) : Nat × REnv :=
  let r := b.readElems h s t 0 1 env
  (r.1.headD 0, r.2)

/-- The rounding environment of a bank before a rule's effect. -/
def Bank.env (b : Bank) : REnv := { lfsr := b.lfsr, flags := 0 }

/-- The environment after a rule's effect: the LFSR stepped and the flags set (R169). -/
def Bank.setEnv (b : Bank) (e : REnv) : Bank := { b with lfsr := e.lfsr, sticky := b.sticky ||| e.flags }

/-- The source that a packed instruction cannot read: a channel whose element width is not its lane width (R200). -/
def Bank.badOperand (b : Bank) (h : Hdr) (w : Nat) : Src → Option Raise
  | .head hd =>
    match Hdr.headCh h hd with
    | some n =>
      let f := fmtOf (b.chan n).fmt
      if f ≠ .raw ∧ (fmtBits f) ≠ w then
        some { cls := 0x4A, a := BitVec.ofNat 64 n, b := b.headWord h hd }
      else none
    | none => none
  | _ => none

/-! ### Removing tokens from a channel -/

/-- Whether a scale header breaks a check of R179. -/
def badHeader (p : Word) : Bool :=
  let x := p.toNat
  let n := bits x 56 4
  4 ≤ bits x 60 3 || n = 0 || 6 < n || bits x 48 8 ≠ 0 || (bits x 0 48) >>> (8 * n) ≠ 0

/-- The latch that a good header gives (R178). -/
def latchOf (p : Word) : Latch where
  last := p.getLsbD 63
  blen := 4 * 2 ^ bits p.toNat 60 3
  n := bits p.toNat 56 4
  scales := p.setWidth 48
  k := 0

/-- Elements in a token of a format (R158). (DEDUCED, log entry 21.) -/
def perToken (f : Fmt) : Nat := 64 / fmtBits f

/-- What removing a token does to its channel's latch: a header of a channel scaled by headers replaces it, an element
counts (R178). (DEDUCED, log entry 21.) -/
def Chan.noteRemoved (c : Chan) (t : Token) : Chan :=
  if t.cls = clsHdr ∧ fmtSsrc c.fmt = 1 then
    (if t.etag || badHeader t.payload then c else { c with latch := latchOf t.payload })
  else if t.cls = clsData ∨ t.cls = clsLast then
    { c with latch := { c.latch with k := c.latch.k + perToken (fmtOf c.fmt) } }
  else c

/-- The head whose removal raises the scale-header fault (R179), or, for a header that bears a tag, the poison fault: to latch
it is to use its payload (R351). (DEDUCED, log entry 15.) -/
def Chan.badHead (c : Chan) : Option Token :=
  match c.toks with
  | t :: _ => if t.cls = clsHdr ∧ fmtSsrc c.fmt = 1 ∧ (t.etag || badHeader t.payload) = true then some t else none
  | [] => none

/-- The fault of a head that cannot be latched (R179, R351). (DEDUCED, log entry 15.) -/
def latchRaise (n : Nat) (t : Token) : Raise :=
  { cls := if t.etag then 0x0A else 0x48, reason := if t.etag then 1 else 0, a := BitVec.ofNat 64 n, b := t.payload }

/-- Remove the head of a channel on behalf of rule k: its slot is free, its latch follows, its sender is told. After a
scale-header fault no rule of the bank reads the elements that follow (R179). -/
def State.removeHead (s : State) (x : Site) (k n : Nat) : State :=
  let c := (s.bank x).chan n
  match c.toks with
  | [] => s
  | t :: _ =>
    let s := (s.modBank x fun b => b.modChan n fun c => c.noteRemoved t).popHead x n
    match c.badHead with
    | some t => (s.raiseAt x k (latchRaise n t)).haltBank x
    | none => s

/-- Whether a class is one that no DEQ bit, DEQ or SINK removes (R64, R80, R323). -/
def stays (t : Token) : Bool := t.cls = clsDrain || t.cls = clsMarker

/-- A DEQ bit of a committing rule: it leaves a drain token or a marker in place (R80, R323). -/
def State.deqBit (s : State) (x : Site) (k : Nat) (on : Bool) (t : Option ChanTest) : State :=
  match on, t with
  | true, some t =>
    match ((s.bank x).chan t.ch.toNat).toks with
    | hd :: _ => if stays hd then s else s.removeHead x k t.ch.toNat
    | [] => s
  | _, _ => s

/-! ### The firing of a rule -/

/-- What the meaning of an instruction knows of its firing: the bank, the rule index, the number of the firing, and the
guard word. -/
structure Ctx where
  x  : Site
  k  : Nat
  id : Nat
  h  : Hdr
deriving DecidableEq, Repr

/-- The whole effect of a rule at its firing, computed from the state left by the rules before it (R33): the fault or trap
that it raises before any effect; the outputs on which it takes a slot at commit, one entry a slot; whether its request is
refused; what its commit does (R34, apply_effect); and what follows once its guard-word effects stand too (R54). -/
structure Plan where
  fault  : Option Raise := none
  slots  : List Nat := []
  refuse : Bool := false
  act    : State → State := id
  after  : State → State := id

/-- The bank of a firing. -/
def Ctx.bank (c : Ctx) (s : State) : Bank := s.bank c.x

/-- The slots that a destination takes at commit. -/
def Dst.slots : Dst → List Nat
  | .o n => [n.toNat]
  | _ => []

/-- A data token. -/
def dataTok (v : Word) : GTok := { cls := clsData, payload := v }

/-- Write a scalar result to a destination (R40, R51): at once when the latency is 1, else when it has run out. -/
def Ctx.write (c : Ctx) (dst : Dst) (lat : Nat) (v : Word) (s : State) : State :=
  if lat ≤ 1 then
    match dst with
    | .g n => s.modBank c.x fun b => b.setReg (.g n.toNat) v
    | .m n => s.modBank c.x fun b => b.setReg (.m n.toNat) v
    | .o n => s.emit c.x n.toNat c.id (dataTok v)
    | .zero => s
  else
    let p : Pend := { id := c.id, rule := c.k, left := some lat, lat := lat, writes := match dst with
      | .g n => [.reg (.g n.toNat) v]
      | .m n => [.reg (.m n.toNat) v]
      | .o n => [.tok n.toNat (dataTok v)]
      | .zero => [] }
    let s := s.modBank c.x fun b => { b with pend := b.pend ++ [p] }
    match dst with
    | .o n => s.reserve c.x n.toNat c.id 1 true false
    | _ => s

/-- push_history for a result of a latency (R42, R50). -/
def Ctx.push (c : Ctx) (lat : Nat) (v : Word) (s : State) : State :=
  s.modBank c.x fun b => b.push v (if lat ≤ 1 then none else some c.id)

/-- The commit of an instruction whose whole effect is one scalar result that it pushes (R49). -/
def Ctx.result (c : Ctx) (dst : Dst) (lat : Nat) (v : Word) (s : State) : State :=
  c.push lat v (c.write dst lat v s)

/-- An instruction's own predicate write (R34). -/
def Ctx.pred (c : Ctx) (k : BitVec 3) (v : Bool) (s : State) : State := s.modBank c.x fun b => b.setPred k v

/-- The flags and the LFSR of a rule, set at commit (R169, R201). -/
def Ctx.env (c : Ctx) (e : REnv) (s : State) : State := s.modBank c.x fun b => b.setEnv e

/-- The plan of an instruction whose whole effect is one scalar result. -/
def Ctx.scalar (c : Ctx) (dst : Dst) (lat : Nat) (v : Word) : Plan :=
  { slots := Dst.slots dst, act := c.result dst lat v }

end Sys2Proof.Machine
end

