-- ==== Sys2Proof/Machine/Fire.lean ====
section
/-! DEFINITION. The firing of a rule (R33 to R39, R194, R225, R242, R287, R346 to R351, R359): holds, the traps and faults
of the first firing, aborts, and the commit. -/

namespace Sys2Proof.Machine

/-! ### Holds -/

/-- The outputs on which a rule sends tokens; STEER sends on the one that its predicate chooses (R280). The gates, the
release of a nest and the notify bindings name an output and send nothing on it. -/
def Instr.sends (p : BitVec 8) (i : Instr) : List Nat :=
  let v := Instr.view i
  let dst := match v.dst with | some (.o n) => [n.toNat] | _ => []
  match i with
  | .gateSet .. | .gateAdd .. | .gateOff .. | .loopdone .. | .savesetNotify .. | .savedropNotify .. => []
  | .steer _ o _ pk o2 => [if p.getLsbD pk.toNat then o.toNat else o2.toNat]
  | .fork _ o _ also => o.toNat :: (bitNums also).filter (· ≠ o.toNat)
  | _ => dst ++ v.cm.toList

/-- The output of a run in flight (R225, R242). -/
def UnitWork.runOut : UnitWork → Option Nat
  | .run r => some r.out
  | .cturn t => some t.out
  | .sparse t => t.out
  | _ => none

/-- The output that a loop nest holds (R287). -/
def UnitWork.nestOut : UnitWork → Option Nat
  | .nest n => some n.out
  | _ => none

/-- The channels that a unit in flight consumes, but for a contraction's (R225, R242). -/
def UnitWork.consumed : UnitWork → List Nat
  | .stayFill f => [f.ch]
  | .accFill f => [f.ch]
  | .cturn t => [t.ch]
  | .sparse t => t.a.ch :: (t.b.map (·.ch)).toList
  | _ => []

/-- The channels that a contraction in flight streams from. -/
def UnitWork.streamed : UnitWork → List Nat
  | .contraction c => c.u.ch.toList ++ c.v.ch.toList
  | _ => []

/-- The stay tiles that a format fills or reads (R182). -/
def stayTiles (f32 : Bool) (s : Nat) : List Nat := if f32 then [0, 1] else [s]

def UnitWork.stayRead : UnitWork → List Nat
  | .contraction c => match c.stay with
    | some s => stayTiles (c.fmt = .f32) s
    | none => []
  | _ => []

def UnitWork.stayFilled : UnitWork → List Nat
  | .stayFill f => stayTiles (f.fmt = .f32) f.tile
  | _ => []

/-- Whether two half codes of R226 need a common half: 0 is the whole array. -/
def halvesMeet (a b : Nat) : Bool := a = 0 || b = 0 || a = b

def UnitWork.half : UnitWork → Option Nat
  | .contraction c => some c.half
  | _ => none

/-- Whether a unit in flight is an ISECT or UNION (R242). -/
def UnitWork.matcher : UnitWork → Bool
  | .sparse t => match t.op with
    | .scatter .. => false
    | _ => true
  | _ => false

/-- The tile that an ISECT of mode dot in flight reads (R242). -/
def UnitWork.dotTile : UnitWork → Option Nat
  | .sparse t => match t.op with
    | .dot a _ => some a
    | _ => none
  | _ => none

/-- The units of a bank, and whether some of them meets a test. -/
def Bank.anyUnit (b : Bank) (f : UnitWork → Bool) : Bool := b.units.any fun u => f u.work

def meetsL (a b : List Nat) : Bool := a.any b.contains

/-- The holds of R193, R225 and R242 for the rules of groups 0x7_ and 0x8_. -/
def Bank.unitHeld (b : Bank) (i : Instr) : Bool :=
  let chs := Instr.headChs i
  let busyCh := b.anyUnit fun u => meetsL u.consumed chs
  let streamedCh := b.anyUnit fun u => meetsL u.streamed chs
  let needsHalf (h : Nat) := b.anyUnit fun u => match u.half with | some h' => halvesMeet h h' | none => false
  let filling (t : List Nat) := b.anyUnit fun u => meetsL u.stayFilled t
  match i with
  | .contract _ fmt _ _ _ role _ _ _ _ st _ half =>
    needsHalf half.toNat || busyCh || (role ≠ 3 && filling (stayTiles (fmt = .f32) (b2n st)))
  | .gradpair _ fmt _ _ _ _ _ _ _ st _ _ => needsHalf 0 || busyCh || filling (stayTiles (fmt = .f32) (b2n st))
  | .stay _ fmt _ st _ =>
    let t := stayTiles (fmt = .f32) (b2n st)
    busyCh || streamedCh || filling t || b.anyUnit fun u => meetsL u.stayRead t
  | .accld .. | .cturn .. | .sacci .. => busyCh || streamedCh
  | .isectMul .. | .isectDot .. | .union .. => busyCh || streamedCh || b.anyUnit UnitWork.matcher
  | _ => false

/-- Whether a rule would move a drain token or a marker, or a token that is not there (R278, R282). -/
def Bank.cannotMove (b : Bank) (i : Instr) : Bool :=
  let blocked (t : Option Token) : Bool := match t with
    | some t => stays t
    | none => true
  match i with
  | .steer h _ hd _ _ | .fork h _ hd _ => blocked (b.headTok h hd)
  | .merge h _ hd va vb => blocked (b.chan (if (b.headWord h hd).getLsbD 0 then vb.toNat else va.toNat)).toks.head?
  | _ => false

/-- The pair that an ACCRD reads while its tile records a kind of FP64 (R235). (DEDUCED, log entry 82.) -/
def Instr.accReads (b : Bank) : Instr → List Res
  | .accrd _ _ _ _ _ _ acc _ => match (b.acc.getD acc.toNat {}).kind with
    | .fp64lo | .fp64hi => pairRes acc.toNat
    | _ => []
  | _ => []

/-- The read set of rule k (R30): its own, what the format entries added at plane load (R176), and an FP64 pair. -/
def Instr.readSet (b : Bank) (k : Nat) (i : Instr) : List Res :=
  Instr.reads i ++ (b.loadSets.getD k []).filter (fun r => match r with | .acc _ => false | _ => true) ++ Instr.accReads b i

/-- The registers and tiles of a footprint. -/
def Instr.named (b : Bank) (k : Nat) (i : Instr) : List Res := Instr.readSet b k i ++ Instr.writes i

/-- Whether a resource is pending (R36, R237). -/
def Bank.resPending (b : Bank) : Res → Bool
  | .g n => b.regPending (.g n)
  | .m n => b.regPending (.m n)
  | .acc n => b.accPending n
  | _ => false

/-- Whether a source names a pending history entry (R36, R50). -/
def Bank.srcPending (b : Bank) : Option Src → Bool
  | some (.d n) => ((b.d.getD n.toNat {}).pend).isSome
  | _ => false

/-- A register, history entry or tile that the rule names is pending (R36). -/
def Bank.pending (b : Bank) (k : Nat) (i : Instr) : Bool :=
  let v := Instr.view i
  (Instr.named b k i).any b.resPending || b.srcPending v.s1 || b.srcPending v.s2 || b.srcPending v.s3

/-- Every hold that the spec states for a chosen rule, but for the ports (operand_pending of R42). -/
def State.held (s : State) (x : Site) (k : Nat) (i : Instr) : Bool :=
  let b := s.bank x
  let outs := Instr.sends b.p i
  let onRun := b.anyUnit fun u => match u.runOut with | some o => outs.contains o | none => false
  let onNest := b.anyUnit fun u => match u.nestOut with | some o => outs.contains o | none => false
  b.pending k i || b.unitHeld i || b.cannotMove i || onRun
    || (match i with | .loopopen .. => false | _ => onNest)
    || (Instr.writes i).any (fun r => match r with
        | .acc n => b.anyUnit fun u => u.dotTile = some n
        | _ => false)
    || (match i with
        | .markOwn .. | .markCohort .. => s.reqs.any fun r => r.site = x && r.rule = k && (match r.op with
            | .mark .. => true
            | _ => false)
        | _ => false)

/-- The STALL of the rule at an index. -/
def Bank.stallOf (b : Bank) (k : Nat) : Nat := ((decode (b.rules.getD k 0)).map fun i => (Instr.hdr i).stall.toNat).getD 0

/-- Whether a rule reads a result of stated latency L that is pending and whose producer has a STALL of N with N + 1 < L: a
stall-short hold (R37). (DEDUCED, log entry 10.) -/
def Bank.shortHold (b : Bank) (k : Nat) (i : Instr) : Bool :=
  let late : Bank := { b with pend := b.pend.filter fun p => p.left.isSome && b.stallOf p.rule + 1 < p.lat }
  let d (s : Option Src) : Bool := match s with
    | some (.d n) => match (b.d.getD n.toNat {}).pend with
      | some id => late.pend.any (·.id = id)
      | none => false
    | _ => false
  let v := Instr.view i
  (Instr.readSet b k i).any late.resPending || d v.s1 || d v.s2 || d v.s3

/-- hold of R42: nothing changes but the counters (R259). (DEDUCED, log entry 9.) -/
def State.hold (s : State) (x : Site) (short : Bool) : State :=
  let s := s.count x.tile x.slot 5
  if short then
    (s.modBank x fun b => { b with due := { b.due with shortHolds := b.due.shortHolds + 1 } }).count x.tile x.slot 6
  else s

/-! ### Traps and faults of the first firing -/

/-- The accumulator-busy trap (R194): the lowest owned tile that the rule's footprint names, unless its SBW names the slot
that the owner set. (DEDUCED, log entry 23.) -/
def Bank.busyTile (b : Bank) (i : Instr) : Option Raise :=
  ((List.range 4).filterMap fun n =>
    match (b.acc.getD n {}).owner with
    | some (id, rule, rounds) =>
      let named := (Instr.reads i ++ Instr.accReads b i ++ Instr.writes i).contains (.acc n)
      let waits := match (Instr.hdr i).sbw with
        | some sl => ((b.sb.getD sl.toNat none).map (·.2)) = some id
        | none => false
      if named && !waits then
        some { cls := 0x03, a := BitVec.ofNat 64 (n ||| rule <<< 4), b := rounds }
      else none
    | none => none).head?

/-- The instructions that act on a tagged head without using its payload, and those whose unit checks each token as it
takes it (R351). (DEDUCED, log entry 15.) -/
def Op.sparesTag : Op → Bool
  | .fwd | .steer | .fork | .tagof | .chkerr | .replay | .trap => true
  | .contract | .gradpair | .stay | .accld | .cturn | .isectMul | .isectDot | .union | .sacci => true
  | _ => false

/-- The poison fault of a rule that reads a tagged head as a source (R351). (DEDUCED, log entries 15, 23.) -/
def Bank.tainted (b : Bank) (i : Instr) : Option Raise :=
  if ((Instr.op? i).map Op.sparesTag).getD false then none
  else
    let one (s : Option Src) : Option Raise := match s with
      | some (.head hd) => match b.headTok (Instr.hdr i) hd with
        | some t => if t.etag then
            some { cls := 0x0A, reason := 1, a := BitVec.ofNat 64 ((Hdr.headCh (Instr.hdr i) hd).getD 0), b := t.payload }
          else none
        | none => none
      | _ => none
    let v := Instr.view i
    (one v.s1).or ((one v.s2).or (one v.s3))

/-- The fault or trap of a first firing, in the order in which the machine finds them: parity of what it reads (R357), an
owned tile (R194), a tagged head (R351), and the instruction's own (R359). (DEDUCED, log entry 23.) -/
def Bank.firstFault (b : Bank) (i : Instr) (up : Option Upset) (p : Plan) : Option Raise :=
  let parity : Option Raise := (up.bind (·.parity)).map fun q => { cls := 0x09, a := BitVec.ofNat 64 q.element }
  parity.or ((b.busyTile i).or ((b.tainted i).or p.fault))

/-! ### Aborts (R35) -/

/-- abort of R42: the cell's counter and the tile's counter of the cause. (DEDUCED, log entry 9.) -/
def State.abort (s : State) (x : Site) (cause : Nat) : State :=
  (s.modBank x fun b => { b with due := { b.due with aborts := b.due.aborts + 1 } }).count x.tile x.slot cause

/-- A loss-of-decoupling event on an output, at most once a round (R260). (DEDUCED, log entry 22.) -/
def State.decouple (s : State) (x : Site) (o : Nat) : State :=
  if (s.slot x.tile x.slot).decoupled.contains (x.cell, o) then s
  else (s.modSlot x.tile x.slot fun k => { k with decoupled := (x.cell, o) :: k.decoupled }).count x.tile x.slot 9

/-- The first output of a list that lacks a slot or a credit for its token, after those of `taken` (R35, R285): two outputs
bound to one channel share its slots (R71). (DEDUCED, log entry 12.) -/
def State.lacksAfter (s : State) (x : Site) (taken : List Nat) : List Nat → Option Nat
  | [] => none
  | o :: r =>
    let here := (taken.filter fun q => q = o || s.consumer x q = s.consumer x o).length
    let paid := (taken.filter (· = o)).length
    if here < s.freeSlots x o && (!((s.bank x).out o).gateOn || paid < ((s.bank x).out o).credit.toNat) then
      State.lacksAfter s x (o :: taken) r
    else some o

/-- The first output that lacks a slot or a credit for the tokens of a plan (R35, R285). -/
def State.lacks (s : State) (x : Site) (p : Plan) : Option Nat := s.lacksAfter x [] p.slots

/-- Every output that lacks a slot or a credit for its own tokens of a plan, the first one that lacks any among them
(R260). -/
def State.lacking (s : State) (x : Site) (p : Plan) (first : Nat) : List Nat :=
  (first :: p.slots.filter fun o => (s.lacksAfter x [] (p.slots.filter (· = o))).isSome).eraseDups

/-! ### Commit (R34) -/

/-- The accesses after which the completion tokens order that a rule's channel terms test: its commit is an edge-wait (R78,
R79). A term that takes a head of any class makes none (R75). -/
def Bank.edgeWaits (b : Bank) (h : Hdr) : List (Path × Nat) :=
  let one (t : Option ChanTest) : List (Path × Nat) := match t with
    | some t => match (b.chan t.ch.toNat).toks with
      | k :: _ => if t.cls = some clsCmpl && k.cls = clsCmpl then k.acc else []
      | [] => []
    | none => []
  one h.cta ++ one h.ctb

/-- The reuse latches of a class after a commit (R39). -/
def Bank.keep (b : Bank) (i : Instr) (opc : Nat) : Bank :=
  let h := Instr.hdr i
  let v := Instr.view i
  let code (bit : Nat) (s : Option Src) : Option (BitVec 6) := match s with
    | some (.g n) => if h.reuse.getLsbD bit then some (Src.code (.g n)) else none
    | some (.m n) => if h.reuse.getLsbD bit then some (Src.code (.m n)) else none
    | _ => none
  { b with reuse := setAt [none, none, none] b.reuse (unitClass opc).idx [code 2 v.s1, code 1 v.s2, code 0 v.s3] }

/-- Whether a resource is a register. -/
def Res.isReg : Res → Bool
  | .g _ | .m _ => true
  | _ => false

/-- The blocks that STALL puts on the rounds that follow (R37): on the destination, both registers of a pair, and on the
history; none when the instruction produces no scalar result and writes no register. -/
def Bank.stall (b : Bank) (i : Instr) : Bank :=
  let n := (Instr.hdr i).stall.toNat
  let regs := ((Instr.writes i).filter Res.isReg).eraseDups
  let out := match (Instr.view i).dst with
    | some (.o k) => if Instr.pushes i then [Res.o k.toNat] else []
    | _ => []
  if n = 0 || (regs.isEmpty && !(Instr.pushes i)) then b
  else { b with stalls := b.stalls ++ (regs ++ out ++ [Res.hist]).map fun r => { left := n + 1, res := r } }

/-- The guard-word effects of a commit (R34): predicates, dequeues, the scoreboard slot. -/
def State.guardEffects (s : State) (c : Ctx) : State :=
  let s := s.modBank c.x fun b => { b with p := predUpdate b.p c.h.pset c.h.pclr }
  let s := s.deqBit c.x c.k c.h.deqA c.h.cta
  let s := s.deqBit c.x c.k c.h.deqB c.h.ctb
  match c.h.sbset with
  | some k => s.modBank c.x fun b => { b with sb := setAt none b.sb k.toNat (some (c.k, c.id)) }
  | none => s

/-- commit of R34. -/
def State.commit (s : State) (c : Ctx) (i : Instr) (p : Plan) : State :=
  let w := (s.bank c.x).rules.getD c.k 0
  let s := s.learn c.x ((s.bank c.x).edgeWaits c.h)
  let s := p.after ((p.act s).guardEffects c)
  let s := s.modBank c.x fun b => (b.keep i (opcOf w)).stall i
  (s.count c.x.tile c.x.slot 1).progress c.x

/-! ### The firing -/

/-- The fate of a firing (R33): held, raised, aborted or committed. -/
inductive Fate
  | held (short : Bool) | raised (r : Raise) | checked | blocked (o : Nat) | refused | commits
deriving DecidableEq, Repr

/-- The fate of a rule whose plan is p, from the state before it: R33, with the checks of R347 before cannot_commit. A rule
that commits at the end of the rounds of its retries was not held in its own round (R348).
(DEDUCED, log entries 9, 22.) -/
def State.fate (s : State) (x : Site) (k : Nat) (i : Instr) (short again : Bool) (up : Option Upset) (p : Plan) : Fate :=
  let b := s.bank x
  if !again && s.held x k i then .held (b.shortHold k i)
  else if short then .held false
  else match b.firstFault i up p with
  | some r => .raised r
  | none =>
    if 3 ≤ (up.map (·.disagree)).getD 0 then .checked
    else match s.lacks x p with
    | some o => .blocked o
    | none => if p.refuse then .refused else .commits

/-- count_corrected of R347, when a retry agreed. (DEDUCED, log entry 22.) -/
def State.noteCorrected (s : State) (x : Site) (up : Option Upset) : State :=
  if 1 ≤ (up.map (·.disagree)).getD 0 then s.modSlot x.tile x.slot fun k => { k with corrected := k.corrected + 1 } else s

/-- A TRAP that raises is remembered: it commits on continue (R360). -/
def State.noteTrap (s : State) (c : Ctx) (r : Raise) : State :=
  if r.cls = 0x04 then s.modBank c.x fun b => { b with trapped := setAdd c.k b.trapped } else s

/-- What follows a fate. -/
def State.conclude (s : State) (c : Ctx) (i : Instr) (up : Option Upset) (p : Plan) : Fate → State
  | .held short => s.hold c.x short
  | .raised r => (s.noteTrap c r).raisePrecise c.x c.k r
  | .checked =>
    ((s.abort c.x 4).raiseAt c.x c.k { cls := 0x08, a := (up.map (·.a)).getD 0, b := (up.map (·.b)).getD 0 }).haltBank c.x
  | .blocked o => (s.lacking c.x p o).foldl (fun s o => s.decouple c.x o) ((s.noteCorrected c.x up).abort c.x 2)
  | .refused => (s.noteCorrected c.x up).abort c.x 3
  | .commits => (s.noteCorrected c.x up).commit c i p

/-- The firing at the head of the open round leaves it, under a number of its own. -/
def State.openFiring (s : State) (rest : List Firing) : State :=
  { s with round := { s.round with firing := rest }, nextId := s.nextId + 1 }

/-- Fire one chosen rule whose instruction is i. (DEDUCED, log entry 9.) -/
def State.fireOne (s : State) (f : Firing) (rest : List Firing) (i : Instr) (plan : Ctx → State → Plan) : State :=
  let c : Ctx := { x := f.site, k := f.rule, id := s.nextId, h := Instr.hdr i }
  let s := s.openFiring rest
  let up := s.round.ups.find? fun u => u.cell = f.site.cell && u.rule = f.rule
  let p := plan c s
  s.conclude c i up p (s.fate f.site f.rule i f.short f.again up p)

/-- Fire the rule at the head of the open round: what the meaning of every rule instruction is.
(DESIGN CHOICE, log entry 4; DEDUCED, log entry 9.) -/
def fire (i : Instr) (plan : Ctx → State → Plan) (s : State) : Host.Outcome State Fault Refusal :=
  match s.round.firing with
  | [] => .fault .noFiring
  | f :: rest => .next (s.fireOne f rest i plan)

end Sys2Proof.Machine
end

