-- ==== Sys2Proof/Machine/Flags.lean ====
section
/-! DEFINITION. Conditions, carries and flags (R53, R58, R161, R203, R205, R206), and the latencies of R51 and R202. -/

namespace Sys2Proof.Machine

/-- The outcome of an instruction's meaning. -/
abbrev Result := Host.Outcome State Fault Refusal

/-- The width of an integer type, and whether it is signed (R52). -/
def intBits : IntTy → Nat
  | .i32 | .n32 => 32
  | .i64 | .n64 => 64

def intSigned : IntTy → Bool
  | .i32 | .i64 => true
  | .n32 | .n64 => false

/-- The value of an n-bit pattern in an integer type (R53, R56). -/
def intVal (ty : IntTy) (x : Nat) : Int := if intSigned ty then toSigned (intBits ty) x else (x : Int)

/-- The conditions of CMP (R52). -/
def icondHolds (c : ICond) (a b : Int) : Bool :=
  match c with
  | .eq => a = b
  | .ne => a ≠ b
  | .lt => a < b
  | .le => a ≤ b
  | .gt => a > b
  | .ge => a ≥ b

/-- The carry out of bit n of a sum (R58). -/
def carryOut (n x : Nat) : Bool := x.testBit n

/-- A condition of FCMP on two values (R206): with a NaN only ne and un hold. -/
def fcondHolds (c : FCond) (a b : FVal) : Bool :=
  match fcmpV a b with
  | none => c = .ne || c = .un
  | some o => match c with
    | .eq => o = .eq
    | .ne => o ≠ .eq
    | .lt => o = .lt
    | .le => o ≠ .gt
    | .gt => o = .gt
    | .ge => o ≠ .lt
    | .un => false

/-- Whether a condition of FCMP sets invalid: lt, le, gt and ge with a NaN operand (R206). -/
def fcondInvalid (c : FCond) (a b : FVal) : Bool :=
  (a.isNan || b.isNan) && (c = .lt || c = .le || c = .gt || c = .ge)

/-- The flags of an exact result (R161, R205). -/
def FRes.flags (r : FRes) : BitVec 6 :=
  (if r.invalid then flagInvalid else 0) ||| (if r.divZero then flagDivZero else 0)

/-- An exact result rounded to a format under a mode, with its flags (R165, R205). -/
def roundRes (f : FFmt) (rm : Rm) (ftz : Bool) (r : FRes) (env : REnv) : Nat × REnv :=
  fpRound f rm ftz r.val (env.raise r.flags)

/-- The format of a scalar or lane type (R199, R208). -/
def ftyFmt : FTy → Fmt
  | .f64 => .fp64 | .f32 => .fp32 | .bf16 => .bf16 | .f16 => .fp16

def vtyFmt : VTy → Fmt
  | .f32 => .fp32 | .bf16 => .bf16 | .f16 => .fp16

def ftyF : FTy → FFmt
  | .f64 => Machine.fp64 | .f32 => Machine.fp32 | .bf16 => Machine.bf16 | .f16 => Machine.fp16

def vtyF : VTy → FFmt
  | .f32 => Machine.fp32 | .bf16 => Machine.bf16 | .f16 => Machine.fp16

/-! ### Latencies -/

/-- DIV (R51). -/
def divLat (ty : IntTy) : Nat := if intBits ty = 32 then 12 else 20

/-- FRCP, FRSQ, FEXP2, FLOG2, FSQRT (R202). -/
def funLat (ty : FTy) : Nat := if ty = .f64 then 16 else 8

end Sys2Proof.Machine
end

