-- ==== Sys2Proof/Machine/Integer.lean ====
section
/-! DEFINITION. Groups 0x0_, 0x1_ and 0x2_: control and predicate instructions, integers, bits (R52 to R61). -/

namespace Sys2Proof.Machine

/-! ### Control and predicates (R52 to R54) -/

/-- NOP: only the guard-word effects (R52). -/
def execNop (h : Hdr) (s : State) : Result := fire (.nop h) (fun _ _ => {}) s

/-- The truth-table bit of PLOG (R53). -/
def plogBit (p : BitVec 8) (pa pb : BitVec 3) (tt : BitVec 4) : Bool :=
  tt.getLsbD (2 * b2n (p.getLsbD pa.toNat) + b2n (p.getLsbD pb.toNat))

/-- PLOG (R53). -/
def execPlog (h : Hdr) (pd pa pb : BitVec 3) (tt : BitVec 4) (s : State) : Result :=
  fire (.plog h pd pa pb tt) (fun c s => { act := c.pred pd (plogBit (c.bank s).p pa pb tt) }) s

/-- CMP (R53). -/
def execCmp (h : Hdr) (ty : IntTy) (s1 s2 : Src) (pk : BitVec 3) (cond : ICond) (s : State) : Result :=
  fire (.cmp h ty s1 s2 pk cond) (fun c s =>
    let a := (c.bank s).low h 0 (intBits ty) s1
    let b := (c.bank s).low h 0 (intBits ty) s2
    { act := c.pred pk (icondHolds cond (intVal ty a) (intVal ty b)) }) s

/-- TST (R53). -/
def execTst (h : Hdr) (ty : IntTy) (s1 s2 : Src) (pk : BitVec 3) (ifzero : Bool) (s : State) : Result :=
  fire (.tst h ty s1 s2 pk ifzero) (fun c s =>
    let a := (c.bank s).low h 0 (intBits ty) s1
    let b := (c.bank s).low h 0 (intBits ty) s2
    { act := c.pred pk ((a &&& b ≠ 0) != ifzero) }) s

/-- SEL (R53). -/
def execSel (h : Hdr) (dst : Dst) (s1 s2 : Src) (pk : BitVec 3) (s : State) : Result :=
  fire (.sel h dst s1 s2 pk) (fun c s =>
    let b := c.bank s
    c.scalar dst 1 (b.raw h 0 (if b.p.getLsbD pk.toNat then s1 else s2))) s

/-- Whether a retired cell discards a token: every class but drain and marker (R54). -/
def discarded (t : Token) : Bool := !(stays t)

/-- A cell retires (R54, R80): what its channels hold is discarded and counted, its drain tokens are consumed, and every
slot so freed is free to its sender. -/
def State.retireCell (s : State) (x : Site) : State :=
  let b := s.bank x
  let toks := b.chans.flatMap (·.toks)
  let n := (toks.filter discarded).length
  let s := s.setBank x { b with
    retired := true
    discards := b.discards + BitVec.ofNat 64 n
    chans := b.chans.map fun c => { c with toks := c.toks.filter (·.cls = clsMarker) } }
  let s := (toks.filter notMarker).foldl State.ack s
  if 0 < n then s.progress x else s

/-- RETIRE (R54): the cell retires once the rule has committed, its own DEQ bits done. -/
def execRetire (h : Hdr) (s : State) : Result := fire (.retire h) (fun c _ => { after := fun s => s.retireCell c.x }) s

/-! ### Integers (R55 to R58) -/

/-- The operands of R56: the patterns and the values that the type gives them. -/
structure IntOps where
  n  : Nat
  a  : Nat
  b  : Nat
  c  : Nat
  va : Int
  vb : Int
  vc : Int
deriving DecidableEq, Repr

/-- The operands as R56 reads them. -/
def Bank.intOps (b : Bank) (h : Hdr) (imm : BitVec 16) (ty : IntTy) (s1 s2 s3 : Src) : IntOps :=
  let n := intBits ty
  let x := b.low h imm n s1
  let y := b.low h imm n s2
  let z := b.low h imm n s3
  { n := n, a := x, b := y, c := z, va := intVal ty x, vb := intVal ty y, vc := intVal ty z }

/-- The shared effect of R56: the result wraps modulo 2^n and is written zero-extended. -/
def intPlan (h : Hdr) (ty : IntTy) (dst : Dst) (s1 s2 s3 : Src) (imm : BitVec 16) (lat : Nat) (f : IntOps → Int)
    (c : Ctx) (s : State) : Plan :=
  let o := (c.bank s).intOps h imm ty s1 s2 s3
  c.scalar dst lat (BitVec.ofNat 64 (wrap o.n (f o)))

/-- ADD (R56). -/
def execAdd (h : Hdr) (ty : IntTy) (dst : Dst) (s1 s2 : Src) (imm : BitVec 16) (s : State) : Result :=
  fire (.add h ty dst s1 s2 imm) (intPlan h ty dst s1 s2 .zero imm 1 fun o => o.va + o.vb) s

/-- SUB (R56). -/
def execSub (h : Hdr) (ty : IntTy) (dst : Dst) (s1 s2 : Src) (imm : BitVec 16) (s : State) : Result :=
  fire (.sub h ty dst s1 s2 imm) (intPlan h ty dst s1 s2 .zero imm 1 fun o => o.va - o.vb) s

/-- MUL (R56). -/
def execMul (h : Hdr) (ty : IntTy) (dst : Dst) (s1 s2 : Src) (imm : BitVec 16) (s : State) : Result :=
  fire (.mul h ty dst s1 s2 imm) (intPlan h ty dst s1 s2 .zero imm 3 fun o => o.va * o.vb) s

/-- MULH (R56). -/
def execMulh (h : Hdr) (ty : IntTy) (dst : Dst) (s1 s2 : Src) (imm : BitVec 16) (s : State) : Result :=
  fire (.mulh h ty dst s1 s2 imm) (intPlan h ty dst s1 s2 .zero imm 3 fun o => (o.va * o.vb).fdiv (2 ^ o.n : Nat)) s

/-- MAD (R56). -/
def execMad (h : Hdr) (ty : IntTy) (dst : Dst) (s1 s2 s3 : Src) (imm : BitVec 16) (s : State) : Result :=
  fire (.mad h ty dst s1 s2 s3 imm) (intPlan h ty dst s1 s2 s3 imm 3 fun o => o.va * o.vb + o.vc) s

/-- The divide-by-zero trap (R57). (DEDUCED, log entry 24.) -/
def divTrap (o : IntOps) : Option Raise :=
  if o.vb = 0 then some { cls := 0x02, a := BitVec.ofNat 64 o.a, b := BitVec.ofNat 64 o.b } else none

/-- DIV: rounded toward zero; a zero divisor traps (R57). -/
def execDiv (h : Hdr) (ty : IntTy) (dst : Dst) (s1 s2 : Src) (imm : BitVec 16) (s : State) : Result :=
  fire (.div h ty dst s1 s2 imm) (fun c s =>
    { intPlan h ty dst s1 s2 .zero imm (divLat ty) (fun o => o.va.tdiv o.vb) c s with
      fault := divTrap ((c.bank s).intOps h imm ty s1 s2 .zero) }) s

/-- MIN (R56). -/
def execMin (h : Hdr) (ty : IntTy) (dst : Dst) (s1 s2 : Src) (imm : BitVec 16) (s : State) : Result :=
  fire (.min h ty dst s1 s2 imm) (intPlan h ty dst s1 s2 .zero imm 1 fun o => min o.va o.vb) s

/-- MAX (R56). -/
def execMax (h : Hdr) (ty : IntTy) (dst : Dst) (s1 s2 : Src) (imm : BitVec 16) (s : State) : Result :=
  fire (.max h ty dst s1 s2 imm) (intPlan h ty dst s1 s2 .zero imm 1 fun o => max o.va o.vb) s

/-- ABS (R56). -/
def execAbs (h : Hdr) (ty : IntTy) (dst : Dst) (s1 : Src) (imm : BitVec 16) (s : State) : Result :=
  fire (.abs h ty dst s1 imm) (intPlan h ty dst s1 .zero .zero imm 1 fun o => if 0 ≤ o.va then o.va else -o.va) s

/-- NEG (R56). -/
def execNeg (h : Hdr) (ty : IntTy) (dst : Dst) (s1 : Src) (imm : BitVec 16) (s : State) : Result :=
  fire (.neg h ty dst s1 imm) (intPlan h ty dst s1 .zero .zero imm 1 fun o => -o.va) s

/-- AND (R56). -/
def execAnd (h : Hdr) (ty : IntTy) (dst : Dst) (s1 s2 : Src) (imm : BitVec 16) (s : State) : Result :=
  fire (.and h ty dst s1 s2 imm) (intPlan h ty dst s1 s2 .zero imm 1 fun o => (o.a &&& o.b : Nat)) s

/-- OR (R56). -/
def execOr (h : Hdr) (ty : IntTy) (dst : Dst) (s1 s2 : Src) (imm : BitVec 16) (s : State) : Result :=
  fire (.or h ty dst s1 s2 imm) (intPlan h ty dst s1 s2 .zero imm 1 fun o => (o.a ||| o.b : Nat)) s

/-- XOR (R56). -/
def execXor (h : Hdr) (ty : IntTy) (dst : Dst) (s1 s2 : Src) (imm : BitVec 16) (s : State) : Result :=
  fire (.xor h ty dst s1 s2 imm) (intPlan h ty dst s1 s2 .zero imm 1 fun o => (o.a ^^^ o.b : Nat)) s

/-- The complement of an n-bit pattern. -/
def complement (n x : Nat) : Nat := (2 ^ n - 1) ^^^ x

/-- ANDN (R56). -/
def execAndn (h : Hdr) (ty : IntTy) (dst : Dst) (s1 s2 : Src) (imm : BitVec 16) (s : State) : Result :=
  fire (.andn h ty dst s1 s2 imm) (intPlan h ty dst s1 s2 .zero imm 1 fun o => (o.a &&& complement o.n o.b : Nat)) s

/-- NOT (R56). -/
def execNot (h : Hdr) (ty : IntTy) (dst : Dst) (s1 : Src) (imm : BitVec 16) (s : State) : Result :=
  fire (.not h ty dst s1 imm) (intPlan h ty dst s1 .zero .zero imm 1 fun o => (complement o.n o.a : Nat)) s

/-- ADDC: the unsigned patterns, and the carry out to a predicate (R58). -/
def execAddc (h : Hdr) (ty : IntTy) (dst : Dst) (s1 s2 s3 : Src) (pk : BitVec 3) (s : State) : Result :=
  fire (.addc h ty dst s1 s2 s3 pk) (fun c s =>
    let o := (c.bank s).intOps h 0 ty s1 s2 s3
    let sum := o.a + o.b + o.c % 2
    let v := BitVec.ofNat 64 (sum % 2 ^ o.n)
    { slots := Dst.slots dst, act := fun s => c.pred pk (carryOut o.n sum) (c.result dst 1 v s) }) s

/-! ### Bits (R59 to R61) -/

/-- The shift count (R60). -/
def IntOps.sh (o : IntOps) : Nat := o.b % o.n

/-- SHL (R60). -/
def execShl (h : Hdr) (ty : IntTy) (dst : Dst) (s1 s2 : Src) (imm : BitVec 16) (s : State) : Result :=
  fire (.shl h ty dst s1 s2 imm) (intPlan h ty dst s1 s2 .zero imm 1 fun o => (o.a * 2 ^ o.sh : Nat)) s

/-- SHR (R60). -/
def execShr (h : Hdr) (ty : IntTy) (dst : Dst) (s1 s2 : Src) (imm : BitVec 16) (s : State) : Result :=
  fire (.shr h ty dst s1 s2 imm) (intPlan h ty dst s1 s2 .zero imm 1 fun o => (o.a / 2 ^ o.sh : Nat)) s

/-- SAR: signed whatever the type says (R60). -/
def execSar (h : Hdr) (ty : IntTy) (dst : Dst) (s1 s2 : Src) (imm : BitVec 16) (s : State) : Result :=
  fire (.sar h ty dst s1 s2 imm) (intPlan h ty dst s1 s2 .zero imm 1 fun o => (toSigned o.n o.a).fdiv (2 ^ o.sh : Nat)) s

/-- A pattern of n bits rotated right by k (R60). -/
def rotateRight (n a k : Nat) : Nat := a / 2 ^ k + (a % 2 ^ k) * 2 ^ (n - k)

/-- ROT (R60). -/
def execRot (h : Hdr) (ty : IntTy) (dst : Dst) (s1 s2 : Src) (imm : BitVec 16) (s : State) : Result :=
  fire (.rot h ty dst s1 s2 imm) (intPlan h ty dst s1 s2 .zero imm 1 fun o => (rotateRight o.n o.a o.sh : Nat)) s

/-- The number of leading zero bits of an n-bit pattern (R60). -/
def leadingZeros (n a : Nat) : Nat := if a = 0 then n else n - 1 - Nat.log2 a

/-- CLZ (R60). -/
def execClz (h : Hdr) (ty : IntTy) (dst : Dst) (s1 : Src) (imm : BitVec 16) (s : State) : Result :=
  fire (.clz h ty dst s1 imm) (intPlan h ty dst s1 .zero .zero imm 1 fun o => (leadingZeros o.n o.a : Nat)) s

/-- The number of one bits (R60). -/
def oneBits (n a : Nat) : Nat := ((List.range n).filter a.testBit).length

/-- POPC (R60). -/
def execPopc (h : Hdr) (ty : IntTy) (dst : Dst) (s1 : Src) (imm : BitVec 16) (s : State) : Result :=
  fire (.popc h ty dst s1 imm) (intPlan h ty dst s1 .zero .zero imm 1 fun o => (oneBits o.n o.a : Nat)) s

/-- A field of a pattern, extended by its top bit for a signed type (R60). -/
def extract (ty : IntTy) (a pos len : Nat) : Int :=
  if intSigned ty then toSigned len (bits a pos len) else (bits a pos len : Nat)

/-- EXT (R60). -/
def execExt (h : Hdr) (ty : IntTy) (dst : Dst) (s1 : Src) (pos len1 : BitVec 6) (s : State) : Result :=
  fire (.ext h ty dst s1 pos len1)
    (intPlan h ty dst s1 .zero .zero 0 1 fun o => extract ty o.a pos.toNat (len1.toNat + 1)) s

/-- A pattern with a field replaced (R60). -/
def insertField (a b pos len : Nat) : Nat := a - bits a pos len * 2 ^ pos + b % 2 ^ len * 2 ^ pos

/-- INS (R60). -/
def execIns (h : Hdr) (ty : IntTy) (dst : Dst) (s1 s2 : Src) (pos len1 : BitVec 6) (s : State) : Result :=
  fire (.ins h ty dst s1 s2 pos len1)
    (intPlan h ty dst s1 s2 .zero 0 1 fun o => (insertField o.a o.b pos.toNat (len1.toNat + 1) : Nat)) s

/-- The bits of an n-bit pattern reversed (R60). -/
def reverseBits (n a : Nat) : Nat := (List.range n).foldl (fun r k => 2 * r + b2n (a.testBit k)) 0

/-- BREV (R60). -/
def execBrev (h : Hdr) (ty : IntTy) (dst : Dst) (s1 : Src) (imm : BitVec 16) (s : State) : Result :=
  fire (.brev h ty dst s1 imm) (intPlan h ty dst s1 .zero .zero imm 1 fun o => (reverseBits o.n o.a : Nat)) s

/-- The address that ADDR forms (R60). -/
def addrOf (a b : Word) (sc : BitVec 3) (off : BitVec 13) : Word :=
  ((a + (b <<< sc.toNat) + off.signExtend 64).setWidth 48).signExtend 64

/-- ADDR (R60). -/
def execAddr (h : Hdr) (dst : Dst) (s1 s2 : Src) (sc : BitVec 3) (off : BitVec 13) (s : State) : Result :=
  fire (.addr h dst s1 s2 sc off) (fun c s =>
    let b := c.bank s
    c.scalar dst 1 (addrOf (b.raw h 0 s1) (b.raw h 0 s2) sc off)) s

/-- The value that a destination register holds. -/
def Bank.dstVal (b : Bank) : Dst → Word
  | .g n => b.reg (.g n.toNat)
  | .m n => b.reg (.m n.toNat)
  | _ => 0

/-- A register with its 16-bit chunk k replaced; the rest cleared or kept (R61). -/
def limmVal (old : Word) (clear : Bool) (chunk : BitVec 2) (val : BitVec 16) : Word :=
  let k := 16 * chunk.toNat
  let base : Word := if clear then 0 else old &&& ~~~((0xFFFF : Word) <<< k)
  base ||| (val.setWidth 64 <<< k)

/-- LIMM (R61). -/
def execLimm (h : Hdr) (clear : Bool) (chunk : BitVec 2) (dst : Dst) (val : BitVec 16) (s : State) : Result :=
  fire (.limm h clear chunk dst val) (fun c s => c.scalar dst 1 (limmVal ((c.bank s).dstVal dst) clear chunk val)) s

/-- MOV (R60). -/
def execMov (h : Hdr) (dst : Dst) (s1 : Src) (imm : BitVec 16) (s : State) : Result :=
  fire (.mov h dst s1 imm) (fun c s => c.scalar dst 1 ((c.bank s).raw h imm s1)) s

end Sys2Proof.Machine
end

