-- ==== Sys2Proof/Machine/Channel.lean ====
section
/-! DEFINITION. Group 0x3_, channels and special registers (R62 to R67); group 0xC_, dataflow control (R278 to R288); STOP
(R252). -/

namespace Sys2Proof.Machine

/-! ### Channels (R62 to R66) -/

/-- The class that SEND sends (R62). -/
def sendClass : SendCls → BitVec 3
  | .data => clsData | .hdr => clsHdr | .last => clsLast

/-- A plan that sends one token on one output at once (send of R42). -/
def Ctx.sendOne (c : Ctx) (o : Out) (t : GTok) : Plan :=
  { slots := [o.toNat], act := fun s => s.emit c.x o.toNat c.id t }

/-- SEND (R63). -/
def execSend (h : Hdr) (cls : SendCls) (o : Out) (s1 : Src) (imm : BitVec 16) (s : State) : Result :=
  fire (.send h cls o s1 imm) (fun c s =>
    c.sendOne o { cls := sendClass cls, payload := (c.bank s).raw h imm s1 }) s

/-- Remove up to n tokens from the head of a channel, stopping before a class that stops the removal (R64, R283). -/
def State.removeUpTo (stops : Token → Bool) (x : Site) (k ch : Nat) : Nat → State → State
  | 0, s => s
  | n + 1, s =>
    match ((s.bank x).chan ch).toks with
    | t :: _ => if stops t then s else State.removeUpTo stops x k ch n (s.removeHead x k ch)
    | [] => s

/-- The classes before which DEQ stops (R64). -/
def deqStops (t : Token) : Bool := t.cls = clsCtl || t.cls = clsCmpl || stays t

/-- DEQ (R64). -/
def execDeq (h : Hdr) (ch : BitVec 5) (cnt1 : BitVec 2) (s : State) : Result :=
  fire (.deq h ch cnt1) (fun c _ => { act := State.removeUpTo deqStops c.x c.k ch.toNat (cnt1.toNat + 1) }) s

/-- A copy of a token: its class, payload and error tag, and the access that a completion token reports (R65, R74, R278).
(DEDUCED, log entry 30.) -/
def copyTok (t : Token) : GTok := { cls := t.cls, payload := t.payload, etag := t.etag, acc := t.acc }

/-- A copy of the head that a source names. -/
def Bank.headCopy (b : Bank) (h : Hdr) (hd : Head) : GTok :=
  ((b.headTok h hd).map copyTok).getD { cls := clsData, payload := 0 }

/-- FWD (R65). (DEDUCED, log entry 30.) -/
def execFwd (h : Hdr) (o : Out) (hd : Head) (s : State) : Result :=
  fire (.fwd h o hd) (fun c s => c.sendOne o ((c.bank s).headCopy h hd)) s

/-- The metadata of the head of a channel (R66). -/
def tagWord (t : Token) (ch slot : Nat) : Word :=
  BitVec.ofNat 64 (t.cls.toNat ||| b2n t.etag <<< 3 ||| ch <<< 4 ||| slot <<< 9 ||| (t.seq % 2 ^ 32) <<< 32)

/-- TAGOF (R66). -/
def execTagof (h : Hdr) (dst : Dst) (hd : Head) (s : State) : Result :=
  fire (.tagof h dst hd) (fun c s =>
    let v := match (c.bank s).headTok h hd, Hdr.headCh h hd with
      | some t, some n => tagWord t n c.x.slot
      | _, _ => 0
    c.scalar dst 1 v) s

/-! ### Special registers (R47, R48, R67) -/

/-- CELLID (R47). -/
def State.cellId (s : State) (x : Site) : Word :=
  BitVec.ofNat 64 (x.cell ||| x.tile <<< 8 ||| s.rtileOf x <<< 14 ||| x.slot <<< 20 ||| s.saggarOf x <<< 22
    ||| s.planeNum x <<< 26)

/-- The occupancy of sixteen channels, four bits each (R47). -/
def Bank.occ (b : Bank) (first : Nat) : Word :=
  BitVec.ofNat 64 ((List.range 16).foldl (fun r k => r + (Nat.min 15 (b.chan (first + k)).toks.length) * 16 ^ k) 0)

/-- The set scoreboard slots, one bit each (R47). -/
def Bank.sbs (b : Bank) : Word :=
  BitVec.ofNat 64 ((List.range 8).foldl (fun r k => r + b2n (b.sb.getD k none).isSome * 2 ^ k) 0)

/-- The value of a special register (R47). (DEDUCED, log entry 81.) -/
def State.spec (s : State) (x : Site) (num : Nat) : Word :=
  let b := s.bank x
  match num with
  | 0x00 => s.cellId x
  | 0x01 => b.rounds
  | 0x02 => b.aborts
  | 0x03 => b.shortHolds
  | 0x04 => b.longWaits
  | 0x05 => b.reuseMiss
  | 0x06 => b.discards
  | 0x08 => b.lfsr.setWidth 64
  | 0x09 => b.sticky.setWidth 64
  | 0x0A => b.p.setWidth 64
  | 0x0B => b.sbs
  | 0x0C => b.occ 0
  | 0x0D => b.occ 16
  | 0x18 => b.chkint.setWidth 64
  | _ => 0

/-- RDSPEC (R67). -/
def execRdspec (h : Hdr) (dst : Dst) (num : BitVec 8) (s : State) : Result :=
  fire (.rdspec h dst num) (fun c s => c.scalar dst 1 (s.spec c.x num.toNat)) s

/-- A write of a special register (R47). -/
def Bank.setSpec (b : Bank) (num : Nat) (v : Word) : Bank :=
  match num with
  | 0x08 => { b with lfsr := if v.setWidth 32 = 0#32 then 1 else v.setWidth 32 }
  | 0x09 => { b with sticky := v.setWidth 6 }
  | 0x0A => { b with p := v.setWidth 8 }
  | 0x18 => { b with chkint := v.setWidth 16 }
  | _ => b

/-- WRSPEC (R67). -/
def execWrspec (h : Hdr) (s1 : Src) (num : BitVec 8) (s : State) : Result :=
  fire (.wrspec h s1 num) (fun c s =>
    let v := (c.bank s).raw h 0 s1
    { act := fun s => s.modBank c.x fun b => b.setSpec num.toNat v }) s

/-! ### Moving tokens (R278 to R284) -/

/-- STEER (R280). -/
def execSteer (h : Hdr) (o : Out) (hd : Head) (pk : BitVec 3) (o2 : BitVec 3) (s : State) : Result :=
  fire (.steer h o hd pk o2) (fun c s =>
    let b := c.bank s
    c.sendOne (if b.p.getLsbD pk.toNat then o else o2) (b.headCopy h hd)) s

/-- The channel that MERGE's selector names (R282). -/
def Bank.mergeCh (b : Bank) (h : Hdr) (hd : Head) (va vb : BitVec 5) : Nat :=
  if (b.headWord h hd).getLsbD 0 then vb.toNat else va.toNat

/-- MERGE: the chosen head goes out, and leaves its channel before the rule's DEQ bits (R282). (DEDUCED, log entries 15, 21.) -/
def execMerge (h : Hdr) (o : Out) (hd : Head) (va vb : BitVec 5) (s : State) : Result :=
  fire (.merge h o hd va vb) (fun c s =>
    let b := c.bank s
    let n := b.mergeCh h hd va vb
    match (b.chan n).toks with
    | t :: _ => { slots := [o.toNat], act := fun s => (s.emit c.x o.toNat c.id (copyTok t)).removeHead c.x c.k n }
    | [] => {}) s

/-- The outputs of FORK, in ascending number (R281). (DEDUCED, log entry 12.) -/
def forkOuts (o : Out) (also : BitVec 8) : List Nat := (List.range 8).filter fun k => k = o.toNat || also.getLsbD k

/-- FORK (R281). -/
def execFork (h : Hdr) (o : Out) (hd : Head) (also : BitVec 8) (s : State) : Result :=
  fire (.fork h o hd also) (fun c s =>
    let t := (c.bank s).headCopy h hd
    { slots := forkOuts o also, act := fun s => (forkOuts o also).foldl (fun s k => s.emit c.x k c.id t) s }) s

/-- SINK (R283). -/
def execSink (h : Hdr) (ch : BitVec 5) (cnt1 : BitVec 2) (s : State) : Result :=
  fire (.sink h ch cnt1) (fun c _ => { act := State.removeUpTo stays c.x c.k ch.toNat (cnt1.toNat + 1) }) s

/-- CTL (R284). -/
def execCtl (h : Hdr) (o : Out) (s1 : Src) (imm : BitVec 16) (s : State) : Result :=
  fire (.ctl h o s1 imm) (fun c s => c.sendOne o { cls := clsCtl, payload := (c.bank s).raw h imm s1 }) s

/-- STOP (R252): the level stands in the payload. -/
def execStop (h : Hdr) (o : Out) (lvl : BitVec 4) (s : State) : Result :=
  fire (.stop h o lvl) (fun c _ => c.sendOne o { cls := clsStop, payload := lvl.setWidth 64 }) s

/-! ### Gates (R285) -/

/-- The credit that GATE adds to (R285). -/
def gateAdded (p : OutState) (v : BitVec 32) : BitVec 32 :=
  if p.gateOn then BitVec.ofNat 32 (Nat.min (p.credit.toNat + v.toNat) (2 ^ 32 - 1)) else v

/-- GATE set (R285). -/
def execGateSet (h : Hdr) (o : Out) (s1 : Src) (imm : BitVec 16) (s : State) : Result :=
  fire (.gateSet h o s1 imm) (fun c s =>
    let v := ((c.bank s).raw h imm s1).setWidth 32
    { act := fun s => s.modBank c.x fun b => b.modOut o.toNat fun p => { p with gateOn := true, credit := v } }) s

/-- GATE add (R285). -/
def execGateAdd (h : Hdr) (o : Out) (s1 : Src) (imm : BitVec 16) (s : State) : Result :=
  fire (.gateAdd h o s1 imm) (fun c s =>
    let v := ((c.bank s).raw h imm s1).setWidth 32
    { act := fun s => s.modBank c.x fun b => b.modOut o.toNat fun p =>
        { p with gateOn := true, credit := gateAdded p v } }) s

/-- GATE off (R285). -/
def execGateOff (h : Hdr) (o : Out) (s : State) : Result :=
  fire (.gateOff h o) (fun c _ =>
    { act := fun s => s.modBank c.x fun b => b.modOut o.toNat fun p => { p with gateOn := false } }) s

/-! ### Counting and loops (R272, R286 to R288) -/

/-- CNT (R286). -/
def execCnt (h : Hdr) (dst : Dst) (s1 : Src) (pk : BitVec 3) (lim1 : BitVec 13) (s : State) : Result :=
  fire (.cnt h dst s1 pk lim1) (fun c s =>
    let v := (c.bank s).low h 0 32 s1 + 1
    let wraps := decide (lim1.toNat + 1 ≤ v)
    let r : Word := BitVec.ofNat 64 (if wraps then 0 else v)
    { slots := Dst.slots dst, act := fun s => c.pred pk wraps (c.result dst 1 r s) }) s

/-- The levels that LOOPOPEN reads from register gk on (R287). -/
def Bank.loopLevels (b : Bank) (k depth : Nat) : List LoopLevel :=
  (List.range depth).map fun l =>
    let lo := b.reg (.g (k + 2 * l))
    { c := (lo.setWidth 32).toNat, b := (lo >>> 32).setWidth 32, s := (b.reg (.g (k + 2 * l + 1))).setWidth 32 }

/-- The loop-control units that a nest of a depth needs (R287). (DEDUCED, log entry 52.) -/
def nestUnits (depth : Nat) : Nat := (depth + 3) / 4

/-- The lowest unit of a tile from which m units are free (R287). -/
def freeUnits (loops : List (Option (Nat × Nat × Nat))) (m : Nat) : Option Nat :=
  (List.range 4).find? fun u => u + m ≤ 4 && ((loops.drop u).take m).all Option.isNone

/-- Whether a bank holds a nest on an output. -/
def Bank.hasNest (b : Bank) (o : Nat) : Bool := b.anyUnit fun u => u.nestOut = some o

/-- The nest's units are held by an output of a cell and plane, or free again. -/
def State.setLoops (s : State) (t first m : Nat) (v : Option (Nat × Nat × Nat)) : State :=
  s.modTile t fun tl => { tl with loops := (List.range m).foldl (fun l k => setAt none l (first + k) v) tl.loops }

/-- Open a nest: its units are held, and its tokens form one run on the output (R72, R287). (DEDUCED, log entry 52.) -/
def State.openNest (s : State) (c : Ctx) (o : Nat) (levels : List LoopLevel) (first : Nat) : State :=
  let m := nestUnits levels.length
  let s := s.setLoops c.x.tile first m (some (c.x.slot, c.x.cell, o))
  let s := s.modBank c.x fun b => { b with units := b.units ++
    [{ id := c.id, firing := c.id, rule := c.k, wait := 1
       work := .nest { out := o, first := first, units := m, levels := levels } }] }
  s.addGroup c.x o { id := c.id, run := true }

/-- The index in words of a register operand of LOOPOPEN. -/
def firstReg : Src → Nat
  | .g n => n.toNat
  | _ => 0

/-- The faults of LOOPOPEN at issue (R287). (DEDUCED, log entry 52.) -/
def loopFault (b : Bank) (o : Nat) (levels : List LoopLevel) : Option Raise :=
  if levels.any (·.c = 0) then some { cls := 0x23, a := 0 }
  else if b.hasNest o then some { cls := 0x58, a := BitVec.ofNat 64 o }
  else none

/-- LOOPOPEN (R287). -/
def execLoopopen (h : Hdr) (o : Out) (s1 : Src) (dep1 : BitVec 4) (s : State) : Result :=
  fire (.loopopen h o s1 dep1) (fun c s =>
    let b := c.bank s
    let levels := b.loopLevels (firstReg s1) (dep1.toNat + 1)
    let u := freeUnits (s.tile c.x.tile).loops (nestUnits levels.length)
    { fault := loopFault b o.toNat levels, refuse := u.isNone, act := fun s => s.openNest c o.toNat levels (u.getD 0) }) s

/-- A unit of a bank ends: its record goes, and what waits for it is final (R38). -/
def State.dropUnit (s : State) (x : Site) (id : Nat) : State :=
  (s.modBank x fun b => { b with units := b.units.filter (·.id ≠ id) }).clearFinal x

/-- A nest is released with its units; tokens not yet sent are never sent (R288). -/
def State.releaseNest (s : State) (x : Site) (o : Nat) : State :=
  (s.bank x).units.foldl (fun s u => match u.work with
    | .nest n => if n.out = o then
        ((s.setLoops x.tile n.first n.units none).dropUnit x u.id).closeGroup x o u.id
      else s
    | _ => s) s

/-- LOOPDONE (R288). -/
def execLoopdone (h : Hdr) (o : Out) (s : State) : Result :=
  fire (.loopdone h o) (fun c _ => { act := fun s => s.releaseNest c.x o.toNat }) s

/-- The values of a step and the next counts (R272): the payload, the levels after the step, and how many levels wrapped. -/
def stepLevels : List LoopLevel → List LoopLevel × Nat
  | [] => ([], 0)
  | l :: r =>
    if l.x + 1 = l.c then
      let (r', n) := stepLevels r
      ({ l with x := 0 } :: r', n + 1)
    else ({ l with x := l.x + 1 } :: r, 0)

/-- A level's value (R272). -/
def LoopLevel.value (l : LoopLevel) : BitVec 32 := l.b + BitVec.ofNat 32 l.x * l.s

/-- The payload of a step's data token (R272). -/
def stepPayload (ls : List LoopLevel) : Word :=
  let v (n : Nat) : BitVec 32 := match ls[n]? with
    | some l => l.value
    | none => 0
  ((v 1).setWidth 64 <<< 32) ||| (v 0).setWidth 64

/-- Change the work of a unit of a bank. -/
def State.setWork (s : State) (x : Site) (id : Nat) (w : UnitWork) : State :=
  s.modBank x fun b => { b with units := b.units.map fun u => if u.id = id then { u with work := w } else u }

/-- Whether a unit's run stands at the front of its output, and a slot and a credit are there for its next token: one
taken at commit, or one that is free (R72, R285). -/
def State.runReady (s : State) (x : Site) (o id : Nat) : Bool :=
  match ((s.bank x).out o).groups with
  | g :: _ => g.id = id && (0 < g.resv || s.canSend x o 1)
  | [] => false

/-- Whether a group still keeps a slot that was taken at commit. -/
def Bank.keepsSlot (b : Bank) (o id : Nat) : Bool := (b.out o).groups.any fun g => g.id = id && 0 < g.resv

/-- Send one token of a run (R261). -/
def State.sendRun (s : State) (x : Site) (o id : Nat) (t : GTok) : State :=
  let s := if (s.bank x).keepsSlot o id then s else s.takeSlot x o true
  (s.fillGroup x o id t).progress x

/-- A unit has acted: it acts again when its wait has passed. -/
def State.rearm (s : State) (x : Site) (id : Nat) : State :=
  s.modBank x fun b => { b with units := b.units.map fun u => if u.id = id then { u with wait := 1 } else u }

/-- The next token of a nest: the stop that is due, or a step's data token (R272, R273). A nest that is complete sends
nothing more: its run ends, and its units stay held (R288). -/
def State.nestToken (s : State) (x : Site) (id : Nat) (n : Nest) : State :=
  if (n.done && n.stop.isNone) || !(s.runReady x n.out id) then s
  else match n.stop with
  | some l =>
    let s := (s.setWork x id (.nest { n with stop := none })).sendRun x n.out id { cls := clsStop, payload := BitVec.ofNat 64 l }
    (if n.done then s.closeGroup x n.out id else s).rearm x id
  | none =>
    let (ls, k) := stepLevels n.levels
    ((s.setWork x id (.nest { n with levels := ls, stop := if 0 < k then some k else none,
                                     done := k = n.levels.length })).sendRun x n.out id
      { cls := clsData, payload := stepPayload n.levels }).rearm x id

/-- Whether the work in flight of a bank takes and sends nothing: its plane is not active, it stands still after a freeze
(R360), or its cell has saved (R326). -/
def State.stopped (s : State) (x : Site) : Bool :=
  let k := s.slot x.tile x.slot
  k.phase ≠ .active || k.halt = .stopped || (s.bank x).mark = .saved

/-- A unit of a bank that may act now. -/
def Bank.unit? (b : Bank) (id : Nat) : Option UnitRec :=
  b.units.find? fun u => u.id = id && u.wait = 0 && !u.dead

/-- The nest of a unit of a bank. -/
def Bank.nest? (b : Bank) (id : Nat) : Option Nest :=
  (b.unit? id).bind fun u => match u.work with
    | .nest n => some n
    | _ => none

/-- LOOP_STEP: nest u of a bank sends the next token of its steps, at most one in a tile cycle (R272, R273). -/
def execLoopStep (x : Site) (u : Nat) (s : State) : Result :=
  if s.stopped x then .next s
  else match (s.bank x).nest? u with
  | none => .next s
  | some n => .next (s.nestToken x u n)

end Sys2Proof.Machine
end

