-- ==== Sys2Proof/Machine/Floats.lean ====
section
/-! DEFINITION. Groups 0x4_ to 0x6_: scalar and packed floats, conversions, scales, codebooks, SETFMT, SEAL, AMAXACC (R199 to
R218). -/

namespace Sys2Proof.Machine

/-! ### Scalar floats (R203 to R207) -/

/-- The scalar sources of an instruction, in operand order (R200). -/
def Bank.readScalars (b : Bank) (h : Hdr) (t : Fmt) : List Src → REnv → List Nat × REnv
  | [], env => ([], env)
  | s :: r, env =>
    let x := b.readScalar h s t env
    let y := Bank.readScalars b h t r x.2
    (x.1 :: y.1, y.2)

/-- The effect of R204: the exact result of the sources, rounded once. -/
def floatPlan (h : Hdr) (ty : FTy) (dst : Dst) (srcs : List Src) (rm : Rm) (ftz : Bool) (lat : Nat)
    (op : List FVal → FRes) (c : Ctx) (s : State) : Plan :=
  let b := c.bank s
  let x := b.readScalars h (ftyFmt ty) srcs b.env
  let r := roundRes (ftyF ty) rm ftz (op (x.1.map (ftyF ty).decode)) x.2
  { slots := Dst.slots dst, act := fun s => c.env r.2 (c.result dst lat (BitVec.ofNat 64 r.1) s) }

/-- The n-th of some values; a list of the sources always has it. -/
def arg (xs : List FVal) (n : Nat) : FVal := xs.getD n (.zero)

/-- FADD (R204). -/
def execFadd (h : Hdr) (ty : FTy) (dst : Dst) (s1 s2 : Src) (rm : Rm) (ftz : Bool) (s : State) : Result :=
  fire (.fadd h ty dst s1 s2 rm ftz) (floatPlan h ty dst [s1, s2] rm ftz 4 fun x => faddV rm (arg x 0) (arg x 1)) s

/-- FSUB (R204). -/
def execFsub (h : Hdr) (ty : FTy) (dst : Dst) (s1 s2 : Src) (rm : Rm) (ftz : Bool) (s : State) : Result :=
  fire (.fsub h ty dst s1 s2 rm ftz) (floatPlan h ty dst [s1, s2] rm ftz 4 fun x => fsubV rm (arg x 0) (arg x 1)) s

/-- FMUL (R204). -/
def execFmul (h : Hdr) (ty : FTy) (dst : Dst) (s1 s2 : Src) (rm : Rm) (ftz : Bool) (s : State) : Result :=
  fire (.fmul h ty dst s1 s2 rm ftz) (floatPlan h ty dst [s1, s2] rm ftz 4 fun x => fmulV (arg x 0) (arg x 1)) s

/-- FMA (R204: one rounding). -/
def execFma (h : Hdr) (ty : FTy) (dst : Dst) (s1 s2 s3 : Src) (rm : Rm) (ftz : Bool) (s : State) : Result :=
  fire (.fma h ty dst s1 s2 s3 rm ftz) (floatPlan h ty dst [s1, s2, s3] rm ftz 4 fun x => ffmaV rm (arg x 0) (arg x 1) (arg x 2)) s

/-- The lesser of two values, a negative zero before a positive one (R206). -/
def fless (a b : FVal) : Bool := fcmpV a b = some .lt || (a.isZero && b.isZero && a.neg? && !b.neg?)

/-- FMIN and FMAX bit for bit (R206). -/
def minMaxBits (f : FFmt) (greater : Bool) (x y : Nat) : Nat :=
  let a := f.decode x
  let b := f.decode y
  if a.isNan && b.isNan then f.nanBits a.neg?
  else if a.isNan then y
  else if b.isNan then x
  else if greater then (if fless a b then y else x) else (if fless b a then y else x)

/-- An instruction that picks or changes encodings without rounding: its sources under R200, its result bit for bit. -/
def bitsPlan (h : Hdr) (ty : FTy) (dst : Dst) (srcs : List Src) (op : List Nat → Nat) (c : Ctx) (s : State) : Plan :=
  let b := c.bank s
  let x := b.readScalars h (ftyFmt ty) srcs b.env
  { slots := Dst.slots dst, act := fun s => c.env x.2 (c.result dst 1 (BitVec.ofNat 64 (op x.1)) s) }

/-- FMIN (R206). -/
def execFmin (h : Hdr) (ty : FTy) (dst : Dst) (s1 s2 : Src) (s : State) : Result :=
  fire (.fmin h ty dst s1 s2) (bitsPlan h ty dst [s1, s2] fun x => minMaxBits (ftyF ty) false (x.getD 0 0) (x.getD 1 0)) s

/-- FMAX (R206). -/
def execFmax (h : Hdr) (ty : FTy) (dst : Dst) (s1 s2 : Src) (s : State) : Result :=
  fire (.fmax h ty dst s1 s2) (bitsPlan h ty dst [s1, s2] fun x => minMaxBits (ftyF ty) true (x.getD 0 0) (x.getD 1 0)) s

/-- FCMP (R206). -/
def execFcmp (h : Hdr) (ty : FTy) (s1 s2 : Src) (pk : BitVec 3) (cond : FCond) (s : State) : Result :=
  fire (.fcmp h ty s1 s2 pk cond) (fun c s =>
    let b := c.bank s
    let x := b.readScalars h (ftyFmt ty) [s1, s2] b.env
    let v := x.1.map (ftyF ty).decode
    let env := x.2.raiseIf (fcondInvalid cond (arg v 0) (arg v 1)) flagInvalid
    { act := fun s => c.env env (c.pred pk (fcondHolds cond (arg v 0) (arg v 1)) s) }) s

/-- The sign bit of a format. -/
def FFmt.signBit (f : FFmt) : Nat := 2 ^ (f.width - 1)

/-- FABS (R207). -/
def execFabs (h : Hdr) (ty : FTy) (dst : Dst) (s1 : Src) (s : State) : Result :=
  fire (.fabs h ty dst s1) (bitsPlan h ty dst [s1] fun x => x.getD 0 0 % (ftyF ty).signBit) s

/-- FNEG (R207). -/
def execFneg (h : Hdr) (ty : FTy) (dst : Dst) (s1 : Src) (s : State) : Result :=
  fire (.fneg h ty dst s1) (bitsPlan h ty dst [s1] fun x => x.getD 0 0 ^^^ (ftyF ty).signBit) s

/-- FRCP (R204, R205). -/
def execFrcp (h : Hdr) (ty : FTy) (dst : Dst) (s1 : Src) (rm : Rm) (ftz : Bool) (s : State) : Result :=
  fire (.frcp h ty dst s1 rm ftz) (floatPlan h ty dst [s1] rm ftz (funLat ty) fun x => frcpV (arg x 0)) s

/-- FRSQ (R204, R205). -/
def execFrsq (h : Hdr) (ty : FTy) (dst : Dst) (s1 : Src) (rm : Rm) (ftz : Bool) (s : State) : Result :=
  fire (.frsq h ty dst s1 rm ftz) (floatPlan h ty dst [s1] rm ftz (funLat ty) fun x => frsqV (arg x 0)) s

/-- FEXP2 (R204, R205). -/
def execFexp2 (h : Hdr) (ty : FTy) (dst : Dst) (s1 : Src) (rm : Rm) (ftz : Bool) (s : State) : Result :=
  fire (.fexp2 h ty dst s1 rm ftz) (floatPlan h ty dst [s1] rm ftz (funLat ty) fun x => fexp2V (arg x 0)) s

/-- FLOG2 (R204, R205). -/
def execFlog2 (h : Hdr) (ty : FTy) (dst : Dst) (s1 : Src) (rm : Rm) (ftz : Bool) (s : State) : Result :=
  fire (.flog2 h ty dst s1 rm ftz) (floatPlan h ty dst [s1] rm ftz (funLat ty) fun x => flog2V (arg x 0)) s

/-- FSQRT (R204, R205). -/
def execFsqrt (h : Hdr) (ty : FTy) (dst : Dst) (s1 : Src) (rm : Rm) (ftz : Bool) (s : State) : Result :=
  fire (.fsqrt h ty dst s1 rm ftz) (floatPlan h ty dst [s1] rm ftz (funLat ty) fun x => fsqrtV (arg x 0)) s

/-- The exponents beyond which every format overflows or underflows alike. -/
def clampExp (n : Int) : Int := max (-8192) (min 8192 n)

/-- FSCALE: a times 2^n, rounded once (R207). -/
def execFscale (h : Hdr) (ty : FTy) (dst : Dst) (s1 s2 : Src) (rm : Rm) (ftz : Bool) (s : State) : Result :=
  fire (.fscale h ty dst s1 s2 rm ftz) (fun c s =>
    let n := ((c.bank s).raw h 0 s2).toInt
    floatPlan h ty dst [s1] rm ftz 2 (fun x => { val := (arg x 0).scaleBy (clampExp n) }) c s) s

/-- The class of an encoding, as the number of its bit (R207). -/
def fclassBit (f : FFmt) (x : Nat) : Nat :=
  match f.decode x with
  | .nan _ => 8
  | .inf n => if n then 0 else 7
  | .fin n m _ _ =>
    if m = 0 then (if n then 3 else 4)
    else if f.isSubnormal x then (if n then 2 else 5)
    else (if n then 1 else 6)

/-- FCLASS (R207). -/
def execFclass (h : Hdr) (ty : FTy) (dst : Dst) (s1 : Src) (s : State) : Result :=
  fire (.fclass h ty dst s1) (bitsPlan h ty dst [s1] fun x => 2 ^ fclassBit (ftyF ty) (x.getD 0 0)) s

/-! ### Packed vectors (R208 to R211) -/

/-- The packed sources of an instruction, all lanes of each in ascending order (R200): those of S1, then of S2, then of S3, and so
they take their LFSR steps. (DESIGN CHOICE, log entry 99.) -/
def Bank.readLanes (b : Bank) (h : Hdr) (t : Fmt) (n : Nat) : List Src → REnv → List (List Nat) × REnv
  | [], env => ([], env)
  | s :: r, env =>
    let x := b.readElems h s t 0 n env
    let y := Bank.readLanes b h t n r x.2
    (x.1 :: y.1, y.2)

/-- Lanes packed from the lowest (R158, R208). -/
def packLanes (w : Nat) (xs : List Nat) : Word := BitVec.ofNat 64 (xs.foldr (fun x r => x + r * 2 ^ w) 0)

/-- Lane k of each source. -/
def laneOf (xs : List (List Nat)) (k : Nat) : List Nat := xs.map fun l => l.getD k 0

/-- The first operand-format fault among the sources (R200). -/
def Bank.badLanes (b : Bank) (h : Hdr) (w : Nat) (srcs : List Src) : Option Raise :=
  (srcs.filterMap (b.badOperand h w)).head?

/-- An instruction that rounds one result a lane, in ascending lane order (R209). -/
def lanesPlan (h : Hdr) (ty : VTy) (dst : Dst) (srcs : List Src) (rm : Rm) (ftz : Bool) (op : List FVal → FRes)
    (c : Ctx) (s : State) : Plan :=
  let b := c.bank s
  let f := vtyF ty
  let n := 64 / f.width
  let x := b.readLanes h (vtyFmt ty) n srcs b.env
  let r := (List.range n).foldl (fun (acc : List Nat × REnv) k =>
    let y := roundRes f rm ftz (op ((laneOf x.1 k).map f.decode)) acc.2
    (acc.1 ++ [y.1], y.2)) ([], x.2)
  { fault := b.badLanes h f.width srcs, slots := Dst.slots dst
    act := fun s => c.env r.2 (c.result dst 4 (packLanes f.width r.1) s) }

/-- An instruction that picks one result a lane without rounding (R209). -/
def pickPlan (h : Hdr) (ty : VTy) (dst : Dst) (srcs : List Src) (lat : Nat) (op : List Nat → Nat) (flags : List Nat → BitVec 6)
    (c : Ctx) (s : State) : Plan :=
  let b := c.bank s
  let f := vtyF ty
  let n := 64 / f.width
  let x := b.readLanes h (vtyFmt ty) n srcs b.env
  let lanes := (List.range n).map (laneOf x.1)
  let env := lanes.foldl (fun e l => e.raise (flags l)) x.2
  { fault := b.badLanes h f.width srcs, slots := Dst.slots dst
    act := fun s => c.env env (c.result dst lat (packLanes f.width (lanes.map op)) s) }

def noFlags (_ : List Nat) : BitVec 6 := 0

/-- VADD (R209). -/
def execVadd (h : Hdr) (ty : VTy) (dst : Dst) (s1 s2 : Src) (rm : Rm) (ftz : Bool) (s : State) : Result :=
  fire (.vadd h ty dst s1 s2 rm ftz) (lanesPlan h ty dst [s1, s2] rm ftz fun x => faddV rm (arg x 0) (arg x 1)) s

/-- VSUB (R209). -/
def execVsub (h : Hdr) (ty : VTy) (dst : Dst) (s1 s2 : Src) (rm : Rm) (ftz : Bool) (s : State) : Result :=
  fire (.vsub h ty dst s1 s2 rm ftz) (lanesPlan h ty dst [s1, s2] rm ftz fun x => fsubV rm (arg x 0) (arg x 1)) s

/-- VMUL (R209). -/
def execVmul (h : Hdr) (ty : VTy) (dst : Dst) (s1 s2 : Src) (rm : Rm) (ftz : Bool) (s : State) : Result :=
  fire (.vmul h ty dst s1 s2 rm ftz) (lanesPlan h ty dst [s1, s2] rm ftz fun x => fmulV (arg x 0) (arg x 1)) s

/-- VFMA (R209). -/
def execVfma (h : Hdr) (ty : VTy) (dst : Dst) (s1 s2 s3 : Src) (rm : Rm) (ftz : Bool) (s : State) : Result :=
  fire (.vfma h ty dst s1 s2 s3 rm ftz) (lanesPlan h ty dst [s1, s2, s3] rm ftz fun x => ffmaV rm (arg x 0) (arg x 1) (arg x 2)) s

/-- VMIN (R209). -/
def execVmin (h : Hdr) (ty : VTy) (dst : Dst) (s1 s2 : Src) (s : State) : Result :=
  fire (.vmin h ty dst s1 s2)
    (pickPlan h ty dst [s1, s2] 1 (fun x => minMaxBits (vtyF ty) false (x.getD 0 0) (x.getD 1 0)) noFlags) s

/-- VMAX (R209). -/
def execVmax (h : Hdr) (ty : VTy) (dst : Dst) (s1 s2 : Src) (s : State) : Result :=
  fire (.vmax h ty dst s1 s2)
    (pickPlan h ty dst [s1, s2] 1 (fun x => minMaxBits (vtyF ty) true (x.getD 0 0) (x.getD 1 0)) noFlags) s

/-- VCMP: all ones or all zeros a lane, with FCMP's flags (R209). -/
def execVcmp (h : Hdr) (ty : VTy) (dst : Dst) (s1 s2 : Src) (cond : FCond) (s : State) : Result :=
  let v (x : List Nat) (k : Nat) : FVal := (vtyF ty).decode (x.getD k 0)
  fire (.vcmp h ty dst s1 s2 cond)
    (pickPlan h ty dst [s1, s2] 1
      (fun x => if fcondHolds cond (v x 0) (v x 1) then 2 ^ (vtyF ty).width - 1 else 0)
      (fun x => if fcondInvalid cond (v x 0) (v x 1) then flagInvalid else 0)) s

/-- VSEL (R209). -/
def execVsel (h : Hdr) (ty : VTy) (dst : Dst) (s1 s2 s3 : Src) (s : State) : Result :=
  fire (.vsel h ty dst s1 s2 s3)
    (pickPlan h ty dst [s1, s2, s3] 1
      (fun x => if (x.getD 2 0).testBit ((vtyF ty).width - 1) then x.getD 0 0 else x.getD 1 0) noFlags) s

/-- Two FP32 values added and rounded. -/
def addF32 (rm : Rm) (ftz : Bool) (a b : FVal) (env : REnv) : Nat × REnv := roundRes Machine.fp32 rm ftz (faddV rm a b) env

/-- VSUM's tree (R210); ftz applies to the final result only. -/
def vsumTree (rm : Rm) (ftz : Bool) (xs : List FVal) (env : REnv) : Nat × REnv :=
  if xs.length = 4 then
    let lo := addF32 rm false (arg xs 0) (arg xs 1) env
    let hi := addF32 rm false (arg xs 2) (arg xs 3) lo.2
    addF32 rm ftz (Machine.fp32.decode lo.1) (Machine.fp32.decode hi.1) hi.2
  else addF32 rm ftz (arg xs 0) (arg xs 1) env

/-- VSUM (R210). -/
def execVsum (h : Hdr) (ty : VTy) (dst : Dst) (s1 : Src) (rm : Rm) (ftz : Bool) (s : State) : Result :=
  fire (.vsum h ty dst s1 rm ftz) (fun c s =>
    let b := c.bank s
    let f := vtyF ty
    let x := b.readElems h s1 (vtyFmt ty) 0 (64 / f.width) b.env
    let r := vsumTree rm ftz (x.1.map f.decode) x.2
    { fault := b.badLanes h f.width [s1], slots := Dst.slots dst
      act := fun s => c.env r.2 (c.result dst 4 (BitVec.ofNat 64 r.1) s) }) s

/-- VAMAX on one lane: the greater magnitude, FMAX's NaN rule, a positive NaN (R209). -/
def amaxBits (f : FFmt) (x y : Nat) : Nat :=
  let a := x % f.signBit
  let b := y % f.signBit
  if (f.decode a).isNan && (f.decode b).isNan then f.nanBits false else minMaxBits f true a b

/-- VAMAX (R209). -/
def execVamax (h : Hdr) (ty : VTy) (dst : Dst) (s1 s2 : Src) (s : State) : Result :=
  fire (.vamax h ty dst s1 s2)
    (pickPlan h ty dst [s1, s2] 2 (fun x => amaxBits (vtyF ty) (x.getD 0 0) (x.getD 1 0)) noFlags) s

/-- VSHUF (R211): selector k at bits 3k+2 to 3k of the selectors names a lane of S1 and then of S2; z zeroes lanes. -/
def execVshuf (h : Hdr) (ty : VTy) (dst : Dst) (s1 s2 : Src) (z : BitVec 4) (sel : BitVec 12) (s : State) : Result :=
  fire (.vshuf h ty dst s1 s2 z sel) (fun c s =>
    let b := c.bank s
    let f := vtyF ty
    let n := 64 / f.width
    let x := b.readLanes h (vtyFmt ty) n [s1, s2] b.env
    let both := x.1.flatMap id
    let lanes := (List.range n).map fun k => if z.getLsbD k then 0 else both.getD (bits sel.toNat (3 * k) 3) 0
    { fault := b.badLanes h f.width [s1, s2], slots := Dst.slots dst
      act := fun s => c.env x.2 (c.result dst 1 (packLanes f.width lanes) s) }) s

/-- The products of VDOT3, one a lane, exact (R210). -/
def tripleProducts (f : FFmt) (xs : List (List Nat)) (n : Nat) : List FRes :=
  (List.range n).map fun k => fprodV ((laneOf xs k).map f.decode)

/-- The exact sum of products, with the flags of each (R161, R165); of several NaN lanes the first gives the sign, and a lane of
0 x infinity sets invalid beside them. (DEDUCED, log entry 19.) -/
def sumProducts (rm : Rm) (ps : List FRes) : FRes :=
  let t := fsumV rm (ps.map (·.val))
  { t with invalid := t.invalid || ps.any (·.invalid) }

/-- VDOT3's value (R210): exact and rounded once for 16-bit lanes; for FP32 each product rounded, then added.
(DEDUCED, log entry 19.) -/
def vdot3Val (ty : VTy) (rm : Rm) (ftz : Bool) (ps : List FRes) (env : REnv) : Nat × REnv :=
  match ty, ps with
  | .f32, [p, q] =>
    let a := roundRes Machine.fp32 rm false p env
    let b := roundRes Machine.fp32 rm false q a.2
    addF32 rm ftz (Machine.fp32.decode a.1) (Machine.fp32.decode b.1) b.2
  | _, ps => roundRes Machine.fp32 rm ftz (sumProducts rm ps) env

/-- VDOT3 (R210). -/
def execVdot3 (h : Hdr) (ty : VTy) (dst : Dst) (s1 s2 s3 : Src) (rm : Rm) (ftz : Bool) (s : State) : Result :=
  fire (.vdot3 h ty dst s1 s2 s3 rm ftz) (fun c s =>
    let b := c.bank s
    let f := vtyF ty
    let n := 64 / f.width
    let x := b.readLanes h (vtyFmt ty) n [s1, s2, s3] b.env
    let r := vdot3Val ty rm ftz (tripleProducts f x.1 n) x.2
    { fault := b.badLanes h f.width [s1, s2, s3], slots := Dst.slots dst
      act := fun s => c.env r.2 (c.result dst 4 (BitVec.ofNat 64 r.1) s) }) s

/-! ### Conversions (R212 to R214) -/

/-- One value converted from a format to another (R170, R173): the same floating-point format keeps its bits, but for the
flush. (DEDUCED, log entry 20.) -/
def convert (src tgt : Fmt) (rm : Rm) (ftz : Bool) (x : Nat) (env : REnv) : Nat × REnv :=
  match if src = tgt then fpOf? src else none with
  | some f => cvtFF f f rm ftz x env
  | none => roundTo tgt rm ftz (decodeAs src x) env

/-- The limit that a fit code or a target names (R214, R218). -/
def fitLimit (code : Nat) : Nat := if code = 4 then 448 else if code = 5 then 57344 else 127

/-- CVT (R213, R214). -/
def execCvt (h : Hdr) (tgt : Fmt) (dst : Dst) (s1 : Src) (rm : Rm) (ftz : Bool) (src : Fmt) (fit : BitVec 4) (s : State) : Result :=
  fire (.cvt h tgt dst s1 rm ftz src fit) (fun c s =>
    let b := c.bank s
    let x := b.readScalar h s1 src b.env
    let r := if fit = 0 then convert src tgt rm ftz x.1 x.2 else cvtFit (fitLimit fit.toNat) (decodeAs src x.1) x.2
    { slots := Dst.slots dst, act := fun s => c.env r.2 (c.result dst 2 (BitVec.ofNat 64 r.1) s) }) s

/-- Elements converted one after another (R168, R213). -/
def convertAll (f : Nat → REnv → Nat × REnv) : List Nat → REnv → List Nat × REnv
  | [], env => ([], env)
  | x :: r, env =>
    let y := f x env
    let z := convertAll f r y.2
    (y.1 :: z.1, z.2)

/-- VCVT (R213). -/
def execVcvt (h : Hdr) (tgt : Fmt) (dst : Dst) (s1 : Src) (rm : Rm) (ftz : Bool) (src : Fmt) (part : BitVec 4) (s : State) : Result :=
  fire (.vcvt h tgt dst s1 rm ftz src part) (fun c s =>
    let b := c.bank s
    let n := 64 / max (fmtBits src) (fmtBits tgt)
    let x := b.readElems h s1 src (n * part.toNat) n b.env
    let r := convertAll (convert src tgt rm ftz) x.1 x.2
    { fault := b.badLanes h (fmtBits src) [s1], slots := Dst.slots dst
      act := fun s => c.env r.2 (c.result dst 2 (packLanes (fmtBits tgt) r.1) s) }) s

/-- An integer source of a conversion (R213): its low bits, signed unless told otherwise, whatever the channel's format. -/
def Bank.intSource (b : Bank) (h : Hdr) (s : Src) (src : Fmt) (uns : Bool) : Int :=
  let x := b.low h 0 (fmtBits src) s
  if uns then (x : Int) else toSigned (fmtBits src) x

/-- The width and signedness of a target of CVTI (R212). -/
def itgtBits : ITgt → Nat
  | .i32 | .n32 => 32 | .i64 | .n64 => 64 | .i8 => 8

def itgtSigned : ITgt → Bool
  | .n32 | .n64 => false
  | _ => true

/-- CVTI (R213). -/
def execCvti (h : Hdr) (tgt : ITgt) (dst : Dst) (s1 : Src) (rm : Rm) (src : Fmt) (uns : Bool) (s : State) : Result :=
  fire (.cvti h tgt dst s1 rm src uns) (fun c s =>
    let b := c.bank s
    let r := match fpOf? src with
      | some f =>
        let x := b.readScalar h s1 src b.env
        cvtFI (itgtSigned tgt) (itgtBits tgt) rm (f.decode x.1) x.2
      | none => cvtII (itgtSigned tgt) (itgtBits tgt) (b.intSource h s1 src uns) b.env
    { slots := Dst.slots dst, act := fun s => c.env r.2 (c.result dst 2 (BitVec.ofNat 64 r.1) s) }) s

/-- CVTF (R172, R213). -/
def execCvtf (h : Hdr) (tgt : Fmt) (dst : Dst) (s1 : Src) (rm : Rm) (ftz : Bool) (src : Fmt) (uns : Bool) (s : State) : Result :=
  fire (.cvtf h tgt dst s1 rm ftz src uns) (fun c s =>
    let b := c.bank s
    let r := roundTo tgt rm ftz (.ofInt (b.intSource h s1 src uns)) b.env
    { slots := Dst.slots dst, act := fun s => c.env r.2 (c.result dst 2 (BitVec.ofNat 64 r.1) s) }) s

/-! ### Scales and codebooks (R215 to R218) -/

/-- Byte j of a word. -/
def byteOf (v : Word) (j : Nat) : Nat := bits v.toNat (8 * j) 8

/-- A word with n bytes from byte `at_` replaced. -/
def replaceBytes (base : Word) (at_ : Nat) (ys : List Nat) : Word :=
  let n := 8 * ys.length
  let mask : Word := BitVec.ofNat 64 ((2 ^ n - 1) * 2 ^ (8 * at_))
  (base &&& ~~~mask) ||| (packLanes 8 ys <<< (8 * at_))

/-- SCALEQ (R215). -/
def execScaleq (h : Hdr) (tgt : Fmt) (dst : Dst) (s1 s2 s3 : Src) (rm : Rm) (ftz : Bool) (src : Fmt) (byte : BitVec 3)
    (part : BitVec 2) (s : State) : Result :=
  fire (.scaleq h tgt dst s1 s2 s3 rm ftz src byte part) (fun c s =>
    let b := c.bank s
    let n := 64 / fmtBits src
    let x := b.readElems h s1 src 0 n b.env
    let e := byteOf (b.raw h 0 s2) byte.toNat
    let r := convertAll (fun v env => roundTo tgt rm ftz (unscaleE8m0 (decodeAs src v) e) env) x.1 x.2
    { fault := b.badLanes h (fmtBits src) [s1], slots := Dst.slots dst
      act := fun s => c.env r.2 (c.result dst 2 (replaceBytes (b.raw h 0 s3) (n * part.toNat) r.1) s) }) s

/-- SCALEDQ (R215). -/
def execScaledq (h : Hdr) (tgt : Fmt) (dst : Dst) (s1 s2 : Src) (rm : Rm) (ftz : Bool) (src : Fmt) (byte : BitVec 3)
    (part : BitVec 2) (s : State) : Result :=
  fire (.scaledq h tgt dst s1 s2 rm ftz src byte part) (fun c s =>
    let b := c.bank s
    let n := 64 / fmtBits tgt
    let x := b.readElems h s1 src (n * part.toNat) n b.env
    let e := byteOf (b.raw h 0 s2) byte.toNat
    let r := convertAll (fun v env => roundTo tgt rm ftz (scaleE8m0 (decodeAs src v) e) env) x.1 x.2
    { fault := b.badLanes h (fmtBits src) [s1], slots := Dst.slots dst
      act := fun s => c.env r.2 (c.result dst 2 (packLanes (fmtBits tgt) r.1) s) }) s

/-- A codebook with a quarter replaced (R216). -/
def loadQuarter (k : List (BitVec 16)) (quarter : Nat) (v : Word) : List (BitVec 16) :=
  (List.range 4).foldl (fun k i => setAt 0 k (4 * quarter + i) (v.extractLsb' (16 * i) 16)) k

/-- CBLD (R216). -/
def execCbld (h : Hdr) (s1 : Src) (kc quarter : BitVec 2) (s : State) : Result :=
  fire (.cbld h s1 kc quarter) (fun c s =>
    let v := (c.bank s).raw h 0 s1
    { act := fun s => s.modBank c.x fun b =>
        { b with kb := setAt [] b.kb kc.toNat (loadQuarter (b.kb.getD kc.toNat []) quarter.toNat v) } }) s

/-- CBLOOK (R216). -/
def execCblook (h : Hdr) (dst : Dst) (s1 : Src) (kc part : BitVec 2) (s : State) : Result :=
  fire (.cblook h dst s1 kc part) (fun c s =>
    let b := c.bank s
    let v := (b.raw h 0 s1).toNat
    let lanes := (List.range 4).map fun i => b.codebook kc.toNat (bits v (4 * (4 * part.toNat + i)) 4)
    c.scalar dst 1 (packLanes 16 lanes)) s

/-- SETFMT (R217). -/
def execSetfmt (h : Hdr) (s1 : Src) (ch : BitVec 5) (s : State) : Result :=
  fire (.setfmt h s1 ch) (fun c s =>
    let v := (c.bank s).raw h 0 s1
    let e : BitVec 16 := v.setWidth 16
    { fault := if fmtValid e then none else some { cls := 0x49, a := ch.setWidth 64, b := v }
      act := fun s => s.modBank c.x fun b => b.modChan ch.toNat fun k => { k with fmt := e } }) s

/-- The value of SEAL and of seal(l, b) in R153: |a| / T to FP32 under .ru, with no flag (R218). -/
def sealBits (limit a : Nat) : Nat :=
  let v := ((Machine.fp32.decode a).abs)
  (fpRound Machine.fp32 .ru false (fdivV v (.fin false limit 0 false)).val {}).1

/-- SEAL (R218). -/
def execSeal (h : Hdr) (dst : Dst) (s1 : Src) (tgt : Fmt) (s : State) : Result :=
  fire (.seal h dst s1 tgt) (fun c s =>
    let b := c.bank s
    let x := b.readScalar h s1 .fp32 b.env
    { slots := Dst.slots dst
      act := fun s => c.env x.2 (c.result dst 2 (BitVec.ofNat 64 (sealBits (fitLimit tgt.code.toNat) x.1)) s) }) s

/-- The greatest magnitude of some FP32 values, as an encoding; a NaN gives the positive default NaN (R218). -/
def amaxOf (xs : List FVal) : Nat :=
  if xs.any FVal.isNan then Machine.fp32.nanBits false
  else
    let best := xs.foldl (fun m x => if fless m x.abs then x.abs else m) (.zero)
    (fpRound Machine.fp32 .rne false best {}).1

/-- AMAXACC (R218). -/
def execAmaxacc (h : Hdr) (ty : Fmt) (dst : Dst) (s1 s2 : Src) (s : State) : Result :=
  fire (.amaxacc h ty dst s1 s2) (fun c s =>
    let b := c.bank s
    let x := b.readScalar h s1 .fp32 b.env
    let y := b.readElems h s2 ty 0 (64 / fmtBits ty) x.2
    let r := amaxOf (Machine.fp32.decode x.1 :: y.1.map (decodeAs ty))
    { fault := b.badLanes h (fmtBits ty) [s2], slots := Dst.slots dst
      act := fun s => c.env y.2 (c.result dst 2 (BitVec.ofNat 64 r) s) }) s

end Sys2Proof.Machine
end

