-- ==== Sys2Proof/Machine/Round.lean ====
section
/-! DEFINITION. The tile sequencer and the round (R29, R33, R37, R39, R256, R259, R261, R267, R268, R298, R323, R348, R360):
opening a round, which chooses the rules that fire, and closing it. -/

namespace Sys2Proof.Machine

/-! ### Guards (R28, R29) -/

/-- The instruction at a rule index; none for the empty-slot word (R28). -/
def Bank.instr (b : Bank) (k : Nat) : Option Instr :=
  let w := b.rules.getD k 0
  if w = 0 then none else decode w

/-- chan_test of R29: a marker head passes only a test of its own class. -/
def Bank.chanTest (b : Bank) : Option ChanTest → Bool
  | none => true
  | some t =>
    match (b.chan t.ch.toNat).toks with
    | [] => false
    | hd :: _ => match t.cls with
      | some c => hd.cls = c
      | none => hd.cls ≠ clsMarker

/-- Whether a scoreboard slot is set. -/
def Bank.sbSet (b : Bank) : Option (BitVec 3) → Bool
  | none => false
  | some k => (b.sb.getD k.toNat none).isSome

/-- guard_holds of R29. -/
def Bank.guard (b : Bank) (h : Hdr) : Bool :=
  (b.p &&& h.pcare) = h.pval && b.chanTest h.cta && b.chanTest h.ctb && !(b.sbSet h.sbw)

/-- The stall blocks that stop a rule: those on what its footprint reads or writes; a writer of the history alone is not
stopped (R37). -/
def Bank.blocks (b : Bank) (k : Nat) (i : Instr) : List StallBlock :=
  let named := Instr.readSet b k i ++ (Instr.writes i).filter (· ≠ Res.hist)
  b.stalls.filter fun s => named.contains s.res

/-- The guard, the SBSET slot and the word of a rule, before STALL. -/
def Bank.awake (b : Bank) (k : Nat) : Option Instr :=
  match b.instr k with
  | some i => if b.guard (Instr.hdr i) && !(b.sbSet (Instr.hdr i).sbset) then some i else none
  | none => none

/-- ready of R33. -/
def Bank.ready (b : Bank) (k : Nat) : Bool :=
  match b.awake k with
  | some i => (b.blocks k i).isEmpty
  | none => false

/-- The stall-long waits of a round: readers of a blocked resource that STALL alone keeps from being ready, with no other hold,
such as that of an operand still pending (R37). -/
def State.longWaitsNow (s : State) (x : Site) : Nat :=
  let b := s.bank x
  ((List.range 16).filter fun k => match b.awake k with
    | some i =>
      let bs := b.blocks k i
      bs.any (fun r => (Instr.readSet b k i).contains r.res) && !(s.held x k i)
    | none => false).length

/-! ### Selection (R32, R256) -/

/-- Whether rule i stands before rule j in serial order (R32). -/
def serialBefore (prio : Nat → Nat) (i j : Nat) : Bool := prio j < prio i || (prio i = prio j && i < j)

/-- Insert into a list kept in serial order. -/
def insertSerial (prio : Nat → Nat) (i : Nat) : List Nat → List Nat
  | [] => [i]
  | j :: r => if serialBefore prio i j then i :: j :: r else j :: insertSerial prio i r

/-- Rules in serial order. -/
def serialOrder (prio : Nat → Nat) (is : List Nat) : List Nat := is.foldr (insertSerial prio) []

/-- The PRIO of a rule word. -/
def Bank.prio (b : Bank) (k : Nat) : Nat := ((b.rules.getD k 0).extractLsb' 66 4).toNat

/-- The unit class of a rule. -/
def Bank.classOf (b : Bank) (k : Nat) : UnitClass := unitClass (opcOf (b.rules.getD k 0))

/-- Whether a candidate may join the chosen: no common class, no conflict (R9, R31). -/
def Bank.compatible (b : Bank) (chosen : List Nat) (k : Nat) : Bool :=
  chosen.all fun c => b.classOf c ≠ b.classOf k && !((b.conf.getD k 0).getLsbD c) && !((b.conf.getD c 0).getLsbD k)

/-- select_set of R256, in serial order. -/
def Bank.selectSet (b : Bank) : List Nat :=
  let ready := (List.range 16).filter b.ready
  let order := serialOrder b.prio ready
  let cand := if ready.contains b.fair then b.fair :: order.filter (· ≠ b.fair) else order
  serialOrder b.prio (cand.foldl (fun ch k => if b.compatible ch k then ch ++ [k] else ch) [])

/-! ### Ports (R39) -/

/-- The codes of g and m sources that take a read port, and the number of kept positions that miss.
(DEDUCED, log entry 10.) -/
def Bank.portReads (b : Bank) (k : Nat) (i : Instr) : List (BitVec 6) × Nat :=
  let v := Instr.view i
  let latch := b.reuse.getD (b.classOf k).idx []
  let pos (n : Nat) (s : Option Src) : Option (BitVec 6 × Bool) :=
    let code : Option (BitVec 6) := match s with
      | some (.g r) => some (Src.code (.g r))
      | some (.m r) => some (Src.code (.m r))
      | _ => none
    code.bind fun c => match latch.getD n none with
      | some l => if l = c then none else some (c, true)
      | none => some (c, false)
  let ps := [pos 0 v.s1, pos 1 v.s2, pos 2 v.s3].filterMap id
  ((ps.map (·.1)).eraseDups, (ps.filter (·.2)).length)

/-- The write ports of a rule: LDFE and RANGE take write a pair. (DEDUCED, log entry 10.) -/
def portWrites (i : Instr) : Nat :=
  match i with
  | .ldfe _ (.g _) _ _ => 2
  | .rangeTake .. => 2
  | _ => match (Instr.view i).dst with
    | some (.g _) | some (.m _) => 1
    | _ => 0

/-- The state of the port budget while the chosen rules are taken in serial order. -/
structure Ports where
  reads  : Nat := 0
  writes : Nat := 0
  excess : Bool := false
  missed : Nat := 0
  out    : List (Nat × Bool) := []
deriving DecidableEq, Repr

/-- One chosen rule and the ports: it lacks one when the reads would pass six or the writes four. A rule that is held for
another reason takes none. (DEDUCED, log entry 10.) -/
def State.portStep (s : State) (x : Site) (p : Ports) (k : Nat) : Ports :=
  let b := s.bank x
  match b.instr k with
  | none => p
  | some i =>
    if s.held x k i then { p with out := p.out ++ [(k, false)] }
    else
      let (codes, miss) := b.portReads k i
      let r := p.reads + codes.length
      let w := p.writes + portWrites i
      let short := 6 < r || 4 < w
      { reads := if short then p.reads else r, writes := if short then p.writes else w
        excess := p.excess || 6 < r, missed := p.missed + miss, out := p.out ++ [(k, short)] }

/-- The chosen rules with the ports that they lack. (DEDUCED, log entry 10.) -/
def State.portsOf (s : State) (x : Site) (chosen : List Nat) : Ports := chosen.foldl (s.portStep x) {}

/-! ### Weights and the frame table (R267, R268) -/

/-- The least index with the greatest credit. -/
def bestSlot (c : List Int) : Nat :=
  (List.range c.length).foldl (fun best k => if c.getD best 0 < c.getD k 0 then k else best) 0

/-- The build of R268 over the weights of the four slots and the free slot. -/
def buildEntries (w : List Int) : Nat → List Int → List Nat
  | 0, _ => []
  | n + 1, c =>
    let c := (c.zip w).map fun (a, b) => a + b
    let s := bestSlot c
    s :: buildEntries w n (c.set s (c.getD s 0 - 64))

/-- The weight of a slot in the build: a plane that is not active has none. -/
def Slot.share (k : Slot) : Nat := if k.phase = .active then k.weight else 0

/-- The sequencer builds the table of a tile anew; it takes effect at entry 0 (R268). -/
def Tile.rebuild (t : Tile) : Tile :=
  let w : List Int := t.slots.map fun k => (k.share : Int)
  let free : Int := 64 - w.foldl (· + ·) 0
  { t with table := buildEntries (w ++ [free]) 64 [0, 0, 0, 0, 0], pos := 0 }

def State.rebuild (s : State) (t : Nat) : State := s.modTile t Tile.rebuild

/-- Whether a plane slot can be given rounds at all: active, its region started, and not stopped. -/
def Slot.runs (k : Slot) : Bool := k.phase = .active && !k.waits && k.halt ≠ .stopped

/-- Whether a plane gives its rounds up (R298): its count of cycles has not come down to one. -/
def Slot.yields (k : Slot) : Bool := 1 < k.yield

/-- A yield one tile cycle nearer to its end. -/
def ageYield (n : Nat) : Nat := if 1 < n then n - 1 else n

/-- Whether a plane may take a round handed on: R267 excludes a plane whose weight is reduced, R298 one that yields. -/
def Slot.eligible (k : Slot) : Bool := k.runs && k.base ≤ k.weight && !k.yields

/-- The next eligible slot after `last`, in ascending order with wrap. -/
def Tile.nextEligible (t : Tile) : Option Nat :=
  ((List.range 4).map fun n => (t.last + 1 + n) % 4).find? fun k => (t.slots.getD k {}).eligible

/-- What an entry of the frame table gives: the slot, whether the round was handed on, and whether the entry was free. -/
def Tile.grant (t : Tile) : Option (Nat × Bool × Bool) :=
  let e := t.table.getD t.pos 4
  let sl := t.slots.getD e {}
  if e = 4 then t.nextEligible.map fun k => (k, true, true)
  else if sl.runs && !sl.yields then some (e, false, false)
  else match t.nextEligible with
  | some k => some (k, true, false)
  | none => if sl.runs then some (e, false, false) else none

/-! ### Opening a round -/

/-- Whether a cell of a region holds an instruction word. -/
def Bank.programmed (b : Bank) : Bool := b.rules.any (· ≠ 0)

/-- A cell whose plane holds a SNAP word (R324). -/
def Bank.isSnap (b : Bank) : Bool := (List.range 16).any fun k => match b.instr k with
  | some (.snap _) => true
  | _ => false

/-- The cells that a cell's outputs feed, as relative tile and cell. -/
def Bank.feeds (b : Bank) : List (Nat × Nat) := b.outs.filterMap fun o => o.bind.map fun d => (d.tile, d.cell)

/-- The cells of a launch by relative tile and cell. -/
def State.cellsOf (s : State) (j : Nat) : List (Nat × Nat × Site) :=
  (s.banksOf j).map fun x => (s.rtileOf x, x.cell, x)

/-- The cells from which a set is reached along bindings, after n widenings. -/
def State.reachBack (s : State) (cells : List (Nat × Nat × Site)) : Nat → List (Nat × Nat) → List (Nat × Nat)
  | 0, r => r
  | n + 1, r =>
    let more := cells.filterMap fun (t, c, x) =>
      if !(r.contains (t, c)) && (s.bank x).feeds.any r.contains then some (t, c) else none
    if more.isEmpty then r else State.reachBack s cells n (r ++ more)

/-- The cells that feed a cell, directly or not. -/
def State.feeders (s : State) (cells : List (Nat × Nat × Site)) (a : Nat × Nat) : List (Nat × Nat) :=
  s.reachBack cells cells.length (cells.filterMap fun (t, c, x) => if (s.bank x).feeds.contains a then some (t, c) else none)

/-- The source set of a launch (R322). -/
def State.isSource (s : State) (x : Site) : Bool :=
  let cells := s.cellsOf (s.launchNum x)
  let me := (s.rtileOf x, x.cell)
  let fs := s.feeders cells me
  (s.bank x).programmed &&
    (fs.isEmpty || (fs.contains me && fs.all (fun f => (s.feeders cells f).contains me &&
      (me.1 < f.1 || (me.1 = f.1 && me.2 ≤ f.2)))))

/-- Whether the traverse has come to a cell: a marker has entered one of its channels, or it is a source and the traverse
has reached its tile (R323, R324). -/
def State.marksNow (s : State) (x : Site) : Bool :=
  !(s.bank x).markIn.isEmpty || ((s.slot x.tile x.slot).traversed && s.isSource x)

/-- A cell that is not a snap cell is marked at the start of its first round (R323). -/
def State.markCell (s : State) (x : Site) : State :=
  let b := s.bank x
  if b.mark = .clear && !b.isSnap && s.marksNow x then s.setBank x { b with mark := .marked false } else s

/-- Whether no rule of a cell may be ready: it is retired (R54), marked or saved (R323), a SNAP waits for its save point
(R324), or it has raised a fault in a round before (R349, R359). (DEDUCED, log entry 60.) -/
def Bank.quiet (b : Bank) : Bool := b.retired || b.mark ≠ .clear || b.snapDue || b.halted

/-- The upsets that name a rule of a cell. -/
def upsetOf (ups : List Upset) (cell k : Nat) : Option Upset := ups.find? fun u => u.cell = cell && u.rule = k

/-- The rounds that the retries of the chosen rules take (R347, R348): a held rule is not fired. -/
def State.retries (s : State) (x : Site) (ups : List Upset) (chosen : List (Nat × Bool)) : Nat :=
  (chosen.map fun (k, short) =>
    match (s.bank x).instr k with
    | some i => if short || s.held x k i then 0
        else Nat.min 2 ((upsetOf ups x.cell k).map (·.disagree) |>.getD 0)
    | none => 0).foldl (· + ·) 0

/-- The chosen rules of a cell become firings of the open round; `again` says that they were chosen in an earlier one. -/
def State.chooseFirings (s : State) (x : Site) (again : Bool) (chosen : List (Nat × Bool)) (ups : List Upset) : State :=
  { s with round := { s.round with
      firing := s.round.firing ++ chosen.map fun (k, short) => { site := x, rule := k, short := short, again := again }
      ups := s.round.ups ++ ups.filter (·.cell = x.cell) } }

/-- The counters of a round's waits and misses (R37, R39). -/
def State.countWaits (s : State) (x : Site) (long miss : Nat) : State :=
  let s := s.modBank x fun b =>
    { b with due := { b.due with longWaits := b.due.longWaits + long, reuseMiss := b.due.reuseMiss + miss } }
  let s := long.fold (fun _ _ s => s.count x.tile x.slot 7) s
  miss.fold (fun _ _ s => s.count x.tile x.slot 8) s

/-- Whether a chosen rule is withdrawn in its own round: it is held, or lacks a port (R36, R39). -/
def State.withdrawn (s : State) (x : Site) (c : Nat × Bool) : Bool :=
  c.2 || match (s.bank x).instr c.1 with
    | some i => s.held x c.1 i
    | none => false

/-- A cell's part of opening a round: results due are written, the cell is counted its round and marked where a traverse
has come, and its rules are chosen. When some of them retry, those that are held are withdrawn now, and the others commit at
the end of the rounds that the retries add (R348). -/
def State.openCell (ups : List Upset) (s : State) (x : Site) : State :=
  let s := (s.writeDue x).modBank x fun b => { b with rounds := b.rounds + 1 }
  let s := s.markCell x
  let b := s.bank x
  let s := s.setBank x { b with fair := (b.fair + 1) % 17 }
  if 0 < b.busy then
    let s := s.modBank x fun b => { b with busy := b.busy - 1 }
    if b.busy = 1 then
      (s.chooseFirings x true b.retry b.retryUps).modBank x fun b => { b with retry := [], retryUps := [] }
    else s
  else if b.quiet then s
  else
    let p := s.portsOf x b.selectSet
    let s := s.countWaits x (s.longWaitsNow x) (if p.excess then p.missed else 0)
    let n := s.retries x ups p.out
    if 0 < n then
      let s := s.modBank x fun b =>
        { b with busy := n, retry := p.out.filter fun c => !(s.withdrawn x c), retryUps := ups.filter (·.cell = x.cell) }
      s.chooseFirings x false (p.out.filter (s.withdrawn x)) []
    else s.chooseFirings x false p.out ups

/-- The banks of a plane slot, in ascending cell number. -/
def insertCell (x : Site) : List Site → List Site
  | [] => [x]
  | y :: r => if x.cell ≤ y.cell then x :: y :: r else y :: insertCell x r

def State.banksAt (s : State) (t k : Nat) : List Site :=
  ((s.banks.map (·.1)).filter fun x => x.tile = t && x.slot = k).foldr insertCell []

/-- Open the round of a plane slot: every cell of the tile runs the plane that the entry gives (R268).
(DESIGN CHOICE, log entry 3; DEDUCED, log entry 81.) -/
def State.openPlane (s : State) (t k : Nat) (free : Bool) (ups : List Upset) : State :=
  let s := s.modSlot t k fun sl => { sl with decoupled := [] }
  let s := s.count t k 0
  let s := if free then s.count t k 10 else s
  let s := { s with round := { live := some (t, k), firing := [], ups := [] } }
  (s.banksAt t k).foldl (State.openCell ups) s

/-! ### Closing a round -/

/-- Whether a plane slot holds a token in some channel of a tile (R261). -/
def State.holdsTokens (s : State) (t k : Nat) : Bool :=
  s.banks.any fun (x, b) => x.tile = t && x.slot = k && b.chans.any fun c => !c.toks.isEmpty

/-- The tokens queued for a plane on a tile (R362). -/
def State.queued (s : State) (t k : Nat) : Nat :=
  (s.banks.map fun (x, b) => if x.tile = t && x.slot = k then (b.chans.map (·.toks.length)).foldl (· + ·) 0 else 0).foldl (· + ·) 0

/-- Whether a request is one of those that keep the watchdog at zero: an L-path request, an engine command, a collective or a
stash request (R261), a MARK (R342), or a save declaration (R384). -/
def ReqOp.feedsWatchdog : ReqOp → Bool
  | .join .. | .launch .. | .resume .. => false
  | _ => true

/-- Requests that keep the watchdog at zero: those of a kind that does, outstanding for the plane on the tile (R261). -/
def State.awaits (s : State) (t k : Nat) : Bool :=
  s.reqs.any fun r => r.site.tile = t && r.site.slot = k && r.op.feedsWatchdog && !(r.performed && (r.cout.isSome || r.spent))

/-- The watchdog of a slot in one tile cycle (R261): suspended, reset or increased; WDPEAK follows it. At its limit the stall
fault comes next. -/
def State.watch (s : State) (t k : Nat) : State :=
  let sl := s.slot t k
  let taken := ((s.launch? sl.launch).map (·.trav.isSome)).getD false
  if sl.phase ≠ .active || sl.waits || sl.halt = .stopped || taken then s.modSlot t k fun sl => { sl with progress := false }
  else if sl.progress || !(s.holdsTokens t k) || s.awaits t k then
    s.modSlot t k fun sl => { sl with wd := 0, progress := false }
  else
    let n := sl.wd + 1
    let s := s.modSlot t k fun sl =>
      { sl with wd := n, progress := false
                counters := setAt 0 sl.counters 11 (BitVec.ofNat 64 (max n (sl.counters.getD 11 0).toNat)) }
    if 2 ^ 22 ≤ n then { s with agenda := s.agenda ++ [.watchdogStall t k] } else s

/-- A result one round nearer to its end (R36). -/
def Pend.age (p : Pend) : Pend := { p with left := p.left.map (· - 1) }

/-- A stall block one round nearer to its end (R37). -/
def ageStalls (bs : List StallBlock) : List StallBlock :=
  bs.filterMap fun b => if 1 < b.left then some { b with left := b.left - 1 } else none

/-- A unit one round older; a loop nest counts tile cycles instead (R273). -/
def UnitRec.age (u : UnitRec) : UnitRec :=
  match u.work with
  | .nest _ => u
  | .run r => { u with wait := u.wait - 1, work := .run { r with age := r.age + 1 } }
  | _ => { u with wait := u.wait - 1 }

/-- A loop nest one tile cycle older: it may send its next token (R273). -/
def UnitRec.ageNest (u : UnitRec) : UnitRec :=
  match u.work with
  | .nest _ => { u with wait := u.wait - 1 }
  | _ => u

/-- The counters of a cell after a round (R48). -/
def Bank.settle (b : Bank) : Bank :=
  { b with
    aborts := b.aborts + BitVec.ofNat 64 b.due.aborts
    shortHolds := b.shortHolds + BitVec.ofNat 64 b.due.shortHolds
    longWaits := b.longWaits + BitVec.ofNat 64 b.due.longWaits
    reuseMiss := b.reuseMiss + BitVec.ofNat 64 b.due.reuseMiss
    due := {} }

/-- A bank at the end of a round of its plane. -/
def Bank.age (b : Bank) (marks : Bool) : Bank :=
  { b with
    pend := b.pend.map Pend.age
    stalls := ageStalls b.stalls
    units := b.units.map UnitRec.age
    scrubAge := b.scrubAge + 1
    snapAge := if marks && b.isSnap && b.mark = .clear then b.snapAge + 1 else b.snapAge }

/-- The output on which a unit has its next token ready. -/
def UnitWork.readyOut : UnitWork → Option Nat
  | .run r => if r.sent < r.age && !r.toks.isEmpty then some r.out else none
  | .cturn t => if t.outq.isEmpty then none else some t.out
  | .sparse t => if t.outq.isEmpty then none else t.out
  | .nest n => if n.done && n.stop.isNone then none else some n.out
  | _ => none

/-- The tokens of run q read and not yet acknowledged: those that its output keeps, and those not yet sent (R101). -/
def State.unacked (s : State) (x : Site) (o q : Nat) (buf : List GTok) : Nat :=
  (((s.bank x).out o).kept.filter fun t => t.stream.map (·.1) = some q).length + buf.length

/-- Whether a run stands at the front of its output with no slot there for its next token. -/
def State.runBlocked (s : State) (x : Site) (o id : Nat) : Bool :=
  match ((s.bank x).out o).groups with
  | g :: _ => g.id = id && g.resv = 0 && !(s.canSend x o 1)
  | [] => false

/-- Whether the token at the front of an output waits for a slot that no commit has taken for it: a MARK's or a LAUNCH's beyond
its first (R297, R342). A sequencer's own token is none of an instruction. -/
def State.tokenBlocked (s : State) (x : Site) (o : Nat) : Bool :=
  match (((s.bank x).out o).groups.head?).bind (·.toks.head?) with
  | some t => !t.slot && !t.seqr && !(s.canSend x o 1)
  | none => false

/-- The tokens of a STREAM or UNSTASH read and not yet sent. -/
def ReqOp.runBuf : ReqOp → List GTok
  | .stream _ _ _ buf _ | .unstash _ _ _ buf _ => buf
  | _ => []

/-- The outputs of a bank at which an instruction or unit in flight waits for a slot, or a run stands at its bound of tokens
not yet acknowledged (R260). -/
def State.waitingOuts (s : State) (x : Site) : List Nat :=
  ((s.bank x).units.filterMap fun u => u.work.readyOut.bind fun o => if s.runBlocked x o u.id then some o else none)
  ++ (List.range 8).filter (s.tokenBlocked x)
  ++ s.reqs.filterMap fun r => match r.dst with
    | .out o => if r.site = x && !r.op.runBuf.isEmpty && (s.runBlocked x o r.id || 64 ≤ s.unacked x o r.id r.op.runBuf)
        then some o else none
    | _ => none

/-- Whether a cell may have come to its save point: it is marked, or its SNAP has committed (R323, R324). -/
def Bank.toSave (b : Bank) : Bool := b.snapDue || match b.mark with
  | .marked _ => true
  | _ => false

/-- Whether the scrub interval of a bank has passed (R358). -/
def Bank.scrubDue (b : Bank) : Bool := b.chkint ≠ 0 && b.chkint.toNat ≤ b.scrubAge

/-- What must follow the round of a cell: its save at the first boundary that allows one, or its marking once 2^16 rounds
have passed (R323, R324). (DEDUCED, log entry 60.) -/
def State.saveNext (s : State) (x : Site) : State :=
  let b := s.bank x
  let due := (if 2 ^ 16 ≤ b.snapAge && b.mark = .clear then [Instr.snapForcedSave x] else [])
    ++ (if b.toSave then [Instr.cellSave x] else [])
  if due.isEmpty then s else { s with agenda := s.agenda ++ due }

/-- The scrub of a cell whose interval of rounds has passed comes next (R358). (DESIGN CHOICE, log entry 100.) -/
def State.scrubNext (s : State) (x : Site) : State :=
  if (s.bank x).scrubDue then { s with agenda := s.agenda ++ [.stateScrub x (Config.scrubFinds s.tick x.cell)] } else s

def State.closeCell (s : State) (x : Site) : State :=
  let marks := s.marksNow x
  let s := (s.waitingOuts x).foldl (fun s o => s.decouple x o) s
  (((s.modBank x fun b => (b.age marks).settle).clearFinal x).saveNext x).scrubNext x

/-! ### The stacked layers (R96) -/

def Tile.layer (t : Tile) : Layer → LayerPower
  | .planeStore => t.planeStore
  | .stash => t.stash

def Tile.setLayer (t : Tile) (l : Layer) (p : LayerPower) : Tile :=
  match l with
  | .planeStore => { t with planeStore := p }
  | .stash => { t with stash := p }

/-- Whether a traverse is in progress on a tile. -/
def State.traversedTile (s : State) (t : Nat) : Bool :=
  s.launches.any fun l => l.trav.isSome && l.tiles.any fun e => e.tile = t && e.slot.isSome

/-- Whether the sequencer of a tile powers a layer off now: nothing has used it for 2^20 tile cycles, and no traverse is in
progress there (R96). -/
def State.layerDue (s : State) (t : Nat) (l : Layer) : Bool :=
  let p := (s.tile t).layer l
  2 ^ 20 ≤ p.idle && !p.off && !p.waking && !(s.traversedTile t)

/-- The layers of a tile that have been idle long enough are powered off next. -/
def State.powerNext (s : State) (t : Nat) : State :=
  let due := [Layer.planeStore, Layer.stash].filter (s.layerDue t)
  if due.isEmpty then s else { s with agenda := s.agenda ++ due.map (Instr.layerPowerOff t) }

/-- The nests of a tile one tile cycle older. -/
def State.ageNests (s : State) (t : Nat) : State :=
  if (s.tile t).loops.all Option.isNone then s
  else { s with banks := s.banks.map fun e =>
    if e.1.tile = t then (e.1, { e.2 with units := e.2.units.map UnitRec.ageNest }) else e }

/-- The end of a tile cycle for its four slots: watchdogs, yields, loop nests, idle layers, the update port (R96, R103, R261,
R273, R298). (DESIGN CHOICE, log entry 80.) -/
def State.closeCycle (s : State) (t : Nat) : State :=
  let s := ([0, 1, 2, 3].foldl (fun s k => s.watch t k) s).ageNests t
  (s.modTile t fun tl => { tl with
    slots := tl.slots.map fun sl => { sl with yield := ageYield sl.yield }
    planeStore := { tl.planeStore with idle := tl.planeStore.idle + 1 }
    stash := { tl.stash with idle := tl.stash.idle + 1 }
    updPort := false }).powerNext t

/-- The end of the round of a plane slot: a plane that the freeze had reached before it stops (R360). -/
def State.closePlane (s : State) (t k : Nat) : State :=
  let s := (s.banksAt t k).foldl State.closeCell s
  let s := s.modSlot t k fun sl => if sl.halt = .reached then { sl with halt := .stopped } else sl
  { s with round := {} }

/-- Close the open round once its last rule has fired. -/
def State.finishRound (s : State) : State :=
  match s.round.live, s.round.firing with
  | some (t, k), [] => (s.closePlane t k).closeCycle t
  | _, _ => s

/-! ### CELL_ROUND -/

/-- Whether the sequencer of a tile steps: the package is in service. A region of bisque mode keeps its tile (R394). -/
def State.tileRuns (s : State) (t : Nat) : Bool :=
  t < 64 && (s.service = .full || (s.service = .bisque && 8 ≤ t && t < 12)) && s.holdUp ≠ .ended

/-- One entry of the frame table of a tile: the round it gives is opened, and closed at once when no rule was chosen. -/
def State.cycle (s : State) (t : Nat) (ups : List Upset) : State :=
  let tl := s.tile t
  let s := s.modTile t fun tl => { tl with pos := (tl.pos + 1) % 64 }
  match tl.grant with
  | none => s.closeCycle t
  | some (k, handed, free) =>
    let s := if handed then s.modTile t fun tl => { tl with last := k } else s
    (s.openPlane t k free ups).finishRound

/-- CELL_ROUND (R33, R268): one cycle of tile t. The rules chosen fire one after another in the steps that follow, each as
the instruction at its index says, and the round closes with the last of them. (DESIGN CHOICE, log entries 3, 8, 80.) -/
def execCellRound (t : Nat) (ups : List Upset) (s : State) : Result :=
  .next (if s.tileRuns t && s.round.firing.isEmpty then s.cycle t ups else s)

/-- Whether a result is a token for an output. -/
def Pend.isToken (p : Pend) : Bool := p.writes.any fun w => match w with
  | .tok .. => true
  | _ => false

/-- The tokens still to come from the results of a bank whose plane stands still after a freeze: they still leave (R360). -/
def State.writeTokens (s : State) (x : Site) : State :=
  if (s.slot x.tile x.slot).halt = .stopped then
    ((s.bank x).pend.filter fun p => p.left.isSome && p.isToken).foldl (fun s p => s.writePend x p) s
  else s

/-- RESULT_WRITE (R36, R360): the results of a bank whose latency has run out are written. -/
def execResultWrite (x : Site) (s : State) : Result := .next ((s.writeDue x).writeTokens x)

/-- WATCHDOG_STALL (R261): the watchdog of a slot has counted 2^22 cycles. -/
def execWatchdogStall (t k : Nat) (s : State) : Result :=
  let sl := s.slot t k
  if sl.phase = .active && 2 ^ 22 ≤ sl.wd then
    match s.launch? sl.launch with
    | some l =>
      let w : Where := { saggar := l.saggar, region := l.region, ptile := t, slot := k
                         rtile := s.rtileOf { tile := t, slot := k, cell := 0 }
                         plane := s.planeNum { tile := t, slot := k, cell := 0 } }
      .next ((s.takeFault l.saggar w { cls := 0x10, source := 3, a := BitVec.ofNat 64 (s.queued t k) } [l.num]).modSlot t k
        fun sl => { sl with wd := 0 })
    | none => .next s
  else .next s

/-- YIELD_END (R298): a yield that has run out is over. -/
def execYieldEnd (t k : Nat) (s : State) : Result :=
  .next (s.modSlot t k fun sl => if sl.yield = 1 then { sl with yield := 0 } else sl)

/-- The words of the scrub order: g0 to g31, m0 to m7, d1 to d4, then the accumulator, stay and codebook elements (R358). -/
def scrubWords : Nat := 32 + 8 + 4 + 4 * 256 + 2 * 256 + 4 * 16

/-- STATE_SCRUB (R358): a bank whose interval has passed reads its next word; a parity error so found raises. -/
def execStateScrub (x : Site) (bad : Option ParityHit) (s : State) : Result :=
  let b := s.bank x
  if b.scrubDue && (s.slot x.tile x.slot).phase = .active then
    let s := s.setBank x { b with scrubAge := 0, scrub := (b.scrub + 1) % scrubWords }
    match bad with
    | some _ => .next (s.raiseCell x { cls := 0x09, a := BitVec.ofNat 64 b.scrub })
    | none => .next s
  else .next s

end Sys2Proof.Machine
end

