-- ==== Sys2Proof/Machine/Sha.lean ====
section
/-! DEFINITION. SHA-384, and HMAC and HKDF with it: the hash and the derivation that R312 names. The spec gives no text of them;
they are those of FIPS 180-4, RFC 2104 and RFC 5869. (PRESUMED, log entry 91.) -/

namespace Sys2Proof.Machine

/-! ### The constants: the fractions of roots of the first primes, 64 bits of each -/

/-- The greatest number below a + 2^i whose k-th power is at most n, when a is such a number. -/
def rootFrom (k n : Nat) : Nat → Nat → Nat
  | 0, a => a
  | i + 1, a => rootFrom k n i (if (a + 2 ^ i) ^ k ≤ n then a + 2 ^ i else a)

/-- The first 64 bits of the fraction of the k-th root of p. -/
def rootFraction (k p : Nat) : Word := BitVec.ofNat 64 (rootFrom k (p * 2 ^ (64 * k)) 72 0)

/-- The primes below 410, the first eighty. -/
def firstPrimes : List Nat := (List.range 410).filter fun p => 2 ≤ p && ((List.range 21).drop 2).all fun d => p % d ≠ 0 || p = d

/-- The words that the eighty rounds add: of the cube roots of the first eighty primes. -/
def roundWords : List Word := firstPrimes.map (rootFraction 3)

/-- The words at which SHA-384 begins: of the square roots of the ninth to the sixteenth prime. -/
def startWords : List Word := ((firstPrimes.drop 8).take 8).map (rootFraction 2)

/-! ### The compression of one block -/

/-- The exclusive or of three turns of a word, the third a shift where it is one. -/
def turns (a b : Nat) (c : Word) (w : Word) : Word := w.rotateRight a ^^^ w.rotateRight b ^^^ c

/-- The next word of a schedule, from the sixteen before it, newest first. -/
def nextWord (r : List Word) : Word :=
  let w2 := r.getD 1 0
  let w15 := r.getD 14 0
  turns 19 61 (w2 >>> 6) w2 + r.getD 6 0 + turns 1 8 (w15 >>> 7) w15 + r.getD 15 0

/-- A schedule of n words more, newest first. -/
def schedule : Nat → List Word → List Word
  | 0, r => r
  | n + 1, r => schedule n (nextWord r :: r)

/-- One round over the eight working words. -/
def shaRound : List Word → Word × Word → List Word
  | [a, b, c, d, e, f, g, h], (w, k) =>
    let t := h + turns 14 18 (e.rotateRight 41) e + ((e &&& f) ^^^ (~~~e &&& g)) + k + w
    [t + turns 28 34 (a.rotateRight 39) a + ((a &&& b) ^^^ (a &&& c) ^^^ (b &&& c)), a, b, c, d + t, e, f, g]
  | v, _ => v

/-- A big-endian word of a block. -/
def beWord (bs : List Byte) : Word := BitVec.ofNat 64 (bs.foldl (fun n b => 256 * n + b.toNat) 0)

/-- The big-endian bytes of a number. -/
def beBytes (k n : Nat) : List Byte := (leBytes k n).reverse

/-- The hash words after a block of 128 bytes. -/
def shaBlock (h : List Word) (block : List Byte) : List Word :=
  let first := (List.range 16).map fun i => beWord ((block.drop (8 * i)).take 8)
  let w := (schedule 64 first.reverse).reverse
  (h.zip ((w.zip roundWords).foldl shaRound h)).map fun (x, y) => x + y

/-- The hash words after n blocks of a padded message. -/
def shaBlocks : Nat → List Byte → List Word → List Word
  | 0, _, h => h
  | n + 1, m, h => shaBlocks n (m.drop 128) (shaBlock h (m.take 128))

/-- SHA-384 of a byte string, 48 bytes. (PRESUMED, log entry 91.) -/
def sha384 (m : List Byte) : List Byte :=
  let zeros := (239 - m.length % 128) % 128
  let padded := m ++ 0x80 :: List.replicate zeros 0 ++ beBytes 16 (8 * m.length)
  ((shaBlocks (padded.length / 128) padded startWords).take 6).flatMap fun w => beBytes 8 w.toNat

/-! ### HMAC and HKDF -/

/-- The key of HMAC, of one block, with every byte turned by a pad. -/
def hmacPad (key : List Byte) (pad : Byte) : List Byte :=
  let k := if 128 < key.length then sha384 key else key
  (k ++ List.replicate (128 - k.length) 0).map (· ^^^ pad)

def hmac (key m : List Byte) : List Byte := sha384 (hmacPad key 0x5C ++ sha384 (hmacPad key 0x36 ++ m))

/-- The output blocks of HKDF from block i on. -/
def hkdfBlocks (prk info : List Byte) : Nat → Nat → List Byte → List Byte
  | 0, _, _ => []
  | f + 1, i, last =>
    let t := hmac prk (last ++ info ++ [BitVec.ofNat 8 i])
    t ++ hkdfBlocks prk info f (i + 1) t

/-- HKDF: n bytes derived from a secret with a salt and an info string. (PRESUMED, log entry 91.) -/
def hkdf (salt secret info : List Byte) (n : Nat) : List Byte :=
  (hkdfBlocks (hmac salt secret) info ((n + 47) / 48) 1 []).take n

/-- The bytes of an info string. -/
def infoBytes (s : String) : List Byte := s.toList.map fun c => BitVec.ofNat 8 c.toNat

end Sys2Proof.Machine
end

