-- ==== Sys2Proof/Machine/Record.lean ====
section
/-! DEFINITION. The traverse record: its bytes (R331 to R337), its greatest length (R398), and its place in the overflow
region (R321). -/

namespace Sys2Proof.Machine

def spansMeet (a b : List (Nat × Nat)) : Bool := a.any fun x => b.any fun y => Nat.max x.1 y.1 < Nat.min (x.1 + x.2) (y.1 + y.2)

/-- A little-endian word of 8 bytes. -/
def w8 (n : Nat) : List Byte := leBytes 8 n

/-- Bytes padded with zeros to a multiple of 16. -/
def pad16 (bs : List Byte) : List Byte := bs ++ List.replicate ((16 - bs.length % 16) % 16) 0

/-- A count, and then what it counts. -/
def counted (n : Nat) (bs : List Byte) : List Byte := w8 n ++ bs

/-! ### Parked places

A saved region stands on no tile. The requests that it has parked and its tokens name its cells by the tile that it left,
under a number of its own above every tile of the package. -/

/-- The place of a cell of a saved launch. -/
def parkSite (j : Nat) (x : Site) : Site := { tile := 64 * (j + 1) + x.tile, slot := 0, cell := x.cell }

/-- The relative tile of a place of a saved launch. -/
def Saved.rtile (v : Saved) (x : Site) : Nat := (alGet (x.tile % 64) v.old).getD 0

/-- The place at which a saved launch's cell of a relative tile is parked. -/
def Saved.site (v : Saved) (rt cell : Nat) : Site :=
  { tile := 64 * (v.launch + 1) + (((v.old.find? fun e => e.2 = rt).map (·.1)).getD 0), slot := 0, cell := cell }

/-! ### Tile records (R332) -/

/-- The 16 bytes of full/empty bits of a line. -/
def fullBits (full : List Nat) (line : Nat) : List Byte :=
  leBytes 16 (((List.range 128).filter fun i => full.contains (128 * line + i)).foldl (fun n i => n ||| 1 <<< i) 0)

/-- The bytes of a partition of some lines, the unlisted ones zero. -/
def partBytes (bs : List (Nat × Byte)) (n : Nat) : List Byte := (List.range n).map fun i => (alGet i bs).getD 0

/-- A stash record of a tile record. -/
def stashEntry (v : StashRec) : List Byte := w8 (v.key ||| v.bytes.length <<< 32) ++ pad16 v.bytes

/-- The sections of a tile record after its head. -/
def TileSnap.sections (t : TileSnap) (lines side nests : Nat) : List Byte :=
  (match t.range with
    | some r => counted 1 (w8 r.lo ++ w8 r.hi ++ w8 r.next ++ w8 ((r.p - 1) ||| r.cmin <<< 32))
    | none => w8 0)
  ++ counted lines (partBytes t.bytes (2048 * lines) ++ ((List.range lines).map (fullBits t.full)).flatten
      ++ ((List.range lines).map fun l => w8 ((alGet l t.tags).getD 0).toNat).flatten)
  ++ counted t.stash.length ((t.stash.map stashEntry).flatten)
  ++ counted side (((List.range side).map fun e => w8 ((alGet e t.side).getD 0).toNat).flatten)
  ++ w8 nests

/-- A tile record. -/
def TileSnap.record (t : TileSnap) (lines side nests : Nat) : List Byte :=
  let b := t.sections lines side nests
  w8 (0x02 <<< 56 ||| t.rtile <<< 42 ||| (8 + b.length)) ++ b

/-! ### Cell records (R333 to R336) -/

/-- The scale latch as a record holds it. -/
def Latch.word (l : Latch) : Nat :=
  (l.k % (l.n * l.blen)) <<< 56 ||| b2n l.last <<< 55 ||| (Nat.log2 (l.blen / 4)) <<< 52 ||| l.n <<< 48 ||| l.scales.toNat

def AccKind.code : AccKind → Nat
  | .fp32 => 0 | .int32 => 1 | .fp64lo => 2 | .fp64hi => 3

/-- The records of the accumulators and the stay tiles. -/
def Bank.tileWord (b : Bank) : Nat :=
  let a (n : Nat) : Nat := let t := b.acc.getD n {}; t.kind.code ||| t.shape.code.toNat <<< 2
  let s (n : Nat) : Nat := let t := b.stay.getD n {}; t.fmt.code.toNat <<< 4 ||| t.cb <<< 2
  s 1 <<< 24 ||| s 0 <<< 16 ||| a 3 <<< 12 ||| a 2 <<< 8 ||| a 1 <<< 4 ||| a 0

/-- The word of owners, flags, scoreboard and predicates. -/
def Bank.flagWord (b : Bank) : Nat :=
  let own := (List.range 8).foldl (fun n k => match b.sb.getD k none with
    | some e => n ||| e.1 <<< (32 + 4 * k) ||| 1 <<< (8 + k)
    | none => n) 0
  own ||| b2n b.forced <<< 23 ||| b2n b.drainHeld <<< 22 ||| b2n b.retired <<< 21 ||| b.fair <<< 16 ||| b.p.toNat

/-- The fixed part of a cell record after its head word. -/
def Bank.fixedPart (b : Bank) : List Byte :=
  (b.g.map fun v => w8 v.toNat).flatten ++ (b.m.map fun v => w8 v.toNat).flatten ++ (b.d.map fun e => w8 e.val.toNat).flatten
  ++ w8 b.flagWord ++ w8 (b.sticky.toNat <<< 32 ||| b.lfsr.toNat) ++ w8 b.chkint.toNat
  ++ ([b.rounds, b.aborts, b.shortHolds, b.longWaits, b.reuseMiss, b.discards].map fun v => w8 v.toNat).flatten
  ++ (b.chans.map fun c => leBytes 2 c.fmt.toNat).flatten
  ++ (b.outs.map fun o => w8 (b2n o.gateOn <<< 32 ||| o.credit.toNat)).flatten
  ++ (b.outs.map fun o => w8 o.sent).flatten
  ++ (b.chans.map fun c => w8 c.latch.word).flatten
  ++ (b.acc.map fun t => (t.el.map fun v => leBytes 4 v.toNat).flatten).flatten
  ++ (b.stay.map fun t => (t.el.map fun v => leBytes 2 v.toNat).flatten).flatten
  ++ (b.stay.map fun t => (t.scales.map fun v => leBytes 1 v).flatten).flatten
  ++ (b.kb.map fun k => (k.map fun v => leBytes 2 v.toNat).flatten).flatten
  ++ (b.acc.map fun t => leBytes 32 t.occ.toNat).flatten
  ++ w8 b.tileWord

/-- A token entry; `i` is its place in its channel, of whose tokens the first `kept` are channel contents (R325). -/
def tokenEntry (v : Saved) (n kept : Nat) (e : Nat × Token) : List Byte :=
  let t := e.2
  w8 t.payload.toNat ++
    w8 (t.out <<< 30 ||| v.rtile t.src <<< 24 ||| t.src.cell <<< 16 ||| b2n (kept ≤ e.1) <<< 9 ||| n <<< 4 ||| b2n t.etag <<< 3
      ||| t.cls.toNat)

/-- The token entries of a bank. -/
def Bank.tokenEntries (b : Bank) (v : Saved) : List (List Byte) :=
  (List.range 32).flatMap fun n =>
    let c := b.chan n
    ((List.range c.toks.length).zip c.toks).map (tokenEntry v n c.kept)

/-- The pairs that a launch's outputs bind into a cell: sender's relative tile, cell, output, and the channel. -/
def Saved.pairs (v : Saved) (rt cell : Nat) : List (Nat × Nat × Nat × Nat) :=
  v.cells.flatMap fun e => (List.range 8).filterMap fun o =>
    (e.2.out o).bind.bind fun d => if d.tile = rt && d.cell = cell then some (e.1.1, e.1.2, o, d.ch) else none

/-- A pair entry. -/
def pairEntry (b : Bank) (p : Nat × Nat × Nat × Nat) : List Byte :=
  let (t, c, o, n) := p
  w8 (n <<< 17 ||| o <<< 14 ||| c <<< 6 ||| t) ++ w8 ((alGet (t, c, o) (b.chan n).expect).getD 0)

/-- A unit entry: its kind, rule, and body. (DEDUCED, log entry 29.) -/
def unitEntry (kind rule : Nat) (body : List Byte) : List Byte :=
  w8 (kind ||| rule <<< 8 ||| (8 + body.length) <<< 32) ++ body

/-- The rule word of a unit. -/
def Bank.unitWord (b : Bank) (u : UnitRec) : List Byte := leBytes 16 (b.rules.getD u.rule 0).toNat

/-- The place of a record for the tokens of a part step: three of a stream. (DEDUCED, log entry 29.) -/
def threeTokens (ws : List Word) : List Byte := ((List.range 3).map fun i => w8 (ws.getD i 0).toNat).flatten

/-- The counts of the tokens that a part step of a contraction keeps. (DEDUCED, log entry 29.) -/
def Contraction.heldWord (c : Contraction) : Nat :=
  c.half ||| (Nat.min 3 c.u.held.length) <<< 2 ||| (Nat.min 3 c.v.held.length) <<< 4

/-- The tokens of a turned block of elements of w bits, with its four headers where it is scaled (R197, R198). -/
def turnTokens (entry : BitVec 16) : Nat := 4 * fmtBits (fmtOf entry) + (if fmtSsrc entry = 0 then 0 else 4)

/-- The tokens that a corner turn has sent of its present block. (DEDUCED, log entry 29.) -/
def Bank.turnSent (b : Bank) (t : CTurn) : Nat :=
  if t.outq.isEmpty then 0 else turnTokens (b.chan t.ch).fmt - t.outq.length

/-- The count of blocks of a CTURN word. -/
def turnBlocks (w : BitVec 128) : Nat := (w.extractLsb' 19 8).toNat + 1

/-- The entry of a unit of a bank (R335). (DEDUCED, log entry 29.) -/
def Bank.unitBytes (b : Bank) (u : UnitRec) : List Byte :=
  let w := b.unitWord u
  match u.work with
  | .contraction c => unitEntry 0x02 u.rule (w ++ w8 c.steps ++
      w8 c.heldWord ++ threeTokens c.u.held ++ threeTokens c.v.held)
  | .stayFill f => unitEntry 0x03 u.rule (w ++ w8 f.count)
  | .accFill f => unitEntry 0x03 u.rule (w ++ w8 f.count)
  | .run r => unitEntry 0x04 u.rule (w ++ w8 r.sent ++ w8 (r.sent + r.toks.length) ++ (r.toks.map fun t => w8 t.2.toNat).flatten)
  | .cturn t => unitEntry 0x05 u.rule (w ++ w8 (turnBlocks (b.rules.getD u.rule 0) - t.blocks) ++ w8 t.count ++
      w8 (b.turnSent t) ++ ((List.range 256).map fun i => w8 (t.el.getD i 0)).flatten)
  | .sparse t => unitEntry 0x06 u.rule (w ++ w8 t.fiber ++
      w8 (match t.held with | some h => h.1 <<< 32 ||| h.2 | none => 3 <<< 62) ++ w8 0 ++ w8 t.a.count
      ++ w8 ((t.b.map (·.count)).getD 0))
  | .nest n => unitEntry 0x07 u.rule (w8 (n.first ||| n.units <<< 4 ||| (n.levels.length - 1) <<< 8 ||| n.out <<< 12) ++
      (n.levels.map fun l => w8 (l.c ||| l.b.toNat <<< 32) ++ w8 (l.s.toNat ||| l.x <<< 32)).flatten)

/-- The stream entry of a request (R335). -/
def Req.streamEntry (s : State) (r : Req) : Option (List Byte) :=
  let out := match r.dst with | .out o => o | _ => 0
  let tail (a n sent : Nat) : List Byte :=
    unitEntry 0x01 r.rule (w8 a ++ w8 n ++ w8 sent ++ w8 (out ||| b2n r.cout.isSome <<< 3 ||| (r.cout.getD 0) <<< 4))
  match r.op with
  | .stream a n next buf _ => some (tail a n (next - buf.length))
  | .unstash key v next buf _ =>
    some (tail key (((v.bind fun i => s.stashed.find? (·.id = i)).map (·.bytes.length)).getD 0) (next - buf.length))
  | _ => none

/-! ### Completion tokens (R76) -/

/-- The 48-bit virtual address of a register value (R122). -/
def vaOf (v : Word) : Nat := v.toNat % 2 ^ 48

/-- The payload of a completion token. (DEDUCED, log entry 30.) -/
def completion (kind path status addr : Nat) : Word :=
  BitVec.ofNat 64 (kind <<< 60 ||| path <<< 56 ||| status <<< 52 ||| addr % 2 ^ 48)

def Place.addr : Place → Nat
  | .hbm a => a
  | .store _ _ named => named

/-- The kind of an access in its completion token. -/
def ReqOp.kind : ReqOp → Nat
  | .ld .. | .lds .. | .tlook .. | .ldfe .. | .stream .. => 0
  | .st .. | .sts .. | .tset .. | .tinv .. | .stfe .. | .bcarm .. | .bcpost .. => 1
  | .ldp .. => 2
  | .stp .. | .clrp .. => 3
  | .upd .. | .ownEnter .. | .ownRelease .. => 4
  | .stash .. | .unstash .. | .copy .. | .copyqDeclare .. | .copyqRelease .. | .consumed .. | .kvput .. | .kvcommit ..
  | .kvrot .. | .row .. => 5
  | .coll .. | .cabort .. => 6
  | .fence .. | .cmpl .. | .bar .. => 7
  | .join .. | .mark .. | .saveset .. | .savedrop .. | .launch .. | .resume .. => 8

/-- The address of an access in its completion token; R76 names none for TLOOK, which gives the virtual address that it
searches for, and for CABORT, which gives 0. (DESIGN CHOICE, log entry 87.) -/
def Req.addr (r : Req) (s : State) : Nat :=
  match r.op with
  | .ld a _ _ | .st a _ _ | .lds a _ _ | .sts a _ _ | .ldfe a | .stfe a _ _ | .ldp a | .stp a _ | .clrp a _ | .upd _ a _
  | .ownEnter a _ | .ownRelease a | .stream a _ _ _ _ => a
  | .tlook v => vaOf v
  | .tset l _ _ | .tinv l => l
  | .bcarm _ base _ => base
  | .bcpost b _ => ((s.saggar r.saggar).barriers.getD b {}).base
  | .stash off _ _ => off
  | .copy d _ _ _ _ => d.addr
  | .copyqDeclare _ base _ _ _ => base
  | .copyqRelease h | .consumed h => (((s.saggar r.saggar).buffers.find? (·.handle = h)).map (·.base)).getD 0
  | .kvput d _ _ _ | .kvcommit d _ | .kvrot d => d
  | .coll _ d _ _ _ _ _ _ => d
  | .row _ _ _ out _ _ _ => out
  | _ => 0

/-- The path in its completion token: 0xF for FENCEX, CMPL and region end. -/
def Req.pathCode (r : Req) : Nat := if 7 ≤ r.op.kind then 0xF else r.path.code.toNat

/-! ### Parked requests (R336) -/

/-- The kind of a parked request, its address, and what it waits on (R336). -/
def Req.parkKind (r : Req) : Option (Nat × Nat × Nat) :=
  match r.op with
  | .ldp a => some (0x01, a, 0)
  | .bcpost b _ => some (0x02, 0, b)
  | .copy d _ _ (some h) _ => some (0x03, (match d with | .hbm a => a | .store _ _ n => n), h)
  | .coll (some _) d _ _ _ k _ _ => some (0x04, d, k)
  | .coll none d _ _ _ k _ _ => some (0x05, d, k)
  | .bar k _ => some (0x06, 0, k)
  | .join k _ => some (0x07, 0, k)
  | .launch _ => some (0x08, 0, r.queue.getD 0)
  | .resume _ => some (0x09, 0, r.queue.getD 0)
  | .mark k _ _ _ _ => some (0x0A, 0, k.getD 0)
  | _ => none

/-- The DST code of a parked request (R336). -/
def Req.dstCode (r : Req) : Nat :=
  match r.op with
  | .bar .. | .launch .. => (r.cout.map (0x28 + ·)).getD 0x26
  | _ => match r.dst with
    | .reg (.g n) => n
    | .reg (.m n) => 0x30 + n
    | .out o => 0x28 + o
    | _ => 0x26

/-- The answer of a parked request: a value, or the payload of its token (R336). -/
def Req.answerWord (r : Req) (s : State) : Word :=
  match r.answers with
  | v :: _ => v
  | [] => if r.answered then completion r.op.kind r.pathCode r.late (r.addr s) else 0

/-- The entry of a parked request (R336). -/
def State.parkEntry (s : State) (r : Req) : Option (List Byte) :=
  r.parkKind.map fun (k, a, w) =>
    let cout : Nat := match r.op with
      | .bar .. | .launch .. => 0
      | _ => match r.cout with
        | some o => 1 <<< 21 ||| o <<< 18
        | none => 0
    w8 (k ||| r.rule <<< 8 ||| r.dstCode <<< 12 ||| cout ||| b2n (r.answered || !r.answers.isEmpty) <<< 22) ++ w8 a
      ++ w8 (r.answerWord s).toNat ++ w8 w

/-- A section of a cell record: its count and its entries. -/
def section_ (es : List (List Byte)) : List Byte := counted es.length es.flatten

/-- The cell record of a cell of a saved region. -/
def State.cellRecord (s : State) (v : Saved) (e : (Nat × Nat) × Bank) : List Byte :=
  let (rt, c) := e.1
  let b := e.2
  let mine := s.reqs.filter fun r => r.site = v.site rt c
  let body := b.fixedPart ++ section_ (b.tokenEntries v) ++ section_ ((v.pairs rt c).map (pairEntry b))
    ++ section_ (mine.filterMap (Req.streamEntry s) ++ b.units.map b.unitBytes) ++ section_ (mine.filterMap s.parkEntry)
  w8 (0x01 <<< 56 ||| c <<< 48 ||| rt <<< 42 ||| (8 + body.length)) ++ body

/-! ### The record (R331, R337) -/

/-- The loop nests saved in the cell records of a tile. -/
def Saved.nests (v : Saved) (rt : Nat) : Nat :=
  ((v.cells.filter fun e => e.1.1 = rt).map fun e => (e.2.units.filter fun u => u.work.nestOut.isSome).length).foldl (· + ·) 0

/-- A tile record with the cell records of its tile. -/
def State.tilePart (s : State) (l : Launch) (v : Saved) (t : TileSnap) : List Byte :=
  let res := (s.saggar l.saggar).res
  t.record res.lines res.side (v.nests t.rtile)
    ++ ((v.cells.filter fun e => e.1.1 = t.rtile && e.2.programmed).map (s.cellRecord v)).flatten

/-- The header of a record of a length. -/
def State.recordHead (s : State) (l : Launch) (v : Saved) (len : Nat) : List Byte :=
  w8 (0x01 <<< 48 ||| len) ++ l.image.take 48 ++
    w8 (v.handle <<< 32 ||| b2n l.floating <<< 31 ||| l.queue <<< 26 ||| l.prio <<< 24 ||| (v.old.length - 1) <<< 18
      ||| l.placed <<< 12 ||| l.region <<< 4 ||| l.saggar)
    ++ w8 (s.saggar l.saggar).gen.toNat

/-- The bytes of the record of a saved region. -/
def State.recordBytes (s : State) (l : Launch) (v : Saved) : List Byte :=
  let parts := (v.tiles.map (s.tilePart l v)).flatten
  let body := s.recordHead l v (72 + parts.length + 48) ++ parts
  body ++ sha384 body

/-- Write the bytes of a record that differ from what it held: an answer that comes while the region is saved goes to its
record (R327). -/
def State.writeRecord (s : State) (g base : Nat) (old new : List Byte) : State :=
  (List.range new.length).foldl (fun s i =>
    if (old.getD i 0) = (new.getD i 0) && i < old.length then s else s.setByte (hbmKey g (base + i)) (new.getD i 0)) s

/-- The record of a launch is brought up to date. -/
def State.renewRecord (s : State) (j : Nat) : State :=
  match s.launch? j with
  | none => s
  | some l =>
    match (s.saggar l.saggar).saved.find? (·.launch = j) with
    | none => s
    | some v =>
      let new := s.recordBytes l v
      (s.writeRecord l.saggar v.base v.bytes new).modSaggar l.saggar fun g =>
        { g with saved := g.saved.map fun o => if o.launch = j then { o with bytes := new } else o }

/-! ### The greatest length (R398) -/

/-- The opcodes of a bank's words. -/
def Bank.opcs (b : Bank) : List Nat := (b.rules.filter (· ≠ 0)).map opcOf

/-- The unit kinds: the opcodes that start them, the greatest count, and the greatest length of an entry. -/
def unitBounds : List (List Nat × Nat × Nat) :=
  [([0x9B], 8, 40), ([0x70, 0x77], 2, 88), ([0x71, 0x74], 6, 32), ([0x73, 0x83], 8, 2096), ([0x76], 2, 2096),
   ([0x80, 0x81, 0x82], 5, 64)]

/-- The values of a field over the words of an opcode. -/
def Bank.fieldVals (b : Bank) (opcs : List Nat) (lo n : Nat) : List Nat :=
  ((b.rules.filter fun w => w ≠ 0 && opcs.contains (opcOf w)).map fun w => (w.extractLsb' lo n).toNat).eraseDups

/-- The greatest count of parked requests of a bank beside those of R100. -/
def Bank.parkBound (b : Bank) : Nat :=
  let refills := ((b.rules.filter fun w => opcOf w = 0xB0 && w.getLsbD 21).map fun w => (w.extractLsb' 17 4).toNat).eraseDups
  let queues := b.fieldVals [0xD6] 15 5
  64 * refills.length + 16 * (b.fieldVals [0xB3, 0x87] 12 8).length + (b.opcs.filter fun o => o = 0xD3 || o = 0xE3).length
    + (if queues.isEmpty then 0 else 64 * queues.length + 256) + (if b.opcs.contains 0xE5 then 256 else 0)

/-- The greatest length of a cell record. (DEDUCED, log entry 63.) -/
def Bank.bound (b : Bank) (pairs : Nat) : Nat :=
  let ops := b.opcs
  let asks := if ops.contains 0x99 then 32 * 40 else if ops.any fun o => o = 0xA0 || o = 0xA8 || o = 0xD5 then 32 * 32 else 0
  let units := (unitBounds.map fun (os, k, n) => if ops.any os.contains then k * n else 0).foldl (· + ·) 0
  let depths := b.fieldVals [0xC6] 24 4
  let nests := if depths.isEmpty then 0 else 4 * (16 + 16 * (depths.foldl Nat.max 0 + 1))
  0x1898 + 32 + 128 * 16 + 16 * pairs + asks + units + nests + 32 * b.parkBound

/-- The pairs bound into a cell of a launch. -/
def State.pairsInto (s : State) (j rt cell : Nat) : Nat :=
  ((s.banksOf j).map fun x => ((List.range 8).filter fun o =>
    (((s.bank x).out o).bind.map fun d => d.tile = rt && d.cell = cell).getD false).length).foldl (· + ·) 0

/-- The greatest length of the record of a launch (R398). (DEDUCED, log entry 63.) -/
def State.recordBound (s : State) (l : Launch) : Nat :=
  let res := (s.saggar l.saggar).res
  let overflows (t : Nat) : Nat := ((s.stashed.filter fun v => v.saggar = l.saggar && v.tile = t && v.overAt.isSome).map fun v =>
    8 + (v.bytes.length + 15) / 16 * 16).foldl (· + ·) 0
  let tiles := (l.tiles.map fun e => 48 + 32 + 2072 * res.lines + 8 * res.side + 16 * res.stash * 4104 + overflows e.tile).foldl (· + ·) 0
  let cells := ((s.banksOf l.num).map fun x =>
    if (s.bank x).programmed then (s.bank x).bound (s.pairsInto l.num (s.rtileOf x) x.cell) else 0).foldl (· + ·) 0
  72 + 48 + tiles + cells

/-! ### The reservation (R321) -/

/-- A length in whole units of 4 KiB. -/
def units4k (n : Nat) : Nat := (n + 4095) / 4096 * 4096

/-- The end of the highest stash overflow record of a saggar, or the base of its overflow region. -/
def State.overTop (s : State) (g : Nat) : Nat :=
  (s.stashed.filterMap fun v => if v.saggar = g then v.overAt.map (· + v.bytes.length) else none).foldl Nat.max (s.saggar g).res.ovBase

/-- The records and reservations of a saggar's overflow region. -/
def State.recordSpans (s : State) (g : Nat) : List (Nat × Nat) :=
  (s.saggar g).reserved.map (·.2) ++ (s.saggar g).saved.map fun v => (v.base, units4k v.bytes.length)

/-- The highest place for n bytes below the tops given, above the stash records. -/
def State.recordPlace (s : State) (g n : Nat) : Option Nat :=
  let res := (s.saggar g).res
  let taken := s.recordSpans g
  ((res.ovBase + res.ovSize) :: taken.map (·.1)).filterMap (fun top =>
    if n ≤ top && s.overTop g ≤ top - n && !(spansMeet [(top - n, n)] taken) then some (top - n) else none) |>.max?

end Sys2Proof.Machine
end

