-- ==== Sys2Proof/Machine/Access.lean ====
section
/-! DEFINITION. Accesses to memory: addresses and pages, what a read sees and what a write does, presence, barriers,
translation, and the issue and the end of a request (R75 to R79, R90 to R98, R105 to R115, R118 to R122, R307 to R310). -/

namespace Sys2Proof.Machine

/-! ### Addresses (R122) -/

/-- Whether bits 63:48 of a virtual address are copies of bit 47. -/
def vaForm (v : Word) : Bool := v.toNat >>> 47 = 0 || v.toNat >>> 47 = 0x1FFFF

/-- The faults of a virtual address at issue, in order of form and alignment (R121). -/
def vaFault (v : Word) (align : Nat) : Option Raise :=
  if !vaForm v then some { cls := 0x20, addr := vaOf v, a := v }
  else if v.toNat % align ≠ 0 then some { cls := 0x21, addr := vaOf v, a := v }
  else none

/-- The faults of a tile-store offset of the issuing tile (R91, R121): bits 63:23, alignment, the partition's size. -/
def State.offFault (s : State) (g : Nat) (v : Word) (align n : Nat) : Option Raise :=
  if v.toNat >>> 23 ≠ 0 then some { cls := 0x20, a := v }
  else if v.toNat % align ≠ 0 then some { cls := 0x21, a := v }
  else if s.partSize g < v.toNat + n then some { cls := 0x22, a := v }
  else none

/-- The bad-length fault (R121). -/
def lenFault (ok : Bool) (n : Word) (addr : Nat) : Option Raise :=
  if ok then none else some { cls := 0x23, addr := addr, a := n }

/-! ### Pages (R307, R308) -/

/-- The mapped page that holds an address. -/
def Saggar.page? (g : Saggar) (a : Nat) : Option Page := g.pages.find? fun p => p.base ≤ a && a < p.base + p.size

def State.page? (s : State) (g a : Nat) : Option Page := (s.saggar g).page? a

/-- The attribute of the page of an address; none when no page holds it. -/
def State.attr? (s : State) (g a : Nat) : Option PageAttr := (s.page? g a).map (·.attr)

/-- The translation fault of a page (R308, R362). -/
def translationRaise (cause a : Nat) : Raise := { cls := 0x24, addr := a, a := BitVec.ofNat 64 cause }

/-- A range cut at the 64-KiB boundaries, at which alone a page can end: the address and the length of each piece. -/
def chunks : Nat → Nat → Nat → List (Nat × Nat)
  | 0, _, _ => []
  | f + 1, a, n =>
    if n = 0 then []
    else
      let m := Nat.min n (65536 - a % 65536)
      (a, m) :: chunks f (a + m) (n - m)

def pieces (a n : Nat) : List (Nat × Nat) := chunks (n / 65536 + 2) a n

/-- The first fault of translating a range for reading: its address. -/
def State.unmapped (s : State) (g a n : Nat) : Option Nat :=
  ((pieces a n).find? fun (b, _) => (s.page? g b).isNone).map (·.1)

/-! ### Reading (R76, R77, R79, R98, R350) -/

/-- The word and granule keys that a range of keys touches. -/
def wordKeys (k n : Nat) : List Nat := if n = 0 then [] else (List.range ((k + n - 1) / 8 - k / 8 + 1)).map (k / 8 + ·)
def granuleKeys (k n : Nat) : List Nat := if n = 0 then [] else (List.range ((k + n - 1) / 16 - k / 16 + 1)).map (k / 16 + ·)

/-- Whether nature damaged a word of this read beyond correction: its bytes are free (R98, R350). A later read of the word
may find it whole, as the retry of R368 does. (DEDUCED, log entry 49.) -/
def natureHits (n : ReadNature) (w : Nat) : Bool := n.bad.contains w

/-- Whether a word reads as uncorrectable: it is stored so, or nature damaged it. (DEDUCED, log entry 49.) -/
def State.badWord (s : State) (n : ReadNature) (w : Nat) : Bool := setMem w s.poison || natureHits n w

/-- Whether some word of a range is stored uncorrectable, or nature damaged it. -/
def State.tainted (s : State) (n : ReadNature) (k len : Nat) : Bool := (wordKeys k len).any (s.badWord n)

/-- The bytes of a range as they are stored, but for those that nature damaged. (DEDUCED, log entry 49.) -/
def State.stored (s : State) (n : ReadNature) (k len : Nat) : List Byte :=
  (List.range len).map fun i => if natureHits n ((k + i) / 8) then Config.damaged s.tick (k + i) else s.byte (k + i)

/-- Whether a reader may still see its byte as it was before the write: the write need not be visible on its path yet, and
the reader has not seen it. (DEDUCED, log entry 34.) -/
def Lag.hides (l : Lag) (p : Path) (x : Option Site) : Bool :=
  l.hidden.contains p && !(l.seen.contains (p, x))

/-- Whether nature chose that a read misses a write at a granule. -/
def Lag.missed (l : Lag) (n : ReadNature) : Bool := n.stale.contains (l.key / 16, l.acc)

/-- The writes that a read of some granules is the first of its reader to see. -/
def State.newlySeen (s : State) (p : Path) (x : Option Site) (n : ReadNature) (grs : List Nat) : List Lag :=
  s.lags.filter fun l => grs.contains (l.key / 16) && l.hides p x && !(l.missed n)

/-- The accesses that a reader has to see because it sees some writes: those ordered before them (R78). -/
def pastOf (ls : List Lag) : List Nat := ls.flatMap (·.past)

/-- The writes of some granules that a read does not see. (DEDUCED, log entry 34.) -/
def State.unseen (s : State) (p : Path) (x : Option Site) (n : ReadNature) (grs : List Nat) : List Lag :=
  let up := pastOf (s.newlySeen p x n grs)
  s.lags.filter fun l => grs.contains (l.key / 16) && l.hides p x && l.missed n && !(up.contains l.acc)

/-- The value of a byte to a reader who misses some writes: that of the latest write of it that the reader does not miss.
The lags stand newest first. -/
def lagValue (miss : List Lag) : List Lag → Byte → Byte
  | [], v => v
  | l :: r, v => if miss.contains l then lagValue miss r l.old else v

/-- One byte as a read that misses some writes sees it. -/
def State.seeByte (s : State) (n : ReadNature) (miss : List Lag) (k : Nat) : Byte :=
  if natureHits n (k / 8) then Config.damaged s.tick k
  else lagValue miss (s.lags.filter (·.key = k)).reverse (s.byte k)

/-- Whether a word was uncorrectable to a reader who misses some writes. The lags stand newest first. -/
def lagBad (miss : List Lag) : List Lag → Bool → Bool
  | [], v => v
  | l :: r, v => if miss.contains l then lagBad miss r l.bad else v

/-- Whether a word is uncorrectable to a read that misses some writes (R350, R352). (DEDUCED, log entries 34, 49.) -/
def State.seeBad (s : State) (n : ReadNature) (miss : List Lag) (w : Nat) : Bool :=
  natureHits n w || lagBad miss (s.lags.filter (·.key / 8 = w)).reverse (setMem w s.poison)

/-- The offsets of the bytes of a range that a read finds in uncorrectable words. (DEDUCED, log entry 34.) -/
def State.taintedAt (s : State) (p : Path) (x : Option Site) (n : ReadNature) (k len : Nat) : List Nat :=
  let miss := s.unseen p x n (granuleKeys k len)
  (List.range len).filter fun i => s.seeBad n miss ((k + i) / 8)

/-- n bytes as a read sees them. (DEDUCED, log entry 34.) -/
def State.see (s : State) (p : Path) (x : Option Site) (n : ReadNature) (k len : Nat) : List Byte :=
  let miss := s.unseen p x n (granuleKeys k len)
  (List.range len).map fun i => s.seeByte n miss (k + i)

/-- A reader that has seen a write goes on seeing it (R77), and sees every access ordered before it (R78).
(DEDUCED, log entry 34.) -/
def State.noteSeen (s : State) (p : Path) (x : Option Site) (n : ReadNature) (k len : Nat) : State :=
  let new := s.newlySeen p x n (granuleKeys k len)
  let up := pastOf new
  if new.isEmpty then s
  else { s with lags := s.lags.map fun l =>
      if l.hides p x && (new.contains l || up.contains l.acc) then { l with seen := l.seen ++ [(p, x)] } else l }

/-- A read of a range: the bytes that it sees, and that its cell has seen them. -/
def State.read (s : State) (p : Path) (x : Option Site) (n : ReadNature) (k len : Nat) : State × List Byte :=
  (s.noteSeen p x n k len, s.see p x n k len)

/-! ### Writing -/

/-- Who writes: the path, the access, the accesses ordered before it (R78), the cell, the party that a record names
(R108), the words whose stored contents the write finds uncorrectable (R98), those for which it carries tagged data (R352),
and whether an engine only begins to write, so that its own path need not see the bytes yet (R90). -/
structure Writer where
  path  : Path
  acc   : Nat
  past  : List Nat := []
  site  : Option Site := none
  party : Party := .none
  worn  : List Nat := []
  tags  : List Nat := []
  part  : Bool := false
deriving DecidableEq, Repr

def allPaths : List Path := [.l, .c, .x, .w, .v, .h]

/-- The paths on which a write need not be seen at once (R76, R79, R90). -/
def Writer.hidden (w : Writer) : List Path := if w.part then allPaths else allPaths.filter (· ≠ w.path)

/-- The lags that still matter, and the bytes of those that do not: of a write that every path sees, and of the earlier
writes of its byte, none does. -/
def dropShown : List Lag → List Lag × List Nat
  | [] => ([], [])
  | l :: r =>
    let t := dropShown r
    if l.hidden.isEmpty || t.2.contains l.key then (t.1, l.key :: t.2) else (l :: t.1, t.2)

/-- Some writes become visible on a path, and every access ordered before them (R78). (DEDUCED, log entry 34.) -/
def State.showLags (s : State) (p : Path) (f : Lag → Bool) : State :=
  let new := s.lags.filter f
  let up := pastOf new
  if new.isEmpty then s
  else { s with lags := (dropShown (s.lags.map fun l =>
      if f l || up.contains l.acc then { l with hidden := l.hidden.filter (· ≠ p) } else l)).1 }

/-- Some writes become visible on every path. -/
def State.showAll (s : State) (f : Lag → Bool) : State := allPaths.foldl (fun s p => s.showLags p f) s

/-- The lag of a byte after a write of a path: its own path sees it at once, the others not until a fence (R76, R79).
(DEDUCED, log entry 34.) -/
def State.lagByte (s : State) (w : Writer) (k : Nat) : State :=
  { s with lags := s.lags ++
      [{ key := k, old := s.byte k, acc := w.acc, site := w.site, path := w.path, hidden := w.hidden, past := w.past
         bad := setMem (k / 8) s.poison }] }

/-- The bytes of a write. -/
def State.writeBytes (s : State) (w : Writer) (k : Nat) : List Byte → State
  | [] => s
  | b :: r => State.writeBytes ((s.lagByte w k).setByte k b) w (k + 1) r

/-- The words that a range covers whole. -/
def wholeWords (k n : Nat) : List Nat := (wordKeys k n).filter fun w => k ≤ 8 * w && 8 * w + 8 ≤ k + n

/-- A write of a range of keys: a word written whole is encoded anew; a word written in part whose stored contents are
uncorrectable is stored with the poison code (R98, R350), and so is one whose new data bear a tag (R352).
(DEDUCED, log entry 49.) -/
def State.write (s : State) (w : Writer) (k : Nat) (bs : List Byte) : State :=
  let s := s.writeBytes w k bs
  let p := ((wordKeys k bs.length).filter w.worn.contains).foldl (fun p x => setAdd x p) s.poison
  let p := (wholeWords k bs.length).foldl (fun p x => setDel x p) p
  { s with poison := ((wordKeys k bs.length).filter w.tags.contains).foldl (fun p x => setAdd x p) p }

/-- A writer whose data bear tags at some offsets from a key. (DEDUCED, log entry 49.) -/
def Writer.tagged (w : Writer) (k : Nat) (offs : List Nat) : Writer := { w with tags := (offs.map fun o => (k + o) / 8).eraseDups }

/-! ### The end of a request (R76, R119, R120, R327) -/

/-- Whether a tile lies on the east die (R5). -/
def isEast (t : Nat) : Bool := 8 ≤ t % 16

/-- The accesses after which the completion token of a request orders, with the path on which it does so: its own access and
those ordered before it (R78), or those that a fence, a CMPL or a BAR covers. -/
def Req.orders (r : Req) : List (Path × Nat) :=
  if 7 ≤ r.op.kind then r.joint else (r.id :: r.past).map (fun a => (r.path, a)) ++ r.joint

/-- Send the completion token of a request, when it names a binding. -/
def State.sendCompletion (s : State) (r : Req) (payload : Word) : State :=
  match r.cout with
  | none => s
  | some o => s.fillGroup r.site o r.cgroup { cls := clsCmpl, payload := payload, acc := r.orders }

/-- The outputs on which a request still sends. -/
def Req.sendsOn (r : Req) : List Nat :=
  (match r.dst with | .out o => [o] | _ => []) ++ r.cout.toList

/-- A saved cell sends its marker on an output, behind every token that it has sent there, once no request that runs out
still sends on it (R323, R327). -/
def State.sendMarker (x : Site) (s : State) (o : Nat) : State :=
  let busy := s.reqs.any fun r => r.site = x && !r.parks && !r.held && !r.performed && r.sendsOn.contains o
  let p := (s.bank x).out o
  if busy || !p.resend.isEmpty then s
  else s.modBank x fun b =>
    { b.modOut o (fun p => { p with flight := p.flight ++ [{ cls := clsMarker, payload := 0, src := x, out := o, seq := p.sent }] }) with
      markWait := b.markWait.filter (· ≠ o) }

def State.sendMarkers (s : State) (x : Site) : State := (s.bank x).markWait.foldl (State.sendMarker x) s

/-- A request is performed: its token goes, the request ends, and the slots that wait for it clear. The end of a parked
request whose cell is saved is kept for the restore (R327). An engine that only begins to write for it keeps its status
(R90). -/
def State.finish (s : State) (r : Req) (status : Nat) : State :=
  if r.placed.isSome then s.modReq r.id fun q => { q with placed := some status }
  else if r.held then (s.modReq r.id fun q => { q with answered := true, late := status }).renewRecord r.launch
  else
    let s := s.sendCompletion r (completion r.op.kind r.pathCode status (r.addr s))
    ((s.dropReq r.id).clearFinal r.site).sendMarkers r.site

/-- The values of a request, each with its tag, go to its destination (R119, R120, R350). -/
def State.deliverEach (s : State) (r : Req) (vs : List (Word × Bool)) : State :=
  let regs (ws : List PWrite) : State := match (s.bank r.site).pend.find? (·.id = r.id) with
    | some p => s.writePend r.site { p with writes := ws }
    | none => s
  let word (i : Nat) : Word := ((vs[i]?).map (·.1)).getD 0
  match r.dst with
  | .none => regs []
  | .reg g => regs [.reg g (word 0)]
  | .pair g h => regs [.reg g (word 0), .reg h (word 1)]
  | .out o => vs.foldl (fun s v => s.fillGroup r.site o r.id { dataTok v.1 with etag := v.2 }) s

/-- The values of a request, all with one tag, go to its destination. -/
def State.deliver (s : State) (r : Req) (vs : List Word) (tag : Bool) : State := s.deliverEach r (vs.map fun v => (v, tag))

/-- The engine that acts on a request, as a record names it (R361): a copy engine, the collective engine or the row
engine. (DESIGN CHOICE, log entry 45.) -/
def Req.engine? (r : Req) : Option Party :=
  let stack := b2n (isEast r.site.tile)
  match r.path with
  | .c => some (.engine 0 (Config.copyEngine r.id).val (r.queue.getD 0) stack)
  | .x => some (.engine 0 0xC 0 stack)
  | .w => some (.engine r.site.tile 0xD 0 0)
  | _ => none

/-- The party of a request, as R108 names writers. (DEDUCED, log entry 40.) -/
def Req.party (r : Req) : Party := r.engine?.getD (.cell r.site.tile r.site.cell r.site.slot r.rule)

/-- The writer of a request. -/
def Req.writer (r : Req) (n : ReadNature := {}) : Writer :=
  { path := r.path, acc := r.id, past := r.past, site := some r.site, party := r.party, worn := n.bad
    part := r.placed.isSome }

/-! ### Byte-counting barriers (R112 to R115) -/

/-- The bytes of some ranges that lie in a barrier's range. -/
def Barrier.inside (b : Barrier) (rs : List (Nat × Nat)) : Nat :=
  rs.foldl (fun n (a, m) => n + (Nat.min (a + m) (b.base + b.len) - Nat.max a b.base)) 0

def State.modBarrier (s : State) (g b : Nat) (f : Barrier → Barrier) : State :=
  s.modSaggar g fun sg => { sg with barriers := setAt {} sg.barriers b (f (sg.barriers.getD b {})) }

/-- Every counted write is performed, and visible to path L, when its barrier is complete (R114).
(DEDUCED, log entry 34.) -/
def State.showCounted (s : State) (ws : List Nat) : State :=
  allPaths.foldl (fun s p => s.showLags p fun l => ws.contains l.acc && (p = .l || l.path = p)) s

/-- A barrier is complete: the post that waits is performed (R114), once the fences that it waits for are complete (R79), and
never when the run-out has begun (R373). (DEDUCED, log entry 47.) -/
def State.completeBarrier (s : State) (g b : Nat) : State :=
  let bar := (s.saggar g).barriers.getD b {}
  let s := (s.modBarrier g b fun x => { x with st := .complete, post := none }).showCounted bar.writes
  match bar.post.bind s.parked? with
  | none => s
  | some r =>
    let r := { r with op := .bcpost b true, joint := bar.writes.map (fun a => (.l, a)) }
    let s := s.modReq r.id fun q => { q with op := r.op, joint := r.joint }
    if r.after.all fun f => (s.req? f).isNone then s.finish r 0 else s

/-- A barrier overruns: the region that armed it freezes, and the record names the writer (R115). -/
def State.overrunBarrier (s : State) (g b : Nat) (p : Party) : State :=
  let bar := (s.saggar g).barriers.getD b {}
  (s.modBarrier g b fun x => { x with st := .overrun, post := none }).takeFault g bar.by_
    { cls := 0x31, party := p, a := BitVec.ofNat 64 b, b := BitVec.ofInt 64 bar.bal } [bar.launch]

/-- A write of n bytes into the range of a barrier (R113). (DEDUCED, log entry 47.) -/
def State.countBarrier (s : State) (g : Nat) (w : Writer) (rs : List (Nat × Nat)) (b : Nat) : State :=
  let bar := (s.saggar g).barriers.getD b {}
  let n := bar.inside rs
  if n = 0 then s
  else
    let p := w.party
    let ws := (w.acc :: w.past).filter fun a => a ≠ 0
    let add (s : State) := s.modBarrier g b fun x =>
      { x with bal := x.bal + (n : Int), writes := ws.foldl (fun l a => setAdd a l) x.writes }
    match bar.st with
    | .idle | .overrun => s
    | .armed => add s
    | .posted =>
      let v := bar.bal + (n : Int)
      if v = 0 then (add s).completeBarrier g b else if 0 < v then (add s).overrunBarrier g b p else add s
    | .complete => (add s).overrunBarrier g b p

/-- The barriers of a saggar count the ranges that one write performed. (DEDUCED, log entry 37.) -/
def State.countWrite (s : State) (g : Nat) (w : Writer) (rs : List (Nat × Nat)) : State :=
  (List.range 16).foldl (State.countBarrier · g w rs) s

/-- BCPOST commits on barrier b with the count e (R113); the fault that it raises. (DEDUCED, log entry 47.) -/
def State.postBarrier (s : State) (g b e q : Nat) (p : Party) : State × Option Raise :=
  let bar := (s.saggar g).barriers.getD b {}
  if e = 0 ∨ 2 ^ 48 ≤ e ∨ bar.st ≠ .armed then
    (s, some { cls := 0x30, a := BitVec.ofNat 64 b, b := BitVec.ofInt 64 bar.bal })
  else
    let v := bar.bal - (e : Int)
    let s := s.modBarrier g b fun x => { x with bal := v, st := .posted, post := some q }
    if v = 0 then (s.completeBarrier g b, none)
    else if 0 < v then (s.overrunBarrier g b p, none)
    else (s, none)

/-! ### The end of an engine's work -/

/-- A byte that an engine had begun to write goes back to what it was, unless a later write of it came: the keys of later
writes are carried along. A word of a write-once page is then empty again. -/
def State.unwrite (q : Nat) (old : Nat → Bool) (e : State × List Nat) (l : Lag) : State × List Nat :=
  let s := e.1
  if l.acc ≠ q || !(old (l.key / 16)) || 2 ^ 60 ≤ l.key then (s, l.key :: e.2)
  else if e.2.contains l.key then e
  else
    let once := s.attr? (l.key / 2 ^ 48) (l.key % 2 ^ 48) = some .once
    let w := l.key / 8
    ({ s.setByte l.key l.old with
        full := if once then setDel w s.full else s.full
        poison := if l.bad then setAdd w s.poison else setDel w s.poison }, e.2)

/-- What an engine had begun to write for a request that is abandoned: each granule is as it was or as it was to be (R146, R373).
(DEDUCED, log entry 66.) -/
def State.leavePart (s : State) (q : Nat) : State :=
  let old (k : Nat) : Bool := Config.unstated (s.tick + q) k % 2 = 1
  (s.lags.reverse.foldl (State.unwrite q old) (s, [])).1

/-- The values of a request that writes for an engine go to its destination, and it ends; while the engine only begins, they
are kept. -/
def State.finishWith (s : State) (r : Req) (vs : List Word) (tag : Bool) (status : Nat) : State :=
  if r.placed.isSome then (s.modReq r.id fun q => { q with answers := vs, late := b2n tag }).finish r status
  else (s.deliver r vs tag).finish r status

/-- What an engine has written for a request counts at the barriers when the request is performed or ends in a fault (R112,
R113). (DEDUCED, log entry 37.) -/
def State.countWrote (s : State) (r : Req) : State :=
  let rs := ((s.req? r.id).map (·.wrote)).getD []
  if rs.isEmpty then s
  else (s.modReq r.id fun q => { q with wrote := [] }).countWrite r.saggar r.writer rs

/-- An engine that has begun to write for a request has written every granule of it: its path sees them, and the request
ends (R76, R90). (DEDUCED, log entry 36.) -/
def State.finishPlaced (s : State) (r : Req) (status : Nat) : State :=
  let s := (s.showLags r.path (·.acc = r.id)).countWrote r
  let r' := { r with placed := none }
  let s := s.modReq r.id fun q => { q with placed := none, answers := [] }
  if r.answers.isEmpty then s.finish r' status else s.finishWith r' r.answers (r.late = 1) status

/-- A read on behalf of a request that sees what the request itself has written. -/
def seeOwn (n : ReadNature) (r : Req) : ReadNature := { n with stale := n.stale.filter (·.2 ≠ r.id) }

/-- A request for which an engine works in this move: under nature's choice it only begins to write (R90, R117).
(DEDUCED, log entry 36.) -/
def Req.begun (r : Req) (n : ReadNature) : Req := if n.part then { r with placed := some 0 } else r

/-- A fault of a request, found at its performance: the record names its issuer and the engine that acted for it, its
region freezes, it sends no token and clears no slot (R121, R359, R362). (DEDUCED, log entry 24.) -/
def State.reqFault (s : State) (r : Req) (f : Raise) : State :=
  let w : Where := { s.whereAt r.site r.rule with saggar := r.saggar, word := r.word }
  let f := match r.engine? with
    | some p => { f with source := if f.cls = 0x2A then 4 else 1, party := p }
    | none => if f.cls = 0x2A then { f with source := 4 } else f
  (((s.showLags r.path (·.acc = r.id)).countWrote r).modReq r.id fun q => { q with faulted := true, lost := !resumable f.cls }).takeFault
    r.saggar w f [r.launch]

/-- A load is performed: its values are delivered and its token sent; tagged data in a register raise the poison fault
(R76, R350, R352). The answer of a parked load whose cell is saved is kept (R327). -/
def State.loadedEach (s : State) (r : Req) (vs : List (Word × Bool)) : State :=
  let tag := vs.any (·.2)
  if r.held then (s.modReq r.id fun q =>
    { q with deferred := false, answered := true, answers := q.answers ++ vs.map (·.1), late := b2n tag }).renewRecord r.launch
  else
    let s := s.deliverEach r vs
    match r.dst with
    | .reg _ | .pair _ _ =>
      if tag then s.reqFault r { cls := 0x0A, reason := 3, addr := r.addr s, a := 0xFF, b := ((vs.head?).map (·.1)).getD 0 }
      else s.finish r 0
    | _ => s.finish r (b2n tag)

def State.loaded (s : State) (r : Req) (vs : List Word) (tag : Bool) : State := s.loadedEach r (vs.map fun v => (v, tag))

/-! ### Where pages lie (R4, R98, R393) -/

/-- The channels on which the pages of a saggar may lie: those offered, and of a saggar made in bisque mode those of stack 0
(R363, R393). -/
def State.pageChannels (s : State) (g : Nat) : List Nat :=
  (List.range (if (s.saggar g).early then 32 else 256)).filter fun c => !(s.channelsOff.contains c)

/-- The channel, counted over all stacks, that serves a page of a saggar: a choice of the datum that no program can learn
(R107). (DESIGN CHOICE, log entry 70.) -/
def State.channelOf (s : State) (g a : Nat) : Nat :=
  let cs := s.pageChannels g
  cs.getD ((Config.placement g (a / 65536)).1 % cs.length) 0

/-- The base die that serves a word. (DESIGN CHOICE, log entry 70.) -/
def State.dieOf (s : State) (g a : Nat) : Nat := s.channelOf g a / 32

/-- The base die and the bank that hold an address of a saggar, the banks of a channel of the die being those whose number
leaves its number. (DESIGN CHOICE, log entry 70.) -/
def State.bankOf (s : State) (g a : Nat) : Nat × Nat :=
  (s.dieOf g a, 32 * (Config.placement g (a / 65536)).2.1 + s.channelOf g a % 32)

/-- A base die corrects the single wrong bits that a read of HBM finds, and counts them (R98). (DEDUCED, log entry 49.) -/
def State.countFixed (s : State) (n : ReadNature) (g a len : Nat) : State :=
  let hits := (wordKeys (hbmKey g a) len).filter n.fixed.contains
  if hits.isEmpty then s
  else { s with eccCount := alPut (s.dieOf g a) ((alGet (s.dieOf g a) s.eccCount).getD 0 + hits.length) s.eccCount }

/-! ### Presence (R105 to R109) -/

/-- The word key of a virtual address. -/
def hbmWord (g a : Nat) : Nat := hbmKey g a / 8

/-- A presence load reads its word as it is stored: the value is fixed (R106, R134), and its cell has seen it (R77).
(DEDUCED, log entry 38.) -/
def State.answerLoad (s : State) (r : Req) (n : ReadNature) : State :=
  match r.op with
  | .ldp a =>
    let k := hbmKey r.saggar a
    let s := (s.countFixed n r.saggar a 8).noteSeen r.path (some r.site) { n with stale := [] } k 8
    s.loaded r [BitVec.ofNat 64 (ofLeBytes (s.stored n k 8))] (s.tainted n k 8)
  | _ => s

/-- A presence load that waits at a base die enters its queue, or is answered when its word has been written (R107).
(DEDUCED, log entry 38.) -/
def State.admitLoad (s : State) (die : Nat) : Nat → State
  | 0 => s
  | f + 1 =>
    match s.waiting.find? (·.1 = die) with
    | none => s
    | some e =>
      if 4096 ≤ (s.deferred.filter (·.1 = die)).length then s
      else
        let s := { s with waiting := s.waiting.erase e }
        match s.req? e.2 with
        | none => State.admitLoad s die f
        | some r =>
          match r.op with
          | .ldp a =>
            if setMem (hbmWord r.saggar a) s.full then State.admitLoad (s.answerLoad r {}) die f
            else State.admitLoad { s with deferred := s.deferred ++ [e] } die f
          | _ => State.admitLoad s die f

/-- A presence load that finds its word empty is held, or waits for an entry (R106, R107). One whose cell is already saved is
parked from here on, so that the cell's markers wait for it no longer (R327). (DEDUCED, log entry 38.) -/
def State.deferLoad (s : State) (r : Req) (a : Nat) : State :=
  let die := s.dieOf r.saggar a
  let saved := (s.bank r.site).mark = .saved
  let s := s.modReq r.id fun q => { q with deferred := true, held := q.held || saved }
  let s := { s with waiting := s.waiting ++ [(die, r.id)] }.admitLoad die (s.waiting.length + 1)
  if saved then s.sendMarkers r.site else s

/-- Whether a request is a presence load of a word. -/
def Req.awaitsWord (g a : Nat) (r : Req) : Bool :=
  match r.op with
  | .ldp b => r.saggar = g && b = a
  | _ => false

/-- The single write of a word has come: every request held for it is answered, in the order held (R106); once the run-out
has begun it never is (R373). (DEDUCED, log entry 38.) -/
def State.answerHeld (s : State) (g a : Nat) : State :=
  if s.holdUp = .runOut then s else
  let held := s.deferred.filter fun e => (s.req? e.2).any (Req.awaitsWord g a)
  let s := { s with deferred := s.deferred.filter fun e => !held.contains e }
  let s := held.foldl (fun s e => match s.req? e.2 with
    | some r => s.answerLoad r {}
    | none => s) s
  if held.isEmpty then s else s.admitLoad (s.dieOf g a) (s.waiting.length + 1)

/-! ### Writes of HBM (R105, R108, R112, R307, R308) -/

/-- What writes: a plain store or an update, an STP, or an engine, a collective or a port. -/
inductive WKind
  | plain | stp | engine
deriving DecidableEq, Repr

/-- The course of a write over the pieces of its range: the ranges written, the first full word, and a fault that ends it. -/
structure WriteRun where
  s    : State
  done : List (Nat × Nat) := []
  full : Option Nat := none
  stop : Option Raise := none

/-- The words of a write to a write-once page: an empty word is written and becomes full; a full one keeps its value. -/
def WriteRun.word (g : Nat) (w : Writer) (bytes : Nat → List Byte) (t : WriteRun) (a : Nat) : WriteRun :=
  if setMem (hbmWord g a) t.s.full then { t with full := t.full.or (some a) }
  else
    let s := t.s.write w (hbmKey g a) (bytes a)
    let s := { s with full := setAdd (hbmWord g a) s.full }
    { t with s := s.answerHeld g a, done := t.done ++ [(a, 8)] }

/-- The piece of a write that lies in one page. (DEDUCED, log entries 37, 39.) -/
def WriteRun.piece (g : Nat) (w : Writer) (kind : WKind) (base : Nat) (bs : List Byte) (t : WriteRun) (p : Nat × Nat) :
    WriteRun :=
  let at_ (a n : Nat) : List Byte := (bs.drop (a - base)).take n
  if t.stop.isSome then t
  else match t.s.attr? g p.1 with
  | none => { t with stop := some (translationRaise 0 p.1) }
  | some .ro => { t with stop := some (if kind = .stp then { cls := 0x28, addr := p.1 } else translationRaise 1 p.1) }
  | some .rw =>
    if kind = .stp then { t with stop := some { cls := 0x28, addr := p.1 } }
    else { t with s := t.s.write w (hbmKey g p.1) (at_ p.1 p.2), done := t.done ++ [p] }
  | some .once =>
    if kind = .plain then { t with stop := some { cls := 0x29, addr := p.1 } }
    else ((List.range ((p.2 + 7) / 8)).map (p.1 + 8 * ·)).foldl (WriteRun.word g w fun a => at_ a 8) t

/-- The misaligned-access fault of an engine's write that meets a write-once page (R105). -/
def State.misalignedOnce (s : State) (kind : WKind) (g a n : Nat) : Option Raise :=
  if kind = .engine && (a % 8 ≠ 0 || n % 8 ≠ 0) && (pieces a n).any (fun p => s.attr? g p.1 = some .once)
  then some { cls := 0x21, addr := a, a := BitVec.ofNat 64 a } else none

/-- The barriers count what a write of HBM has written, unless it is one of the stash's overflow, which R112 does not name. What
an engine only begins to write is kept with its request (R90). (DEDUCED, log entry 37.) -/
def State.tally (s : State) (w : Writer) (g : Nat) (rs : List (Nat × Nat)) : State :=
  if rs.isEmpty || w.path = .v then s
  else if w.part then s.modReq w.acc fun q => { q with wrote := q.wrote ++ rs }
  else s.countWrite g w rs

/-- A write of HBM: what it leaves, and the fault that it raises. The write is counted once, after it is performed (R113);
a second write of a word is raised after every word is applied, and names the lowest (R108). (DEDUCED, log entry 37.) -/
def State.hbmWrite (s : State) (w : Writer) (kind : WKind) (g a : Nat) (bs : List Byte) : State × Option Raise :=
  match s.misalignedOnce kind g a bs.length with
  | some r => (s, some r)
  | none =>
    let t := (pieces a bs.length).foldl (WriteRun.piece g w kind a bs) { s := s }
    (t.s.tally w g t.done, (t.full.map fun a => ({ cls := 0x2A, addr := a } : Raise)).or t.stop)

/-- The bytes of HBM that a read of a path sees, with the offsets that bear a tag; or the fault of its translation. -/
def State.hbmRead (s : State) (p : Path) (x : Option Site) (n : ReadNature) (g a len : Nat) :
    Except Raise (State × List Byte × List Nat) :=
  match s.unmapped g a len with
  | some b => .error (translationRaise 0 b)
  | none =>
    let t := (s.countFixed n g a len).read p x n (hbmKey g a) len
    .ok (t.1, t.2, t.1.taintedAt p x n (hbmKey g a) len)

/-! ### Translation caches and walks (R309, R310) -/

/-- The walker of a tile, or of an engine queue of a tile's stack. -/
def walkerOf (t : Nat) (queue : Option Nat) : Nat :=
  match queue with
  | none => if isEast t then (t % 16 - 8) / 2 else 4 + t % 16 / 2
  | some q => (if isEast t then 0 else 4) + q % 4

/-- The engine queue by which a request translates: none for one of a cell; the collective engine counts as queue 0.
(DEDUCED, log entry 35.) -/
def Req.edge (r : Req) : Option Nat := if r.path = .x then some 0 else r.queue

/-- Where a request's translation is kept: the cache of its tile, or of its fabric stack's engines. -/
def State.tlbOf (s : State) (r : Req) : List TlbEntry :=
  match r.edge with
  | none => (s.tile r.site.tile).tlb
  | some _ => (alGet (b2n (isEast r.site.tile)) s.engineTlb).getD []

def State.setTlb (s : State) (r : Req) (l : List TlbEntry) : State :=
  match r.edge with
  | none => s.modTile r.site.tile fun t => { t with tlb := l.take 512 }
  | some _ => { s with engineTlb := alPut (b2n (isEast r.site.tile)) (l.take 256) s.engineTlb }

def TlbEntry.covers (g a : Nat) (e : TlbEntry) : Bool := e.saggar = g && e.base ≤ a && a < e.base + e.size

/-- The bytes of an ordered update (R135). -/
def updSize : UpdOp → Nat
  | .add32 | .mini32 | .maxi32 | .minn32 | .maxn32 | .fadd32 => 4
  | _ => 8

/-- The bytes of an element. -/
def elemBytes (f : Fmt) : Nat := fmtBits f / 8

/-- The elements that a collective of c elements writes on each of k ranks (R144). -/
def collOut (op : Option CollOp) (k c : Nat) : Nat :=
  match op with
  | some .allgather => k * c
  | some .reducescatter => c / k
  | _ => c

def State.cohort? (s : State) (g k : Nat) : Option Cohort := s.cohorts.find? fun c => c.saggar = g && c.num = k

/-- The ranges of the source and of the destination of a collective. -/
def State.collRanges (s : State) (g k : Nat) (op : Option CollOp) (d p n : Nat) (f : Fmt) : List (Nat × Nat) :=
  let size := ((s.cohort? g k).map (·.size)).getD 1
  [(p, n * elemBytes f), (d, collOut op size n * elemBytes f)]

/-- The ranges that a key/value command touches beside its descriptor, as the descriptor stands: the staging area of its layer,
or the commit words (R151 to R156). -/
def State.kvRanges (s : State) (g d : Nat) (op : ReqOp) : List (Nat × Nat) :=
  let v := seqDesc (s.bytes (hbmKey g d) 160)
  if (s.unmapped g d 160).isSome || !v.ok then []
  else match op with
  | .kvput _ _ _ l => [(v.area l, v.areaSize)]
  | .kvcommit _ n => [(v.commitAt n, 8)]
  | .kvrot _ => [(v.commit, 512 * v.slots)]
  | _ => []

/-- The virtual ranges that a request reads or writes in its next move. (DEDUCED, log entry 35.) -/
def Req.ranges (s : State) (r : Req) : List (Nat × Nat) :=
  match r.op with
  | .ld a n _ | .st a n _ | .clrp a n => [(a, n)]
  | .ldp a | .stp a _ => [(a, 8)]
  | .upd op a _ => [(a, updSize op)]
  | .stream a n next _ _ => [(a + 8 * next, Nat.min 8 (n - 8 * next))]
  | .copy d p n _ _ => [p, d].filterMap fun
    | .hbm a => some (a, n)
    | .store .. => none
  | .kvput d _ _ _ | .kvcommit d _ | .kvrot d => (d, 160) :: s.kvRanges r.saggar d r.op
  | .coll op d p n f k _ _ => s.collRanges r.saggar k op d p n f
  | _ => []

/-- The page that a walk looks for: the mapped page's base, or the 64-KiB page that is not mapped. -/
def State.walkPage (s : State) (g a : Nat) : Nat := ((s.page? g a).map (·.base)).getD (a - a % 65536)

/-- The addresses of some ranges at each of which a page or a bank of memory can begin. -/
def addressesOf (rs : List (Nat × Nat)) : List Nat := rs.flatMap fun x => (pieces x.1 x.2).map (·.1)

/-- The pages that a request meets. -/
def State.pagesOf (s : State) (r : Req) : List Nat := (addressesOf (r.ranges s)).map (s.walkPage r.saggar)

/-- A miss joins a walk held, takes a place when no other waits for one of its walker, or waits. (DEDUCED, log entry 35.) -/
def State.startWalk (s : State) (r : Req) (a : Nat) : State :=
  let v := s.walkPage r.saggar a
  let w := (walkerOf r.site.tile r.edge, r.saggar, v)
  let s := s.modReq r.id fun q => { q with walk := some v }
  if s.walks.contains w || s.walkWait.contains w then s
  else if (s.walks.filter (·.1 = w.1)).length < 128 && !(s.walkWait.any (·.1 = w.1)) then { s with walks := s.walks ++ [w] }
  else { s with walkWait := s.walkWait ++ [w] }

/-- A request that meets a bank under a neighbour refresh is delayed: it waits in order of arrival, and is counted once, in
its die's register of the channel and in its saggar's count (R318). (DEDUCED, log entry 78.) -/
def State.backOff (s : State) (r : Req) (a : Nat) : State :=
  let b := s.bankOf r.saggar a
  let s : State := if s.delayed.contains (b, r.id) then s else { s with delayed := s.delayed ++ [(b, r.id)] }
  if r.backed || !(s.refreshing.contains b) then s
  else
    let c := s.channelOf r.saggar a
    let s : State := { s.modReq r.id fun q => { q with backed := true } with backoff := setAt 0 s.backoff c (s.backoff.getD c 0 + 1) }
    s.modSaggar r.saggar fun g => { g with backoff := g.backoff + 1 }

/-- The management page of saggar 0 (R397). -/
def mgmtBase : Nat := 0x7FFFFFFF0000

/-- Whether a range of a saggar meets the management page. (DEDUCED, log entry 79.) -/
def onMgmt (g a n : Nat) : Bool := g = 0 && spansMeet [(a, n)] [(mgmtBase, 65536)]

/-- Whether an access of some ranges, other than an aligned load or store of 8 bytes, uses the management page (R397).
(DEDUCED, log entry 79.) -/
def Req.badMgmt (r : Req) (rs : List (Nat × Nat)) : Bool :=
  rs.any (fun x => onMgmt r.saggar x.1 x.2) && match r.op with
    | .ld _ n _ | .st _ n _ => n ≠ 8
    | _ => true

/-- Whether a delayed request is still to be served: it is there, has not faulted, and is not one that is never answered.
(DEDUCED, log entry 78.) -/
def State.stillDelayed (s : State) (q : Nat) : Bool :=
  (s.req? q).any fun r => !r.lost && !r.faulted && !r.answered && !(r.parks && s.holdUp = .runOut)

/-- The delayed request that a bank serves next (R318). -/
def State.nextDelayed (s : State) (b : Nat × Nat) : Option Nat :=
  (s.delayed.find? fun e => e.1 = b && s.stillDelayed e.2).map (·.2)

/-- Whether a request must wait for the bank of an address: it is under a neighbour refresh, or an earlier request that one
delayed is still to be served there (R318). (DEDUCED, log entry 78.) -/
def State.bankBusy (s : State) (r : Req) (a : Nat) : Bool :=
  let b := s.bankOf r.saggar a
  s.refreshing.contains b || (s.nextDelayed b).any (· ≠ r.id)

/-- A request that was delayed reaches its banks; the readouts that waited behind it there are served next (R318).
(DEDUCED, log entry 78.) -/
def State.passBanks (s : State) (r : Req) : State :=
  let mine := s.delayed.filter (·.2 = r.id)
  let due := if s.readouts.any (·.before.contains r.id) then mine.map fun e => Instr.neighbourRefreshDone e.1.1 e.1.2 else []
  { s with delayed := s.delayed.filter (·.2 ≠ r.id), agenda := s.agenda ++ due }

/-- Translate the addresses of a request, and reach their banks: the state is on the right when the request must wait for a
bank or for a walk. A hit makes its entry the most recently used. A request that has reached them all is delayed no longer.
(DEDUCED, log entry 35.) -/
def State.reach (s : State) (r : Req) : List Nat → State ⊕ State
  | [] => .inl ((s.passBanks r).modReq r.id fun q => { q with walked := [] })
  | a :: as =>
    if s.bankBusy r a then .inr (s.backOff r a)
    else
      match (s.tlbOf r).find? (TlbEntry.covers r.saggar a) with
      | some e => (s.setTlb r (e :: (s.tlbOf r).erase e)).reach r as
      | none => if r.walked.contains (s.walkPage r.saggar a) then s.reach r as else .inr (s.startWalk r a)

/-- Whether a request may act on some ranges now: the state is on the right when it must wait, or misuses the management
page. (DEDUCED, log entries 35, 79.) -/
def State.translateAt (s : State) (r : Req) (rs : List (Nat × Nat)) : State ⊕ State :=
  if r.badMgmt rs then
    let a := ((rs.find? fun x => onMgmt r.saggar x.1 x.2).map (·.1)).getD 0
    .inr (s.reqFault r { cls := 0x21, addr := a, a := BitVec.ofNat 64 a })
  else s.reach r (addressesOf rs)

def State.translate (s : State) (r : Req) : State ⊕ State := s.translateAt r (r.ranges s)

/-- The page comes into the cache of a request that waited for it; the request goes on. -/
def State.takeWalk (s : State) (r : Req) (v : Nat) : State :=
  let s := s.modReq r.id fun q => { q with walk := none, walked := q.walked ++ [v] }
  match s.page? r.saggar v with
  | none => s
  | some p =>
    let l := s.tlbOf r
    let e : TlbEntry := { saggar := r.saggar, base := p.base, size := p.size }
    if l.contains e then s else s.setTlb r (e :: l)

/-- The oldest miss that waits for a walker takes a place that is free. -/
def State.nextWalk (s : State) (w : Nat) : State :=
  match s.walkWait.find? (·.1 = w) with
  | none => s
  | some e => if 128 ≤ (s.walks.filter (·.1 = w)).length then s else { s with walkWait := s.walkWait.erase e, walks := s.walks ++ [e] }

/-- The misses that wait take every place that is free, the oldest first. -/
def State.refillWalks (s : State) : State :=
  if s.walkWait.isEmpty then s
  else (List.range 8).foldl (fun s w => (List.range 128).foldl (fun s _ => s.nextWalk w) s) s

/-- TRANSLATION_WALK_DONE (R310): the walk of page v of saggar g ends, and every miss that joined it goes on.
(DEDUCED, log entry 35.) -/
def execTranslationWalkDone (g v : Nat) (s : State) : Result :=
  match s.walks.find? fun e => e.2 = (g, v) with
  | none => .next s
  | some e =>
    let s := { s with walks := s.walks.erase e }
    let s := s.reqs.foldl (fun s r =>
      if r.walk = some v && r.saggar = g && walkerOf r.site.tile r.edge = e.1 then s.takeWalk r v else s) s
    .next (s.nextWalk e.1)

/-! ### The order of performance (R77, R79, R86, R310) -/

/-- Whether an operation goes through the in-order port of the tile store (R86, note 1). -/
def ReqOp.tilePort : ReqOp → Bool
  | .lds .. | .sts .. | .tlook .. | .tset .. | .tinv .. | .ldfe .. | .stfe .. => true
  | _ => false

def Place.span (s : State) (g : Nat) (n : Nat) : Place → Nat × Nat
  | .hbm a => (hbmKey g a, n)
  | .store t off _ => (partKey s g t off, n)

/-- The package tile of a relative tile of the region of a bank. -/
def State.tileOf (s : State) (x : Site) (rt : Nat) : Option Nat :=
  ((s.launchAt x).bind fun l => l.tiles.find? (·.rtile = rt)).map (·.tile)

/-- The ranges of keys that a put touches in the tile stores: its rows, and the slot of its block (R152, R153). -/
def State.kvSpans (s : State) (r : Req) : List (Nat × Nat) :=
  match r.op with
  | .kvput d off n l =>
    let v := seqDesc (s.bytes (hbmKey r.saggar d) 160)
    let slot := ((v.slotAt l (n / 64)).bind fun e => (s.tileOf r.site e.1).map fun t => (partKey s r.saggar t e.2, v.slotSize)).toList
    (partKey s r.saggar r.site.tile off, 4 * v.dim * v.heads) :: slot
  | _ => []

/-- The ranges of keys that a request touches. -/
def Req.spans (s : State) (r : Req) : List (Nat × Nat) :=
  let hbm := (r.ranges s).map fun x => (hbmKey r.saggar x.1, x.2)
  match r.op with
  | .stream a n _ _ _ => [(hbmKey r.saggar a, n)]
  | .copy d p n _ _ => [d.span s r.saggar n, p.span s r.saggar n]
  | .kvput .. => hbm ++ s.kvSpans r
  | _ => hbm

/-- The granule of a full/empty access, as an offset of its tile's partition in granules (R94). (DEDUCED, log entry 33.) -/
def ReqOp.granule? : ReqOp → Option Nat
  | .ldfe a | .stfe a _ _ => some (a / 16)
  | _ => none

/-- The range of a saggar that holds an address. -/
def State.ownerOf (s : State) (g a : Nat) : Option OwnerRange :=
  s.owners.find? fun w => w.saggar = g && w.base ≤ a && a < w.base + w.len

/-- The node that owns the target of an update (R102). -/
def State.nodeOf (s : State) (r : Req) : Option Site := match r.op with
  | .upd _ a _ => (s.ownerOf r.saggar a).map (·.site)
  | _ => none

/-- Whether an earlier request of a cell is kept before a later one on its path: they touch a common byte, made by the cell
or by one queue on its behalf (R77); both go through the tile store's port (R86); both are updates of one owner (R103); or
both are collectives of one cohort (R85 note 8). -/
def State.keptPair (s : State) (o r : Req) : Bool :=
  o.site = r.site && o.path = r.path &&
    (o.queue = r.queue && spansMeet (o.spans s) (r.spans s) || o.op.tilePort && r.op.tilePort
      || ((s.nodeOf o).isSome && s.nodeOf o = s.nodeOf r)
      || match o.op, r.op with
        | .coll _ _ _ _ _ k _ _, .coll _ _ _ _ _ k' _ _ => k = k'
        | _, _ => false)

/-- Whether an older request keeps a request back: one kept before it; one that waits for the walk of a page that it meets
(R310); or, of any cell of the tile, a full/empty access of its granule (R94). A deferred presence load keeps nothing back
(R85 note 3). (DEDUCED, log entry 33.) -/
def State.keptBack (s : State) (r : Req) : Bool :=
  s.reqs.any fun o => o.id < r.id && !o.performed && !o.deferred && !o.lost &&
    (s.keptPair o r || (o.site = r.site && o.path = r.path && (match o.walk with
        | some v => (s.pagesOf r).contains v
        | none => false))
      || (o.site.tile = r.site.tile && o.saggar = r.saggar && o.op.granule?.isSome && o.op.granule? = r.op.granule?))

/-- Whether a request may be performed now. A parked request is never answered once the run-out has begun (R373). -/
def State.mayPerform (s : State) (r : Req) : Bool :=
  !r.faulted && !r.lost && r.walk.isNone && !r.deferred && !r.performed && !r.answered
    && r.after.all (fun f => (s.req? f).isNone) && !(r.parks && s.holdUp = .runOut) && !(s.keptBack r)

/-! ### The issue of a request (R100, R118, R119, R121) -/

/-- Whether a request is an access or an engine command (R138). -/
def ReqOp.isAccess (o : ReqOp) : Bool := o.kind < 7

/-- Whether a request counts toward the 32 of a cell on path L (R100, R138, R140). (DEDUCED, log entry 46.) -/
def Req.countsL (r : Req) : Bool :=
  r.path = .l && !(r.performed && (r.cout.isSome || r.spent)) && match r.op with
    | .cmpl .. | .bar .. => true
    | .fence .. => false
    | o => o.isAccess

/-- Whether a request holds no place any more: it is lost, or it is a post whose barrier is complete or of a frozen region (R140).
(DEDUCED, log entry 46.) -/
def State.givenUp (s : State) (r : Req) : Bool :=
  r.lost || match r.op with
    | .bcpost _ complete => complete || ((s.launch? r.launch).map (·.freeze)).getD false
    | _ => false

/-- The L-path requests of a cell, over all its planes. (DEDUCED, log entry 46.) -/
def State.outstandingL (s : State) (x : Site) : Nat :=
  (s.reqs.filter fun r => r.countsL && r.site.tile = x.tile && r.site.cell = x.cell && !(s.givenUp r)).length

/-- The fences of a cell that hold back an operation: an access waits for those not yet complete that name its path second
(R79); a fence, a CMPL or a BAR waits for every earlier one (R75, R85). -/
def State.fencesOn (s : State) (x : Site) (o : ReqOp) (p : Path) : List Nat :=
  (s.reqs.filter fun r => r.site = x && match r.op with
    | .fence _ y => y = p || o.kind = 7
    | _ => false).map (·.id)

/-! ### What is ordered before an access (R78, R79) -/

/-- The accesses of a cell that some test picks, those outstanding and those that wrote a byte not yet seen everywhere, with
every access ordered before them. -/
def State.accessesOf (s : State) (f : Req → Bool) (g : Lag → Bool) : List Nat :=
  let rs := s.reqs.filter f
  let ls := s.lags.filter g
  rs.map (·.id) ++ rs.flatMap (·.past) ++ ls.map (·.acc) ++ pastOf ls

/-- The accesses that are ordered before a request at its issue (R77, R78). -/
def State.pastFor (s : State) (r : Req) : List Nat :=
  let sp := r.spans s
  let own := s.accessesOf (fun o => s.keptPair o r) fun l =>
    l.site = some r.site && l.path = r.path && spansMeet [(l.key, 1)] sp
  ((own ++ (s.bank r.site).knownOn r.path).eraseDups).filter s.live

/-- The accesses that a cell has issued on a path, as a fence covers them, with those whose tokens it has tested (R79). -/
def State.coveredOn (s : State) (x : Site) (p : Path) : List Nat :=
  let host (l : Lag) : Bool := p = .h && l.path = .h
  (s.accessesOf (fun r => r.site = x && r.path = p && r.op.isAccess && !r.performed)
    (fun l => l.path = p && (l.site = some x || host l)) ++ (s.bank x).knownOn p).eraseDups

/-- The accesses that a cell has issued, each with its own path (R138, R296). -/
def State.issuedBy (s : State) (x : Site) : List (Path × Nat) :=
  let on (p : Path) : List (Path × Nat) :=
    (s.accessesOf (fun r => r.site = x && r.path = p && r.op.isAccess && !r.performed)
      fun l => l.path = p && l.site = some x).map fun a => (p, a)
  s.prune (allPaths.flatMap on)

/-- What a rule asks for. -/
structure Ask where
  op    : ReqOp
  path  : Path
  dst   : ReqDst := .none
  cm    : Option Nat := none
  data  : Nat := 0
  run   : Bool := false
  queue : Option Nat := none
  joint : List (Path × Nat) := []

/-- The output of a request's data. -/
def ReqDst.out? : ReqDst → Option Nat
  | .out o => some o
  | _ => Option.none

/-- The slots that a request takes at commit: its data tokens, or the first token of its run, and its completion token. -/
def Ask.slots (a : Ask) : List Nat :=
  (match a.dst.out? with | some o => List.replicate a.data o | none => []) ++ a.cm.toList

/-- Whether the completion token follows the data in one group (R72, R119). -/
def Ask.joined (a : Ask) : Bool := !a.run && a.cm.isSome && a.dst.out? = a.cm

/-- The register writes of a request, which are pending from the commit (R120). -/
def ReqDst.pending : ReqDst → List PWrite
  | .reg r => [.reg r 0]
  | .pair r t => [.reg r 0, .reg t 0]
  | _ => []

/-- The groups of a request on its outputs. -/
def State.openGroups (s : State) (x : Site) (a : Ask) (id cg : Nat) : State :=
  let s := match a.dst.out? with
    | some o => s.reserve x o id (a.data + b2n a.joined) (!a.run) a.run
    | none => s
  match a.cm with
  | some o => if a.joined then s else s.reserve x o cg 1 true false
  | none => s

/-- The request that a rule asks for. -/
def State.asked (s : State) (c : Ctx) (a : Ask) : Req :=
  { id := c.id, site := c.x, launch := s.launchNum c.x, saggar := s.saggarOf c.x, rule := c.k
    word := (s.bank c.x).rules.getD c.k 0, path := a.path, op := a.op, dst := a.dst, cout := a.cm
    cgroup := if a.joined then c.id else s.nextId, queue := a.queue, after := s.fencesOn c.x a.op a.path, joint := a.joint }

/-- Issue a request: it is outstanding from here on. -/
def State.issue (s : State) (c : Ctx) (a : Ask) : State :=
  let r := s.asked c a
  let cg := r.cgroup
  let r := { r with past := s.pastFor r }
  let s := { s with nextId := s.nextId + 1 }.openGroups c.x a c.id cg
  let s := if a.dst.pending.isEmpty then s
    else s.modBank c.x fun b => { b with pend := b.pend ++ [{ id := c.id, rule := c.k, left := none, writes := a.dst.pending }] }
  { s with reqs := s.reqs ++ [r] }

/-- The misaligned-access fault at issue of an access that misuses the management page (R121, R397): of a key/value command
only its descriptor is known. (DEDUCED, log entry 79.) -/
def State.mgmtFault (s : State) (c : Ctx) (a : Ask) : Option Raise :=
  let r := s.asked c a
  let rs := match a.op with
    | .kvput d _ _ _ | .kvcommit d _ | .kvrot d => [(d, 160)]
    | _ => r.ranges s
  if r.badMgmt rs then
    let v := ((rs.find? fun x => onMgmt r.saggar x.1 x.2).map (·.1)).getD 0
    some { cls := 0x21, addr := v, a := BitVec.ofNat 64 v }
  else none

/-- The plan of a rule that asks for one request. -/
def Ctx.request (c : Ctx) (s : State) (fault : Option Raise) (refuse : Bool) (a : Ask) : Plan :=
  { fault := fault.or (s.mgmtFault c a)
    slots := a.slots
    refuse := refuse || (a.path = .l && 32 ≤ s.outstandingL c.x)
    act := fun s => s.issue c a }

/-- The destination of a load. -/
def Dst.reqDst : Dst → ReqDst
  | .g n => .reg (.g n.toNat)
  | .m n => .reg (.m n.toNat)
  | .o n => .out n.toNat
  | .zero => .none

end Sys2Proof.Machine
end

