-- ==== Sys2Proof/Machine/Mgmt.lean ====
section
/-! DEFINITION. The management registers (R265, R317, R397). -/

namespace Sys2Proof.Machine

/-- MODE: bisque mode, degraded, and the tile clock. -/
def State.modeReg (s : State) : Nat :=
  b2n (s.service = .bisque || s.service = .refused) ||| b2n s.degraded <<< 1 ||| (s.tile 8).clock <<< 2

/-- The contents of the register at an offset; zero where there is none. (DEDUCED, log entry 79.) -/
def State.mgmtReg (s : State) (x : Nat) : Word :=
  if x % 8 ≠ 0 then 0
  else if x = 0x000 then BitVec.ofNat 64 s.colthr
  else if x = 0x008 then BitVec.ofNat 64 s.rmthr
  else if x = 0x010 then BitVec.ofNat 64 s.modeReg
  else if x ≤ 0x028 then BitVec.ofNat 64 (Config.sensor (x / 8) s.tick)
  else if 0x040 ≤ x ∧ x < 0x080 then (s.alerts.getD ((x - 0x040) / 8) 0).setWidth 64
  else if 0x100 ≤ x ∧ x < 0x900 then (s.backoff.getD ((x - 0x100) / 8) 0).setWidth 64
  else if 0x900 ≤ x ∧ x < 0x980 then ((s.ports.getD ((x - 0x900) / 8) {}).drops).setWidth 64
  else 0

/-- A write of the register at an offset: of a read-only one, or of a value outside its range, it changes nothing.
(DEDUCED, log entry 79.) -/
def State.mgmtWrite (s : State) (x : Nat) (v : Word) : State :=
  if x = 0x000 ∧ 1 ≤ v.toNat ∧ v.toNat ≤ 16 then { s with colthr := v.toNat }
  else if x = 0x008 ∧ 512 ≤ v.toNat ∧ v.toNat ≤ 65535 then { s with rmthr := v.toNat }
  else s

/-- COLTHR_WRITE (R265). -/
def execColthrWrite (v : Word) (s : State) : Result := .next (s.mgmtWrite 0x000 v)

/-- RMTHR_WRITE (R317). -/
def execRmthrWrite (v : Word) (s : State) : Result := .next (s.mgmtWrite 0x008 v)

/-- MGMT_REG_WRITE (R397): a write at an offset of the page. -/
def execMgmtRegWrite (x : Nat) (v : Word) (s : State) : Result := .next (s.mgmtWrite x v)

end Sys2Proof.Machine
end

