-- ==== Sys2Proof/Machine/XUnit.lean ====
section
/-! DEFINITION. Group 0x7_: contractions, fills, runs, and corner turns (R180 to R198, R224 to R238). -/

namespace Sys2Proof.Machine

/-! ### What stands next on a channel that a unit consumes (R189, R191, R225, R351) -/

/-- The head of a channel as a unit finds it. -/
inductive Due
  | absent | marker
  | header (t : Token) | taggedHeader (t : Token)
  | wrong (t : Token)
  | tagged (t : Token)
  | data (t : Token)
deriving DecidableEq, Repr

/-- What is due on channel n of a bank. (DEDUCED, log entry 26.) -/
def Bank.dueOn (b : Bank) (n : Nat) : Due :=
  let c := b.chan n
  match c.toks with
  | [] => .absent
  | t :: _ =>
    if t.cls = clsMarker then .marker
    else if t.cls = clsHdr ∧ fmtSsrc c.fmt = 1 then (if t.etag then .taggedHeader t else .header t)
    else if t.cls = clsData ∨ t.cls = clsLast then (if t.etag then .tagged t else .data t)
    else .wrong t

/-- A unit stands still after a fault. -/
def State.killUnit (s : State) (x : Site) (id : Nat) : State :=
  s.modBank x fun b => { b with units := b.units.map fun u => if u.id = id then { u with dead := true } else u }

/-- A fault of a unit: raised after commit, and imprecise (R188, R359). (DEDUCED, log entry 26.) -/
def State.unitFault (s : State) (x : Site) (u : UnitRec) (r : Raise) : State :=
  (s.raiseAt x u.rule r).killUnit x u.id

/-- A fault that names a channel and the payload of its head. -/
def headRaise (cls n : Nat) (t : Token) : Raise := { cls := cls, a := BitVec.ofNat 64 n, b := t.payload }

/-- The poison fault of a unit (R351). (DEDUCED, log entry 24.) -/
def unitPoison (n : Nat) (t : Token) : Raise := { headRaise 0x0A n t with reason := 2 }

/-- A unit latches the scale header at the head of a channel (R178, R189). -/
def State.takeHeader (s : State) (x : Site) (u : UnitRec) (n : Nat) : State :=
  let bad := ((s.bank x).chan n).badHead.isSome
  let s := (s.removeHead x u.rule n).progress x
  if bad then s.killUnit x u.id else s

/-- A unit removes the head of a channel that it has read. -/
def State.takeData (s : State) (x : Site) (u : UnitRec) (n : Nat) : State := (s.removeHead x u.rule n).progress x

/-- A unit of a single channel: what it does with a head that is no data token for it, or with the data token. -/
def State.consume (s : State) (x : Site) (u : UnitRec) (n : Nat) (take : Token → State) : State :=
  match (s.bank x).dueOn n with
  | .absent => s
  | .marker => s
  | .header _ => s.takeHeader x u n
  | .taggedHeader t => s.unitFault x u (unitPoison n t)
  | .tagged t => s.unitFault x u (unitPoison n t)
  | .wrong t => s.unitFault x u (headRaise 0x4D n t)
  | .data t => take t

/-! ### The operands of a step (R180 to R182) -/

/-- The element formats that a contraction format accepts (R181). -/
def accepts (f : CFmt) (e : Fmt) : Bool :=
  match f with
  | .f64 => e = .fp64
  | .f32 => e = .fp32
  | .bf16 | .f16 => e = .bf16 || e = .fp16
  | .f8 => e = .e4m3 || e = .e5m2
  | .cb4 => e = .cb4
  | .i8 => e = .int8

/-- Row and column of a lane or element number. -/
def rowOf (e : Nat) : Nat := e / 16 % 16
def colOf (e : Nat) : Nat := e % 16

/-- The sub-tile of a lane (R182). -/
def subTile (e : Nat) : Nat := 4 * (rowOf e / 4) + colOf e / 4

/-- The value of element e of the stay, without its scale; CB4 codes are looked up as the codebook now stands (R182). -/
def Bank.stayVal (b : Bank) (fmt : CFmt) (stay : Option Nat) (e : Nat) : FVal :=
  match stay with
  | none => .one
  | some t =>
    let tile := b.stay.getD t {}
    let low := (tile.el.getD e 0).toNat
    if fmt = .f32 then
      Machine.fp32.decode (low ||| ((b.stay.getD 1 {}).el.getD e 0).toNat <<< 16)
    else match tile.fmt with
      | .cb4 => Machine.bf16.decode (b.codebook tile.cb (low % 16))
      | f => decodeAs f (low % 2 ^ fmtBits f)

/-- The element of a stream that lane e uses. -/
def CStream.at? (s : CStream) (e : Nat) : Option Elem := s.ch.map fun _ => s.buf.getD (if s.idxJ then colOf e else rowOf e) { val := .zero }

def CStream.val (s : CStream) (e : Nat) : FVal := ((s.at? e).map (·.val)).getD .one

/-- The scale bytes on the sub-tile of lane e. -/
def Bank.laneScales (b : Bank) (c : Contraction) (e : Nat) : List Nat :=
  let st := match c.stay with
    | some t => if c.fmt = .f32 then [] else [(b.stay.getD t {}).scales.getD (subTile e) 0x7F]
    | none => []
  st ++ ((c.u.at? e).map (·.scale)).toList ++ ((c.v.at? e).map (·.scale)).toList

/-- The exact product of E8M0 scales as a power of two; none when one of them is NaN (R162). -/
def scaleProduct (bs : List Nat) : Option Int :=
  if bs.contains 0xFF then none else some (bs.foldl (fun k (b : Nat) => k + ((b : Int) - 127)) (0 : Int))

/-- A block sum times its scale product (R183, R188). -/
def scaledBy (x : FVal) : Option Int → FVal
  | none => .nan x.neg?
  | some k => x.scaleBy k

/-- The product of lane e: its operands in the order in which NaN order counts them (R188). -/
def Bank.laneProduct (b : Bank) (c : Contraction) (e : Nat) : FRes :=
  let sv := b.stayVal c.fmt c.stay e
  let uv := c.u.val e
  let vv := c.v.val e
  fprodV (match c.role with
    | 0 => [sv, uv, vv]
    | 1 => [uv, sv, vv]
    | _ => [uv, vv, sv])

/-! ### The arithmetic of a step (R183 to R188) -/

/-- FP32 under .rne, from an exact value. -/
def r32 (v : FVal) (env : REnv) : Nat × REnv := fpRound Machine.fp32 .rne false v env

/-- The rounded sum of two FP32 encodings; of two NaNs the left one gives the sign. (DESIGN CHOICE, log entry 83.) -/
def add32 (a b : Nat) (env : REnv) : Nat × REnv :=
  let r := faddV .rne (Machine.fp32.decode a) (Machine.fp32.decode b)
  r32 r.val (env.raise r.flags)

/-- Four FP32 encodings added in pairs. -/
def tree4 (p : List Nat) (env : REnv) : Nat × REnv :=
  let a := add32 (p.getD 0 0) (p.getD 1 0) env
  let b := add32 (p.getD 2 0) (p.getD 3 0) a.2
  add32 a.1 b.1 b.2

/-- A block of four lanes: summed exactly, scaled and rounded once (R183); for FP32 each product rounded first (R185). -/
def Bank.block (b : Bank) (c : Contraction) (lanes : List Nat) (env : REnv) : Nat × REnv :=
  if c.fmt = .f32 then
    let ps := lanes.foldl (fun (a : List Nat × REnv) e =>
      let r := b.laneProduct c e
      let q := r32 r.val (a.2.raise r.flags)
      (a.1 ++ [q.1], q.2)) ([], env)
    tree4 ps.1 ps.2
  else
    let rs := lanes.map (b.laneProduct c)
    let env := rs.foldl (fun env r => env.raise r.flags) env
    let sum := fsumV .rne (rs.map (·.val))
    r32 (scaledBy sum.val (scaleProduct (b.laneScales c (lanes.headD 0)))) (env.raise sum.flags)

/-- One reduced line of sixteen lanes (R183). -/
def Bank.line (b : Bank) (c : Contraction) (lane : Nat → Nat) (env : REnv) : Nat × REnv :=
  let ps := (List.range 4).foldl (fun (a : List Nat × REnv) k =>
    let r := b.block c ((List.range 4).map fun i => lane (4 * k + i)) a.2
    (a.1 ++ [r.1], r.2)) ([], env)
  tree4 ps.1 ps.2

/-- The results of a step that is not FP64 or INT8, with the element numbers at which they are placed (R180, R183, R184). -/
def Bank.stepResults (b : Bank) (c : Contraction) (env : REnv) : List (Nat × Nat) × REnv :=
  let many (n : Nat) (f : Nat → REnv → Nat × REnv) (at_ : Nat → Nat) : List (Nat × Nat) × REnv :=
    (List.range n).foldl (fun (a : List (Nat × Nat) × REnv) k =>
      let r := f k a.2
      (a.1 ++ [(at_ k, r.1)], r.2)) ([], env)
  let col (j : Nat) (env : REnv) := b.line c (fun i => 16 * i + j) env
  match c.surv with
  | .ij => many 256 (fun e env =>
      let p := b.laneProduct c e
      let v := if c.fmt = .f32 then p.val else scaledBy p.val (scaleProduct (b.laneScales c e))
      r32 v (env.raise p.flags)) id
  | .j => many 16 col id
  | .i => many 16 (fun i env => b.line c (fun j => 16 * i + j) env) (16 * ·)
  | .none =>
    let rs := many 16 col id
    let cs := (List.range 4).foldl (fun (a : List Nat × REnv) k =>
      let xs := (List.range 4).map fun n => Machine.fp32.decode ((rs.1.getD (4 * k + n) (0, 0)).2)
      let sum := fsumV .rne xs
      let r := r32 sum.val (a.2.raise sum.flags)
      (a.1 ++ [r.1], r.2)) ([], rs.2)
    let r := tree4 cs.1 cs.2
    ([(0, r.1)], r.2)

/-- Where the product of lane e is placed (R180). -/
def placed (sv : Shape) (e : Nat) : Nat :=
  match sv with
  | .ij => e
  | .i => 16 * rowOf e
  | .j => colOf e
  | .none => 0

/-- The element numbers of a shape, in order (R180, R235). -/
def placesOf : Shape → List Nat
  | .ij => List.range 256
  | .i => (List.range 16).map (16 * ·)
  | .j => List.range 16
  | .none => [0]

/-- Whether this step replaces what stands at the placed positions (R180). -/
def Contraction.overwrites (c : Contraction) : Bool := c.ovw && c.steps = 0

/-- A step of an FP32 accumulator (R183 to R185). -/
def Bank.stepFloat (b : Bank) (c : Contraction) (el : List (BitVec 32)) (env : REnv) : List (BitVec 32) × REnv :=
  let rs := b.stepResults c env
  rs.1.foldl (fun (a : List (BitVec 32) × REnv) (p, r) =>
    if c.overwrites then (setAt 0 a.1 p (BitVec.ofNat 32 r), a.2)
    else
      let q := add32 (a.1.getD p 0).toNat r a.2
      (setAt 0 a.1 p (BitVec.ofNat 32 q.1), q.2)) (el, rs.2)

/-- The FP64 element at a position of a pair of tiles (R186). -/
def pairAt (lo hi : List (BitVec 32)) (p : Nat) : Nat := (lo.getD p 0).toNat ||| (hi.getD p 0).toNat <<< 32

/-- A step of an FP64 accumulator: each lane product is fused into its addition (R186). -/
def Bank.stepPair (b : Bank) (c : Contraction) (lo hi : List (BitVec 32)) (env : REnv) :
    (List (BitVec 32) × List (BitVec 32)) × REnv :=
  let start := if c.overwrites then
      ((placesOf c.surv).foldl (fun l p => setAt 0 l p 0) lo, (placesOf c.surv).foldl (fun l p => setAt 0 l p 0) hi)
    else (lo, hi)
  (List.range 256).foldl (fun (a : (List (BitVec 32) × List (BitVec 32)) × REnv) e =>
    let p := placed c.surv e
    let x := b.laneProduct c e
    let sum := faddV .rne (Machine.fp64.decode (pairAt a.1.1 a.1.2 p)) x.val
    let r := fpRound Machine.fp64 .rne false sum.val ((a.2.raise x.flags).raise sum.flags)
    ((setAt 0 a.1.1 p (BitVec.ofNat 32 r.1), setAt 0 a.1.2 p (BitVec.ofNat 32 (r.1 >>> 32))), r.2)) (start, env)

/-- The exact integer of a finite value. -/
def FVal.toInt : FVal → Int
  | .fin n m e _ => let v : Int := (m * 2 ^ e.toNat : Nat); if n then -v else v
  | _ => 0

/-- A step of an INT32 accumulator (R187). -/
def Bank.stepInt (b : Bank) (c : Contraction) (el : List (BitVec 32)) (env : REnv) : List (BitVec 32) × REnv :=
  let sumAt (p : Nat) : Int := (List.range 256).foldl (fun (s : Int) e =>
    if placed c.surv e = p then s + (b.laneProduct c e).val.toInt else s) 0
  (placesOf c.surv).foldl (fun (a : List (BitVec 32) × REnv) p =>
    let v := (if c.overwrites then 0 else (a.1.getD p 0).toInt) + sumAt p
    (setAt 0 a.1 p (BitVec.ofInt 32 v), a.2.raiseIf (v < -(2 ^ 31) || 2 ^ 31 - 1 < v) flagIntOverflow)) (el, env)

/-- Whether an INT8 step has a block whose scale product is not 1.0 (R187). (DEDUCED, log entry 27.) -/
def Bank.badScales (b : Bank) (c : Contraction) : Bool :=
  c.fmt = .i8 && (List.range 256).any fun e => scaleProduct (b.laneScales c e) ≠ some 0

def AccTile.setEl (t : AccTile) (el : List (BitVec 32)) : AccTile := { t with el := el }

/-- A bank after a step of a contraction has been added, with the step's flags (R188). -/
def Bank.addStep (b : Bank) (c : Contraction) : Bank :=
  let env : REnv := { lfsr := b.lfsr, flags := 0 }
  let t0 := b.acc.getD c.acc {}
  let t1 := b.acc.getD (c.acc + 1) {}
  match c.fmt with
  | .f64 =>
    let r := b.stepPair c t0.el t1.el env
    { b with acc := setAt {} (setAt {} b.acc c.acc (t0.setEl r.1.1)) (c.acc + 1) (t1.setEl r.1.2), sticky := b.sticky ||| r.2.flags }
  | .i8 =>
    let r := b.stepInt c t0.el env
    { b with acc := setAt {} b.acc c.acc (t0.setEl r.1), sticky := b.sticky ||| r.2.flags }
  | _ =>
    let r := b.stepFloat c t0.el env
    { b with acc := setAt {} b.acc c.acc (t0.setEl r.1), sticky := b.sticky ||| r.2.flags }

/-! ### Accumulator records (R194, R224, R228) -/

/-- The tiles of an accumulator: the pair for FP64. -/
def accTiles (pair : Bool) (a : Nat) : List Nat := if pair then [a, a + 1] else [a]

def Bank.modAcc (b : Bank) (n : Nat) (f : AccTile → AccTile) : Bank := { b with acc := setAt {} b.acc n (f (b.acc.getD n {})) }

/-- A firing owns tiles from its commit (R194, R236). -/
def Bank.own (b : Bank) (c : Ctx) (ts : List Nat) : Bank :=
  ts.foldl (fun b n => b.modAcc n fun t => { t with owner := some (c.id, c.k, b.rounds), occ := 0 }) b

/-- Ownership ends. -/
def Bank.disown (b : Bank) (ts : List Nat) : Bank := ts.foldl (fun b n => b.modAcc n fun t => { t with owner := none }) b

/-- The kinds that a contraction format records. -/
def contractKinds : CFmt → List AccKind
  | .f64 => [.fp64lo, .fp64hi]
  | .i8 => [.int32]
  | _ => [.fp32]

/-- Kinds and a shape are recorded in the tiles from a on. -/
def Bank.record (b : Bank) (a : Nat) (ks : List AccKind) (sh : Shape) : Bank :=
  (ks.zipIdx).foldl (fun b (k, n) => b.modAcc (a + n) fun t => { t with kind := k, shape := sh }) b

/-! ### CONTRACT and GRADPAIR (R226 to R230) -/

/-- The channel that a stream position names; none for the unit. -/
def streamCh (h : Hdr) : Src → Option Nat
  | .head hd => Hdr.headCh h hd
  | _ => none

/-- U and V of CONTRACT: the two positions that are not the stay's, in ascending order (R226). -/
def uvOf (role : BitVec 2) (s1 s2 s3 : Src) : Src × Src :=
  match role.toNat with
  | 0 => (s2, s3)
  | 1 => (s1, s3)
  | _ => (s1, s2)

/-- Whether the format of a contraction accepts its stay tile's recorded format (R228). -/
def Bank.stayAccepted (b : Bank) (c : Contraction) : Bool :=
  match c.stay with
  | some t => (stayTiles (c.fmt = .f32) t).all fun n => accepts c.fmt (b.stay.getD n {}).fmt
  | none => true

/-- The channels of a contraction. -/
def Contraction.chans (c : Contraction) : List Nat := (c.u.ch.toList ++ c.v.ch.toList).eraseDups

/-- The commit of a contraction (R228), as unit number id; its fault names the accumulator. (DEDUCED, log entry 24.) -/
def State.startContraction (c : Ctx) (id : Nat) (w : Contraction) (s : State) : State :=
  let ts := accTiles (w.fmt = .f64) w.acc
  let s := s.modBank c.x fun b => (b.own c ts).record w.acc (contractKinds w.fmt) w.surv
  let u : UnitRec := { id := id, firing := c.id, rule := c.k, work := .contraction w }
  let s := s.modBank c.x fun b => { b with units := b.units ++ [u] }
  if (s.bank c.x).stayAccepted w then s
  else s.unitFault c.x u { cls := 0x4B, a := BitVec.ofNat 64 w.acc }

/-- CONTRACT (R228). -/
def execContract (h : Hdr) (fmt : CFmt) (s1 s2 s3 : Src) (role : BitVec 2) (sv : Shape) (uidx vidx : Bool) (acc : BitVec 2)
    (stile ovw : Bool) (half : BitVec 2) (s : State) : Result :=
  fire (.contract h fmt s1 s2 s3 role sv uidx vidx acc stile ovw half) (fun c _ =>
    let (u, v) := uvOf role s1 s2 s3
    let w : Contraction := {
      fmt := fmt, stay := if role = 3 then none else some (b2n stile), role := role.toNat
      u := { ch := streamCh h u, idxJ := uidx }, v := { ch := streamCh h v, idxJ := vidx }
      surv := sv, acc := acc.toNat, ovw := ovw, half := half.toNat }
    { act := State.startContraction c c.id w }) s

/-- GRADPAIR (R230): the second half is a unit of its own number. -/
def execGradpair (h : Hdr) (fmt : CFmt) (hd0 hd1 : Head) (sv1 sv0 : Shape) (idx0 idx1 : Bool) (acc0 : BitVec 2)
    (stile ovw : Bool) (acc1 : BitVec 2) (s : State) : Result :=
  fire (.gradpair h fmt hd0 hd1 sv1 sv0 idx0 idx1 acc0 stile ovw acc1) (fun c _ =>
    let part (hd : Head) (sv : Shape) (idx : Bool) (acc : BitVec 2) (half : Nat) : Contraction := {
      fmt := fmt, stay := some (b2n stile), role := 1
      u := { ch := Hdr.headCh h hd, idxJ := idx }, v := {}
      surv := sv, acc := acc.toNat, ovw := ovw, half := half }
    { act := fun s =>
        let id2 := s.nextId
        let s : State := { s with nextId := s.nextId + 1 }
        (s.startContraction c c.id (part hd0 sv0 idx0 acc0 1)).startContraction c id2 (part hd1 sv1 idx1 acc1 2) }) s

/-! ### CONTRACTION_STEP (R189 to R192, R195) -/

/-- The contraction of a unit. -/
def UnitRec.contraction? (u : UnitRec) : Option Contraction :=
  match u.work with
  | .contraction c => some c
  | _ => none

/-- The contractions of a bank that move together with unit u: those that share a channel with it (R195). -/
def Bank.feedGroup (b : Bank) (u : Nat) : List (UnitRec × Contraction) :=
  let all := b.units.filterMap fun r => r.contraction?.map fun c => (r, c)
  match all.find? fun (r, _) => r.id = u with
  | none => []
  | some (_, c) => all.filter fun (r, d) => r.id = u || meetsL d.chans c.chans

/-- The elements that a data token of channel n carries, with their scales (R176, R178). -/
def Bank.tokenElems (b : Bank) (n : Nat) (t : Token) : List Elem :=
  let c := b.chan n
  let f := fmtOf c.fmt
  (List.range (perToken f)).map fun e =>
    { val := b.elemRaw c.fmt (elemBits (fmtBits f) t.payload e), scale := b.scaleByte n e }

/-- A stream after it has taken a token of its channel. -/
def CStream.take (s : CStream) (n : Nat) (w : Word) (es : List Elem) : CStream :=
  if s.ch = some n then { s with buf := s.buf ++ es, held := s.held ++ [w], count := s.count + es.length } else s

def Contraction.take (c : Contraction) (n : Nat) (w : Word) (es : List Elem) : Contraction :=
  { c with u := c.u.take n w es, v := c.v.take n w es }

/-- Whether a vector of every stream is complete. -/
def Contraction.full (c : Contraction) : Bool :=
  let one (s : CStream) : Bool := s.ch.isNone || 16 ≤ s.buf.length
  one c.u && one c.v

/-- The contraction for the next step. -/
def Contraction.next (c : Contraction) : Contraction :=
  { c with steps := c.steps + 1, u := { c.u with buf := c.u.buf.drop 16, held := [] }
           v := { c.v with buf := c.v.buf.drop 16, held := [] } }

/-- The info words of a stream-length-mismatch (R190). -/
def Contraction.mismatch (c : Contraction) : Raise :=
  let uc := (c.u.ch.or c.v.ch).getD 0
  let vc := (c.v.ch.or c.u.ch).getD 0
  { cls := 0x4C, a := BitVec.ofNat 64 (uc ||| vc <<< 5)
    b := BitVec.ofNat 64 (c.u.count % 2 ^ 32 ||| (c.v.count % 2 ^ 32) <<< 32) }

/-- What the tokens taken make of a contraction (R190). -/
inductive Took
  | wait | step | last | fault (r : Raise)
deriving DecidableEq, Repr

/-- The outcome for a contraction that has taken a token of each stream; `isLast` says which channels gave a data-last. -/
def Bank.took (b : Bank) (c : Contraction) (isLast : Nat → Bool) : Took :=
  let ls := c.chans.map isLast
  let some_ := ls.any id
  let all_ := ls.all id
  if (some_ && !all_) || (some_ && !c.full) then .fault c.mismatch
  else if !c.full then .wait
  else if b.badScales c then
    .fault { cls := 0x4B, a := BitVec.ofNat 64 (((c.u.ch.or c.v.ch).getD 0) ||| ((c.v.ch.or c.u.ch).getD 0) <<< 5)
             b := BitVec.ofNat 64 c.u.count }
  else if some_ then .last else .step

/-- A contraction is final: its tiles are owned no longer, its half is free (R192). -/
def State.endContraction (s : State) (x : Site) (u : UnitRec) (c : Contraction) : State :=
  (s.modBank x fun b => b.disown (accTiles (c.fmt = .f64) c.acc)).dropUnit x u.id

/-- The outcome takes effect. -/
def State.applyTook (x : Site) (s : State) (p : UnitRec × Contraction × Took) : State :=
  let (u, c, k) := p
  match k with
  | .wait => s.setWork x u.id (.contraction c)
  | .step => (s.modBank x fun b => b.addStep c).setWork x u.id (.contraction c.next)
  | .last => ((s.modBank x fun b => b.addStep c).setWork x u.id (.contraction c.next)).endContraction x u c
  | .fault r => (s.setWork x u.id (.contraction c)).unitFault x u r

/-- The first channel of some for which a test gives something. -/
def firstOn {α : Type} (f : Nat → Option α) : List Nat → Option (Nat × α)
  | [] => none
  | n :: r => match f n with
    | some a => some (n, a)
    | none => firstOn f r

/-- The unit of a group that a fault of a token of a channel names: the first that streams from a channel. -/
def unitOn (g : List (UnitRec × Contraction)) (n : Nat) : Option UnitRec := (g.find? fun (_, c) => c.chans.contains n).map (·.1)

/-- The contraction of a group whose step the check compares: that of unit u when it adds one, else the first that does
(R192, R349). -/
def checkedStep (outs : List (UnitRec × Contraction × Took)) (u : Nat) : Option UnitRec :=
  let adds := outs.filter fun o => o.2.2 = .step || o.2.2 = .last
  ((adds.find? fun o => o.1.id = u).or adds.head?).map (·.1)

/-- The feed takes one data token of every channel of the group, and adds what steps they complete; unit u is the one whose
step nature may upset. -/
def State.feedTake (s : State) (x : Site) (g : List (UnitRec × Contraction)) (toks : List (Nat × Token)) (u : Nat)
    (up : Option Upset) : State :=
  let b := s.bank x
  let isLast (n : Nat) : Bool := toks.any fun (m, t) => m = n && t.cls = clsLast
  let outs := g.map fun (u, c) =>
    let c := toks.foldl (fun c (n, t) => c.take n t.payload (b.tokenElems n t)) c
    (u, c, b.took c isLast)
  let take (s : State) : State := match g with
    | [] => s
    | (v, _) :: _ => outs.foldl (State.applyTook x) (toks.foldl (fun s (n, _) => s.takeData x v n) s)
  match checkedStep outs u with
  | none => take s
  | some v =>
    if 3 ≤ (up.map (·.disagree)).getD 0 then
      s.unitFault x v { cls := 0x08, a := (up.map (·.a)).getD 0, b := (up.map (·.b)).getD 0 }
    else take (s.noteCorrected x up)

/-- The feed of a group of contractions: a header is latched, a fault found, or one token of every stream taken. -/
def State.feed (s : State) (x : Site) (g : List (UnitRec × Contraction)) (u : Nat) (up : Option Upset) : State :=
  let b := s.bank x
  let chs := (g.flatMap fun (_, c) => c.chans).eraseDups
  let fault (n : Nat) (r : Raise) : State := match unitOn g n with
    | some u => s.unitFault x u r
    | none => s
  let isMarker (n : Nat) : Option Unit := if b.dueOn n = .marker then some () else none
  let header (n : Nat) : Option Unit := match b.dueOn n with | .header _ => some () | _ => none
  let badHeader (n : Nat) : Option Token := match b.dueOn n with | .taggedHeader t => some t | _ => none
  let wrong (n : Nat) : Option Token := match b.dueOn n with | .wrong t => some t | _ => none
  let absent (n : Nat) : Option Unit := if b.dueOn n = .absent then some () else none
  let tagged (n : Nat) : Option Token := match b.dueOn n with | .tagged t => some t | _ => none
  let unaccepted (n : Nat) : Option (UnitRec × Token) := match b.dueOn n with
    | .data t => (g.find? fun (_, c) => c.chans.contains n && !(accepts c.fmt (fmtOf (b.chan n).fmt))).map fun p => (p.1, t)
    | _ => none
  if (firstOn isMarker chs).isSome then s
  else match firstOn header chs with
  | some (n, _) => match unitOn g n with
    | some u => s.takeHeader x u n
    | none => s
  | none =>
  match firstOn badHeader chs with
  | some (n, t) => fault n (unitPoison n t)
  | none =>
  match firstOn wrong chs with
  | some (n, t) => fault n (headRaise 0x4D n t)
  | none =>
  if (firstOn absent chs).isSome then s
  else match firstOn tagged chs with
  | some (n, t) => fault n (unitPoison n t)
  | none =>
  match firstOn unaccepted chs with
  | some (n, u, t) => s.unitFault x u (headRaise 0x4B n t)
  | none =>
    s.feedTake x g (chs.filterMap fun n => match b.dueOn n with | .data t => some (n, t) | _ => none) u up

/-- CONTRACTION_STEP (R189, R192): the feed of the contractions that move together with unit u. -/
def execContractionStep (x : Site) (u : Nat) (up : Option Upset) (s : State) : Result :=
  let g := (s.bank x).feedGroup u
  if s.stopped x || g.isEmpty || g.any (fun (r, _) => r.dead || 0 < r.wait) then .next s else .next (s.feed x g u up)

/-! ### STAY (R182, R231, R232) -/

/-- The recorded format of STAY's SUB (R231). -/
def stayFmt : SFmt → Fmt
  | .f32 => .fp32 | .bf16 => .bf16 | .f16 => .fp16 | .e4m3 => .e4m3 | .e5m2 => .e5m2 | .cb4 => .cb4 | .i8 => .int8

/-- STAY (R232): the fill starts. (DEDUCED, log entry 28.) -/
def execStay (h : Hdr) (fmt : SFmt) (hd : Head) (stile cm : Bool) (s : State) : Result :=
  fire (.stay h fmt hd stile cm) (fun c _ =>
    let f : StayFill := { ch := (Hdr.headCh h hd).getD 0, fmt := fmt, tile := b2n stile, cm := cm }
    { act := fun s => s.modBank c.x fun b => { b with units := b.units ++
        [{ id := c.id, firing := c.id, rule := c.k, work := .stayFill f }] } }) s

/-- Where input element e goes (R232). -/
def StayFill.place (f : StayFill) (e : Nat) : Nat := if f.cm then 16 * colOf e + rowOf e else e

/-- The scales of the sub-tiles after elements with scales have been placed; none when one differs (R182). -/
def addScales (seen : List (Nat × Nat)) : List (Nat × Nat) → Option (List (Nat × Nat))
  | [] => some seen
  | (t, sc) :: r => match alGet t seen with
    | some old => if old = sc then addScales seen r else none
    | none => addScales (seen ++ [(t, sc)]) r

def Bank.modStay (b : Bank) (n : Nat) (f : StayTile → StayTile) : Bank := { b with stay := setAt {} b.stay n (f (b.stay.getD n {})) }

/-- One element encoding placed in a stay tile, or in both for FP32 (R182). -/
def Bank.putStay (b : Bank) (f : StayFill) (p x : Nat) : Bank :=
  if f.fmt = .f32 then
    (b.modStay 0 fun t => { t with el := setAt 0 t.el p (BitVec.ofNat 16 x) }).modStay 1 fun t =>
      { t with el := setAt 0 t.el p (BitVec.ofNat 16 (x >>> 16)) }
  else b.modStay f.tile fun t => { t with el := setAt 0 t.el p (BitVec.ofNat 16 x) }

/-- What a complete fill records (R232). -/
def Bank.recordStay (b : Bank) (f : StayFill) (seen : List (Nat × Nat)) : Bank :=
  let entry := (b.chan f.ch).fmt
  let cb := if f.fmt = .cb4 ∧ fmtOf entry = .cb4 then fmtCb entry else 0
  let scales := (List.range 16).map fun t => (alGet t seen).getD 0x7F
  (stayTiles (f.fmt = .f32) f.tile).foldl (fun b n => b.modStay n fun t =>
    { t with fmt := (stayFmt f.fmt), cb := cb, scales := scales }) b

/-- A fault of a fill that names its channel and the count of elements taken. (DEDUCED, log entry 27.) -/
def countRaise (cls n count : Nat) : Raise := { cls := cls, a := BitVec.ofNat 64 n, b := BitVec.ofNat 64 count }

/-- A fill takes a data token (R232). (DEDUCED, log entry 27.) -/
def State.stayData (s : State) (x : Site) (u : UnitRec) (f : StayFill) (t : Token) : State :=
  let b := s.bank x
  let ef := fmtOf (b.chan f.ch).fmt
  let n := perToken (stayFmt f.fmt)
  let isLast : Bool := t.cls = clsLast
  if ef ≠ .raw ∧ ef ≠ (stayFmt f.fmt) then s.unitFault x u (headRaise 0x4B f.ch t)
  else if (isLast && f.count + n ≠ 256) || 256 < f.count + n then
    (s.takeData x u f.ch).unitFault x u (countRaise 0x4F f.ch (f.count + n))
  else
    let es := (List.range n).map fun e => (f.place (f.count + e), elemBits (fmtBits (stayFmt f.fmt)) t.payload e, b.scaleByte f.ch e)
    match addScales f.seen (es.map fun (p, _, sc) => (subTile p, sc)) with
    | none => s.unitFault x u (countRaise 0x4E f.ch f.count)
    | some seen =>
      let s := s.modBank x fun b => es.foldl (fun b (p, v, _) => b.putStay f p v) b
      let s := s.takeData x u f.ch
      if isLast then (s.modBank x fun b => b.recordStay f seen).dropUnit x u.id
      else s.setWork x u.id (.stayFill { f with count := f.count + n, seen := seen })

/-- STAY_TOKEN_TAKE (R232): at most one token a round. -/
def execStayTokenTake (x : Site) (u : Nat) (s : State) : Result :=
  if s.stopped x then .next s
  else match (s.bank x).unit? u with
  | none => .next s
  | some r => match r.work with
    | .stayFill f => .next ((s.consume x r f.ch (s.stayData x r f)).rearm x u)
    | _ => .next s

/-! ### ACCZ, ACCLD and ACCSC (R234, R236, R237) -/

/-- ACCZ (R234). -/
def execAccz (h : Hdr) (acc : BitVec 2) (s : State) : Result :=
  fire (.accz h acc) (fun c _ =>
    { act := fun s => s.modBank c.x fun b => b.modAcc acc.toNat fun t =>
        { t with el := List.replicate 256 0, kind := .fp32, shape := .ij, occ := 0 } }) s

/-- The kinds that ACCLD records (R236). -/
def accldKinds : Fmt → List AccKind
  | .fp64 => [.fp64lo, .fp64hi]
  | .int32 => [.int32]
  | _ => [.fp32]

/-- ACCLD (R236): the load starts; the kinds and the shape are recorded, and the tiles owned. (DEDUCED, log entry 28.) -/
def execAccld (h : Hdr) (src : Fmt) (hd : Head) (shape : Shape) (acc : BitVec 2) (s : State) : Result :=
  fire (.accld h src hd shape acc) (fun c _ =>
    let f : AccFill := { ch := (Hdr.headCh h hd).getD 0, fmt := src, acc := acc.toNat, shape := shape }
    { act := fun s => s.modBank c.x fun b =>
        let b := (b.own c (accTiles (src = .fp64) acc.toNat)).record acc.toNat (accldKinds src) shape
        { b with units := b.units ++ [{ id := c.id, firing := c.id, rule := c.k, work := .accFill f }] } }) s

/-- One element stored at a position (R236). (DEDUCED, log entry 28.) -/
def Bank.putAcc (b : Bank) (f : AccFill) (p x : Nat) : Bank :=
  let put (n v : Nat) (b : Bank) : Bank := b.modAcc n fun t => { t with el := setAt 0 t.el p (BitVec.ofNat 32 v) }
  match f.fmt with
  | .fp64 => put (f.acc + 1) (x >>> 32) (put f.acc x b)
  | .bf16 => put f.acc (cvtFF Machine.bf16 Machine.fp32 .rne false x { lfsr := 1, flags := 0 }).1 b
  | .fp16 => put f.acc (cvtFF Machine.fp16 Machine.fp32 .rne false x { lfsr := 1, flags := 0 }).1 b
  | _ => put f.acc x b

/-- A load takes a data token (R236). -/
def State.accData (s : State) (x : Site) (u : UnitRec) (f : AccFill) (t : Token) : State :=
  let b := s.bank x
  let ef := fmtOf (b.chan f.ch).fmt
  let n := perToken f.fmt
  let places := placesOf f.shape
  let isLast : Bool := t.cls = clsLast
  let carries : Bool := places.length ≤ f.count + n
  if ef ≠ .raw ∧ ef ≠ f.fmt then s.unitFault x u (headRaise 0x4B f.ch t)
  else if carries != isLast then (s.takeData x u f.ch).unitFault x u (countRaise 0x4F f.ch (f.count + n))
  else
    let s := s.modBank x fun b => (List.range n).foldl (fun b e => match places[f.count + e]? with
      | some p => b.putAcc f p (elemBits (fmtBits f.fmt) t.payload e)
      | none => b) b
    let s := s.takeData x u f.ch
    if isLast then (s.modBank x fun b => b.disown (accTiles (f.fmt = .fp64) f.acc)).dropUnit x u.id
    else s.setWork x u.id (.accFill { f with count := f.count + n })

/-- ACCLD_TOKEN_TAKE (R236). -/
def execAccldTokenTake (x : Site) (u : Nat) (s : State) : Result :=
  if s.stopped x then .next s
  else match (s.bank x).unit? u with
  | none => .next s
  | some r => match r.work with
    | .accFill f => .next (s.consume x r f.ch (s.accData x r f))
    | _ => .next s

/-- The scaled elements of ACCSC (R237). (DEDUCED, log entry 28.) -/
def scaleTile (e8m0 : Bool) (factor : Nat) (rm : Rm) (ftz : Bool) (el : List (BitVec 32)) (env : REnv) :
    List (BitVec 32) × REnv :=
  el.foldl (fun (a : List (BitVec 32) × REnv) x =>
    let v := Machine.fp32.decode x.toNat
    let p : FRes := if e8m0 then { val := scaleE8m0 v (factor % 256) } else fmulV v (Machine.fp32.decode (factor % 2 ^ 32))
    let r := roundRes Machine.fp32 rm ftz p a.2
    (a.1 ++ [BitVec.ofNat 32 r.1], r.2)) ([], env)

/-- ACCSC (R237): the tile is pending until the scaled values are written. (DEDUCED, log entry 28.) -/
def execAccsc (h : Hdr) (e8m0 : Bool) (s1 : Src) (rm : Rm) (ftz : Bool) (acc : BitVec 2) (s : State) : Result :=
  fire (.accsc h e8m0 s1 rm ftz acc) (fun c s =>
    let b := c.bank s
    let t := b.acc.getD acc.toNat {}
    let r := scaleTile e8m0 (b.raw h 0 s1).toNat rm ftz t.el b.env
    { fault := if t.kind = .fp32 then none else some { cls := 0x51, a := 0 }
      act := fun s => (c.env r.2 s).modBank c.x fun b => { b with pend := b.pend ++
        [{ id := c.id, rule := c.k, left := some 4, lat := 4, writes := [.acc acc.toNat r.1] }] } }) s

/-! ### ACCRD, and the runs (R235) -/

/-- Element p of a tile as its kind reads it: its format, and its encoding (R235). -/
def Bank.accEl (b : Bank) (n p : Nat) : Fmt × Nat :=
  let t := b.acc.getD n {}
  match t.kind with
  | .int32 => (.int32, (t.el.getD p 0).toNat)
  | .fp32 => (.fp32, (t.el.getD p 0).toNat)
  | _ => (.fp64, pairAt (b.acc.getD (n - n % 2) {}).el (b.acc.getD (n - n % 2 + 1) {}).el p)

/-- Element encodings packed into the tokens of a run, the last of class data-last (R158). -/
def packRun (w : Nat) : Nat → List Nat → List (BitVec 3 × Word)
  | 0, _ => []
  | f + 1, xs =>
    let k := 64 / w
    let payload : Word := BitVec.ofNat 64 ((xs.take k).zipIdx.foldl (fun v (x, e) => v ||| x <<< (w * e)) 0)
    if xs.length ≤ k then [(clsLast, payload)] else (clsData, payload) :: packRun w f (xs.drop k)

/-- The elements of ACCRD, converted at commit (R235). -/
def Bank.readTile (b : Bank) (n : Nat) (shape : Shape) (tgt : Fmt) (rm : Rm) (ftz : Bool) : List Nat × REnv :=
  (placesOf shape).foldl (fun (a : List Nat × REnv) p =>
    let x := b.accEl n p
    if x.1 = .int32 ∧ tgt = .int32 then (a.1 ++ [x.2], a.2)
    else
      let r := convert x.1 tgt rm ftz x.2 a.2
      (a.1 ++ [r.1], r.2)) ([], b.env)

/-- The commit of a run whose first slot is taken: it joins its output, and its tokens follow (R72, R235, R251). -/
def State.startRun (c : Ctx) (r : RunOut) (s : State) : State :=
  let s := s.reserve c.x r.out c.id 1 false true
  s.modBank c.x fun b => { b with units := b.units ++
    [{ id := c.id, firing := c.id, rule := c.k, work := .run r, wait := 0 }] }

/-- One token of a run, when its round has come and it can leave: token k from the end of round f + k on, after a commit in
round f (R235). -/
def State.runToken (s : State) (x : Site) (u : UnitRec) (r : RunOut) : State :=
  match r.toks with
  | [] => s
  | (cls, p) :: rest =>
    if r.age ≤ r.sent || !(s.runReady x r.out u.id) then s
    else
      let s := (s.setWork x u.id (.run { r with toks := rest, sent := r.sent + 1 })).sendRun x r.out u.id
        { cls := cls, payload := p }
      if rest.isEmpty then (s.closeGroup x r.out u.id).dropUnit x u.id else s

/-- ACCRD (R235): the elements are fixed and converted, and the first token may leave at once. -/
def execAccrd (h : Hdr) (tgt : Fmt) (o : Out) (rm : Rm) (ftz : Bool) (shape : Shape) (acc : BitVec 2) (ovr : Bool)
    (s : State) : Result :=
  fire (.accrd h tgt o rm ftz shape acc ovr) (fun c s =>
    let b := c.bank s
    let sh := if ovr then shape else (b.acc.getD acc.toNat {}).shape
    let r := b.readTile acc.toNat sh tgt rm ftz
    { slots := [o.toNat]
      act := fun s => c.env r.2 (s.startRun c { out := o.toNat, toks := packRun (fmtBits tgt) 256 r.1 }) }) s

/-! ### CTURN (R197, R198, R238) -/

/-- CTURN (R238). -/
def execCturn (h : Hdr) (o : Out) (hd : Head) (node : Bool) (blk1 : BitVec 8) (s : State) : Result :=
  fire (.cturn h o hd node blk1) (fun c s =>
    let n := b2n node
    let busy := ((s.tile c.x.tile).nodes.getD n none).isSome
    let w : CTurn := { ch := (Hdr.headCh h hd).getD 0, out := o.toNat, node := n, blocks := blk1.toNat + 1 }
    { refuse := busy
      act := fun s =>
        let s := s.modTile c.x.tile fun t => { t with nodes := setAt none t.nodes n (some c.id) }
        let s := s.modBank c.x fun b => { b with units := b.units ++
          [{ id := c.id, firing := c.id, rule := c.k, work := .cturn w }] }
        s.addGroup c.x o.toNat { id := c.id, run := true } }) s

/-- The scale header that stands before output row 4J (R198). -/
def turnHeader (scales : List (Nat × Nat)) (j : Nat) : BitVec 3 × Word :=
  let byte (i : Nat) : Nat := (alGet (4 * i + j) scales).getD 0x7F
  (clsHdr, BitVec.ofNat 64 (b2n (j = 3) <<< 63 ||| 4 <<< 56 |||
    byte 0 ||| byte 1 <<< 8 ||| byte 2 <<< 16 ||| byte 3 <<< 24))

/-- A run of tokens that is not the last of its block. -/
def notLast (ts : List (BitVec 3 × Word)) : List (BitVec 3 × Word) := ts.map fun (_, p) => (clsData, p)

/-- The tokens of a turned block (R197, R198). -/
def turnBlock (w : Nat) (scaled : Bool) (el : List Nat) (scales : List (Nat × Nat)) : List (BitVec 3 × Word) :=
  let out := (List.range 256).map fun p => el.getD (16 * (p % 16) + p / 16) 0
  if scaled then
    (List.range 4).flatMap fun j =>
      let ts := packRun w 64 ((out.drop (64 * j)).take 64)
      turnHeader scales j :: (if j = 3 then ts else notLast ts)
  else packRun w 256 out

/-- A corner-turn node takes a data token (R197). -/
def State.turnData (s : State) (x : Site) (u : UnitRec) (w : CTurn) (t : Token) : State :=
  let b := s.bank x
  let entry := (b.chan w.ch).fmt
  let f := fmtOf entry
  let n := perToken f
  let es := (List.range n).map fun e => (w.count + e, elemBits (fmtBits f) t.payload e, b.scaleByte w.ch e)
  let es := es.filter fun (p, _, _) => p < 256
  match addScales w.scales (es.map fun (p, _, sc) => (subTile p, sc)) with
  | none => s.unitFault x u (countRaise 0x4E w.ch w.count)
  | some seen =>
    let s := s.takeData x u w.ch
    let el := w.el ++ es.map fun (_, v, _) => v
    if t.cls = clsLast then
      if w.count + n = 256 then
        s.setWork x u.id (.cturn { w with el := el, count := 256, scales := seen
                                          outq := turnBlock (fmtBits f) (fmtSsrc entry ≠ 0) el seen })
      else s.unitFault x u (countRaise 0x50 w.ch (w.count + n))
    else s.setWork x u.id (.cturn { w with el := el, count := w.count + n, scales := seen })

/-- A corner-turn node is in use by a run, or free. -/
def State.setNode (s : State) (t n : Nat) (v : Option Nat) : State := s.modTile t fun tl => { tl with nodes := setAt none tl.nodes n v }

/-- Whether a run may use its node: a run restored by a traverse waits until the node that it names is free (R197). -/
def State.nodeFor (s : State) (t n u : Nat) : Bool := ((s.tile t).nodes.getD n none).all (· = u)

/-- A corner turn is final: its node is free (R238). -/
def State.endTurn (s : State) (x : Site) (u : UnitRec) (w : CTurn) : State :=
  let s := s.setNode x.tile w.node none
  (s.closeGroup x w.out u.id).dropUnit x u.id

/-- A corner-turn node sends a token of the turned block, or takes one of the next (R198). -/
def State.turnToken (s : State) (x : Site) (u : UnitRec) (w : CTurn) : State :=
  match w.outq with
  | [] => s.consume x u w.ch (s.turnData x u w)
  | (cls, p) :: rest =>
    if !(s.runReady x w.out u.id) then s
    else
      let w' := if rest.isEmpty then { w with el := [], count := 0, scales := [], outq := [], blocks := w.blocks - 1 } else { w with outq := rest }
      let s := (s.setWork x u.id (.cturn w')).sendRun x w.out u.id { cls := cls, payload := p }
      if rest.isEmpty && w'.blocks = 0 then s.endTurn x u w' else s

/-- CORNER_TURN_TOKEN (R197). -/
def execCornerTurnToken (x : Site) (u : Nat) (s : State) : Result :=
  if s.stopped x then .next s
  else match (s.bank x).unit? u with
  | none => .next s
  | some r => match r.work with
    | .cturn w => .next (if s.nodeFor x.tile w.node u then (s.setNode x.tile w.node (some u)).turnToken x r w else s)
    | _ => .next s

end Sys2Proof.Machine
end

