-- ==== Sys2Proof/Machine/Memory.lean ====
section
/-! DEFINITION. Groups 0x9_ and 0xA_: loads, stores, the tag table, full/empty access, streams, stash, presence, ordered
update, fences and barriers (R89 to R115, R123 to R140). -/

namespace Sys2Proof.Machine

/-! ### LD, ST, LDS, STS (R123, R124) -/

/-- The access size of a type. -/
def memSize : MemTy → Nat
  | .i32 | .n32 => 4
  | .i64 | .n64 => 8
  | .i8 | .n8 => 1
  | .i16 | .n16 => 2

def memSigned : MemTy → Bool
  | .i32 | .i64 | .i8 | .i16 => true
  | _ => false

/-- The value of a load: its bytes, extended to 64 bits (R124). -/
def loadValue (sgn : Bool) (bs : List Byte) : Word :=
  let v := ofLeBytes bs
  if sgn then signExtend v (8 * bs.length) else BitVec.ofNat 64 v

/-- LD (R124). -/
def execLd (h : Hdr) (ty : MemTy) (dst : Dst) (s1 : Src) (cm : Cmpl) (s : State) : Result :=
  fire (.ld h ty dst s1 cm) (fun c s =>
    let a := (c.bank s).raw h 0 s1
    c.request s (vaFault a (memSize ty)) false
      { op := .ld (vaOf a) (memSize ty) (memSigned ty), path := .l, dst := Dst.reqDst dst, cm := cmplOut cm, data := 1 }) s

/-- ST (R124). -/
def execSt (h : Hdr) (ty : MemTy) (s1 s2 : Src) (cm : Cmpl) (s : State) : Result :=
  fire (.st h ty s1 s2 cm) (fun c s =>
    let a := (c.bank s).raw h 0 s1
    c.request s (vaFault a (memSize ty)) false
      { op := .st (vaOf a) (memSize ty) ((c.bank s).raw h 0 s2), path := .l, cm := cmplOut cm }) s

/-- LDS (R124). -/
def execLds (h : Hdr) (ty : MemTy) (dst : Dst) (s1 : Src) (cm : Cmpl) (s : State) : Result :=
  fire (.lds h ty dst s1 cm) (fun c s =>
    let a := (c.bank s).raw h 0 s1
    c.request s (s.offFault (s.saggarOf c.x) a (memSize ty) (memSize ty)) false
      { op := .lds a.toNat (memSize ty) (memSigned ty), path := .l, dst := Dst.reqDst dst, cm := cmplOut cm, data := 1 }) s

/-- STS (R124). -/
def execSts (h : Hdr) (ty : MemTy) (s1 s2 : Src) (cm : Cmpl) (s : State) : Result :=
  fire (.sts h ty s1 s2 cm) (fun c s =>
    let a := (c.bank s).raw h 0 s1
    c.request s (s.offFault (s.saggarOf c.x) a (memSize ty) (memSize ty)) false
      { op := .sts a.toNat (memSize ty) ((c.bank s).raw h 0 s2), path := .l, cm := cmplOut cm }) s

/-- A load of HBM is performed; one of the management page returns a register. -/
def State.performLd (s : State) (r : Req) (n : ReadNature) (a len : Nat) (sgn : Bool) : State :=
  if onMgmt r.saggar a len then s.loaded r [s.mgmtReg (a - mgmtBase)] false
  else match s.hbmRead r.path (some r.site) n r.saggar a len with
  | .error f => s.reqFault r f
  | .ok (s, bs, bad) => s.loaded r [loadValue sgn bs] (!bad.isEmpty)

/-- A request whose write of HBM ends: its token, or its fault. -/
def State.endWrite (_ : State) (r : Req) (status : Nat) (w : State × Option Raise) : State :=
  match w.2 with
  | some f => w.1.reqFault r f
  | none => w.1.finish r status

/-- A store to HBM is performed; one to the management page writes a register. -/
def State.performSt (s : State) (r : Req) (n : ReadNature) (kind : WKind) (a len : Nat) (d : Word) : State :=
  if onMgmt r.saggar a len then (s.mgmtWrite (a - mgmtBase) d).finish r 0
  else s.endWrite r 0 (s.hbmWrite (r.writer n) kind r.saggar a (leBytes len d.toNat))

/-- A load of the tile store is performed. -/
def State.performLds (s : State) (r : Req) (n : ReadNature) (a len : Nat) (sgn : Bool) : State :=
  let k := partKey s r.saggar r.site.tile a
  let t := s.read r.path (some r.site) n k len
  t.1.loaded r [loadValue sgn t.2] !(s.taintedAt r.path (some r.site) n k len).isEmpty

/-- A store to the tile store is performed. -/
def State.performSts (s : State) (r : Req) (n : ReadNature) (a len : Nat) (d : Word) : State :=
  (s.write (r.writer n) (partKey s r.saggar r.site.tile a) (leBytes len d.toNat)).finish r 0

/-! ### The tag table (R92, R93, R125, R126) -/

/-- TLOOK (R126). -/
def execTlook (h : Hdr) (dst : Dst) (s1 : Src) (cm : Cmpl) (s : State) : Result :=
  fire (.tlook h dst s1 cm) (fun c s =>
    let a := (c.bank s).raw h 0 s1
    c.request s (vaFault a 1) false
      { op := .tlook a, path := .l, dst := Dst.reqDst dst, cm := cmplOut cm, data := 1 }) s

/-- TSET (R126). -/
def execTset (h : Hdr) (s1 s2 s3 : Src) (cm : Cmpl) (s : State) : Result :=
  fire (.tset h s1 s2 s3 cm) (fun c s =>
    let b := c.bank s
    let l := b.raw h 0 s1
    let v := b.raw h 0 s2
    c.request s ((s.offFault (s.saggarOf c.x) l 2048 2048).or (vaFault v 1)) false
      { op := .tset l.toNat v (b.raw h 0 s3), path := .l, cm := cmplOut cm }) s

/-- TINV (R126). -/
def execTinv (h : Hdr) (s1 : Src) (cm : Cmpl) (s : State) : Result :=
  fire (.tinv h s1 cm) (fun c s =>
    let l := (c.bank s).raw h 0 s1
    c.request s (s.offFault (s.saggarOf c.x) l 2048 2048) false { op := .tinv l.toNat, path := .l, cm := cmplOut cm }) s

/-- Bits 47:11 of a virtual address. -/
def vline (v : Word) : Nat := vaOf v / 2048

/-- The entry of a line of a tile's store (R92). -/
def State.tagEntry (s : State) (t line : Nat) : Word := (alGet (t, line) s.tags).getD 0

/-- Write an entry; one that is zero is not listed. -/
def State.setTag (s : State) (t line : Nat) (v : Word) : State :=
  { s with tags := if v = 0 then alErase (t, line) s.tags else alPut (t, line) v s.tags }

/-- An entry with V, its saggar, its vline and its user field (R92). -/
def tagWordOf (g vl : Nat) (user : Word) : Word :=
  BitVec.ofNat 64 (1 <<< 63 ||| g <<< 59 ||| vl <<< 22 ||| user.toNat % 2 ^ 16)

/-- Whether an entry is valid and holds a vline. -/
def tagHolds (e : Word) (vl : Nat) : Bool := e.getLsbD 63 && bits e.toNat 22 37 = vl

/-- The lines of a saggar's partition. -/
def State.lines (s : State) (g : Nat) : List Nat :=
  (List.range (s.saggar g).res.lines).map ((s.saggar g).lineBase + ·)

/-- The result of TLOOK (R126). -/
def State.lookTag (s : State) (g t : Nat) (v : Word) : Word :=
  match (s.lines g).find? fun l => tagHolds (s.tagEntry t l) (vline v) with
  | some l => BitVec.ofNat 64 (((s.tagEntry t l).toNat % 2 ^ 16) <<< 32 ||| 2048 * (l - (s.saggar g).lineBase))
  | none => 0x8000000000000000#64

/-- V of an entry is cleared (R93, R126). -/
def State.clearV (s : State) (t line : Nat) : State :=
  s.setTag t line (s.tagEntry t line &&& 0x7FFFFFFFFFFFFFFF#64)

/-- TSET's writes: the entry, and V of any other entry of the saggar that holds the vline (R93, R126). -/
def State.writeTag (s : State) (g t off : Nat) (v user : Word) : State :=
  let line := (s.saggar g).lineBase + off / 2048
  let s := ((s.lines g).filter fun l => l ≠ line && tagHolds (s.tagEntry t l) (vline v)).foldl
    (fun s l => s.clearV t l) s
  s.setTag t line (tagWordOf g (vline v) user)

/-! ### The performance of an access of the tile store's port -/

/-- An access of the tile store is performed. A full/empty access changed its granule's bit at its commit, and moves the bytes
here, in order with every other one of the granule. (DEDUCED, log entry 33.) -/
def State.performTile (s : State) (r : Req) (n : ReadNature) : State :=
  match r.op with
  | .lds a len sgn => s.performLds r n a len sgn
  | .sts a len d => s.performSts r n a len d
  | .tlook v => s.loaded r [s.lookTag r.saggar r.site.tile v] false
  | .tset l v u => (s.writeTag r.saggar r.site.tile l v u).finish r 0
  | .tinv l => (s.clearV r.site.tile ((s.saggar r.saggar).lineBase + l / 2048)).finish r 0
  | .ldfe a =>
    let k := partKey s r.saggar r.site.tile a
    let bad := s.taintedAt r.path (some r.site) n k 16
    let t := s.read r.path (some r.site) n k 16
    t.1.loadedEach r [(loadValue false (t.2.take 8), bad.any (· < 8)), (loadValue false (t.2.drop 8), bad.any (8 ≤ ·))]
  | .stfe a lo hi =>
    (s.write (r.writer n) (partKey s r.saggar r.site.tile a) (leBytes 8 lo.toNat ++ leBytes 8 hi.toNat)).finish r 0
  | _ => s

/-! ### LDFE, STFE (R94, R127) -/

/-- The registers of LDFE's destination. -/
def ldfeDst : Dst → ReqDst
  | .g n => .pair (.g n.toNat) (.g (n.toNat + 1))
  | .o n => .out n.toNat
  | _ => .none

/-- The granule key of an offset of the issuing tile. -/
def State.granule (s : State) (x : Site) (off : Nat) : Nat := partKey s (s.saggarOf x) x.tile off / 16

/-- LDFE (R94, R127): the granule must be full, and becomes empty at the commit. (DEDUCED, log entry 33.) -/
def execLdfe (h : Hdr) (dst : Dst) (s1 : Src) (cm : Cmpl) (s : State) : Result :=
  fire (.ldfe h dst s1 cm) (fun c s =>
    let a := (c.bank s).raw h 0 s1
    let gr := s.granule c.x a.toNat
    let ask : Ask := { op := .ldfe a.toNat, path := .l, dst := ldfeDst dst, cm := cmplOut cm, data := 2 }
    { c.request s (s.offFault (s.saggarOf c.x) a 16 16) (!(setMem gr s.granules)) ask with
      act := fun s => { s with granules := setDel gr s.granules }.issue c ask }) s

/-- STFE (R94, R127): the granule must be empty, and becomes full at the commit. (DEDUCED, log entry 33.) -/
def execStfe (h : Hdr) (s1 s2 s3 : Src) (cm : Cmpl) (s : State) : Result :=
  fire (.stfe h s1 s2 s3 cm) (fun c s =>
    let b := c.bank s
    let a := b.raw h 0 s1
    let gr := s.granule c.x a.toNat
    let ask : Ask := { op := .stfe a.toNat (b.raw h 0 s2) (b.raw h 0 s3), path := .l, cm := cmplOut cm }
    { c.request s (s.offFault (s.saggarOf c.x) a 16 16) (setMem gr s.granules) ask with
      act := fun s => { s with granules := setAdd gr s.granules }.issue c ask }) s

/-! ### STREAM (R101, R128, R129) -/

/-- STREAM (R129). -/
def execStream (h : Hdr) (cm : Cmpl) (o : Out) (s1 s2 : Src) (imm : BitVec 16) (s : State) : Result :=
  fire (.stream h cm o s1 s2 imm) (fun c s =>
    let b := c.bank s
    let a := b.raw h 0 s1
    let n := b.raw h imm s2
    c.request s ((vaFault a 8).or (lenFault (1 ≤ n.toNat && n.toNat < 2 ^ 32) n (vaOf a))) false
      { op := .stream (vaOf a) n.toNat 0 [] false, path := .l, dst := .out o.toNat, cm := cmplOut cm, data := 1, run := true }) s

/-- The tokens of a run of n bytes. -/
def runTokens (n : Nat) : Nat := (n + 7) / 8

/-- Token k of a run of n bytes, from the bytes of its word; bytes at or above n are zero (R129). -/
def runTok (q n k : Nat) (bs : List Byte) (tag : Bool) : GTok :=
  { cls := if k + 1 = runTokens n then clsLast else clsData
    payload := loadValue false bs, etag := tag, stream := some (q, k) }

/-- Change the operation of a request. -/
def State.setOp (s : State) (q : Nat) (op : ReqOp) : State := s.modReq q fun r => { r with op := op }

/-- The last word of a stream is read: its completion token goes; the request then stays for the tokens still to send
(R100, R101). -/
def State.streamRead (s : State) (r : Req) (bad : Bool) : State :=
  let s := s.sendCompletion r (completion 0 0 (b2n bad) (r.addr s))
  (s.modReq r.id fun q => { q with performed := true }).clearFinal r.site

/-- A stream reads its next word, when fewer than 64 of its tokens are read and not acknowledged (R101). A stream that has
read its last word reads again, after a restore, the words that it had read ahead (R326). -/
def State.streamWord (s : State) (r : Req) (o : Nat) (m : ReadNature) (a n next : Nat) (buf : List GTok) (bad : Bool) : State :=
  if runTokens n ≤ next || 64 ≤ s.unacked r.site o r.id buf then s
  else match s.translate r with
  | .inr s => s
  | .inl s =>
    match s.hbmRead .l (some r.site) m r.saggar (a + 8 * next) (Nat.min 8 (n - 8 * next)) with
    | .error f => s.reqFault r f
    | .ok (s, bs, t) =>
      let bad := bad || !t.isEmpty
      let s := s.setOp r.id (.stream a n (next + 1) (buf ++ [runTok r.id n next bs (!t.isEmpty)]) bad)
      if next + 1 = runTokens n && !r.performed then s.streamRead r bad else s

/-- A stream sends the oldest token that it has read (R119, R129). -/
def State.streamSend (s : State) (r : Req) (o : Nat) (a n next : Nat) (buf : List GTok) (bad : Bool) : State :=
  match buf with
  | [] => s
  | t :: rest =>
    if !(s.runReady r.site o r.id) then s
    else
      let s := (s.setOp r.id (.stream a n next rest bad)).sendRun r.site o r.id t
      if rest.isEmpty && next = runTokens n then (s.closeGroup r.site o r.id).modReq r.id fun q => { q with spent := true }
      else s

/-- A stream reads a word again that its consumer asked for (R368), once its page and its bank are at hand: the value is fixed
at this read. -/
def State.streamAgain (s : State) (r : Req) (o : Nat) (m : ReadNature) (a n k : Nat) (t : Token) : State :=
  match s.translateAt r [(a + 8 * k, Nat.min 8 (n - 8 * k))] with
  | .inr s => s
  | .inl s =>
  match s.hbmRead .l (some r.site) m r.saggar (a + 8 * k) (Nat.min 8 (n - 8 * k)) with
  | .error f => s.reqFault r f
  | .ok (s, bs, bad) =>
    let t := { t with payload := loadValue false bs, etag := !bad.isEmpty }
    (s.modBank r.site fun b => b.modOut o fun p =>
      { p with flight := p.flight ++ [t], resend := p.resend.drop 1
               kept := p.kept.map fun x => if x.seq = t.seq then t else x }).sendAgain r.site o

/-- One act of a stream: a word asked for again; or its next word and the oldest token that it has read. Once all its
tokens are acknowledged it is gone. -/
def State.streamStep (s : State) (r : Req) (o : Nat) (m : ReadNature) (a n next : Nat) (buf : List GTok) (bad : Bool) : State :=
  match ((s.bank r.site).out o).resend.head?.bind fun t => (t.stream.bind fun e => if e.1 = r.id then some (t, e.2) else none) with
  | some (t, k) => if r.faulted || r.walk.isSome then s else s.streamAgain r o m a n k t
  | none =>
    if r.spent && s.unacked r.site o r.id [] = 0 then s.dropReq r.id
    else
      let s := if s.mayPerform { r with performed := false } then s.streamWord r o m a n next buf bad else s
      match s.req? r.id with
      | some r' => match r'.op with
        | .stream _ _ next buf bad => s.streamSend r' o a n next buf bad
        | _ => s
      | none => s

/-- STREAM_TOKEN_SEND (R129): stream q reads its next word, and sends the oldest token that it has read. -/
def execStreamTokenSend (q : Nat) (m : ReadNature) (s : State) : Result :=
  match s.req? q with
  | none => .next s
  | some r =>
    match r.op, r.dst with
    | .stream a n next buf bad, .out o => .next (if s.stopped r.site then s else s.streamStep r o m a n next buf bad)
    | _, _ => .next s

/-! ### Stash (R96, R97, R110, R111, R130 to R132) -/

/-- The 4-KiB units of a record. -/
def stashUnits (n : Nat) : Nat := (n + 4095) / 4096

/-- The units of a saggar's stash partition that its records on a tile hold. -/
def State.stashUsed (s : State) (g t : Nat) : Nat :=
  ((s.stashed.filter fun r => r.saggar = g && r.tile = t && r.overAt.isNone).map fun r => stashUnits r.bytes.length).foldl (· + ·) 0

/-- The units that STASH requests of a saggar on a tile still ask for. -/
def State.stashAsked (s : State) (g t : Nat) : Nat :=
  (s.reqs.map fun r => match r.op with
    | .stash _ n _ => if r.saggar = g && r.site.tile = t then stashUnits n else 0
    | _ => 0).foldl (· + ·) 0

def State.stashSize (s : State) (g : Nat) : Nat := 16 * (s.saggar g).res.stash

/-- The STASH and UNSTASH requests of a cell (R121). -/
def State.stashCount (s : State) (x : Site) : Nat :=
  (s.reqs.filter fun r => r.site.tile = x.tile && r.site.cell = x.cell && match r.op with
    | .stash .. | .unstash .. => true
    | _ => false).length

/-- STASH (R131). In mode hold it is refused while the units are not free (R110). -/
def execStash (h : Hdr) (s1 s2 : Src) (cm : Cmpl) (key : BitVec 12) (s : State) : Result :=
  fire (.stash h s1 s2 cm key) (fun c s =>
    let b := c.bank s
    let a := b.raw h 0 s1
    let n := b.raw h 0 s2
    let g := s.saggarOf c.x
    let full := s.stashSize g < s.stashUsed g c.x.tile + s.stashAsked g c.x.tile + stashUnits n.toNat
    let bad := (lenFault (n.toNat % 16 = 0 && 16 ≤ n.toNat && n.toNat ≤ 2 ^ 22) n 0).or (s.offFault g a 16 n.toNat)
    c.request s bad (8 ≤ s.stashCount c.x || ((s.saggar g).res.spill = 1 && full))
      { op := .stash a.toNat n.toNat key.toNat, path := .v, cm := cmplOut cm }) s

/-- UNSTASH (R132). -/
def execUnstash (h : Hdr) (o : Out) (cm : Cmpl) (key : BitVec 12) (s : State) : Result :=
  fire (.unstash h o cm key) (fun c s =>
    c.request s none (8 ≤ s.stashCount c.x)
      { op := .unstash key.toNat none 0 [] false, path := .v, dst := .out o.toNat, cm := cmplOut cm, data := 1, run := true }) s

/-- Whether an older stash request of the cell, on whichever plane, is still to be applied (R132).
(DEDUCED, log entry 48.) -/
def State.stashBehind (s : State) (r : Req) : Bool :=
  s.reqs.any fun o => o.id < r.id && !o.lost && o.site.tile = r.site.tile && o.site.cell = r.site.cell && match o.op with
    | .stash .. => true
    | .unstash _ none _ _ _ => true
    | _ => false

/-- Use of a stacked layer: an idle one is counted afresh, one that is powered off begins to wake (R96). -/
def LayerPower.use (l : LayerPower) : LayerPower := { l with idle := 0, waking := l.waking || l.off }

/-- The ranges of a saggar's overflow region that are taken: its overflow records, the spaces reserved for traverses, and
the saved records. -/
def State.overTaken (s : State) (g : Nat) : List (Nat × Nat) :=
  (s.stashed.filterMap fun r => if r.saggar = g then r.overAt.map fun a => (a, r.bytes.length) else none)
    ++ (s.saggar g).reserved.map (·.2) ++ (s.saggar g).saved.map fun v => (v.base, 4096 * stashUnits v.bytes.length)

/-- The lowest place in the overflow region at which n bytes are free. (DEDUCED, log entry 48.) -/
def State.overPlace (s : State) (g n : Nat) : Option Nat :=
  let res := (s.saggar g).res
  let taken := s.overTaken g
  (res.ovBase :: taken.map fun (a, m) => (a + m + 15) / 16 * 16).filter (fun a =>
    res.ovBase ≤ a && a + n ≤ res.ovBase + res.ovSize && !(spansMeet [(a, n)] taken)) |>.min?

/-- The stash-exhausted fault. -/
def exhausted (key n : Nat) : Raise := { cls := 0x34, a := BitVec.ofNat 64 key, b := BitVec.ofNat 64 n }

/-- A record is written to the layer of its tile. -/
def State.stashHere (s : State) (r : Req) (key : Nat) (bs : List Byte) (bad : List Nat) : State :=
  { s with stashed := s.stashed ++ [{ id := r.id, saggar := r.saggar, tile := r.site.tile, key := key, bytes := bs, bad := bad }] }

/-- A record is written to the overflow region (R110, R111). (DEDUCED, log entry 48.) -/
def State.stashOver (s : State) (r : Req) (key : Nat) (bs : List Byte) (offs : List Nat) : State × Option Raise :=
  match s.overPlace r.saggar bs.length with
  | none => (s, some (exhausted key bs.length))
  | some a =>
    let w := s.hbmWrite (r.writer.tagged (hbmKey r.saggar a) offs) .engine r.saggar a bs
    let s := w.1.modSaggar r.saggar fun g => { g with overflow := g.overflow + 1 }
    ({ s with stashed := s.stashed ++ [{ id := r.id, saggar := r.saggar, tile := r.site.tile, key := key
                                         bytes := List.replicate bs.length 0, overAt := some a }] }, w.2)

/-- Whether a record of n bytes fits in the layer of a tile beside those there. -/
def State.stashFits (s : State) (g t n : Nat) : Bool := s.stashUsed g t + stashUnits n ≤ s.stashSize g

/-- The ranges of HBM that a STASH is about to write. -/
def State.stashRanges (s : State) (r : Req) (n : Nat) : List (Nat × Nat) :=
  if s.stashFits r.saggar r.site.tile n || (s.saggar r.saggar).res.spill ≠ 0 then []
  else ((s.overPlace r.saggar n).map fun a => (a, n)).toList

/-- A STASH whose bytes are read is written (R110, R131, R352). -/
def State.performStash (s : State) (r : Req) (n : ReadNature) (off len key : Nat) : State :=
  let k := partKey s r.saggar r.site.tile off
  let t := s.read r.path (some r.site) n k len
  let s := t.1
  let offs := s.taintedAt r.path (some r.site) n k len
  let status := b2n !offs.isEmpty
  if s.stashFits r.saggar r.site.tile len then
    (s.stashHere r key t.2 ((offs.map (· / 8)).eraseDups)).finish r status
  else if (s.saggar r.saggar).res.spill = 0 then s.endWrite r status (s.stashOver r key t.2 offs)
  else if (s.saggar r.saggar).res.spill = 2 then s.reqFault r (exhausted key len)
  else s

/-- Whether the stash layer of a tile can act on a request now; if not, it begins to wake (R96). -/
def State.stashAwake (s : State) (t : Nat) : State × Bool :=
  let l := (s.tile t).stash
  (s.modTile t fun tl => { tl with stash := l.use }, !l.off)

/-- Whether the stash layers of some tiles can all act now; those that are off begin to wake (R95, R96). A disabled layer is
not used (R97). -/
def State.stashesAwake (s : State) (ts : List Nat) : State × Bool :=
  (ts.filter fun t => !(s.stashOff.contains t)).foldl (fun a t => let u := a.1.stashAwake t; (u.1, a.2 && u.2)) (s, true)

/-- The layer-disabled fault of the stash (R97). -/
def disabledRaise (layer key : Nat) : Raise := { cls := 0x0C, a := BitVec.ofNat 64 layer, b := BitVec.ofNat 64 key }

/-- STASH_PERFORMED (R131): STASH q is applied at its tile's stash port. -/
def execStashPerformed (q : Nat) (n : ReadNature) (s : State) : Result :=
  match s.req? q with
  | none => .next s
  | some r =>
    match r.op with
    | .stash off len key =>
      if !(s.mayPerform r) || s.stashBehind r then .next s
      else if s.stashOff.contains r.site.tile then .next (s.reqFault r (disabledRaise 0 key))
      else
        let t := s.stashAwake r.site.tile
        if !t.2 then .next t.1
        else match t.1.translateAt r (t.1.stashRanges r len) with
        | .inr s => .next s
        | .inl s => .next (s.performStash r n off len key)
    | _ => .next s

/-- The record that an UNSTASH takes: the latest of its key (R132). -/
def State.stashFind (s : State) (g t key : Nat) : Option StashRec :=
  s.stashed.reverse.find? fun r => r.saggar = g && r.tile = t && r.key = key && !r.taken

/-- An UNSTASH takes its record (R97, R132). (DEDUCED, log entry 48.) -/
def State.takeRecord (s : State) (r : Req) (key : Nat) : State :=
  match s.stashFind r.saggar r.site.tile key with
  | none => s.reqFault r { cls := 0x35, a := BitVec.ofNat 64 key }
  | some v =>
    let s := { s with stashed := s.stashed.map fun (x : StashRec) => if x.id = v.id then { x with taken := true } else x }
    s.setOp r.id (.unstash key (some v.id) 0 [] false)

/-- Whether a record lies in a layer that the disable map marks (R97). -/
def State.inDisabled (s : State) (v : StashRec) : Bool := v.overAt.isNone && s.stashOff.contains v.tile

/-- Whether word k of a record can be read now: its layer is powered, or its page is translated. A disabled layer is not
woken (R97). -/
def State.recordReady (s : State) (r : Req) (v : StashRec) (k : Nat) : State × Bool :=
  match v.overAt with
  | none => if s.stashOff.contains v.tile then (s, true) else s.stashAwake v.tile
  | some a => match s.translateAt r [(a + 8 * k, 8)] with
    | .inl s => (s, true)
    | .inr s => (s, false)

/-- A word of a record, with its tag; or a fault of its translation. -/
def State.recordWord (s : State) (r : Req) (v : StashRec) (m : ReadNature) (k : Nat) : Except Raise (State × List Byte × Bool) :=
  match v.overAt with
  | none => .ok (s, (v.bytes.drop (8 * k)).take 8, v.bad.contains k || s.stashOff.contains v.tile)
  | some a => (s.hbmRead .v (some r.site) m r.saggar (a + 8 * k) 8).map fun t => (t.1, t.2.1, !t.2.2.isEmpty)

/-- An UNSTASH reads the next word of its record, within the read-ahead bound (R101, R132). (DEDUCED, log entry 48.) -/
def State.unstashWord (s : State) (r : Req) (o : Nat) (m : ReadNature) (key : Nat) (v : StashRec) (next : Nat)
    (buf : List GTok) (bad : Bool) : State :=
  if runTokens v.bytes.length ≤ next || 64 ≤ s.unacked r.site o r.id buf then s
  else
    let t := s.recordReady r v next
    if !t.2 then t.1
    else match t.1.recordWord r v m next with
    | .error f => t.1.reqFault r f
    | .ok (s, bs, t) =>
      s.setOp r.id (.unstash key (some v.id) (next + 1) (buf ++ [runTok r.id v.bytes.length next bs t]) (bad || t))

/-- An UNSTASH is performed: its record is gone. That of a disabled layer has sent tagged tokens, and raises the
layer-disabled fault (R97, R132). (DEDUCED, log entry 48.) -/
def State.endUnstash (s : State) (r : Req) (key : Nat) (v : StashRec) (bad : Bool) : State :=
  let w : Where := { s.whereAt r.site r.rule with saggar := r.saggar, word := r.word }
  let off := s.inDisabled v
  let s := { s with stashed := s.stashed.filter (·.id ≠ v.id) }.finish r (b2n bad)
  if off then s.takeFault r.saggar w (disabledRaise 0 key) [r.launch] else s

/-- An UNSTASH sends the oldest word that it has read; when its last token is acknowledged it is performed, and its
record is gone (R132). -/
def State.unstashSend (s : State) (r : Req) (o : Nat) (key : Nat) (v : StashRec) (next : Nat) (buf : List GTok) (bad : Bool) :
    State :=
  match buf with
  | t :: rest =>
    if !(s.runReady r.site o r.id) then s
    else
      let s := (s.setOp r.id (.unstash key (some v.id) next rest bad)).sendRun r.site o r.id t
      if rest.isEmpty && next = runTokens v.bytes.length then s.closeGroup r.site o r.id else s
  | [] =>
    if next = runTokens v.bytes.length && s.unacked r.site o r.id [] = 0 then
      s.endUnstash r key v bad
    else s

/-- One act of an UNSTASH run. -/
def State.unstashStep (s : State) (r : Req) (o : Nat) (m : ReadNature) (key v : Nat) (next : Nat) (buf : List GTok) (bad : Bool) :
    State :=
  match s.stashed.find? (·.id = v) with
  | none => s
  | some rec =>
    let s := s.unstashWord r o m key rec next buf bad
    match s.req? r.id with
    | some r' => match r'.op with
      | .unstash _ _ next buf bad => if r'.faulted then s else s.unstashSend r' o key rec next buf bad
      | _ => s
    | none => s

/-- RUN_TOKEN_SEND for an UNSTASH. -/
def State.unstashRun (s : State) (r : Req) (m : ReadNature) : State :=
  match r.op, r.dst with
  | .unstash key none _ _ _, _ =>
    if !(s.mayPerform r) || s.stashBehind r then s
    else if s.stashOff.contains r.site.tile then s.takeRecord r key
    else
      let t := s.stashAwake r.site.tile
      if t.2 then t.1.takeRecord r key else t.1
  | .unstash key (some v) next buf bad, .out o =>
    if r.faulted then s else s.unstashStep r o m key v next buf bad
  | _, _ => s

/-- RUN_TOKEN_SEND (R235, R251, R132): run u of a bank sends its next token, u naming an ACCRD or SACCF run or the request
of an UNSTASH. -/
def execRunTokenSend (x : Site) (u : Nat) (n : ReadNature) (s : State) : Result :=
  if s.stopped x then .next s
  else match (s.bank x).unit? u with
  | some v => match v.work with
    | .run r => .next (s.runToken x v r)
    | _ => .next s
  | none => match s.req? u with
    | some r => .next (if r.site = x then s.unstashRun r n else s)
    | none => .next s

/-! ### Presence (R105 to R109, R133, R134) -/

/-- LDP (R134). -/
def execLdp (h : Hdr) (dst : Dst) (s1 : Src) (cm : Cmpl) (s : State) : Result :=
  fire (.ldp h dst s1 cm) (fun c s =>
    let a := (c.bank s).raw h 0 s1
    c.request s (vaFault a 8) false
      { op := .ldp (vaOf a), path := .l, dst := Dst.reqDst dst, cm := cmplOut cm, data := 1 }) s

/-- STP (R134). (DEDUCED, log entry 37.) -/
def execStp (h : Hdr) (s1 s2 : Src) (cm : Cmpl) (s : State) : Result :=
  fire (.stp h s1 s2 cm) (fun c s =>
    let a := (c.bank s).raw h 0 s1
    c.request s (vaFault a 8) false
      { op := .stp (vaOf a) ((c.bank s).raw h 0 s2), path := .l, cm := cmplOut cm }) s

/-- A length that is a multiple of a unit, from the unit to 2^30. -/
def lenOk (n : Word) (unit : Nat) : Bool := n.toNat % unit = 0 && unit ≤ n.toNat && n.toNat ≤ 2 ^ 30

/-- CLRP (R134). (DEDUCED, log entry 37.) -/
def execClrp (h : Hdr) (s1 s2 : Src) (cm : Cmpl) (s : State) : Result :=
  fire (.clrp h s1 s2 cm) (fun c s =>
    let a := (c.bank s).raw h 0 s1
    let n := (c.bank s).raw h 0 s2
    c.request s ((vaFault a 8).or (lenFault (lenOk n 8) n (vaOf a))) false
      { op := .clrp (vaOf a) n.toNat, path := .l, cm := cmplOut cm }) s

/-- A presence load reaches its base die (R105, R106). -/
def State.performLdp (s : State) (r : Req) (n : ReadNature) (a : Nat) : State :=
  match s.attr? r.saggar a with
  | none => s.reqFault r (translationRaise 0 a)
  | some .once => if setMem (hbmWord r.saggar a) s.full then s.answerLoad r n else s.deferLoad r a
  | some _ => s.reqFault r { cls := 0x28, addr := a }

/-- One word is cleared: it becomes zero and empty (R105). -/
def State.clearWord (s : State) (w : Writer) (g a : Nat) : State :=
  if setMem (hbmWord g a) s.full then
    { s.write w (hbmKey g a) (List.replicate 8 0) with full := setDel (hbmWord g a) s.full }
  else s

/-- CLRP clears its words, one after another, until one faults (R134). (DEDUCED, log entry 36.) -/
def State.clearWords (s : State) (w : Writer) (g a : Nat) : Nat → State × Option Raise
  | 0 => (s, none)
  | n + 1 =>
    match s.attr? g a with
    | none => (s, some (translationRaise 0 a))
    | some .ro | some .rw => (s, some { cls := 0x28, addr := a })
    | some .once => State.clearWords (s.clearWord w g a) w g (a + 8) n

/-! ### Ordered update and owners (R102 to R104, R135, R136) -/

/-- UPD (R135). -/
def execUpd (h : Hdr) (op : UpdOp) (s1 s2 : Src) (cm : Cmpl) (s : State) : Result :=
  fire (.upd h op s1 s2 cm) (fun c s =>
    let a := (c.bank s).raw h 0 s1
    c.request s (vaFault a (updSize op)) false
      { op := .upd op (vaOf a) ((c.bank s).raw h 0 s2), path := .l, cm := cmplOut cm }) s

/-- The lesser or greater of two values of n bits, signed or not. -/
def pickOf (n : Nat) (sgn greater : Bool) (o x : Nat) : Nat :=
  let lt := if sgn then toSigned n o < toSigned n x else o < x
  if lt = greater then x else o

/-- The sum of two encodings under .rne without flush-to-zero (R135). -/
def updFadd (f : FFmt) (o x : Nat) : Nat :=
  (fpRound f .rne false (faddV .rne (f.decode o) (f.decode x)).val {}).1

/-- The new value of an update (R135). -/
def updValue (op : UpdOp) (o x : Nat) : Nat :=
  match op with
  | .add32 => (o + x) % 2 ^ 32
  | .add64 => (o + x) % 2 ^ 64
  | .mini32 => pickOf 32 true false o x
  | .mini64 => pickOf 64 true false o x
  | .maxi32 => pickOf 32 true true o x
  | .maxi64 => pickOf 64 true true o x
  | .minn32 => pickOf 32 false false o x
  | .minn64 => pickOf 64 false false o x
  | .maxn32 => pickOf 32 false true o x
  | .maxn64 => pickOf 64 false true o x
  | .or64 => o ||| x
  | .and64 => o &&& x
  | .xor64 => o ^^^ x
  | .fadd32 => updFadd fp32 o x
  | .fadd64 => updFadd fp64 o x

/-- The owner node reads the word as it stands at its home, computes and writes, with no other update between (R103). An old
value that is uncorrectable is computed with by none (R345): its bytes stay, the word is stored with the poison code, and the
update ends with status 1. (DESIGN CHOICE, log entry 84.) -/
def State.applyUpd (s : State) (r : Req) (n : ReadNature) (op : UpdOp) (a : Nat) (d : Word) : State :=
  let len := updSize op
  let k := hbmKey r.saggar a
  let s := s.countFixed n r.saggar a len
  let o := s.bytes k len
  let bad := s.tainted n k len
  let v := if bad then o else leBytes len (updValue op (ofLeBytes o) (d.toNat % 2 ^ (8 * len)))
  s.endWrite r (b2n bad) (s.hbmWrite ((r.writer n).tagged k (if bad then [0] else [])) .plain r.saggar a v)

/-- Whether an owner takes an update now: its region is not saved (R328), and its tile's update port has applied none in this
tile cycle (R103). -/
def State.updReady (s : State) (w : OwnerRange) : Bool :=
  !(s.tile w.site.tile).updPort && match s.launch? w.launch with
    | some l => !((s.saggar l.saggar).saved.any (·.launch = l.num))
    | none => true

/-- The owner of an update: the fault when no range holds its target. (DEDUCED, log entry 39.) -/
def State.performUpd (s : State) (r : Req) (n : ReadNature) (op : UpdOp) (a : Nat) (d : Word) : State :=
  match s.ownerOf r.saggar a with
  | none => s.reqFault r { cls := 0x2C, addr := a, a := BitVec.ofNat 64 a, b := BitVec.ofNat 64 (updSize op) }
  | some w =>
    if s.updReady w then (s.modTile w.site.tile fun t => { t with updPort := true }).applyUpd r n op a d else s

/-- OWNER_UPDATE_APPLY (R103): the owner node applies update q. -/
def execOwnerUpdateApply (q : Nat) (n : ReadNature) (s : State) : Result :=
  match s.req? q with
  | none => .next s
  | some r =>
    match r.op with
    | .upd op a d =>
      if !(s.mayPerform r) then .next s
      else match s.translate r with
      | .inr s => .next s
      | .inl s => .next (s.performUpd r n op a d)
    | _ => .next s

/-- OWN, enter (R136). -/
def execOwnEnter (h : Hdr) (s1 s2 : Src) (cm : Cmpl) (s : State) : Result :=
  fire (.ownEnter h s1 s2 cm) (fun c s =>
    let a := (c.bank s).raw h 0 s1
    let n := (c.bank s).raw h 0 s2
    c.request s ((vaFault a 8).or (lenFault (lenOk n 8) n (vaOf a))) false
      { op := .ownEnter (vaOf a) n.toNat, path := .l, cm := cmplOut cm }) s

/-- OWN, release (R136). -/
def execOwnRelease (h : Hdr) (s1 : Src) (cm : Cmpl) (s : State) : Result :=
  fire (.ownRelease h s1 cm) (fun c s =>
    let a := (c.bank s).raw h 0 s1
    c.request s (vaFault a 8) false { op := .ownRelease (vaOf a), path := .l, cm := cmplOut cm }) s

/-- A fault of the owner table, with the range (R362). (DEDUCED, log entry 40.) -/
def ownRaise (cls a n : Nat) : Raise := { cls := cls, addr := a, a := BitVec.ofNat 64 a, b := BitVec.ofNat 64 n }

/-- The range is entered (R102, R303). (DEDUCED, log entry 40.) -/
def State.performOwn (s : State) (r : Req) (a n : Nat) : State :=
  let mine := s.owners.filter (·.saggar = r.saggar)
  if mine.any fun w => spansMeet [(w.base, w.len)] [(a, n)] then s.reqFault r (ownRaise 0x2D a n)
  else if 256 ≤ s.owners.length || (s.saggar r.saggar).res.owners ≤ mine.length then s.reqFault r (ownRaise 0x2E a n)
  else
    let w : OwnerRange := { saggar := r.saggar, base := a, len := n, site := r.site, launch := r.launch, rtile := s.rtileOf r.site }
    ({ s with owners := s.owners ++ [w] } : State).finish r 0

/-- Whether an update already routed to a range is still to be applied (R102): every one that was issued before the release,
also one that its order still keeps from the owner. (DESIGN CHOICE, log entry 93.) -/
def State.updPending (s : State) (g base len before : Nat) : Bool :=
  s.reqs.any fun o => o.id < before && o.saggar = g && !o.lost && !o.faulted && match o.op with
    | .upd _ a _ => base ≤ a && a < base + len
    | _ => false

/-- The range is released, once every update routed to it is applied (R136). -/
def State.performRelease (s : State) (r : Req) (a : Nat) : State :=
  match s.owners.find? fun w => w.saggar = r.saggar && w.base = a && w.site = r.site with
  | none => s.reqFault r (ownRaise 0x2F a 0)
  | some w =>
    if s.updPending r.saggar w.base w.len r.id then s
    else ({ s with owners := s.owners.erase w } : State).finish r 0

/-! ### Fences, completion, drain (R79, R80, R137 to R139) -/

/-- FENCEX (R79, R137): what it covers is ordered before every access of its second path that the cell issues after it. -/
def execFencex (h : Hdr) (cm : Cmpl) (x y : Path) (s : State) : Result :=
  fire (.fencex h cm x y) (fun c _ =>
    { slots := (cmplOut cm).toList
      act := fun s =>
        let l := s.coveredOn c.x x
        let s := s.issue c { op := .fence x y, path := x, cm := cmplOut cm, joint := l.map (fun a => (x, a)) ++ l.map fun a => (y, a) }
        s.learn c.x (l.map fun a => (y, a)) }) s

/-- CMPL (R138). -/
def execCmplT (h : Hdr) (cm : Cmpl) (s : State) : Result :=
  fire (.cmplT h cm) (fun c s =>
    let ask (s : State) : Ask := { op := .cmpl, path := .l, cm := cmplOut cm, joint := s.issuedBy c.x }
    { c.request s none false (ask s) with act := fun s => s.issue c (ask s) }) s

/-- Whether a request is performed. -/
def State.isPerformed (s : State) (q : Nat) : Bool := match s.req? q with
  | none => true
  | some r => r.performed

/-- Whether every access that a fence, a CMPL or a BAR covers is performed (R79, R138, R296). -/
def State.jointDone (s : State) (r : Req) : Bool := r.joint.all fun e => s.isPerformed e.2

/-- A fence is complete when every access that it covers is performed and visible on its second path (R79).
(DEDUCED, log entry 34.) -/
def State.performFence (s : State) (r : Req) (y : Path) : State :=
  if s.jointDone r then (s.showLags y fun l => r.joint.any fun e => e.2 = l.acc).finish r 0 else s

/-- A drain begins; while the region is traversed, the first is held by the cell in which it committed (R330). -/
def State.beginDrain (s : State) (x : Site) : State :=
  match s.launchAt x with
  | none => s
  | some l =>
    if l.trav.isSome && !l.draining then
      if l.heldDrain.isSome then s
      else (s.modBank x fun b => { b with drainHeld := true }).modLaunch l.num fun l => { l with heldDrain := some x }
    else s.modLaunch l.num fun l => { l with draining := true }

/-- DRAIN (R80, R139): the drain of the region begins; a second one has no further effect. -/
def execDrain (h : Hdr) (s : State) : Result :=
  fire (.drain h) (fun c _ =>
    { act := fun s => s.beginDrain c.x }) s

/-! ### Byte-counting barriers (R112 to R115, R140) -/

/-- BCARM (R140). -/
def execBcarm (h : Hdr) (s1 s2 : Src) (cm : Cmpl) (bar : BitVec 4) (s : State) : Result :=
  fire (.bcarm h s1 s2 cm bar) (fun c s =>
    let a := (c.bank s).raw h 0 s1
    let n := (c.bank s).raw h 0 s2
    c.request s ((vaFault a 16).or (lenFault (lenOk n 16) n (vaOf a))) false
      { op := .bcarm bar.toNat (vaOf a) n.toNat, path := .l, cm := cmplOut cm }) s

/-- The barrier is armed, or is misused (R113). -/
def State.performArm (s : State) (r : Req) (b base n : Nat) : State :=
  let bar := (s.saggar r.saggar).barriers.getD b {}
  match bar.st with
  | .armed | .posted => s.reqFault r { cls := 0x30, a := BitVec.ofNat 64 b, b := BitVec.ofInt 64 bar.bal }
  | _ =>
    (s.modBarrier r.saggar b fun _ =>
      { st := .armed, base := base, len := n, launch := r.launch, by_ := s.whereAt r.site r.rule }).finish r 0

/-- BCPOST (R113, R114): the post takes effect at its commit, and is performed when the barrier is complete.
(DEDUCED, log entry 47.) -/
def execBcpost (h : Hdr) (s1 : Src) (cm : Cmpl) (bar : BitVec 4) (s : State) : Result :=
  fire (.bcpost h s1 cm bar) (fun c s =>
    let e := ((c.bank s).raw h 0 s1).toNat
    let a : Ask := { op := .bcpost bar.toNat false, path := .l, cm := cmplOut cm }
    { c.request s none false a with
      act := fun s =>
        let s := s.issue c a
        let t := s.postBarrier (s.saggarOf c.x) bar.toNat e c.id (.cell c.x.tile c.x.cell c.x.slot c.k)
        match t.2, s.req? c.id with
        | some f, some r => t.1.reqFault r f
        | _, _ => t.1 }) s

end Sys2Proof.Machine
end

