-- ==== Sys2Proof/Machine/Row.lean ====
section
/-! DEFINITION. The row engine: ROWF and ROWB (R219 to R223). -/

namespace Sys2Proof.Machine

/-! ### Arithmetic in FP32 under .rne, flush-to-zero off (R219) -/

/-- A value rounded to FP32. -/
def rowR (v : FVal) : FVal := fp32.decode (fpRound fp32 .rne false v {}).1

def rowAdd (a b : FVal) : FVal := rowR (faddV .rne a b).val
def rowSub (a b : FVal) : FVal := rowR (fsubV .rne a b).val
def rowMul (a b : FVal) : FVal := rowR (fmulV a b).val

/-- A value divided by the row length. -/
def rowMean (a : FVal) (n : Nat) : FVal := rowR (fdivV a (.ofInt n)).val

/-- One level of the pairwise tree. -/
def pairUp : List FVal → List FVal
  | a :: b :: r => rowAdd a b :: pairUp r
  | r => r

/-- The sum of a chunk of sixteen values by a four-level tree. -/
def chunkSum (xs : List FVal) : FVal := (pairUp (pairUp (pairUp (pairUp xs)))).headD .zero

/-- tsum of R221, chunk by chunk. -/
def tsumFrom : Nat → FVal → List FVal → FVal
  | 0, s, _ => s
  | k + 1, s, xs => tsumFrom k (rowAdd s (chunkSum (xs.take 16))) (xs.drop 16)

def tsum (xs : List FVal) : FVal := tsumFrom (xs.length / 16) .zero xs

/-- The greatest of a row, exactly; +0 counts above -0. (DESIGN CHOICE, log entry 44.) -/
def rowMax (xs : List FVal) : FVal :=
  xs.foldl (fun m x => match fcmpV m x with
    | some .lt => x
    | some .eq => if m.neg? then x else m
    | _ => m) (.inf true)

/-- e^x, correctly rounded. -/
def rowExp (x : FVal) : FVal := rowR (fexpV x).val

/-- ε = 2^-E. -/
def rowEps (e : Nat) : FVal := .fin false 1 (-(e : Int)) false

/-- 1 / sqrt (v + ε). -/
def rowRsqrt (v : FVal) (e : Nat) : FVal := rowR (frsqV (rowAdd v (rowEps e))).val

/-! ### One row (R221, R222) -/

/-- The results of a row: its output encodings, and statistics a and b as FP32 encodings. -/
structure RowOut where
  y : List Nat
  a : Nat := 0
  b : Nat := 0
deriving DecidableEq, Repr

def enc32 (v : FVal) : Nat := (fpRound fp32 .rne false v {}).1
def encOut (f : FFmt) (v : FVal) : Nat := (fpRound f .rne false v {}).1

/-- ROWF on one row (R221). -/
def rowForward (op : RowOp) (f : FFmt) (e : Nat) (xs : List FVal) : RowOut :=
  let n := xs.length
  let out (v : FVal) : Nat := encOut f v
  if xs.any FVal.isNan then
    { y := xs.map fun _ => f.nanBits false, a := 0x7FC00000, b := 0x7FC00000 }
  else match op with
  | .softmax =>
    let mx := rowMax xs
    if mx = .inf true then { y := xs.map fun _ => out .zero, a := enc32 mx, b := 0 }
    else
      let es := xs.map fun x => rowExp (rowSub x mx)
      let sm := tsum es
      { y := es.map fun v => out (fdivV v sm).val, a := enc32 mx, b := enc32 sm }
  | .rmsnorm =>
    let r := rowRsqrt (rowMean (tsum (xs.map fun x => rowMul x x)) n) e
    { y := xs.map fun x => out (fmulV x r).val, a := 0, b := enc32 r }
  | .layernorm =>
    let mu := rowMean (tsum xs) n
    let ds := xs.map fun x => rowSub x mu
    let r := rowRsqrt (rowMean (tsum (ds.map fun d => rowMul d d)) n) e
    { y := ds.map fun d => out (fmulV d r).val, a := enc32 mu, b := enc32 r }

/-- ROWB on one row, with statistics a and b (R222). -/
def rowBackward (op : RowOp) (f : FFmt) (xs dys : List FVal) (a b : FVal) : List Nat :=
  let n := xs.length
  let out (v : FVal) : Nat := encOut f v
  match op with
  | .softmax =>
    if a = .inf true then xs.map fun _ => out .zero
    else
      let ys := xs.map fun x => rowR (fdivV (rowExp (rowSub x a)) b).val
      let g := tsum ((dys.zip ys).map fun (d, y) => rowMul d y)
      (dys.zip ys).map fun (d, y) => out (fmulV y (rowSub d g)).val
  | .rmsnorm =>
    let hs := xs.map fun x => rowMul x b
    let g := rowMean (tsum ((dys.zip hs).map fun (d, h) => rowMul d h)) n
    (dys.zip hs).map fun (d, h) => out (fmulV b (rowSub d (rowMul h g))).val
  | .layernorm =>
    let hs := xs.map fun x => rowMul (rowSub x a) b
    let g1 := rowMean (tsum dys) n
    let g2 := rowMean (tsum ((dys.zip hs).map fun (d, h) => rowMul d h)) n
    (dys.zip hs).map fun (d, h) => out (fmulV b (rowSub (rowSub d g1) (rowMul h g2))).val

/-! ### The command (R219, R220, R223) -/

/-- The format of a row. -/
def rowFmt (f : Fmt) : FFmt := (fpOf? f).getD fp32

/-- The fields of the descriptor: first entry, rows, row length, gradient offset. -/
structure RowDesc where
  slot : Nat
  rows : Nat
  len  : Nat
  dy   : Nat
deriving DecidableEq, Repr

def rowDesc (w : Word) : RowDesc where
  slot := bits w.toNat 51 13
  rows := bits w.toNat 40 11 + 1
  len  := 16 * (bits w.toNat 32 8 + 1)
  dy   := bits w.toNat 0 23

/-- Bytes of a row. -/
def rowBytes (f : Fmt) (d : RowDesc) : Nat := d.len * fmtBits f / 8

/-- Whether two blocks of a length overlap without being equal. -/
def overlaps (a b n : Nat) : Bool := a ≠ b && a < b + n && b < a + n

/-- The faults of a row command at issue (R220), in the order of the input, the output, the gradient rows, the entries, the
overlap. (DESIGN CHOICE, log entry 94.) -/
def State.rowFault (s : State) (g : Nat) (fwd : Bool) (f : Fmt) (x out desc : Word) : Option Raise :=
  let d := rowDesc desc
  let n := d.rows * rowBytes f d
  let dy : Word := BitVec.ofNat 64 d.dy
  (s.offFault g x 16 n).or ((s.offFault g out 16 n).or
    ((if fwd then (if d.dy = 0 then none else some { cls := 0x23, a := desc }) else s.offFault g dy 16 n).or
      (if (s.saggar g).res.side < d.slot + d.rows then some { cls := 0x22, a := desc }
       else if overlaps out.toNat x.toNat n || (!fwd && overlaps out.toNat d.dy n) then some { cls := 0x23, a := out }
       else none)))

/-- The plan of a row command: refused when the queue of eight is full (R219, R223). The commands of different cells arrive in
the order of their commits. (DESIGN CHOICE, log entry 94.) -/
def rowPlan (h : Hdr) (fwd : Bool) (op : RowOp) (s1 s2 s3 : Src) (cm : Cmpl) (f : Fmt) (eps : Nat) (c : Ctx) (s : State) : Plan :=
  let b := c.bank s
  let x := b.raw h 0 s1
  let out := b.raw h 0 s2
  let desc := b.raw h 0 s3
  let ask : Ask := { op := .row fwd op x.toNat out.toNat desc f eps, path := .w, cm := cmplOut cm }
  { c.request s (s.rowFault (s.saggarOf c.x) fwd f x out desc) (8 ≤ (s.tile c.x.tile).rows.length) ask with
    act := fun s => (s.issue c ask).modTile c.x.tile fun t => { t with rows := t.rows ++ [c.id] } }

/-- ROWF (R220, R221). -/
def execRowf (h : Hdr) (op : RowOp) (s1 s2 s3 : Src) (cm : Cmpl) (fmt : Fmt) (eps : BitVec 5) (s : State) : Result :=
  fire (.rowf h op s1 s2 s3 cm fmt eps) (rowPlan h true op s1 s2 s3 cm fmt eps.toNat) s

/-- ROWB (R220, R222). -/
def execRowb (h : Hdr) (op : RowOp) (s1 s2 s3 : Src) (cm : Cmpl) (fmt : Fmt) (eps : BitVec 5) (s : State) : Result :=
  fire (.rowb h op s1 s2 s3 cm fmt eps) (rowPlan h false op s1 s2 s3 cm fmt eps.toNat) s

/-- An entry of the side memory of a saggar on a tile (R219). -/
def State.sideEntry (s : State) (t g e : Nat) : Word := (alGet (t, g, e) s.side).getD 0

/-- Write an entry, with the tag of the row that it comes from; one that is zero is not listed. -/
def State.setSide (s : State) (t g e : Nat) (v : Word) (bad : Bool) : State :=
  { s with
    side := if v = 0 then alErase (t, g, e) s.side else alPut (t, g, e) v s.side
    sideBad := if bad then (t, g, e) :: s.sideBad.filter (· ≠ (t, g, e)) else s.sideBad.filter (· ≠ (t, g, e)) }

/-- The elements of a row, widened exactly. -/
def rowElems (f : Fmt) : Nat → List Byte → List FVal
  | 0, _ => []
  | n + 1, bs => (rowFmt f).decode (ofLeBytes (bs.take (fmtBits f / 8))) :: rowElems f n (bs.drop (fmtBits f / 8))

/-- The row engine reads a row. -/
def State.readRow (s : State) (r : Req) (m : ReadNature) (f : Fmt) (d : RowDesc) (off k : Nat) : State × List FVal × Bool :=
  let key := partKey s r.saggar r.site.tile (off + k * rowBytes f d)
  let t := s.read .w (some r.site) m key (rowBytes f d)
  (t.1, rowElems f d.len t.2, !(s.taintedAt .w (some r.site) m key (rowBytes f d)).isEmpty)

/-- The row engine writes a row, under the poison code when the data bear a tag (R352). -/
def State.writeRow (s : State) (r : Req) (m : ReadNature) (f : Fmt) (d : RowDesc) (off k : Nat) (y : List Nat) (bad : Bool) : State :=
  let key := partKey s r.saggar r.site.tile (off + k * rowBytes f d)
  s.write ((r.writer m).tagged key (if bad then List.range (rowBytes f d) else [])) key (y.flatMap (leBytes (fmtBits f / 8)))

/-- One row of a command: read whole, then written, and its entry (R221, R222). The statistics of a row that bears a tag bear it
too, and so does what ROWB makes of them (R345, R352). (DESIGN CHOICE, log entry 84.) -/
def State.oneRow (s : State) (r : Req) (m : ReadNature) (fwd : Bool) (op : RowOp) (x out : Nat) (d : RowDesc) (f : Fmt) (eps k : Nat) :
    State × Bool :=
  let t := s.readRow r m f d x k
  let e := d.slot + k
  if fwd then
    let o := rowForward op (rowFmt f) eps t.2.1
    ((t.1.writeRow r m f d out k o.y t.2.2).setSide r.site.tile r.saggar e (BitVec.ofNat 64 (o.b <<< 32 ||| o.a)) t.2.2, t.2.2)
  else
    let u := t.1.readRow r m f d d.dy k
    let w := (u.1.sideEntry r.site.tile r.saggar e).toNat
    let y := rowBackward op (rowFmt f) t.2.1 u.2.1 (fp32.decode (w % 2 ^ 32)) (fp32.decode (w >>> 32))
    let bad := t.2.2 || u.2.2 || u.1.sideBad.contains (r.site.tile, r.saggar, e)
    (u.1.writeRow r m f d out k y bad, bad)

/-- The rows of a command, in order. -/
def State.allRows (s : State) (r : Req) (m : ReadNature) (fwd : Bool) (op : RowOp) (x out : Nat) (d : RowDesc) (f : Fmt) (eps : Nat) :
    State × Bool :=
  (List.range d.rows).foldl (fun a k =>
    let t := a.1.oneRow r m fwd op x out d f eps k
    (t.1, a.2 || t.2)) (s, false)

/-- The command at the head of the row engine's queue leaves it. -/
def State.nextRow (s : State) (t : Nat) : State := s.modTile t fun tl => { tl with rows := tl.rows.drop 1 }

/-- The row engine performs a command, or begins to write for it (R90). (DEDUCED, log entry 36.) -/
def State.performRow (s : State) (r : Req) (t : Nat) (m : ReadNature) (fwd : Bool) (op : RowOp) (x out : Nat) (d : RowDesc) (f : Fmt)
    (eps : Nat) : State :=
  let r := r.begun m
  let u := s.allRows r (seeOwn m r) fwd op x out d f eps
  let s := u.1.finish r (b2n u.2)
  if r.placed.isSome then s else s.nextRow t

/-- ROW_COMMAND_PERFORMED (R219, R223): the row engine of tile t performs the command at the head of its queue.
(DEDUCED, log entry 36.) -/
def execRowCommandPerformed (t : Nat) (m : ReadNature) (s : State) : Result :=
  match (s.tile t).rows with
  | [] => .next s
  | q :: _ =>
    match s.req? q with
    | none => .next (s.nextRow t)
    | some r =>
      match r.op, r.placed with
      | .row .., some status => .next ((s.finishPlaced r status).nextRow t)
      | .row fwd op x out desc f eps, none =>
        .next (if s.mayPerform r then s.performRow r t m fwd op x out (rowDesc desc) f eps else s)
      | _, _ => .next s

end Sys2Proof.Machine
end

