-- ==== Sys2Proof/Machine/Engine.lean ====
section
/-! DEFINITION. The copy engines: COPY, COPYQ, CONSUMED, KVAPP and KVROT (R116, R117, R141 to R143, R147 to R156). -/

namespace Sys2Proof.Machine

/-! ### Queues (R121, R141) -/

/-- Whether two requests stand on one copy queue. -/
def sameQueue (a b : Req) : Bool :=
  a.queue.isSome && a.queue = b.queue && a.saggar = b.saggar && isEast a.site.tile = isEast b.site.tile

/-- The commands on a queue of a saggar and stack. -/
def State.queueLength (s : State) (g t q : Nat) : Nat :=
  (s.reqs.filter fun r => r.queue = some q && r.saggar = g && isEast r.site.tile = isEast t).length

/-- Whether a refill that waits, and has not faulted, stands before a command on its queue (R116). -/
def State.queueBlocked (s : State) (r : Req) : Bool :=
  s.reqs.any fun o => o.id < r.id && sameQueue o r && !o.lost && match o.op with
    | .copy _ _ _ (some _) started => !started
    | _ => false

/-- Whether a command of a queue may be performed now. -/
def State.mayRun (s : State) (r : Req) : Bool := s.mayPerform r && !(s.queueBlocked r)

/-! ### COPY (R122, R142) -/

/-- An operand of a copy of n bytes, or its fault at issue (R121, R122). (DEDUCED, log entry 43.) -/
def State.operand (s : State) (x : Site) (store : Bool) (v : Word) (n : Nat) : Except Raise Place :=
  if !store then
    match vaFault v 1 with
    | some f => .error f
    | none => .ok (.hbm (vaOf v))
  else if v.toNat >>> 30 ≠ 0 ∨ v.getLsbD 23 then .error { cls := 0x20, a := v }
  else
    let off := bits v.toNat 0 23
    match s.tileOf x (bits v.toNat 24 6) with
    | none => .error { cls := 0x22, a := v }
    | some t => if s.partSize (s.saggarOf x) < off + n then .error { cls := 0x22, a := v } else .ok (.store t off v.toNat)

/-- The faults of a copy at issue. (DEDUCED, log entry 39.) -/
def State.copyFault (s : State) (x : Site) (dts sts : Bool) (d p n : Word) : Option Raise :=
  (lenFault (n.toNat ≤ 2 ^ 32) n 0).or
    (match s.operand x dts d n.toNat, s.operand x sts p n.toNat with
    | .error f, _ => some f
    | _, .error f => some f
    | _, _ => none)

/-- The operand, when it has no fault. -/
def State.place (s : State) (x : Site) (store : Bool) (v : Word) (n : Nat) : Place :=
  match s.operand x store v n with
  | .ok p => p
  | .error _ => .hbm 0

/-- A copy without a length is performed at once (R142), when its order and its queue let it: behind a refill that waits it waits
(R116), and so does a refill itself. (DESIGN CHOICE, log entry 95.) -/
def State.copyAtOnce (s : State) (id n : Nat) (refill : Bool) : State :=
  match s.req? id with
  | some r => if n = 0 && !refill && s.mayRun r then s.finish r 0 else s
  | none => s

/-- COPY (R142). -/
def execCopy (h : Hdr) (s1 s2 s3 : Src) (cm : Cmpl) (dts sts refill : Bool) (q : BitVec 4) (buf : BitVec 5) (s : State) : Result :=
  fire (.copy h s1 s2 s3 cm dts sts refill q buf) (fun c s =>
    let b := c.bank s
    let d := b.raw h 0 s1
    let p := b.raw h 0 s2
    let n := b.raw h 0 s3
    let ask : Ask :=
      { op := .copy (s.place c.x dts d n.toNat) (s.place c.x sts p n.toNat) n.toNat (if refill then some buf.toNat else none) false
        path := .c, cm := cmplOut cm, queue := some q.toNat }
    { c.request s (s.copyFault c.x dts sts d p n) (64 ≤ s.queueLength (s.saggarOf c.x) c.x.tile q.toNat) ask with
      act := fun s => (s.issue c ask).copyAtOnce c.id n.toNat refill }) s

/-- An engine reads a range of a place: its bytes and the offsets of those that bear a tag. -/
def State.readPlace (s : State) (r : Req) (m : ReadNature) (n : Nat) : Place → Except Raise (State × List Byte × List Nat)
  | .hbm a => s.hbmRead r.path (some r.site) m r.saggar a n
  | .store t off _ =>
    let k := partKey s r.saggar t off
    let u := s.read r.path (some r.site) m k n
    .ok (u.1, u.2, s.taintedAt r.path (some r.site) m k n)

/-- An engine writes a range of a place, with the poison code where the data bear a tag (R352). -/
def State.writePlace (s : State) (r : Req) (m : ReadNature) (bs : List Byte) (bad : List Nat) : Place → State × Option Raise
  | .hbm a => s.hbmWrite ((r.writer m).tagged (hbmKey r.saggar a) bad) .engine r.saggar a bs
  | .store t off _ =>
    let k := partKey s r.saggar t off
    (s.write ((r.writer m).tagged k bad) k bs, none)

/-- A copy is performed, or its engine begins to write (R90, R142). (DEDUCED, log entry 36.) -/
def State.performCopy (s : State) (r : Req) (m : ReadNature) (d p : Place) (n : Nat) : State :=
  if n = 0 then s.finish r 0
  else match s.readPlace r m n p with
  | .error f => s.reqFault r f
  | .ok (s, bs, bad) =>
    let r := r.begun m
    s.endWrite r (b2n !bad.isEmpty) (s.writePlace r m bs bad d)

/-- A move of the engine that works for a request: it ends what it has begun (R90), or acts when the request's turn has come.
(DEDUCED, log entry 36.) -/
def State.engineMove (s : State) (r : Req) (act : State → State) : State :=
  match r.placed with
  | some status => s.finishPlaced r status
  | none => if s.mayRun r then act s else s

/-- COPY_PERFORMED (R142): copy q is performed; a refill only after it has started. -/
def execCopyPerformed (q : Nat) (m : ReadNature) (s : State) : Result :=
  match s.req? q with
  | none => .next s
  | some r =>
    match r.op with
    | .copy d p n refill started =>
      .next (s.engineMove r fun s =>
        if refill.isSome && !started then s
        else match s.translate r with
        | .inr s => s
        | .inl s => s.performCopy r m d p n)
    | _ => .next s

/-! ### Buffers and the consumed event (R116, R143) -/

def Saggar.buffer? (g : Saggar) (h : Nat) : Option Buffer := g.buffers.find? (·.handle = h)

def State.modBuffer (s : State) (g h : Nat) (f : Buffer → Buffer) : State :=
  s.modSaggar g fun sg => { sg with buffers := sg.buffers.map fun b => if b.handle = h then f b else b }

/-- The buffer-handle fault. -/
def bufRaise (cls h gen : Nat) : Raise := { cls := cls, a := BitVec.ofNat 64 h, b := BitVec.ofNat 64 gen }

/-- Whether a copy's destination lies within a buffer. -/
def Buffer.holds (b : Buffer) (n : Nat) : Place → Bool
  | .hbm a => b.base ≤ a && a + n ≤ b.base + b.len
  | .store .. => false

/-- REFILL_START (R116): a refill starts once every member has recorded; the generation then goes up by one. -/
def execRefillStart (q : Nat) (s : State) : Result :=
  match s.req? q with
  | none => .next s
  | some r =>
    match r.op with
    | .copy d p n (some h) false =>
      if !(s.mayRun r) then .next s
      else match (s.saggar r.saggar).buffer? h with
      | none => .next (s.reqFault r (bufRaise 0x32 h 0))
      | some b =>
        if !(b.holds n d) then .next (s.reqFault r (bufRaise 0x32 h b.gen))
        else if b.cells.all b.done.contains then
          .next ((s.modBuffer r.saggar h fun b => { b with gen := b.gen + 1, done := [] }).setOp q (.copy d p n (some h) true))
        else .next s
    | _ => .next s

/-- The cells of a consumer set: 32g + k for every set bit k of the mask (R143). (DEDUCED, log entry 42.) -/
def consumerCells (w : Word) : List Nat :=
  ((List.range 32).filter fun k => w.getLsbD k).map fun k => 32 * bits w.toNat 48 3 + k

/-- COPYQ declare (R143). The reserved bits of the consumer-set register, for which R143 names no fault, are not looked at.
(DESIGN CHOICE, log entry 86.) -/
def execCopyqDeclare (h : Hdr) (s1 s2 s3 : Src) (cm : Cmpl) (buf : BitVec 5) (s : State) : Result :=
  fire (.copyqDeclare h s1 s2 s3 cm buf) (fun c s =>
    let b := c.bank s
    let a := b.raw h 0 s1
    let n := b.raw h 0 s2
    let w := b.raw h 0 s3
    let rt := bits w.toNat 58 6
    let outside : Option Raise := if (s.tileOf c.x rt).isNone then some { cls := 0x22, a := w } else none
    c.request s ((vaFault a 1).or ((lenFault (lenOk n 16) n (vaOf a)).or outside)) false
      { op := .copyqDeclare buf.toNat (vaOf a) n.toNat rt (consumerCells w), path := .c, cm := cmplOut cm }) s

/-- COPYQ release (R143). -/
def execCopyqRelease (h : Hdr) (cm : Cmpl) (buf : BitVec 5) (s : State) : Result :=
  fire (.copyqRelease h cm buf) (fun c s =>
    c.request s none false { op := .copyqRelease buf.toNat, path := .c, cm := cmplOut cm }) s

/-- CONSUMED (R116). -/
def execConsumed (h : Hdr) (cm : Cmpl) (buf : BitVec 5) (s : State) : Result :=
  fire (.consumed h cm buf) (fun c s =>
    c.request s none false { op := .consumed buf.toNat, path := .c, cm := cmplOut cm }) s

/-- A declare is recorded. A mask without a bit, or a cell group that does not exist, declares no buffer.
(DEDUCED, log entry 42.) -/
def State.performDeclare (s : State) (r : Req) (h base n rt : Nat) (cells : List Nat) : State :=
  match (s.saggar r.saggar).buffer? h with
  | some b => s.reqFault r (bufRaise 0x32 h b.gen)
  | none =>
    if cells.isEmpty || cells.any (192 ≤ ·) then s.reqFault r (bufRaise 0x32 h 0)
    else
      let b : Buffer := { handle := h, base := base, len := n, rtile := rt, cells := cells, launch := r.launch }
      (s.modSaggar r.saggar fun g => { g with buffers := g.buffers ++ [b] }).finish r 0

/-- A release is recorded, unless the handle's refill waits. -/
def State.performUndeclare (s : State) (r : Req) (h : Nat) : State :=
  let refills := s.reqs.any fun o => o.saggar = r.saggar && !o.lost && match o.op with
    | .copy _ _ _ (some h') started => h' = h && !started
    | _ => false
  match (s.saggar r.saggar).buffer? h with
  | none => s.reqFault r (bufRaise 0x32 h 0)
  | some b =>
    if refills then s.reqFault r (bufRaise 0x32 h b.gen)
    else (s.modSaggar r.saggar fun g => { g with buffers := g.buffers.filter (·.handle ≠ h) }).finish
      { r with op := .copyqDeclare h b.base b.len b.rtile b.cells } 0

/-- CONSUMED is recorded for the current generation. -/
def State.performConsumed (s : State) (r : Req) (h : Nat) : State :=
  match (s.saggar r.saggar).buffer? h with
  | none => s.reqFault r (bufRaise 0x32 h 0)
  | some b =>
    if b.launch = r.launch && b.rtile = s.rtileOf r.site && b.cells.contains r.site.cell then
      (s.modBuffer r.saggar h fun b => { b with done := setAdd r.site.cell b.done }).finish r 0
    else s.reqFault r (bufRaise 0x33 h b.gen)

/-! ### Issue (R147, R152) -/

/-- The plan of a key/value command. (DEDUCED, log entry 43.) -/
def kvPlan (c : Ctx) (s : State) (fault : Option Raise) (ask : Ask) : Plan :=
  c.request s fault (64 ≤ s.queueLength (s.saggarOf c.x) c.x.tile 0) { ask with path := .c, queue := some 0 }

/-- KVAPP put (R147, R152). -/
def execKvappPut (h : Hdr) (s1 s2 s3 : Src) (cm : Cmpl) (layer : BitVec 8) (s : State) : Result :=
  fire (.kvappPut h s1 s2 s3 cm layer) (fun c s =>
    let b := c.bank s
    let d := b.raw h 0 s1
    let off := b.raw h 0 s2
    let n := b.raw h 0 s3
    kvPlan c s ((vaFault d 16).or ((s.offFault (s.saggarOf c.x) off 16 1).or (lenFault (n.toNat < 2 ^ 32) n (vaOf d))))
      { op := .kvput (vaOf d) off.toNat n.toNat layer.toNat, path := .c, cm := cmplOut cm }) s

/-- KVAPP commit (R148). -/
def execKvappCommit (h : Hdr) (s1 s3 : Src) (cm : Cmpl) (s : State) : Result :=
  fire (.kvappCommit h s1 s3 cm) (fun c s =>
    let b := c.bank s
    let d := b.raw h 0 s1
    let n := b.raw h 0 s3
    kvPlan c s ((vaFault d 16).or (lenFault (n.toNat < 2 ^ 32) n (vaOf d)))
      { op := .kvcommit (vaOf d) n.toNat, path := .c, cm := cmplOut cm }) s

/-- KVROT (R148). -/
def execKvrot (h : Hdr) (o : Out) (s1 : Src) (cm : Cmpl) (s : State) : Result :=
  fire (.kvrot h o s1 cm) (fun c s =>
    let d := (c.bank s).raw h 0 s1
    kvPlan c s (vaFault d 16)
      { op := .kvrot (vaOf d), path := .c, dst := .out o.toNat, cm := cmplOut cm, data := 1 }) s

/-! ### Putting and sealing (R152, R153) -/

/-- The course of an engine's work: the state, whether some data bore a tag, and the fault that ends it. -/
structure EngineRun where
  s   : State
  bad : Bool := false
  err : Option Raise := none

/-- Read a range of HBM on path C. -/
def EngineRun.get (t : EngineRun) (r : Req) (m : ReadNature) (a n : Nat) : EngineRun × List Byte × List Nat :=
  if t.err.isSome then (t, List.replicate n 0, [])
  else match t.s.hbmRead .c (some r.site) m r.saggar a n with
  | .error f => ({ t with err := some f }, List.replicate n 0, [])
  | .ok (s, bs, bad) => ({ t with s := s, bad := t.bad || !bad.isEmpty }, bs, bad)

/-- Write a range of HBM on path C. -/
def EngineRun.put (t : EngineRun) (r : Req) (m : ReadNature) (a : Nat) (bs : List Byte) (bad : List Nat) : EngineRun :=
  if t.err.isSome then t
  else
    let w := t.s.writePlace r m bs bad (.hbm a)
    { t with s := w.1, err := w.2 }

/-- The greatest magnitude of the finite elements of a BF16 row, as an FP32 encoding; +0.0 when there is none (R152).
(DEDUCED, log entry 43; DESIGN CHOICE, log entry 71.) -/
def rowAmax : Nat → List Byte → Nat
  | 0, _ => 0
  | n + 1, bs =>
    let x := ofLeBytes (bs.take 2) % 2 ^ 15
    Nat.max (if x / 2 ^ 7 = 0xFF then 0 else x <<< 16) (rowAmax n (bs.drop 2))

/-- The greatest of some FP32 encodings (R153). The spec states no value when one of them is a NaN: it is then free. -/
def blockMax (free : Nat) (xs : List Nat) : FVal :=
  if xs.any fun x => (fp32.decode x).isNan then fp32.decode (free % 2 ^ 32)
  else rowMax (xs.map fp32.decode)

/-- The E4M3 code of a BF16 element under a scale (R153). -/
def sealElem (scale : FVal) (x : Nat) : Nat :=
  let neg := x.testBit 15
  if x % 2 ^ 15 / 2 ^ 7 = 0xFF then (if neg then 0xFF else 0x7F)
  else if scale.isZero then (if neg then 0x80 else 0x00)
  else (fpRound e4m3 .rne false (fdivV (bf16.decode x) scale).val {}).1

/-- The codes of a row of n elements. -/
def sealRow (scale : FVal) : Nat → List Byte → List Byte
  | 0, _ => []
  | n + 1, bs => BitVec.ofNat 8 (sealElem scale (ofLeBytes (bs.take 2))) :: sealRow scale n (bs.drop 2)

/-- One head and kind of a block: its scale, its rows' codes, and which bytes of the rows are affected by a tag. -/
def EngineRun.sealHead (r : Req) (m : ReadNature) (d : SeqDesc) (l h k : Nat) (t : EngineRun) :
    EngineRun × List Byte × List Byte × List Nat × Bool :=
  let ms := (List.range 64).foldl (fun (a : EngineRun × List Nat × Bool) p =>
    let g := a.1.get r m (d.amaxAt l p h k) 4
    (g.1, a.2.1 ++ [ofLeBytes g.2.1], a.2.2 || !g.2.2.isEmpty)) (t, [], false)
  let mx := blockMax (Config.unstated ms.1.s.tick (2 * h + k)) ms.2.1
  let scale := if mx.isZero then 0 else (fpRound fp32 .ru false (fdivV mx (.ofInt 448)).val {}).1
  let rows := (List.range 64).foldl (fun (a : EngineRun × List Byte × List Nat) p =>
    let g := a.1.get r m (d.rowAt l p h k) (2 * d.dim)
    (g.1, a.2.1 ++ sealRow (fp32.decode scale) d.dim g.2.1,
      a.2.2 ++ (if ms.2.2 then List.range d.dim else (g.2.2.map (· / 2)).eraseDups).map (a.2.1.length + ·))) (ms.1, [], [])
  (rows.1, leBytes 4 scale, rows.2.1, rows.2.2, ms.2.2)

/-- The bytes of a sealed slot, with the offsets that a tag affects (R150, R153). -/
def EngineRun.sealBlock (r : Req) (m : ReadNature) (d : SeqDesc) (l : Nat) (t : EngineRun) : EngineRun × List Byte × List Nat :=
  let u := (List.range (2 * d.heads)).foldl (fun (a : EngineRun × List Byte × List Byte × List Nat) i =>
    let x := a.1.sealHead r m d l (i / 2) (i % 2)
    let badScale := if x.2.2.2.2 then [128 * d.heads * d.dim + a.2.1.length] else []
    (x.1, a.2.1 ++ x.2.1, a.2.2.1 ++ x.2.2.1, a.2.2.2 ++ x.2.2.2.1.map (a.2.2.1.length + ·) ++ badScale)) (t, [], [], [])
  let pad := d.slotSize - 128 * d.heads * d.dim - u.2.1.length
  (u.1, u.2.2.1 ++ u.2.1 ++ List.replicate pad 0, u.2.2.2)

/-- seal(l, b) of R153: the slot of the block is written from the staging area. A chain place outside region or partition is
found here, and the rows and maxima that the put has staged stand. (DEDUCED, log entry 43.) -/
def EngineRun.seal (r : Req) (m : ReadNature) (d : SeqDesc) (l b : Nat) (t : EngineRun) : EngineRun :=
  if t.err.isSome then t
  else match d.slotAt l b with
  | none => t
  | some (rt, off) =>
    match t.s.tileOf r.site rt with
    | none => { t with err := some { cls := 0x22, a := BitVec.ofNat 64 rt } }
    | some tile =>
      if t.s.partSize r.saggar < off + d.slotSize then { t with err := some { cls := 0x22, a := BitVec.ofNat 64 off } }
      else
        let u := t.sealBlock r m d l
        if u.1.err.isSome then u.1
        else { u.1 with s := (u.1.s.writePlace r m u.2.1 u.2.2 (.store tile off off)).1 }

/-- The rows of one position go to the staging area with their maxima (R152). -/
def EngineRun.putRows (r : Req) (m : ReadNature) (d : SeqDesc) (off l p : Nat) (t : EngineRun) : EngineRun :=
  (List.range (2 * d.heads)).foldl (fun t i =>
    if t.err.isSome then t
    else
      let key := partKey t.s r.saggar r.site.tile (off + 2 * d.dim * i)
      let u := t.s.read .c (some r.site) m key (2 * d.dim)
      let bad := t.s.taintedAt .c (some r.site) m key (2 * d.dim)
      let t := { t with s := u.1, bad := t.bad || !bad.isEmpty }
      let t := t.put r m (d.rowAt l p (i / 2) (i % 2)) u.2 bad
      t.put r m (d.amaxAt l p (i / 2) (i % 2)) (leBytes 4 (rowAmax d.dim u.2)) (if bad.isEmpty then [] else [0])) t

/-- A fault of the key/value commands: the position or ROT, and the layer (R362). -/
def kvRaise (cls n l : Nat) : Raise := { cls := cls, a := BitVec.ofNat 64 n, b := BitVec.ofNat 64 l }

/-- The faults of a put before anything is written (R152). (DEDUCED, log entry 43.) -/
def putFault (d : SeqDesc) (n l ob : Nat) (isSealed : Bool) : Option Raise :=
  let b := n / 64
  if b < d.rot then some (kvRaise 0x42 n l)
  else if d.rot + d.slots ≤ b then some (kvRaise 0x41 n l)
  else if b = ob then none
  else if b = ob + 1 then (if isSealed then none else some (kvRaise 0x43 n l))
  else some (kvRaise 0x44 n l)

/-- The open block and SEALED, written to the staging area. -/
def EngineRun.setOpen (r : Req) (d : SeqDesc) (l ob : Nat) (sealed_ : Nat) (t : EngineRun) : EngineRun :=
  t.put r {} (d.area l) (leBytes 8 ob ++ leBytes 8 sealed_) []

/-- The effect of a put of position n of layer l (R152). With an open-block word that is uncorrectable nothing is computed or
written (R345). (DESIGN CHOICE, log entry 84.) -/
def EngineRun.kvPut (r : Req) (m : ReadNature) (d : SeqDesc) (off n l : Nat) (t : EngineRun) : EngineRun :=
  let g := t.get r m (d.area l) 16
  let ob := ofLeBytes (g.2.1.take 8)
  let isSealed := (g.2.1.getD 8 0).getLsbD 0
  match g.1.err.or (if g.2.2.isEmpty then putFault d n l ob isSealed else none) with
  | some f => { g.1 with err := some f }
  | none =>
    if !g.2.2.isEmpty then g.1 else
    let t := if n / 64 = ob then g.1 else g.1.setOpen r d l (n / 64) 0
    let t := t.putRows r m d off l (n % 64)
    if n % 64 = 63 then (t.seal r m d l (n / 64)).setOpen r d l (n / 64) 1 else t

/-- Whether a descriptor keeps the constraints of R149, its commit words in write-once pages among them: commit words in no page
raise kv-descriptor of every command, before any translation fault. (DEDUCED, log entry 41.) -/
def State.descOk (s : State) (g : Nat) (d : SeqDesc) : Bool :=
  d.ok && (pieces d.commit (512 * d.slots)).all fun p => s.attr? g p.1 = some .once

/-- The faults of a put that its descriptor shows: its constraints, the layer, then the rows within the partition, of which the
issue could test only the first byte; they come before the faults of its block. (DEDUCED, log entry 43.) -/
def State.kvShape (s : State) (r : Req) (d : SeqDesc) (off n l : Nat) : Option Raise :=
  if !(s.descOk r.saggar d) || d.layers ≤ l then some (kvRaise 0x40 n l)
  else if s.partSize r.saggar < off + 4 * d.dim * d.heads then some { cls := 0x22, a := BitVec.ofNat 64 off }
  else none

/-! ### Commit and rotation (R154, R156) -/

/-- Whether the commit word of position n is full. -/
def State.committed (s : State) (g : Nat) (d : SeqDesc) (n : Nat) : Bool := setMem (hbmWord g (d.commitAt n)) s.full

/-- The committed length: positions from n on whose commit words are full, at most f more (R154). When every word is full
the count ends after one turn of the ring: R154's greatest number does not exist there. (DESIGN CHOICE, log entry 85.) -/
def State.commitLength (s : State) (g : Nat) (d : SeqDesc) : Nat → Nat → Nat
  | 0, n => n
  | f + 1, n => if s.committed g d n then State.commitLength s g d f (n + 1) else n

/-- The fault of a KVROT before anything is changed (R156). -/
def State.rotFault (s : State) (g : Nat) (d : SeqDesc) : Option Raise :=
  let m := s.commitLength g d (64 * d.slots) (64 * d.rot)
  if !(s.descOk g d) then some (kvRaise 0x40 d.rot 0)
  else if d.window = 0 || m - d.window ≤ 64 * d.rot + 63 then some (kvRaise 0x45 d.rot 0)
  else none

/-- The commit words of a block are cleared one by one, as CLRP does (R156). -/
def State.clearCommits (s : State) (w : Writer) (g : Nat) (d : SeqDesc) : State × Option Raise :=
  (List.range 64).foldl (fun (a : State × Option Raise) p =>
    if a.2.isSome then a else a.1.clearWords w g (d.commitAt (64 * d.rot + p)) 1) (s, none)

/-- KVROT of a descriptor that is uncorrectable (R345, R350, R352): nothing is computed with it and no word is cleared; a
rotation counter that is uncorrectable is stored with the poison code; the token carries it as read, tagged when the counter
itself is uncorrectable. (DESIGN CHOICE, log entry 84.) -/
def State.taggedRot (s : State) (r : Req) (a : Nat) (d : SeqDesc) (bad : List Nat) : State :=
  let rotBad := bad.any fun i => i / 8 = 3
  let s : State := if rotBad then { s with poison := setAdd (hbmWord r.saggar (a + 0x18)) s.poison } else s
  (s.deliver r [BitVec.ofNat 64 d.rot] rotBad).finish r 1

/-- The effect of KVROT (R156). -/
def State.performRot (s : State) (r : Req) (a : Nat) (d : SeqDesc) : State :=
  match s.rotFault r.saggar d with
  | some f => s.reqFault r f
  | none =>
    match s.clearCommits r.writer r.saggar d with
    | (s, some f) => s.reqFault r f
    | (s, none) =>
      match s.hbmWrite r.writer .engine r.saggar (a + 0x18) (leBytes 8 (d.rot + 1)) with
      | (s, some f) => s.reqFault r f
      | (s, none) => (s.deliver r [BitVec.ofNat 64 (d.rot + 1)] false).finish r 0

/-- What an engine's work leaves: the request's end or its fault. -/
def EngineRun.close (r : Req) (t : EngineRun) : State :=
  match t.err with
  | some f => t.s.reqFault r f
  | none => t.s.finish r (b2n t.bad)

/-- A key/value command with its descriptor is performed; one whose descriptor is uncorrectable writes nothing (R345).
(DESIGN CHOICE, log entry 84.) -/
def EngineRun.kvDo (r : Req) (m : ReadNature) (d : SeqDesc) (bad : List Nat) (t : EngineRun) : State :=
  match r.op with
  | .kvput _ off n l =>
    if t.bad then t.s.finish r 1
    else match t.s.kvShape r d off n l with
    | some f => t.s.reqFault r f
    | none => (t.kvPut (r.begun m) m d off n l).close (r.begun m)
  | .kvcommit _ n =>
    if t.bad then t.s.finish r 1
    else if !(t.s.descOk r.saggar d) then t.s.reqFault r (kvRaise 0x40 n 0)
    else (t.put r m (d.commitAt n) (leBytes 8 (n + 1)) []).close r
  | .kvrot a => if t.bad then t.s.taggedRot r a d bad else t.s.performRot r a d
  | _ => t.s

/-- The descriptor's address of a key/value command. -/
def ReqOp.kvDesc : ReqOp → Option Nat
  | .kvput a _ _ _ | .kvcommit a _ | .kvrot a => some a
  | _ => none

/-- KV_COMMAND_PERFORMED (R148): key/value command q is performed. -/
def execKvCommandPerformed (q : Nat) (m : ReadNature) (s : State) : Result :=
  match s.req? q with
  | none => .next s
  | some r =>
    match r.op.kvDesc with
    | none => .next s
    | some a => .next (s.engineMove r fun s =>
        match s.translate r with
        | .inr s => s
        | .inl s =>
          let g := ({ s := s } : EngineRun).get r m a 160
          match g.1.err with
          | some f => g.1.s.reqFault r f
          | none => g.1.kvDo r (seeOwn m r) (seqDesc g.2.1) g.2.2)

/-! ### ACCESS_PERFORMED (R76) -/

/-- One access is performed. -/
def State.performAccess (s : State) (r : Req) (n : ReadNature) : State :=
  match r.op with
  | .ld a len sgn => s.performLd r n a len sgn
  | .st a len d => s.performSt r n .plain a len d
  | .lds .. | .sts .. | .tlook .. | .tset .. | .tinv .. | .ldfe .. | .stfe .. => s.performTile r n
  | .ldp a => s.performLdp r n a
  | .stp a d => s.performSt r n .stp a 8 d
  | .clrp a len => s.endWrite (r.begun n) 0 (s.clearWords ((r.begun n).writer n) r.saggar a (len / 8))
  | .ownEnter a len => s.performOwn r a len
  | .ownRelease a => s.performRelease r a
  | .fence _ y => s.performFence r y
  | .cmpl => if s.jointDone r then s.finish r 0 else s
  | .bcarm b base len => s.performArm r b base len
  | .bcpost _ complete => if complete then s.finish r 0 else s
  | .copyqDeclare h base len rt cells => s.performDeclare r h base len rt cells
  | .copyqRelease h => s.performUndeclare r h
  | .consumed h => s.performConsumed r h
  | .cabort _ _ _ left _ => if left.isEmpty then s.finish r 0 else s
  | _ => s

/-- ACCESS_PERFORMED (R76): access q is performed, when its order allows it (R77, R79) and its page is at hand (R310). -/
def execAccessPerformed (q : Nat) (n : ReadNature) (s : State) : Result :=
  match s.req? q with
  | none => .next s
  | some r =>
    if r.placed.isSome && r.op.kind = 3 then .next (s.engineMove r id)
    else if !(s.mayPerform r) then .next s
    else match r.op with
    | .stream .. | .upd .. | .copy .. | .row .. | .coll .. | .kvput .. | .kvcommit .. | .kvrot .. => .next s
    | _ => match s.translate r with
      | .inr s => .next s
      | .inl s => .next (s.performAccess r n)


end Sys2Proof.Machine
end

