-- ==== Sys2Proof/Machine/Token.lean ====
section
/-! DEFINITION. Tokens on links and at their consumers, and REPLAY (R54, R69 to R73, R80 to R82, R323 to R325, R353 to R355,
R368); TRAP, CHKERR and FAULTRD (R364 to R366). -/

namespace Sys2Proof.Machine

/-! ### TOKEN_ARRIVAL -/

/-- The name of a pair at its consumer: the sender's relative tile, cell and output. -/
def State.pairOf (s : State) (x : Site) (o : Nat) : Nat × Nat × Nat := (s.rtileOf x, x.cell, o)

/-- The sequence number that a channel expects next on a pair (R70). -/
def Chan.expected (c : Chan) (p : Nat × Nat × Nat) : Nat := (alGet p c.expect).getD 0

/-- A token of a pair is accepted: the next one is expected. -/
def Chan.accept (c : Chan) (p : Nat × Nat × Nat) (t : Token) : Chan := { c with expect := alPut p (t.seq + 1) c.expect }

/-- A token enters a channel, in the slot that was taken for it. -/
def Chan.enter (c : Chan) (t : Token) : Chan := { c with toks := c.toks ++ [t], taken := c.taken - 1 }

/-- A token that enters no channel gives its slot back, and its sender is told. -/
def State.discard (s : State) (y : Site) (n : Nat) (t : Token) : State :=
  (s.modBank y fun b => b.modChan n fun c => { c with taken := c.taken - 1 }).ack t

/-- A pair's marker or drain token has arrived. -/
def arrivedOn (p : Nat × Nat × Nat) (n : Nat) : Nat × Nat × Nat × Nat := (p.1, p.2.1, p.2.2, n)

/-- A marker arrives: it is consumed at a cell already marked or without instruction words; else it enters the channel
(R323, R324). -/
def State.takeMarker (s : State) (y : Site) (n : Nat) (p : Nat × Nat × Nat) (t : Token) : State :=
  s.modBank y fun b =>
    let b := { b with markIn := b.markIn ++ [arrivedOn p n] }
    if b.mark ≠ .clear || !b.programmed then b else b.modChan n fun c => { c with toks := c.toks ++ [t] }

/-- A drain token arrives: a retired cell consumes it; at a live cell it stays (R80). -/
def State.takeDrain (s : State) (y : Site) (n : Nat) (p : Nat × Nat × Nat) (t : Token) : State :=
  let s := s.modBank y fun b => { b with drainIn := b.drainIn ++ [arrivedOn p n] }
  if (s.bank y).retired then s.discard y n t else s.modBank y fun b => b.modChan n (Chan.enter · t)

/-- Any other token arrives: a retired cell discards and counts it (R54). -/
def State.takeToken (s : State) (y : Site) (n : Nat) (t : Token) : State :=
  if (s.bank y).retired then
    ((s.discard y n t).modBank y fun b => { b with discards := b.discards + 1 }).progress y
  else s.modBank y fun b => b.modChan n (Chan.enter · t)

/-- A token reaches its consumer. A sink accepts on a pair only the token that it expects next, and drops any other: its
slot is held for the one that is sent again (R355). -/
def State.takeArrival (s : State) (x : Site) (o : Nat) (y : Site) (n : Nat) (t : Token) : State :=
  let p := s.pairOf x o
  if t.cls = clsMarker then s.takeMarker y n p t
  else if ((s.bank y).chan n).expected p ≠ t.seq then s
  else
    let s := s.modBank y fun b => b.modChan n fun c => c.accept p t
    if t.cls = clsDrain then s.takeDrain y n p t else s.takeToken y n t

/-- The plane slot that a token bears: that of its destination tile in the sender's launch. -/
def State.slotTag (s : State) (x : Site) (o : Nat) : Nat :=
  (do let bd ← ((s.bank x).out o).bind
      let l ← s.launchAt x
      let t ← l.tiles.find? fun (e : LTile) => e.rtile = bd.tile
      t.slot).getD 0

/-- A token finds no active plane at its slot: it is discarded, and its sender's region freezes (R82). -/
def State.strayToken (s : State) (x : Site) (o : Nat) (t : Token) : State :=
  (s.ack t).raiseCell x { cls := 0x0B, source := 3, a := BitVec.ofNat 64 (s.slotTag x o), b := BitVec.ofNat 64 o }

/-- TOKEN_ARRIVAL (R73): the oldest token on the link of output o of bank x enters its channel. -/
def execTokenArrival (x : Site) (o : Nat) (s : State) : Result :=
  match ((s.bank x).out o).flight with
  | [] => .next s
  | t :: rest =>
    let s := s.modBank x fun b => b.modOut o fun p => { p with flight := rest }
    match s.consumer x o with
    | some (y, n) => .next (s.takeArrival x o y n t)
    | none => .next (s.strayToken x o t)

/-! ### Flits (R69) -/

/-- Bits 75:0 of a flit: the error tag, the plane slot at the destination tile, the destination channel, the class and the
payload. -/
def flitBody (etag : Bool) (plane : BitVec 2) (ch : BitVec 5) (cls : BitVec 3) (payload : Word) : BitVec 76 :=
  (0#1 ++ BitVec.ofBool etag ++ plane ++ ch ++ cls ++ payload : BitVec 76)

/-- The positions of the data bits: the numbers from 1 that are no power of two. -/
def flitPlaces : List Nat := ((List.range 84).drop 1).filter fun n => n ≠ 2 ^ Nat.log2 n

/-- Check bit k: the exclusive or of the data bits whose position has bit k set. -/
def flitCheck (w : BitVec 76) (k : Nat) : Bool :=
  (flitPlaces.zipIdx).foldl (fun x e => if e.1.testBit k then x != w.getLsbD e.2 else x) false

/-- The seven check bits as a number. -/
def flitChecks (w : BitVec 76) : Nat := (List.range 7).foldl (fun n k => n + b2n (flitCheck w k) * 2 ^ k) 0

/-- Whether an odd number of some bits of a word are set. -/
def oddBits (n w : Nat) : Bool := (List.range n).foldl (fun x i => x != w.testBit i) false

/-- A flit with its check. -/
def flitOf (w : BitVec 76) : BitVec 84 :=
  let low := w.toNat + flitChecks w * 2 ^ 76
  BitVec.ofNat 84 (low + b2n (oddBits 83 low) * 2 ^ 83)

/-- What a hop makes of a flit that arrives: bits 75:0, and whether it corrected a bit; none when it detects an error that it
cannot correct. -/
def flitRead (f : BitVec 84) : Option (BitVec 76 × Bool) :=
  let w := f.setWidth 76
  let s := flitChecks w ^^^ bits f.toNat 76 7
  if !(oddBits 84 f.toNat) then (if s = 0 then some (w, false) else none)
  else if s = 0 || s = 2 ^ Nat.log2 s then some (w, true)
  else if 84 ≤ s then none
  else some (w ^^^ 1#76 <<< flitPlaces.idxOf s, true)

/-- The flit of a token on its way to a channel. -/
def Token.flit (t : Token) (plane ch : Nat) : BitVec 76 :=
  flitBody t.etag (BitVec.ofNat 2 plane) (BitVec.ofNat 5 ch) t.cls t.payload

/-! ### FLIT_HOP (R353, R354) -/

/-- The launches that hold a slot on both tiles of a hop. -/
def State.onHop (s : State) (a b : Nat) : List Nat :=
  let has (l : Launch) (t : Nat) : Bool := l.tiles.any fun e => e.tile = t && e.slot.isSome
  (s.launches.filter fun l => has l a && has l b).map (·.num)

/-- The fallback form is accepted as a poisoned token with a payload of zero. -/
def OutState.fallback (p : OutState) : OutState :=
  match p.flight with
  | [] => p
  | t :: rest => { p with flight := { t with payload := 0, etag := true } :: rest }

/-- The sendings of a flit until one is accepted, at most four: whether that one was corrected. A sending that the code reads
as another flit, of more wrong bits than R69 promises to detect, counts as one that it detects. (DESIGN CHOICE, log entry 8.) -/
def sendings (w : BitVec 76) : Nat → List (BitVec 84) → Option Bool
  | 0, _ => none
  | f + 1, errs => match flitRead (flitOf w ^^^ errs.headD 0) with
    | some (v, fixed) => if v = w then some fixed else sendings w f (errs.drop 1)
    | none => sendings w f (errs.drop 1)

/-- A hop counts a bit that it corrected (R353). (DESIGN CHOICE, log entry 8.) -/
def State.countHop (s : State) (a b : Nat) : State :=
  { s with hopCount := alPut (a, b) ((alGet (a, b) s.hopCount).getD 0 + 1) s.hopCount }

/-- The link-failure fault of a hop (R354). -/
def State.linkFailure (s : State) (x : Site) (a b : Nat) : State :=
  let w : Where := { s.whereAt x 0 with rule := 0, word := 0 }
  s.takeFault w.saggar w { cls := 0x0D, source := 3, a := BitVec.ofNat 64 (a ||| b <<< 6) } (s.onHop a b)

/-- FLIT_HOP (R353, R354): the oldest flit on an output crosses a hop: it is accepted, after up to three more sendings; or its
fallback form is, as a poisoned token; or that fails too. (DESIGN CHOICE, log entry 8.) -/
def execFlitHop (x : Site) (o : Nat) (k : FlitNature) (s : State) : Result :=
  match ((s.bank x).out o).flight with
  | [] => .next s
  | t :: _ =>
    let ch := ((((s.bank x).out o).bind).map (·.ch)).getD 0
    if 64 ≤ k.a || 64 ≤ k.b then .next s
    else match sendings (t.flit (s.slotTag x o) ch) 4 k.errs with
    | some fixed => .next (if fixed then s.countHop k.a k.b else s)
    | none => .next (if k.lost then s.linkFailure x k.a k.b else s.modBank x fun b => b.modOut o OutState.fallback)

/-! ### REPLAY (R368) -/

/-- The re-injection count of a token. (DEDUCED, log entry 32.) -/
def Chan.reinjCount (c : Chan) (p : Nat × Nat × Nat) (seq : Nat) : Nat := (alGet (p.1, p.2.1, p.2.2, seq) c.reinj).getD 0

/-- Whether a head stays where it is under REPLAY. -/
def Token.settled (t : Token) : Bool := t.cls = clsCmpl || stays t || t.seqr

/-- The tokens of a pair from one on leave the channel; their slots stay held, and the count goes up. -/
def Chan.takeBack (c : Chan) (p : Nat × Nat × Nat) (t : Token) : Chan :=
  let gone (u : Token) : Bool := u.src = t.src && u.out = t.out && u.cls ≠ clsMarker && t.seq ≤ u.seq
  { c with
    toks := c.toks.filter fun u => !gone u
    taken := c.taken + (c.toks.filter gone).length
    expect := alPut p t.seq c.expect
    reinj := alPut (p.1, p.2.1, p.2.2, t.seq) (c.reinjCount p t.seq + 1) c.reinj }

/-- The source sends its tokens again, from a number on. -/
def State.sendFrom (s : State) (x : Site) (o seq : Nat) : State :=
  (s.modBank x fun b => b.modOut o fun p => { p with resend := p.kept.filter fun t => seq ≤ t.seq }).sendAgain x o

/-- REPLAY (R368). (DEDUCED, log entry 32.) -/
def execReplay (h : Hdr) (hd : Head) (s : State) : Result :=
  fire (.replay h hd) (fun c s =>
    let b := c.bank s
    match b.headTok h hd, Hdr.headCh h hd with
    | some t, some n =>
      let p := s.pairOf t.src t.out
      if t.settled then {}
      else
        { fault := if 3 ≤ (b.chan n).reinjCount p t.seq then
            some { cls := 0x0A, reason := 5, a := BitVec.ofNat 64 n, b := t.payload } else none
          act := fun s => (s.modBank c.x fun b => b.modChan n fun ch => ch.takeBack p t).sendFrom t.src t.out t.seq }
    | _, _ => {}) s

/-! ### TRAP, CHKERR, FAULTRD (R364 to R366) -/

/-- The error tag of the head that a source names. -/
def Bank.srcTag (b : Bank) (h : Hdr) : Src → Bool
  | .head hd => ((b.headTok h hd).map (·.etag)).getD false
  | _ => false

/-- TRAP (R365): the software trap, on every firing. -/
def execTrap (h : Hdr) (s1 : Src) (code : BitVec 16) (s : State) : Result :=
  fire (.trap h s1 code) (fun c s =>
    let b := c.bank s
    { fault := some { cls := 0x04, a := b.raw h 0 s1, b := BitVec.ofNat 64 (code.toNat ||| b2n (b.srcTag h s1) <<< 16) } }) s

/-- What CHKERR finds of a token: its tag, or the status of a completion token. -/
def tokenBad (t : Token) : Bool := t.etag || (t.cls = clsCmpl && bits t.payload.toNat 52 4 ≠ 0)

/-- CHKERR (R366). -/
def execChkerr (h : Hdr) (hd : Head) (pk : BitVec 3) (clean : Bool) (s : State) : Result :=
  fire (.chkerr h hd pk clean) (fun c s =>
    let t := (((c.bank s).headTok h hd).map tokenBad).getD false
    { act := c.pred pk (t != clean) }) s

/-- Word k of the record of a sequence number in a log; 0 when the log does not hold it. -/
def Saggar.logWord (g : Saggar) (seq k : Nat) : Word :=
  ((g.log.find? (·.seq = seq)).map fun r => r.words.getD k 0).getD 0

/-- FAULTRD word (R366). -/
def execFaultrdWord (h : Hdr) (dst : Dst) (s1 : Src) (wsel : BitVec 3) (s : State) : Result :=
  fire (.faultrdWord h dst s1 wsel) (fun c s =>
    c.scalar dst 8 ((s.saggar (s.saggarOf c.x)).logWord ((c.bank s).low h 0 32 s1) wsel.toNat)) s

/-- FAULTRD count (R366). -/
def execFaultrdCount (h : Hdr) (dst : Dst) (s : State) : Result :=
  fire (.faultrdCount h dst) (fun c s => c.scalar dst 8 ((s.saggar (s.saggarOf c.x)).nextSeq.setWidth 64)) s

end Sys2Proof.Machine
end

