-- ==== Sys2Proof/Machine/Cohort.lean ====
section
/-! DEFINITION. Cohorts: JOIN, LEAVE, BAR (R294 to R296), and the collectives COLL, CABORT and XRED (R144 to R146, R253,
R254). -/

namespace Sys2Proof.Machine

/-! ### Cohorts and members -/

def State.modCohort (s : State) (g k : Nat) (f : Cohort → Cohort) : State :=
  { s with cohorts := s.cohorts.map fun c => if c.saggar = g && c.num = k then f c else c }

def Cohort.modMember (c : Cohort) (r : Nat) (f : Member → Member) : Cohort :=
  { c with members := c.members.map fun m => if m.rank = r then f m else m }

/-- The member that a rule of a bank makes or ends: its region or its cell. -/
def State.memberId (s : State) (x : Site) (rgn : Bool) : MemberId :=
  if rgn then .region (s.launchNum x) else .cell (s.launchNum x) (s.rtileOf x) x.cell

/-- A member of a cohort that has not left. -/
def Cohort.find (c : Cohort) (who : MemberId) : Option Member := c.members.find? fun m => !m.gone && m.who = who

/-- The member for which a collective of a bank stands: its cell, or else its region. (DEDUCED, log entry 50.) -/
def State.memberOf (s : State) (x : Site) (k : Nat) : Option (Cohort × Member) :=
  (s.cohort? (s.saggarOf x) k).bind fun c =>
    ((c.find (s.memberId x false)).or (c.find (s.memberId x true))).map fun m => (c, m)

/-- A fault of the cohort family: the cohort and the attempt (R362). -/
def cohRaise (cls k attempt : Nat) : Raise := { cls := cls, a := BitVec.ofNat 64 k, b := BitVec.ofNat 64 attempt }

/-- The launch of a member. -/
def MemberId.launch? : MemberId → Option Nat
  | .cell j _ _ => some j
  | .region j => some j
  | .remote _ => none

/-! ### The ports (R315, R316, R387) -/

/-- Whether a port of the package is at work. (DEDUCED, log entry 76.) -/
def State.portWorks (s : State) (p : Nat) : Bool :=
  p < 16 && !(s.portsOff.contains p) && s.service ≠ .off && s.holdUp = .none

/-- A packet is dropped and counted at its port. -/
def State.dropPacket (s : State) (p : Nat) : State :=
  { s with ports := setAt {} s.ports p (let e := s.ports.getD p {}; { e with drops := e.drops + 1 }) }

/-- Whether the ports carry traffic between devices (R370, R387, R393): full service, no hold-up, a link that is up. -/
def State.portsOpen (s : State) : Bool := s.holdUp = .none && s.service = .full && s.ports.any (·.up)

/-- Whether a packet of a peer endpoint can be taken at a port: its link is up, and it is one of the at most 4,096 peers
(R387). -/
def State.peerAt (s : State) (p device : Nat) : Bool :=
  let e := s.ports.getD p {}
  s.portWorks p && s.service = .full && e.up && (e.peers.contains device || e.peers.length < 4096)

/-- The peer endpoint of a packet is one of the port's. -/
def State.notePeer (s : State) (p device : Nat) : State :=
  let e := s.ports.getD p {}
  { s with ports := setAt {} s.ports p (if e.peers.contains device then e else { e with peers := e.peers ++ [device] }) }

/-- The tenant hash that is bound to the saggar of one number on a peer device, as its join records told it (R316). -/
def State.learnBinding (s : State) (device g : Nat) (tenant : List Byte) : State :=
  { s with bound := alPut (device, g) tenant s.bound }

/-- Whether a saggar takes packets of a peer: it is neither free nor killing, and its tenant hash is that of the sending
saggar (R13, R316). -/
def State.sameTenant (s : State) (g : Nat) (tenant : List Byte) : Bool :=
  let sg := s.saggar g
  0 < g && g < 16 && (sg.st = .created || sg.st = .loaded) && sha384 sg.tenant = tenant

/-- Whether a port delivers a packet of a peer device to a saggar: the tenant hash that the peer's join records bound is that
of the saggar (R316). -/
def State.delivers (s : State) (port device g : Nat) : Bool :=
  s.peerAt port device && (alGet (device, g) s.bound).any (s.sameTenant g)

/-- The packets of a collective as the ports take them: those for which the saggar does not stand are dropped and counted
(R316). (DEDUCED, log entry 50.) -/
def State.takeParts (s : State) (g : Nat) (ps : List RemotePart) : State × List RemotePart :=
  ps.foldl (fun t p =>
    if !(t.1.portWorks p.port) then t
    else if t.1.delivers p.port p.device g then (t.1.notePeer p.port p.device, t.2 ++ [p])
    else (t.1.dropPacket p.port, t.2)) (s, [])

/-! ### Collectives outstanding -/

/-- The cohort and the rank of a collective. -/
def ReqOp.coll? : ReqOp → Option (Nat × Nat)
  | .coll _ _ _ _ _ k r _ => some (k, r)
  | _ => none

/-- The cohort and the rank of a BAR. -/
def ReqOp.bar? : ReqOp → Option (Nat × Nat)
  | .bar k r => some (k, r)
  | _ => none

/-- The collectives of a cohort that are outstanding on this device, oldest first. -/
def State.colls (s : State) (g k : Nat) : List Req :=
  s.reqs.filter fun r => r.saggar = g && !r.answered && !r.lost && (r.op.coll?.map (·.1)) = some k

/-- The BARs of a cohort that are outstanding on this device. -/
def State.bars (s : State) (g k : Nat) : List Req :=
  s.reqs.filter fun r => r.saggar = g && !r.answered && (r.op.bar?.map (·.1)) = some k

/-- Whether a member has a COLL, XRED or BAR of its cohort outstanding. -/
def State.memberBusy (s : State) (g k rank : Nat) : Bool :=
  (s.colls g k).any (fun r => r.op.coll? = some (k, rank)) || (s.bars g k).any (fun r => r.op.bar? = some (k, rank))

/-- Some collectives and BARs complete without being performed, with a status; once the run-out has begun none is answered
(R373). (DEDUCED, log entry 50.) -/
def State.giveUp (s : State) (rs : List Req) (status : Nat := 2) : State :=
  if s.holdUp = .runOut then s else rs.foldl (fun s r => s.finish r status) s

/-- A cohort whose every member is gone is dissolved (R295). (DEDUCED, log entry 50.) -/
def State.dissolve (s : State) (g k : Nat) : State :=
  { s with cohorts := s.cohorts.filter fun c => !(c.saggar = g && c.num = k && c.members.all (·.gone)) }

/-- A JOIN whose cohort will never be formed sends nothing: its slot is free. -/
def State.dropJoin (s : State) (r : Req) : State :=
  let s := match r.dst with
    | .out o => if r.held then s else s.endRun r.site o r.id
    | _ => s
  if r.held then (s.dropReq r.id).renewRecord r.launch else (s.dropReq r.id).clearFinal r.site

/-- The JOINs of a cohort that wait for its formed token. -/
def State.joins (s : State) (g k : Nat) : List Req :=
  s.reqs.filter fun r => r.saggar = g && !r.answered && match r.op with
    | .join k' _ => k' = k
    | _ => false

/-- Members end: the cohort is closing, and what can no longer complete completes with status 0x2; no formed token is sent any
more (R294, R295). Where the end is the kill of their saggar, the collectives have the status that R306 prints.
(DEDUCED, log entry 50; DESIGN CHOICE, log entry 97.) -/
def State.endMembers (s : State) (g k : Nat) (f : Member → Bool) (status : Nat := 2) : State :=
  let s := s.modCohort g k fun c =>
    { c with closing := true, members := c.members.map fun m => if f m then { m with gone := true } else m }
  let s := (s.joins g k).foldl State.dropJoin s
  ((s.giveUp (s.colls g k) status).giveUp (s.bars g k)).dissolve g k

/-- The end of a region ends its memberships and those of its cells (R12, R295). -/
def State.endRegionMembers (s : State) (j : Nat) : State :=
  let mine (c : Cohort) : Bool := c.members.any fun m => !m.gone && m.who.launch? = some j
  (s.cohorts.filter mine).foldl (fun s c => s.endMembers c.saggar c.num fun m => m.who.launch? = some j) s

/-! ### JOIN and LEAVE (R294, R295) -/

/-- The faults of a JOIN: its size, then its rank. -/
def joinFault (c : Option Cohort) (who : MemberId) (k r n : Nat) : Option Raise :=
  match c with
  | none =>
    if n = 0 || 4096 < n then some (cohRaise 0x3D k 0) else if n ≤ r then some (cohRaise 0x3E k 0) else none
  | some c =>
    if n = 0 || 4096 < n || n ≠ c.size then some (cohRaise 0x3D k 0)
    else if n ≤ r || c.members.any (·.rank = r) || (c.find who).isSome then some (cohRaise 0x3E k 0)
    else none

/-- The payload of a formed token: n and r (R294). -/
def formedWord (n r : Nat) : Word := BitVec.ofNat 64 (n <<< 32 ||| r)

/-- The formed tokens of a cohort are sent, until the run-out (R373). -/
def State.sendFormed (s : State) (g k n : Nat) : State :=
  if s.holdUp = .runOut then s else
  (s.joins g k).foldl (fun s r => match r.op with
    | .join _ rank => s.loaded r [formedWord n rank] false
    | _ => s) s

/-- When all ranks have joined, the cohort is formed. -/
def State.formWhenFull (s : State) (g k : Nat) : State :=
  match s.cohort? g k with
  | none => s
  | some c =>
    if c.formed || c.closing || c.members.length < c.size then s
    else
      (s.modCohort g k fun c =>
        { c with formed := true, gen := 0
                 members := c.members.map fun m => { m with attempt := 0 } }).sendFormed g k c.size

/-- A member enters a cohort, which it makes when the number is free. -/
def State.enter (s : State) (g k r n : Nat) (who : MemberId) : State :=
  let m : Member := { rank := r, who := who }
  let s : State := match s.cohort? g k with
    | none => { s with cohorts := s.cohorts ++ [{ saggar := g, num := k, size := n, members := [m] }] }
    | some _ => s.modCohort g k fun c => { c with members := c.members ++ [m] }
  s.formWhenFull g k

/-- The output of an output operand. -/
def outOpt (o : OutOpt) : Option Nat := o.map (·.toNat)

/-- JOIN (R294). -/
def execJoin (h : Hdr) (rgn : Bool) (od : OutOpt) (s1 s2 : Src) (coh : BitVec 8) (s : State) : Result :=
  fire (.join h rgn od s1 s2 coh) (fun c s =>
    let b := c.bank s
    let r := (b.raw h 0 s1).toNat
    let n := (b.raw h 0 s2).toNat
    let g := s.saggarOf c.x
    let k := coh.toNat
    { fault := joinFault (s.cohort? g k) (s.memberId c.x rgn) k r n
      slots := (outOpt od).toList
      refuse := ((s.cohort? g k).map (·.closing)).getD false
      act := fun s =>
        let s := match outOpt od with
          | some o => s.issue c { op := .join k r, path := .h, dst := .out o, data := 1 }
          | none => s
        s.enter g k r n (s.memberId c.x rgn) }) s

/-- A join record of a peer is delivered: its member enters, or leaves (R294, R295), or was killed with its saggar (R306).
(DESIGN CHOICE, log entry 97.) -/
def State.takeRecordOf (s : State) (g k : Nat) (r : JoinRecord) : State :=
  let who : MemberId := .remote r.device
  let c := s.cohort? g k
  match r.kind with
  | .gone => s.endMembers g k fun m => m.rank = r.rank && m.who = who
  | .killed => s.endMembers g k (fun m => m.rank = r.rank && m.who = who) 1
  | .join =>
    let closing := (c.map (·.closing)).getD false
    let badSize := r.size = 0 || 4096 < r.size || (c.map (·.size)).getD r.size ≠ r.size
    let badRank := r.size ≤ r.rank || (c.map fun c => c.members.any (·.rank = r.rank)).getD false
    if closing || badSize || badRank then s else s.enter g k r.rank r.size who

/-- JOIN_RECORD_RECEIVE (R294, R295): a JOIN of a peer device enters its member; its LEAVE, or the end of its region, ends the
membership. The port learns the binding that the record states; a record for a saggar that is free, killing or of another tenant
is dropped and counted (R316). (DESIGN CHOICE, log entry 8.) -/
def execJoinRecordReceive (g k : Nat) (r : JoinRecord) (s : State) : Result :=
  .next (if !(s.portWorks r.port) then s
    else if !(s.peerAt r.port r.device) then s.dropPacket r.port
    else
      let s := (s.notePeer r.port r.device).learnBinding r.device g r.tenant
      if s.sameTenant g r.tenant then s.takeRecordOf g k r else s.dropPacket r.port)

/-- LEAVE (R295). -/
def execLeave (h : Hdr) (rgn : Bool) (coh : BitVec 8) (s : State) : Result :=
  fire (.leave h rgn coh) (fun c s =>
    let g := s.saggarOf c.x
    let k := coh.toNat
    let who := s.memberId c.x rgn
    match (s.cohort? g k).bind (·.find who) with
    | none => { fault := some (cohRaise 0x38 k 0) }
    | some m =>
      { refuse := s.memberBusy g k m.rank
        act := fun s => s.endMembers g k fun m => m.who = who }) s

/-! ### BAR (R296) -/

/-- BAR (R296). (DEDUCED, log entry 51.) -/
def execBar (h : Hdr) (rgn : Bool) (o : Out) (coh : BitVec 8) (s : State) : Result :=
  fire (.bar h rgn o coh) (fun c s =>
    let g := s.saggarOf c.x
    let k := coh.toNat
    match s.cohort? g k, (s.cohort? g k).bind (·.find (s.memberId c.x rgn)) with
    | some ch, some m =>
      let ask (s : State) : Ask := { op := .bar k m.rank, path := .l, cm := some o.toNat, joint := s.issuedBy c.x }
      { c.request s (if ch.closing then some (cohRaise 0x3C k m.attempt) else none) m.arrived (ask s) with
        act := fun s => (s.issue c (ask s)).modCohort g k fun ch => ch.modMember m.rank fun m => { m with arrived := true } }
    | _, _ => { fault := some (cohRaise 0x38 k 0) }) s

/-- BARs complete together: the token of each orders what every one of them covers (R296). (DEDUCED, log entry 51.) -/
def State.endBars (s : State) (rs : List Req) : State :=
  let cov := (rs.flatMap (·.joint)).eraseDups
  rs.foldl (fun s r => (s.modReq r.id fun q => { q with joint := cov }).finish { r with joint := cov } 0) s

/-- BAR_COMPLETE (R296): when every member has arrived and every access issued before is performed, each arriving cell is
sent its token, and the next generation begins. Members of other devices are counted as arrived by the step itself.
(DEDUCED, log entry 50.) -/
def execBarComplete (g k : Nat) (s : State) : Result :=
  match s.cohort? g k with
  | none => .next s
  | some c =>
    let here := c.members.filter fun m => m.who.launch?.isSome
    let rs := s.bars g k
    let open_ := here.length = c.members.length || s.portsOpen
    if c.formed && !c.closing && here.all (·.arrived) && !rs.isEmpty && rs.all (fun r => s.mayPerform r && s.jointDone r) && open_ then
      .next ((s.endBars rs).modCohort g k fun c =>
        { c with gen := c.gen + 1, members := c.members.map fun m => { m with arrived := false } })
    else .next s

/-! ### COLL, XRED, CABORT at issue (R121, R144, R146, R253) -/

/-- Whether a collective divides its elements into blocks, one a rank. -/
def collSplits : Option CollOp → Bool
  | some .reducescatter | some .alltoall => true
  | _ => false

/-- The counts that R144 and R253 allow. -/
def collCount (op : Option CollOp) (n : Word) : Bool :=
  match op with
  | some _ => 1 ≤ n.toNat && n.toNat < 2 ^ 32
  | none => n.toNat % 32 = 0 && 32 ≤ n.toNat && n.toNat < 2 ^ 32

/-- The faults of a collective for its member: closing, ranks, the division into blocks, partial overlap. -/
def memberFault (c : Cohort) (m : Member) (op : Option CollOp) (e : Nat) (d p n : Word) : Option Raise :=
  let dl := (vaOf d, e * collOut op c.size n.toNat)
  let sl := (vaOf p, e * n.toNat)
  if c.closing then some (cohRaise 0x3C c.num m.attempt)
  else if op.isNone && 256 < c.size then some (cohRaise 0x3B c.num m.attempt)
  else if collSplits op && n.toNat % c.size ≠ 0 then lenFault false n (vaOf d)
  else if dl ≠ sl && spansMeet [dl] [sl] then some (cohRaise 0x3A c.num m.attempt)
  else none

/-- The faults of a collective at issue. -/
def State.collFault (s : State) (x : Site) (op : Option CollOp) (e k : Nat) (d p n : Word) : Option Raise :=
  (vaFault d e).or ((vaFault p e).or ((lenFault (collCount op n) n (vaOf d)).or
    (match s.memberOf x k with
    | none => some (cohRaise 0x38 k 0)
    | some (c, m) => memberFault c m op e d p n)))

/-- The plan of a collective. (DEDUCED, log entry 50.) -/
def collPlan (c : Ctx) (s : State) (op : Option CollOp) (s1 s2 s3 : Src) (cm : Cmpl) (fmt : Fmt) (k : Nat) : Plan :=
  let b := c.bank s
  let d := b.raw c.h 0 s1
  let p := b.raw c.h 0 s2
  let n := b.raw c.h 0 s3
  let m := (s.memberOf c.x k).map (·.2)
  c.request s (s.collFault c.x op (elemBytes fmt) k d p n) (16 ≤ (s.colls (s.saggarOf c.x) k).length)
    { op := .coll op (vaOf d) (vaOf p) n.toNat fmt k ((m.map (·.rank)).getD 0) ((m.map (·.attempt)).getD 0)
      path := .x, cm := cmplOut cm }

/-- COLL (R144). -/
def execColl (h : Hdr) (op : CollOp) (s1 s2 s3 : Src) (cm : Cmpl) (fmt : Fmt) (coh : BitVec 8) (s : State) : Result :=
  fire (.coll h op s1 s2 s3 cm fmt coh) (fun c s => collPlan c s (some op) s1 s2 s3 cm fmt coh.toNat) s

/-- XRED (R253). -/
def execXred (h : Hdr) (s1 s2 s3 : Src) (cm : Cmpl) (fmt : Fmt) (coh : BitVec 8) (s : State) : Result :=
  fire (.xred h s1 s2 s3 cm fmt coh) (fun c s => collPlan c s none s1 s2 s3 cm fmt coh.toNat) s

/-! ### The values of a collective (R144, R145, R254) -/

/-- The sum of two elements of a format (R145). -/
def collAdd (f : Fmt) (a b : Nat) : Nat :=
  match fpOf? f with
  | some ff => updFadd ff a b
  | none => (a + b) % 2 ^ fmtBits f

/-- The greater of two elements of a format (R144). -/
def collMax (f : Fmt) (a b : Nat) : Nat :=
  match fpOf? f with
  | some ff => minMaxBits ff true a b
  | none => pickOf (fmtBits f) true true a b

/-- Element by element, with the tags of both. -/
def zipElems (op : Nat → Nat → Nat) (a b : List (Nat × Bool)) : List (Nat × Bool) :=
  (a.zip b).map fun (x, y) => (op x.1 y.1, x.2 || y.2)

/-- The elements of every rank reduced in rank order. -/
def reduceParts (op : Nat → Nat → Nat) : List (List (Nat × Bool)) → List (Nat × Bool)
  | [] => []
  | p :: ps => ps.foldl (zipElems op) p

/-- Block i of n elements. -/
def blockOf (n i : Nat) (p : List (Nat × Bool)) : List (Nat × Bool) := (p.drop (i * n)).take n

/-- The exponent field that an element has in an exact reduction. -/
def xredExp (f : FFmt) (x : Nat) : Nat := Nat.max 1 (bits x f.mw 8)

/-- One block of 32 elements of every rank (R254); a tagged element taints the elements of its own place (R352). -/
def xredBlock (f : FFmt) (ps : List (List (Nat × Bool))) : List (Nat × Bool) :=
  let top := (ps.flatten.map fun x => xredExp f x.1).foldl Nat.max 0
  let unit : Int := (if f.mw = 23 then 150 else 134) - (top : Int)
  let whole (x : Nat) : Int := match (f.decode x).scaleBy unit with
    | .fin n m e k => (roundInt .rne n m e k 0).1
    | _ => 0
  let sums := (List.range ((ps.headD []).length)).map fun j =>
    ((ps.map fun p => whole (p.getD j (0, false)).1).foldl (· + ·) 0, ps.any fun p => (p.getD j (0, false)).2)
  sums.map fun v => (if top = 0xFF then f.nanBits false else (fpRound f .rne false (FVal.mk v.1 (-unit) false) {}).1, v.2)

/-- An exact reduction, block by block. -/
def xredParts (f : FFmt) : Nat → List (List (Nat × Bool)) → List (Nat × Bool)
  | 0, _ => []
  | n + 1, ps => xredBlock f (ps.map (·.take 32)) ++ xredParts f n (ps.map (·.drop 32))

/-- The elements that rank r receives from the sources of every rank. -/
def collResult (op : Option CollOp) (f : Fmt) (n r : Nat) (ps : List (List (Nat × Bool))) : List (Nat × Bool) :=
  let b := n / ps.length
  match op with
  | none => match fpOf? f with
    | some ff => xredParts ff (n / 32) ps
    | none => []
  | some .allreduce => reduceParts (collAdd f) ps
  | some .reducescatter => blockOf b r (reduceParts (collAdd f) ps)
  | some .allgather => ps.flatten
  | some .broadcast => ps.headD []
  | some .alltoall => (ps.map (blockOf b r)).flatten
  | some .allmax => reduceParts (collMax f) ps

/-! ### The performance of a collective (R145, R254) -/

/-- The elements in some bytes, with the tags of the offsets given. -/
def toElems (e : Nat) (bad : List Nat) : Nat → Nat → List Byte → List (Nat × Bool)
  | 0, _, _ => []
  | n + 1, off, bs =>
    (ofLeBytes (bs.take e), bad.any fun o => off ≤ o && o < off + e) :: toElems e bad n (off + e) (bs.drop e)

/-- The course of collecting the sources: what every rank sends, its requests here, and a fault or a lack that ends it. -/
structure Gather where
  s     : State
  parts : List (List (Nat × Bool)) := []
  reqs  : List Req := []
  lack  : Bool := false
  stop  : Option (Req × Raise) := none

/-- The attempt of a collective (R146). -/
def ReqOp.attempt? : ReqOp → Option Nat
  | .coll _ _ _ _ _ _ _ a => some a
  | _ => none

/-- The oldest collective of a rank of this device, when it is of an attempt: the packets of another are dropped (R146). -/
def State.nextColl (s : State) (g k rank attempt : Nat) : Option Req :=
  ((s.colls g k).find? fun r => r.op.coll? = some (k, rank)).bind fun r => if r.op.attempt? = some attempt then some r else none

/-- The source of one rank of this device. -/
def Gather.here (n : ReadNature) (t : Gather) (r : Req) : Gather :=
  match r.op with
  | .coll _ _ p len f _ _ _ =>
    match t.s.hbmRead .x (some r.site) n r.saggar p (elemBytes f * len) with
    | .error e => { t with stop := t.stop.or (some (r, e)) }
    | .ok (s, bs, bad) => { t with s := s, parts := t.parts ++ [toElems (elemBytes f) bad len 0 bs], reqs := t.reqs ++ [r] }
  | _ => t

/-- The packets of a rank of another device: of this attempt, and whole (R146). -/
def RemotePart.joins (p : RemotePart) (rank attempt : Nat) : Bool :=
  p.rank = rank && p.attempt = attempt && p.bytes.length = elemBytes p.fmt * p.count

/-- The source of one rank: of this device, or as another device sent it. -/
def Gather.rank (g : Nat) (c : Cohort) (attempt : Nat) (remote : List RemotePart) (n : ReadNature) (t : Gather) (rank : Nat) :
    Gather :=
  match c.members.find? (·.rank = rank) with
  | none => { t with lack := true }
  | some m =>
    match m.who with
    | .remote d => match remote.find? fun p => p.device = d && RemotePart.joins p rank attempt with
      | some p =>
        { t with parts := t.parts ++ [(toElems (elemBytes p.fmt) [] p.count 0 p.bytes).zipIdx.map fun x => (x.1.1, p.bad.contains x.2)] }
      | none => { t with lack := true }
    | _ => match t.s.nextColl g c.num rank attempt with
      | some r => if t.s.mayPerform r then t.here n r else { t with lack := true }
      | none => { t with lack := true }

/-- What the ranks of a cohort send, in rank order. (DEDUCED, log entry 50.) -/
def State.gather (s : State) (g : Nat) (c : Cohort) (attempt : Nat) (remote : List RemotePart) (n : ReadNature) : Gather :=
  (List.range c.size).foldl (Gather.rank g c attempt remote n) { s := s }

/-- Whether two ranks issued the same collective (R145). -/
def ReqOp.sameColl : ReqOp → ReqOp → Bool
  | .coll o _ _ n f _ _ _, .coll o' _ _ n' f' _ _ _ => o = o' && n = n' && f = f'
  | _, _ => false

/-- Whether what a rank of another device sends is of the collective that a rank here issued (R145). -/
def RemotePart.sameColl (p : RemotePart) : ReqOp → Bool
  | .coll o _ _ n f _ _ _ => p.op = o && p.count = n && p.fmt = f
  | _ => false

/-- The bytes that a rank's destination receives, with the offsets that bear a tag. -/
def collBytes (e : Nat) (els : List (Nat × Bool)) : List Byte × List Nat :=
  ((els.map fun x => leBytes e x.1).flatten,
    ((List.range els.length).filter fun j => (els.getD j (0, false)).2).map (e * ·))

/-- The write of one rank's destination. -/
def State.collWrite (s : State) (m : ReadNature) (ps : List (List (Nat × Bool))) (r : Req) : State × Option Raise × Nat :=
  match r.op with
  | .coll op d _ n f _ rank _ =>
    let els := collResult op f n rank ps
    let w := collBytes (elemBytes f) els
    let t := s.writePlace r m w.1 w.2 (.hbm d)
    (t.1, t.2, b2n !w.2.isEmpty)
  | _ => (s, none, 0)

/-- Every destination is written, as far as each can be; then every rank's token is sent, or, when the write of some rank
faults, its faults alone: the collective is then never performed, and the others end as R295 and R362 state.
(DEDUCED, log entry 39.) -/
def Gather.finish (m : ReadNature) (t : Gather) : State :=
  let w := t.reqs.foldl (fun (a : State × List (Req × Option Raise × Nat)) r =>
    let r := r.begun m
    let u := a.1.collWrite m t.parts r
    (u.1, a.2 ++ [(r, u.2)])) (t.s, [])
  let faults := w.2.filterMap fun (r, f, _) => f.map fun f => (r, f)
  if faults.isEmpty then w.2.foldl (fun s (r, _, st) => s.finish r st) w.1
  else faults.foldl (fun s (r, f) => s.reqFault r f) w.1

/-- Whether every rank here issued the collective of one (R145). -/
def Gather.agrees (t : Gather) (r0 : Req) : Bool := t.reqs.all fun r => r.op.sameColl r0.op

/-- What comes of the sources collected: a mismatch on every rank, a fault of some rank, or the end of the collective. -/
def Gather.close (s : State) (m : ReadNature) (k attempt : Nat) (remote : List RemotePart) (t : Gather) : State :=
  if t.lack then s
  else match t.stop, t.reqs with
  | some (r, f), _ => s.reqFault r f
  | none, [] => s
  | none, r0 :: _ =>
    if t.agrees r0 && remote.all (fun p => RemotePart.sameColl p r0.op) then t.finish m
    else t.reqs.foldl (fun s r => s.reqFault r (cohRaise 0x39 k attempt)) s

/-- Translate the ranges of the collective of every rank here: the state is on the right when one has to wait. -/
def State.translateEach (s : State) : List Req → State ⊕ State
  | [] => .inl s
  | r :: rs => match s.translate r with
    | .inr s => .inr s
    | .inl s => s.translateEach rs

/-- The collectives that the ranks of this device perform together. -/
def State.collsOf (s : State) (g : Nat) (c : Cohort) (attempt : Nat) : List Req :=
  (List.range c.size).filterMap fun rank => s.nextColl g c.num rank attempt

/-- Whether a member's region is frozen. (DEDUCED, log entry 50.) -/
def State.memberFrozen (s : State) (m : Member) : Bool :=
  match m.who.launch?.bind s.launch? with
  | some l => l.freeze
  | none => false

/-- A collective is performed on every rank, once every rank has issued it (R145); or ends with status 0x2 on the other
ranks when a member region is frozen (R362). (DEDUCED, log entry 36.) -/
def State.performColl (s : State) (r : Req) (exact : Bool) (remote : List RemotePart) (n : ReadNature) : State :=
  match r.op with
  | .coll op _ _ _ _ k _ attempt =>
    match s.cohort? r.saggar k with
    | none => s
    | some c =>
      if op.isNone ≠ exact || !c.formed then s
      else if r.placed.isSome then if s.holdUp = .runOut then s else
        ((s.colls r.saggar k).filter fun q => q.op.attempt? = some attempt).foldl (fun s q => match q.placed with
          | some status => s.finishPlaced q status
          | none => s) s
      else if c.members.any s.memberFrozen then
        s.giveUp ((s.colls r.saggar k).filter fun q => !(((s.launch? q.launch).map (·.freeze)).getD false))
      else match s.translateEach (s.collsOf r.saggar c attempt) with
        | .inr s => s
        | .inl s => (s.gather r.saggar c attempt remote n).close s n k attempt (remote.filter fun p =>
          p.attempt = attempt && c.members.any fun m => m.rank = p.rank && m.who = .remote p.device)
  | _ => s

/-- COLLECTIVE_PERFORMED (R145): a COLL is performed. -/
def execCollectivePerformed (q : Nat) (parts : List RemotePart) (n : ReadNature) (s : State) : Result :=
  match s.req? q with
  | none => .next s
  | some r => let t := s.takeParts r.saggar parts; .next (t.1.performColl r false t.2 n)

/-- XRED_PERFORMED (R254): an XRED is performed. -/
def execXredPerformed (q : Nat) (parts : List RemotePart) (n : ReadNature) (s : State) : Result :=
  match s.req? q with
  | none => .next s
  | some r => let t := s.takeParts r.saggar parts; .next (t.1.performColl r true t.2 n)

/-- COLLECTIVE_MEMBER_TIMEOUT (R362): a device with members of the cohort has been silent; its collectives here end with
status 0x2. -/
def execCollectiveMemberTimeout (g k : Nat) (s : State) : Result :=
  match s.cohort? g k with
  | none => .next s
  | some c => .next (if c.members.all fun m => m.who.launch?.isSome then s else s.giveUp (s.colls g k))

/-! ### Attempts and CABORT (R146) -/

/-- A byte range cut at its 16-byte granules: the address and the bytes of each piece. -/
def granulesOf : Nat → Nat → List Byte → List (Nat × List Byte)
  | 0, _, _ => []
  | f + 1, a, bs =>
    if bs.isEmpty then []
    else
      let m := 16 - a % 16
      (a, bs.take m) :: granulesOf f (a + m) (bs.drop m)

/-- An abandoned collective may have written any granules of its destination with the values of its attempt (R146), the words
of tagged elements with a poison code (R352). It has values when every rank here has issued it. (DESIGN CHOICE, log entry 71.) -/
def State.partWrite (s : State) (r : Req) (t : Gather) : State :=
  match r.op with
  | .coll op d _ n f _ rank _ =>
    if t.lack || t.stop.isSome || !(t.agrees r) then s
    else
      let w := collBytes (elemBytes f) (collResult op f n rank t.parts)
      (granulesOf (w.1.length / 16 + 2) d w.1).foldl (fun s p =>
        let off := p.1 - d
        let bad := (w.2.filter fun o => off ≤ o + elemBytes f - 1 && o < off + p.2.length).map (· - off)
        if Config.unstated s.tick (p.1 / 16) % 2 = 1 then (s.writePlace r {} p.2 bad (.hbm p.1)).1 else s) s
  | _ => s

/-- A collective of a rank is abandoned: what the engines had begun of it is left in part, and of the oldest of its rank, if they
had not, its values may be; it is never answered once the run-out has begun (R146, R373). (DEDUCED, log entry 50.) -/
def State.abandonColl (s : State) (g : Nat) (c : Cohort) (oldest : Bool) (r : Req) : State :=
  if s.holdUp = .runOut then s else
  match r.op with
  | .coll _ _ _ _ _ _ _ a =>
    let s := if r.placed.isSome then s.leavePart r.id
      else if oldest then s.partWrite r (s.gather g c a [] {})
      else s
    s.finish { r with placed := none } 2
  | _ => s

/-- An abort token of an attempt has reached a rank: none is on its way to it any more. -/
def State.abortTaken (s : State) (g k rank attempt : Nat) : State :=
  { s with reqs := s.reqs.map fun r => match r.op with
      | .cabort k' r' a left sent =>
        if r.saggar = g && k' = k && a = attempt then { r with op := .cabort k' r' a left (sent.filter (· ≠ rank)) } else r
      | _ => r }

/-- A rank advances from its attempt: its collectives of that attempt are abandoned, and the CABORTs of that attempt no
longer wait for it. -/
def State.advance (s : State) (g : Nat) (c : Cohort) (rank attempt : Nat) : State :=
  let k := c.num
  let gone := (s.colls g k).filter fun r => r.op.coll? = some (k, rank) && r.op.attempt? = some attempt
  let s := (gone.take 1).foldl (fun s r => s.abandonColl g c true r) s
  let s := (gone.drop 1).foldl (fun s r => s.abandonColl g c false r) s
  let s := s.modCohort g k fun c => c.modMember rank fun m => { m with attempt := (attempt + 1) % 256 }
  { s with reqs := s.reqs.map fun r => match r.op with
      | .cabort k' r' a left sent =>
        if r.saggar = g && k' = k && a = attempt then { r with op := .cabort k' r' a (left.filter (· ≠ rank)) sent } else r
      | _ => r }

/-- Whether a rank's attempt number has passed an attempt: it is ahead of it by less than half the numbers, which are taken
modulo 256. (DEDUCED, log entry 50.) -/
def passed (now attempt : Nat) : Bool := let d := (now + 256 - attempt) % 256; 0 < d && d < 128

/-- CABORT (R146): the issuer advances at commit, and its abort token goes to every other rank. -/
def execCabort (h : Hdr) (cm : Cmpl) (coh : BitVec 8) (s : State) : Result :=
  fire (.cabort h cm coh) (fun c s =>
    let g := s.saggarOf c.x
    let k := coh.toNat
    match s.memberOf c.x k with
    | none => { fault := some (cohRaise 0x38 k 0) }
    | some (ch, m) =>
      let others := ch.members.filter fun o => !o.gone && o.rank ≠ m.rank
      let left := (others.filter fun o => !(passed o.attempt m.attempt)).map (·.rank)
      let ask : Ask := { op := .cabort k m.rank m.attempt left (others.map (·.rank)), path := .x, cm := cmplOut cm }
      { c.request s none false ask with act := fun s => (s.issue c ask).advance g ch m.rank m.attempt }) s

/-- Whether the abort token of an attempt that a CABORT of this device sent is on its way to a rank. -/
def State.abortSent (s : State) (g k rank attempt : Nat) : Bool :=
  s.reqs.any fun r => r.saggar = g && match r.op with
    | .cabort k' _ a _ sent => k' = k && a = attempt && sent.contains rank
    | _ => false

/-- A rank takes the abort token of its attempt, and drops one of another. -/
def State.takeAbort (s : State) (g k rank attempt : Nat) : State :=
  match s.cohort? g k with
  | none => s
  | some c =>
    match c.members.find? (·.rank = rank) with
    | none => s
    | some m => if m.attempt = attempt then s.advance g c rank attempt else s

/-- ABORT_TOKEN_RECEIVE (R146): an abort token of a CABORT here reaches a rank; or one of a member of another device does, at a
port, which drops and counts it when the saggar is free, killing or not bound to that device's (R316).
(DESIGN CHOICE, log entry 8.) -/
def execAbortTokenReceive (g k rank : Nat) (a : AbortToken) (s : State) : Result :=
  .next (if s.abortSent g k rank a.attempt then (s.abortTaken g k rank a.attempt).takeAbort g k rank a.attempt
    else if !(s.portWorks a.port) then s
    else if !(s.delivers a.port a.device g) then s.dropPacket a.port
    else if ((s.cohort? g k).map fun c => c.members.any fun m => m.who = .remote a.device).getD false then
      (s.notePeer a.port a.device).takeAbort g k rank a.attempt
    else s)

end Sys2Proof.Machine
end

