-- ==== Sys2Proof/Machine/Region.lean ====
section
/-! DEFINITION. Regions on tiles: placement, plane slots and their weights, planes made active, slots released, and how a
launch ends (R12, R14, R24, R43 to R46, R81, R88, R174, R265, R267, R297, R303, R306, R360, R392). -/

namespace Sys2Proof.Machine

/-! ### Placement (R4, R14, R24, R363, R393) -/

/-- Whether the plat map offers a tile. -/
def State.offered (s : State) (t : Nat) : Bool :=
  t < 64 && !(s.tilesOff.contains t) && !(s.storeOff.contains t)
    && (s.service = .full || (s.service = .bisque && 8 ≤ t && t < 12))

/-- The package tile of a relative tile at an origin, when the placement is valid (R24). -/
def tileAt (o t : Nat) : Option Nat :=
  if o < 64 && o / 16 + t / 16 ≤ 3 && o % 16 + t % 16 ≤ 15 then some (o + t) else none

/-- The package tiles of a plat at an origin. -/
def platAt (o : Nat) : List Nat → Option (List Nat)
  | [] => some []
  | t :: ts => match tileAt o t, platAt o ts with
    | some p, some ps => some (p :: ps)
    | _, _ => none

/-- The plat of a launch's region. -/
def State.platOf (s : State) (l : Launch) : List Nat :=
  ((s.image? l.saggar l.image).map fun i => i.plat l.region).getD []

/-! ### Plane slots (R265, R303) -/

/-- The slots that a saggar holds on a tile. -/
def State.slotsHeld (s : State) (g t : Nat) : Nat :=
  ((s.tile t).slots.filter fun k => k.phase ≠ .free && ((s.launch? k.launch).map (·.saggar)) = some g).length

/-- The lowest slot of a tile that is free for a saggar (R303). -/
def State.freeSlotFor (s : State) (g t : Nat) : Option Nat :=
  if (s.saggar g).res.slots ≤ s.slotsHeld g t then none
  else (List.range 4).find? fun k => (s.slot t k).phase = .free

/-- The occupancy of a tile column (R265). -/
def State.occupancy (s : State) (c : Nat) : Nat :=
  ([c, c + 16, c + 32, c + 48].map fun t => ((s.tile t).slots.filter (·.phase ≠ .free)).length).foldl (· + ·) 0

/-- The tile of a launch by its package number. -/
def Launch.at (l : Launch) (t : Nat) : Option LTile := l.tiles.find? (·.tile = t)

def State.modLTile (s : State) (j t : Nat) (f : LTile → LTile) : State :=
  s.modLaunch j fun l => { l with tiles := l.tiles.map fun e => if e.tile = t then f e else e }

/-- A launch reserves a slot of a tile. -/
def State.reserveSlot (s : State) (j t k : Nat) : State :=
  (s.modSlot t k fun _ => { phase := .reserved, launch := j }).modLTile j t fun e => { e with slot := some k }

/-! ### Validation of a plane (R43, R174, R289, R392) -/

/-- An item of a plane that fails: its cell, its place in the order of R43, the reason, the channel of a format entry, and
the rule word. -/
structure BadItem where
  cell   : Nat
  index  : Nat
  code   : Nat
  chan   : Nat := 0xFF
  word   : BitVec 128 := 0
deriving DecidableEq, Repr

/-- The outputs of a cell that its block binds. -/
def bodyBound (b : List Byte) (c : Nat) : BitVec 8 :=
  (List.range 8).foldl (fun m o => if (decodeBind (bodyBind b c o)).isSome then m ||| 1#8 <<< o else m) 0#8

/-- Whether a binding word keeps R392 in a plat. -/
def bindOk (plat : List Nat) (w : Nat) : Bool :=
  match decodeBind w with
  | none => w = 0
  | some d => bits w 0 43 = 0 && plat.contains d.tile && d.cell < 192

/-- The failing rule words of a cell. -/
def badRules (cx : WordCtx) (b : List Byte) (c : Nat) : List BadItem :=
  (List.range 16).filterMap fun r =>
    let w := bodyRule b c r
    if w = 0 then none
    else (reason cx (splitWord w)).map fun code => { cell := c, index := r, code := code, word := w }

/-- The failing items of a cell block, in order; rz bytes that are not zero are one item. (DEDUCED, log entry 56.) -/
def badCell (cx : WordCtx) (plat : List Nat) (b : List Byte) (c : Nat) : List BadItem :=
  let cx := { cx with bound := bodyBound b c }
  let binds := (List.range 8).filterMap fun o =>
    if bindOk plat (bodyBind b c o) then none else some ({ cell := c, index := 0, code := 0x0B } : BadItem)
  let rz : List BadItem := if ((b.drop (512 * c + 0x1A0)).take 96).all (· = 0) then [] else [{ cell := c, index := 0, code := 0x0B }]
  let fmts := (List.range 32).filterMap fun n =>
    if fmtValid (bodyFmt b c n) then none else some ({ cell := c, index := 16, code := 0x0B, chan := n } : BadItem)
  badRules cx b c ++ binds ++ rz ++ fmts

/-- Whether a cell block is all zero: no block opened the cell. -/
def cellEmpty (b : List Byte) (c : Nat) : Bool := ((b.drop (512 * c)).take 512).all (· = 0)

/-- The failing extension entries: a wrong field, an unknown register, a wrong order. -/
def badInits (b : List Byte) : List BadItem :=
  let ks := List.range (leAt b 0x18000 8)
  let key (k : Nat) : Nat × Nat := let w := leAt b (0x18008 + 16 * k) 8; (bits w 0 8, bits w 8 6)
  ks.filterMap fun k =>
    let w := leAt b (0x18008 + 16 * k) 8
    let (c, r) := key k
    let okReg := r < 0x20 || (0x30 ≤ r && r < 0x38)
    let okOrd := k = 0 || (let (c', r') := key (k - 1); c' < c || (c' = c && r' < r))
    if c < 192 && okReg && okOrd && w >>> 14 = 0 then none else some { cell := c, index := 0, code := 0x0B }

/-- The item that a record names: the lowest cell, then the lowest index, then the lowest reason.
(DEDUCED, log entry 56.) -/
def BadItem.before (a b : BadItem) : Bool :=
  a.cell < b.cell || (a.cell = b.cell && (a.index < b.index || (a.index = b.index && a.code < b.code)))

def firstItem : List BadItem → Option BadItem
  | [] => none
  | x :: r => match firstItem r with
    | none => some x
    | some y => if y.before x then some y else some x

/-- The bytes of a plane body in an image. -/
def Image.body (i : Image) (p : Nat) : List Byte := (i.bytes.drop (i.bodyOff p)).take (i.planeLen p)

/-- The failing items of a plane. (DEDUCED, log entry 56.) -/
def State.badItems (s : State) (i : Image) (r : Nat) (b : List Byte) : List BadItem :=
  let cx : WordCtx := { regions := i.regions, bisque := s.service = .bisque }
  ((List.range 192).filter fun c => !(cellEmpty b c)).flatMap (badCell cx (i.plat r) b) ++ badInits b

/-! ### A plane becomes active (R45, R46, R174) -/

/-- The LFSR of a cell. -/
def seedOf (seed rtile cell : Nat) : BitVec 32 :=
  let v := BitVec.ofNat 32 (seed ^^^ (256 * rtile + cell))
  if v = 0 then 1 else v

/-- The register that an extension entry writes. -/
def initReg (r : Nat) : Reg := if r < 0x20 then .g r else .m (r - 0x30)

/-- A bank of a cell as the plane sets it. -/
def bankOfBody (seed rtile : Nat) (b : List Byte) (c : Nat) : Bank :=
  let rules := (List.range 16).map (bodyRule b c)
  let soft := (List.range 16).map (bodySoft b c)
  let is := rules.map fun w => if w = 0 then none else decode w
  let bank : Bank :=
    { rules := rules, soft := soft, conf := confRows (bodyFmt b c) soft is, loadSets := loadSetsOf (bodyFmt b c) is
      lfsr := seedOf seed rtile c
      chans := (List.range 32).map fun n => { fmt := bodyFmt b c n }
      outs := (List.range 8).map fun o => { bind := decodeBind (bodyBind b c o) } }
  (bodyInits b).foldl (fun k (e : Nat × Nat × Word) => if e.1 = c then k.setReg (initReg e.2.1) e.2.2 else k) bank

/-- The cells of a plane that have a bank: those with a block and those with an initial value. -/
def bodyCells (b : List Byte) : List Nat :=
  (List.range 192).filter fun c => !(cellEmpty b c) || (bodyInits b).any (·.1 = c)

/-- The banks of a plane on a tile's slot. -/
def State.setBanks (s : State) (t k seed rtile : Nat) (b : List Byte) : State :=
  (bodyCells b).foldl (fun s c => s.setBank { tile := t, slot := k, cell := c } (bankOfBody seed rtile b c)) s

/-! ### Weights (R267) -/

/-- A plane that takes weight: every plane of priority 0 on the tile falls from 4 to 2, and it gains 2 for each.
(DEDUCED, log entry 55.) -/
def State.takeWeight (s : State) (t k : Nat) : State :=
  let low := (List.range 4).filter fun i => let sl := s.slot t i; i ≠ k && sl.phase = .active && sl.base = 4 && sl.weight = 4
  let took := low.map fun i => (i, (s.slot t i).launch)
  let s := low.foldl (fun s i => s.modSlot t i fun sl => { sl with weight := 2 }) s
  s.modSlot t k fun sl => { sl with weight := sl.base + 2 * low.length, took := took }

/-- The weights that a plane took are restored, to those of the planes from which it took that are still there. -/
def State.giveWeight (s : State) (t k : Nat) : State :=
  (s.slot t k).took.foldl (fun s e => s.modSlot t e.1 fun sl =>
    if sl.phase = .active && sl.launch = e.2 then { sl with weight := sl.base } else sl) s

/-- The slot of a launch on a tile becomes active; a region that starts as a whole waits until all are.
(DEDUCED, log entry 55.) -/
def State.activateSlot (s : State) (l : Launch) (t k : Nat) (waits : Bool) : State :=
  let s := s.modSlot t k fun _ =>
    { phase := .active, launch := l.num, base := l.baseWeight, weight := l.baseWeight, waits := waits }
  (if l.takes then s.takeWeight t k else s).rebuild t

/-- Whether the planes of a launch are active on every tile. (DEDUCED, log entry 55.) -/
def State.allActive (s : State) (l : Launch) : Bool :=
  l.tiles.all fun e => match e.slot with
    | some k => (s.slot e.tile k).phase = .active && (s.slot e.tile k).launch = l.num
    | none => e.passed

/-- The region starts. (DEDUCED, log entry 55.) -/
def State.start (s : State) (j : Nat) : State :=
  match s.launch? j with
  | none => s
  | some l =>
    let s := l.tiles.foldl (fun s e => match e.slot with
      | some k => s.modSlot e.tile k fun sl => { sl with waits := false }
      | none => s) s
    s.modLaunch j fun l => { l with phase := .running }

/-! ### A slot is released (R81, R272, R274, R329) -/

/-- The runs of the banks of a slot. (DEDUCED, log entry 52.) -/
def State.unitsAt (s : State) (t k : Nat) : List Nat :=
  (s.banks.filter fun e => e.1.tile = t && e.1.slot = k).flatMap fun e => e.2.units.map (·.id)

/-- Whether a bank stands in a slot of a tile. -/
def inSlot (t k : Nat) (x : Site) : Bool := x.tile = t && x.slot = k

/-- The slot is free: its banks are gone, with what its plane held of the tile's units, and no plane gives it weight back any
more (R267); the frame table is built anew when an active plane left (R268). -/
def State.clearSlot (s : State) (t k : Nat) : State :=
  let runs := s.unitsAt t k
  let active := (s.slot t k).phase = .active
  let s := s.giveWeight t k
  let s := s.modTile t fun tl => { tl with slots := tl.slots.map fun sl => { sl with took := sl.took.filter fun e => e.1 ≠ k } }
  let s := s.modSlot t k fun _ => {}
  let s := s.modTile t fun tl => { tl with
    loops := tl.loops.map fun e => match e with
      | some h => if h.1 = k then none else some h
      | none => none
    range := tl.range.filter fun r => r.slot ≠ k
    nodes := tl.nodes.map fun e => match e with
      | some id => if runs.contains id then none else some id
      | none => none }
  let s : State := { s with
    banks := s.banks.filter fun e => !(inSlot t k e.1)
    round := if s.round.live = some (t, k) then {} else { s.round with firing := s.round.firing.filter fun f => !(inSlot t k f.site) } }
  if active then s.rebuild t else s

/-- Some requests are abandoned: nothing of them is left, and a stash record that one had begun to send stays. What an engine
had begun to write for one is there; and the entries that they held at the base dies go to the loads that wait (R107). -/
def State.abandonReqs (s : State) (f : Req → Bool) : State :=
  let gone := s.reqs.filter f
  let ids := gone.map (·.id)
  let recs := gone.filterMap fun r => match r.op with
    | .unstash _ v _ _ _ => v
    | _ => none
  let dies := ((s.deferred.filter fun e => ids.contains e.2).map (·.1)).eraseDups
  let s := (gone.filter (·.placed.isSome)).foldl (fun s r => s.showAll (·.acc = r.id)) s
  let s : State := { s with
    reqs := s.reqs.filter fun r => !(f r)
    deferred := s.deferred.filter fun e => !(ids.contains e.2)
    waiting := s.waiting.filter fun e => !(ids.contains e.2)
    delayed := s.delayed.filter fun e => !(ids.contains e.2)
    saveReqs := s.saveReqs.filter fun q => !(ids.contains q)
    saveAnswers := s.saveAnswers.filter fun e => !(ids.contains e.1)
    stashed := s.stashed.map fun v => if recs.contains v.id then { v with taken := false } else v
    tiles := s.tiles.map fun tl => { tl with rows := tl.rows.filter fun q => !(ids.contains q) } }
  dies.foldl (fun s d => s.admitLoad d (s.waiting.length + 1)) s

/-- The slot of a launch on a tile is released for good: with its owner ranges; what its cells wrote is seen by all. -/
def State.releaseTile (s : State) (j t : Nat) : State :=
  match (s.launch? j).bind (·.at t) with
  | none => s
  | some e =>
    let s := s.modLTile j t fun e => { e with slot := none, passed := true }
    match e.slot with
    | none => s
    | some k =>
      let s := (s.clearSlot t k).showAll fun l => (l.site.map (inSlot t k)).getD false
      let s : State := { s with owners := s.owners.filter fun w => !(w.launch = j && inSlot t k w.site) }
      s.abandonReqs fun r => r.launch = j && inSlot t k r.site

/-! ### Messages of the device (R388, R389) -/

/-- The header of a message (R388). -/
def messageHead (type g len ctr : Nat) : List Byte := leBytes 8 (type <<< 56 ||| g <<< 52 ||| len) ++ leBytes 8 ctr

/-- The body of a message of the device: its status in the first word, then the words and bytes. (DESIGN CHOICE, log entry 75.) -/
def Answer.body (a : Answer) : List Byte := leBytes 8 a.status ++ (a.words.flatMap fun w => leBytes 8 w.toNat) ++ a.bytes

/-- The IV of a message: 95 the direction, 63:0 the counter (R388). -/
def messageIv (toHost : Bool) (ctr : Nat) : List Byte := leBytes 12 (b2n toHost <<< 95 ||| ctr % 2 ^ 64)

/-- A message of the device with its tag: zeros for those of key exchange and attest, else that of GCM under the saggar's key
(R388). -/
def Saggar.seal (g : Saggar) (a : Answer) : Answer :=
  let key := (g.keys.map (·.2)).getD []
  { a with tag :=
      if a.type = 0x84 || a.type = 0x85 then List.replicate 16 0
      else Config.gcmTag key (messageIv true a.ctr) (messageHead a.type a.saggar a.body.length a.ctr) a.body }

/-- A message goes to the host, under the next counter of its saggar; none during the hold-up sequence (R370). -/
def State.tell (s : State) (g type status : Nat) (words : List Word) (bytes : List Byte) : State :=
  let c := (s.saggar g).ctrOut + 1
  if s.holdUp ≠ .none then s
  else { s.modSaggar g (fun sg => { sg with ctrOut := c }) with
    answers := s.answers ++
      [(s.saggar g).seal { type := type, saggar := g, ctr := c, status := status, words := words, bytes := bytes }] }

/-! ### The end of a launch (R88, R290, R297, R360) -/

/-- One end token of a LAUNCH. The first uses the slot that it took at commit; a successor's takes one when one is free. -/
def State.endWord (s : State) (r : Req) (p : Word) (last : Bool) : State :=
  let t : GTok := { cls := clsCmpl, payload := p, acc := r.orders }
  let s := match r.cout with
    | none => s
    | some o =>
      if r.performed then (s.addGroup r.site o { id := s.nextId, toks := [t], closed := true }).flush r.site o
      else s.fillGroup r.site o r.cgroup t
  let s : State := { s with nextId := s.nextId + 1 }
  if last then ((s.dropReq r.id).clearFinal r.site).sendMarkers r.site
  else s.modReq r.id fun r => { r with performed := true }

/-- The end of a region is told to a LAUNCH, or kept while the region of the LAUNCH is saved; once the run-out has begun a
LAUNCH is never answered (R327, R373). -/
def State.endToken (s : State) (q status : Nat) (last : Bool) : State :=
  match s.parked? q with
  | none => s
  | some r =>
    let p := completion 8 0xF status 0
    if r.held then (s.modReq q fun r => { r with answered := last, answers := r.answers ++ [p] }).renewRecord r.launch
    else s.endWord r p last

/-- The end of a region is reported where its launch named (R88); a successor's where its predecessor's is.
(DEDUCED, log entry 54.) -/
def State.reportEnd (s : State) (l : Launch) (status : Nat) : State :=
  match l.endTo with
  | .nowhere => s
  | .host => s.tell l.saggar 0x88 status [BitVec.ofNat 64 l.no] []
  | .req q => s.endToken q status (!(s.launches.any fun o => o.num ≠ l.num && o.endTo = .req q))

/-- The origin of a resume launch: that at which it was dispatched, or that which it names; 0 for a floating one that was
not dispatched. (DESIGN CHOICE, log entry 90.) -/
def Launch.resumeAt (l : Launch) : Nat := if l.phase = .placed || l.phase = .running then l.placed else if l.floating then 0 else l.origin

/-- The RESUME that waits for a launch is told its end: [5:0] the origin, [6] whether it failed (R344). -/
def State.answerResume (s : State) (j : Nat) (bad : Bool) : State :=
  match s.launch? j with
  | none => s
  | some l =>
    match l.resume.bind s.parked? with
    | none => s
    | some r =>
      (s.modLaunch j fun l => { l with resume := none }).loaded r [BitVec.ofNat 64 (l.resumeAt % 64 ||| b2n bad <<< 6)] false

/-- A launch leaves its queue. -/
def State.unqueue (s : State) (j : Nat) : State := { s with queues := s.queues.map fun q => q.filter (· ≠ j) }

/-- Nothing of a launch stays: its requests, its reservation, its saved record, its memberships and its record. -/
def State.forget (s : State) (j : Nat) : State :=
  match s.launch? j with
  | none => s
  | some l =>
    let s := (s.endRegionMembers j).abandonReqs fun r => r.launch = j
    let s := s.modSaggar l.saggar fun g => { g with
      reserved := g.reserved.filter fun e => e.1 ≠ j
      saved := g.saved.filter fun v => v.launch ≠ j }
    { s.unqueue j with launches := s.launches.filter fun o => o.num ≠ j }

/-- What a region that is ended by force leaves of the saggar's objects: the barriers that it armed, the buffers that it
declared and its owner ranges go (R306, R360). -/
def State.dropObjects (s : State) (j : Nat) : State :=
  match s.launch? j with
  | none => s
  | some l =>
    let s := s.modSaggar l.saggar fun g => { g with
      barriers := g.barriers.map fun b => if b.st ≠ .idle && b.launch = j then {} else b
      buffers := g.buffers.filter fun b => b.launch ≠ j }
    { s with owners := s.owners.filter fun w => w.launch ≠ j }

/-- The tiles of a launch are released one after another. -/
def State.releaseAll (s : State) (j : Nat) : State :=
  match s.launch? j with
  | none => s
  | some l => l.tiles.foldl (fun s e => s.releaseTile j e.tile) s

/-- A launch is ended by force: killed, discarded, or refused (R43, R297, R306, R360). -/
def State.endByForce (s : State) (j : Nat) : State :=
  match s.launch? j with
  | none => s
  | some l =>
    let s := ((s.abandonTraverse j).answerResume j true).dropObjects j
    ((s.releaseAll j).reportEnd l 2).forget j

/-- The successors of a launch that have not started. -/
def State.unstarted (s : State) (j : Nat) : List Nat :=
  (s.launches.filter fun l => (l.pred.map (·.2)) = some j && l.phase = .placed).map (·.num)

/-- A region is killed or discarded: a successor named before its drain never starts (R290). -/
def State.killLaunch (s : State) (j : Nat) : State :=
  let draining := ((s.launch? j).map (·.draining)).getD false
  let s := if draining then s else (s.unstarted j).foldl State.endByForce s
  s.endByForce j

/-- The record of a saved region. -/
def State.savedOf (s : State) (l : Launch) : Option Saved := (s.saggar l.saggar).saved.find? (·.launch = l.num)

def State.modSaved (s : State) (l : Launch) (f : Saved → Saved) : State :=
  s.modSaggar l.saggar fun g => { g with saved := g.saved.map fun v => if v.launch = l.num then f v else v }

/-- A launch is refused (R14, R43, R265, R297): none of it stays placed. A resume launch leaves its region held (R338).
(DEDUCED, log entry 54.) -/
def State.refuseLaunch (s : State) (j : Nat) : State :=
  match s.launch? j with
  | none => s
  | some l =>
    match s.savedOf l with
    | some _ =>
      let s := (s.releaseAll j).unqueue j
      let s := (s.modSaved l fun v => { v with queued := false }).answerResume j true
      s.modLaunch j fun l => { l with phase := .saved, tiles := [] }
    | none =>
      let s := s.releaseAll j
      let s := if l.endTo = .host then s else s.reportEnd l 2
      s.forget j

end Sys2Proof.Machine
end

