-- ==== Sys2Proof/Machine/Restore.lean ====
section
/-! DEFINITION. Reading a traverse record back (R331 to R339): its checks, and what its tile and cell records set. -/

namespace Sys2Proof.Machine

/-! ### The parts of a record (R331, R337, R338) -/

/-- The bytes of the record at an address of a saggar, of the length that its header states.
(DESIGN CHOICE, log entry 61.) -/
def State.recordAt (s : State) (g base : Nat) : List Byte :=
  let k := hbmKey g base
  s.bytes k (Nat.min (s.num k 4) (2 ^ 30))

/-- Whether the trailer of a record is the hash of the bytes before it (R337). -/
def trailerOk (bs : List Byte) : Bool :=
  120 ≤ bs.length && bs.drop (bs.length - 48) = sha384 (bs.take (bs.length - 48))

/-- The tile records and cell records between the header and the trailer: each as long as its head word states. -/
def partsOf : Nat → List Byte → List (List Byte)
  | 0, _ => []
  | f + 1, bs =>
    let n := leAt bs 0 4
    if n < 8 || bs.length < n then [] else bs.take n :: partsOf f (bs.drop n)

/-- The parts of a record. -/
def recordParts (bs : List Byte) : List (List Byte) :=
  let body := (bs.take (bs.length - 48)).drop 72
  partsOf (body.length / 8) body

/-- The kind, the relative tile and the cell of a part. -/
def partHead (p : List Byte) : Nat × Nat × Nat := let w := leAt p 0 8; (bits w 56 8, bits w 42 6, bits w 48 8)

/-- The tile record of a relative tile, and the cell record of a cell of it. -/
def tilePartOf (ps : List (List Byte)) (rt : Nat) : Option (List Byte) :=
  ps.find? fun p => (partHead p).1 = 0x02 && (partHead p).2.1 = rt
def cellPartOf (ps : List (List Byte)) (rt c : Nat) : Option (List Byte) := ps.find? fun p => partHead p = (0x01, rt, c)

/-- Whether a record passes the checks at the dispatch of its resume launch: its trailer, its saggar and generation, its image
against those loaded, its tile count and region against the image's plat (R338). It names the region that was saved.
(DESIGN CHOICE, log entry 61.) -/
def State.recordOk (s : State) (l : Launch) (v : Saved) : Bool :=
  let bs := s.recordAt l.saggar v.base
  let w := leAt bs 0x38 8
  let image := (bs.drop 8).take 48
  let rgn := bits w 4 8
  trailerOk bs && bits w 0 4 = l.saggar && leAt bs 0x40 4 = (s.saggar l.saggar).gen.toNat && image = l.image.take 48 && rgn = l.region
    && match (s.saggar l.saggar).images.find? fun i => i.hash.take 48 = image with
      | some i => decide (rgn < i.regions) && (i.plat rgn).length = bits w 18 6 + 1
      | none => false

/-! ### Cell records (R333, R334) -/

/-- The numbers of w bytes that stand n times from an offset on. -/
def fieldsAt (p : List Byte) (off w n : Nat) : List Nat := (List.range n).map fun i => leAt p (off + w * i) w

/-- A scale latch from its word. -/
def Latch.ofWord (w : Nat) : Latch :=
  { k := bits w 56 8, last := bitOf w 55, blen := 4 * 2 ^ bits w 52 3, n := bits w 48 4, scales := BitVec.ofNat 48 w }

/-- The kind of an accumulator from its code. -/
def AccKind.ofCode : Nat → AccKind
  | 0 => .fp32
  | 1 => .int32
  | 2 => .fp64lo
  | _ => .fp64hi

/-- The scoreboard as the flag word states it: a slot keeps the firing that it had. -/
def boardOf (w : Nat) (old : List (Option (Nat × Nat))) : List (Option (Nat × Nat)) :=
  (List.range 8).map fun k => if bitOf w (8 + k) then some (bits w (32 + 4 * k) 4, ((old.getD k none).map (·.2)).getD 0) else none

/-- The fixed part of a cell record, over what the record does not hold (R333). -/
def Bank.readFixed (b : Bank) (p : List Byte) : Bank :=
  let words (off n : Nat) : List Word := (fieldsAt p off 8 n).map (BitVec.ofNat 64)
  let w := leAt p 0x168 8
  let c (i : Nat) : Word := BitVec.ofNat 64 (leAt p (0x180 + 8 * i) 8)
  let tw := leAt p 0x1890 8
  { b with
    g := words 0x008 32
    m := words 0x108 8
    d := ((words 0x148 4).zip b.d).map fun e => { e.2 with val := e.1 }
    sb := boardOf w b.sb
    retired := bitOf w 21
    fair := bits w 16 5
    p := BitVec.ofNat 8 w
    sticky := BitVec.ofNat 6 (leAt p 0x174 4)
    lfsr := BitVec.ofNat 32 (leAt p 0x170 4)
    chkint := BitVec.ofNat 16 (leAt p 0x178 8)
    rounds := c 0, aborts := c 1, shortHolds := c 2, longWaits := c 3, reuseMiss := c 4, discards := c 5
    chans := (List.range 32).map fun n => { b.chan n with
      fmt := BitVec.ofNat 16 (leAt p (0x1B0 + 2 * n) 2), latch := Latch.ofWord (leAt p (0x270 + 8 * n) 8) }
    outs := (List.range 8).map fun o =>
      let gate := leAt p (0x1F0 + 8 * o) 8
      { b.out o with gateOn := bitOf gate 32, credit := BitVec.ofNat 32 gate, sent := leAt p (0x230 + 8 * o) 8 }
    acc := (List.range 4).map fun k => { b.acc.getD k {} with
      el := (fieldsAt p (0x370 + 1024 * k) 4 256).map (BitVec.ofNat 32), occ := BitVec.ofNat 256 (leAt p (0x1810 + 32 * k) 32)
      kind := AccKind.ofCode (bits tw (4 * k) 2), shape := Shape.ofCode (BitVec.ofNat 2 (bits tw (4 * k + 2) 2)) }
    stay := (List.range 2).map fun k => { b.stay.getD k {} with
      el := (fieldsAt p (0x1370 + 512 * k) 2 256).map (BitVec.ofNat 16), scales := fieldsAt p (0x1770 + 16 * k) 1 16
      fmt := Fmt.ofCode (BitVec.ofNat 4 (bits tw (20 + 8 * k) 4)), cb := bits tw (18 + 8 * k) 2 }
    kb := (List.range 4).map fun k => (fieldsAt p (0x1790 + 32 * k) 2 16).map (BitVec.ofNat 16) }

/-- Whether a cell record says that the first DRAIN of the region is held in its cell (R330). -/
def drainHeldIn (p : List Byte) : Bool := bitOf (leAt p 0x168 8) 22

/-- The entries of equal length of a section, and the offset after them. -/
def entriesAt (p : List Byte) (off w : Nat) : List (List Byte) × Nat :=
  let n := Nat.min (leAt p off 8) (p.length / w)
  ((List.range n).map fun i => (p.drop (off + 8 + w * i)).take w, off + 8 + w * n)

/-- The entries of a section of which each states its own length in its head word, and the offset after them. -/
def longEntriesAt (p : List Byte) (off : Nat) : List (List Byte) × Nat :=
  (List.range (Nat.min (leAt p off 8) (p.length / 8))).foldl (fun (e : List (List Byte) × Nat) _ =>
    let n := leAt p (e.2 + 4) 4
    (e.1 ++ [(p.drop e.2).take n], e.2 + n)) ([], off + 8)

/-- A token as its entry states it, over what the entry does not hold. -/
def tokenOf (place : Nat → Nat → Site) (old : Option Token) (e : List Byte) : Token :=
  let w := leAt e 8 8
  let src := place (bits w 24 6) (bits w 16 8)
  let t := old.getD { cls := 0, payload := 0, src := src, out := 0, seq := 0 }
  { t with cls := BitVec.ofNat 3 w, payload := BitVec.ofNat 64 (leAt e 0 8), etag := bitOf w 3, src := src, out := bits w 30 3 }

/-- The tokens of a channel as the entries state them: contents first, then those caught (R325, R334). -/
def Chan.readTokens (c : Chan) (place : Nat → Nat → Site) (n : Nat) (es : List (List Byte)) : Chan :=
  let mine := es.filter fun e => bits (leAt e 8 8) 4 5 = n
  { c with toks := ((List.range mine.length).zip mine).map fun e => tokenOf place (c.toks[e.1]?) e.2 }

/-- The received counts of a channel's pairs as the entries state them (R334). -/
def Chan.readPairs (c : Chan) (n : Nat) (es : List (List Byte)) : Chan :=
  { c with expect := (es.filter fun e => bits (leAt e 0 8) 17 5 = n).foldl (fun m e =>
      let w := leAt e 0 8
      let k := (bits w 0 6, bits w 6 8, bits w 14 3)
      if (alGet k m).getD 0 = leAt e 8 8 then m else alPut k (leAt e 8 8) m) c.expect }

/-! ### Unit entries (R335) -/

/-- The kind of a unit in its entry. -/
def UnitWork.entryKind : UnitWork → Nat
  | .contraction _ => 2
  | .stayFill _ | .accFill _ => 3
  | .run _ => 4
  | .cturn _ => 5
  | .sparse _ => 6
  | .nest _ => 7

/-- A level of a loop nest from its place in an entry. -/
def levelAt (e : List Byte) (i : Nat) : LoopLevel :=
  let p := leAt e (16 + 16 * i) 8
  let q := leAt e (24 + 16 * i) 8
  { c := p % 2 ^ 32, b := BitVec.ofNat 32 (p >>> 32), s := BitVec.ofNat 32 q, x := q >>> 32 }

/-- A stream of a contraction whose part step holds some tokens: those of a token that it held stand as they were taken (R189),
those of another are read as its channel's format and codebook now say. -/
def CStream.readHeld (s : CStream) (b : Bank) (steps : Nat) (ws : List Word) : CStream :=
  match s.ch with
  | none => s
  | some n =>
    let f := (b.chan n).fmt
    let m := perToken (fmtOf f)
    let buf := ws.zipIdx.flatMap fun (w, i) =>
      let old := (s.buf.drop (m * i)).take m
      if s.held[i]? = some w then old
      else (List.range m).map fun e =>
        { val := b.elemRaw f (elemBits (fmtBits (fmtOf f)) w e), scale := ((old[e]?).map (·.scale)).getD 0x7F }
    { s with held := ws, buf := buf, count := 16 * steps + buf.length }

/-- The work of a unit as its entry states it, over what the entry does not hold. (DESIGN CHOICE, log entry 61.) -/
def UnitWork.read (u : UnitWork) (b : Bank) (e : List Byte) : UnitWork :=
  let word (off : Nat) : Nat := leAt e off 8
  let tokens (off n : Nat) : List Word := (List.range (Nat.min n 3)).map fun i => BitVec.ofNat 64 (word (off + 8 * i))
  match u with
  | .contraction c =>
    let w := word 32
    .contraction { c with
      steps := word 24, half := bits w 0 2
      u := c.u.readHeld b (word 24) (tokens 40 (bits w 2 2)), v := c.v.readHeld b (word 24) (tokens 64 (bits w 4 2)) }
  | .stayFill f => .stayFill { f with count := word 24 }
  | .accFill f => .accFill { f with count := word 24 }
  | .run r =>
    let sent := word 24
    .run { r with
      sent := sent
      toks := (List.range (word 32 - sent)).map fun i => (((r.toks[i]?).map (·.1)).getD clsData, BitVec.ofNat 64 (word (40 + 8 * i))) }
  | .cturn t =>
    let entry := (b.chan t.ch).fmt
    let n := Nat.min (word 32) 256
    let el := (List.range n).map fun i => word (48 + 8 * i)
    .cturn { t with
      blocks := turnBlocks (BitVec.ofNat 128 (leAt e 8 16)) - word 24, count := n, el := el
      outq := if n = 256 then (turnBlock (fmtBits (fmtOf entry)) (fmtSsrc entry ≠ 0) el t.scales).drop (word 40) else [] }
  | .sparse t =>
    let h := word 32
    .sparse { t with
      fiber := word 24, held := if h >>> 62 = 3 then none else some (h >>> 32, h % 2 ^ 32)
      a := { t.a with count := word 48 }, b := t.b.map fun i => { i with count := word 56 } }
  | .nest n =>
    let w := word 8
    .nest { n with out := bits w 12 3, units := bits w 4 4, levels := (List.range (bits w 8 4 + 1)).map (levelAt e) }

/-- The units of a bank as their entries state them: the entries stand in the order of the units. -/
def readUnits (b : Bank) : List UnitRec → List (List Byte) → List UnitRec
  | [], _ => []
  | u :: us, [] => u :: us
  | u :: us, e :: es =>
    let w := leAt e 0 8
    (if bits w 0 8 = u.work.entryKind then { u with rule := bits w 8 4, work := u.work.read b e } else u) :: readUnits b us es

/-- A bank as its cell record sets it, over what the record does not hold (R333 to R335, R339). -/
def Bank.readRecord (b : Bank) (place : Nat → Nat → Site) (p : List Byte) : Bank :=
  let b := b.readFixed p
  let toks := entriesAt p 0x1898 16
  let pairs := entriesAt p toks.2 16
  let units := longEntriesAt p pairs.2
  { b with
    chans := (List.range 32).map fun n => ((b.chan n).readTokens place n toks.1).readPairs n pairs.1
    units := readUnits b b.units (units.1.filter fun e => bits (leAt e 0 8) 0 8 ≠ 0x01) }

/-! ### Request entries (R335, R336) -/

/-- The destination of a parked request from its DST code. -/
def dstOfCode (n : Nat) : ReqDst :=
  if n < 0x20 then .reg (.g n)
  else if 0x28 ≤ n ∧ n < 0x30 then .out (n - 0x28)
  else if 0x30 ≤ n ∧ n < 0x38 then .reg (.m (n - 0x30))
  else .none

/-- What a parked request asks for, of an entry's address and of what it waits on. -/
def ReqOp.readAsk (o : ReqOp) (a w : Nat) : ReqOp :=
  match o with
  | .ldp _ => .ldp a
  | .bcpost _ c => .bcpost w c
  | .copy (.hbm _) p n (some _) go => .copy (.hbm a) p n (some w) go
  | .copy d p n (some _) go => .copy d p n (some w) go
  | .coll op _ p n f _ rank att => .coll op a p n f w rank att
  | .bar _ rank => .bar w rank
  | .join _ rank => .join w rank
  | .mark (some _) rq go x y => .mark (some w) rq go x y
  | o => o

/-- A parked request as its entry states it: rule, destination, completion binding, address, and what it waits on (R336). An
entry of another kind changes nothing. (DESIGN CHOICE, log entry 61.) -/
def Req.readAsk (r : Req) (e : List Byte) : Req :=
  let w := leAt e 0 8
  let code := bits w 12 6
  if r.parkKind.map (·.1) ≠ some (bits w 0 8) then r
  else
    let r := { r with rule := bits w 8 4, op := r.op.readAsk (leAt e 8 8 % 2 ^ 48) (leAt e 24 8) }
    match r.op with
    | .bar .. => { r with cout := if 0x28 ≤ code ∧ code < 0x30 then some (code - 0x28) else none }
    | .launch .. => { r with cout := if 0x28 ≤ code ∧ code < 0x30 then some (code - 0x28) else none, queue := some (leAt e 24 8) }
    | .resume .. => { r with dst := dstOfCode code, queue := some (leAt e 24 8) }
    | _ => { r with dst := dstOfCode code, cout := if bitOf w 21 then some (bits w 18 3) else none }

/-- The answer of a parked request as its entry states it. -/
def Req.readAnswer (r : Req) (e : List Byte) : Req :=
  let r := r.readAsk e
  if !(bitOf (leAt e 0 8) 22) then r
  else match r.op with
    | .ldp .. | .join .. | .resume .. => { r with answers := [BitVec.ofNat 64 (leAt e 16 8)], answered := true, deferred := false }
    | .launch .. | .mark .. => { r with answers := BitVec.ofNat 64 (leAt e 16 8) :: r.answers.drop 1 }
    | _ => { r with late := bits (leAt e 16 8) 52 4, answered := true }

/-- The run of a stream as its entry states it. -/
def Req.readStream (r : Req) (e : List Byte) : Req :=
  let w := leAt e 32 8
  let r := { r with rule := bits (leAt e 0 8) 8 4, dst := .out (bits w 0 3), cout := if bitOf w 3 then some (bits w 4 3) else none }
  match r.op with
  | .stream _ _ _ _ bad => { r with op := .stream (leAt e 8 8 % 2 ^ 48) (leAt e 16 8) (leAt e 24 8) [] bad }
  | .unstash key v _ _ bad => { r with op := .unstash key v (leAt e 24 8) [] bad }
  | _ => r

/-- The requests of a cell as the entries of its record state them: the streams, and then those that are parked, in order. -/
def Bank.readRequests (p : List Byte) (rs : List Req) : List Req :=
  let toks := entriesAt p 0x1898 16
  let pairs := entriesAt p toks.2 16
  let units := longEntriesAt p pairs.2
  let asks := entriesAt p units.2 32
  let streams := units.1.filter fun e => bits (leAt e 0 8) 0 8 = 0x01
  let runs := rs.filter fun r => match r.op with
    | .stream .. | .unstash .. => true
    | _ => false
  let parked := rs.filter fun r => r.parkKind.isSome
  (runs.zip streams).map (fun e => e.1.readStream e.2) ++ (parked.zip asks.1).map fun e => e.1.readAnswer e.2

/-! ### Tile records (R332) -/

/-- The bytes of a record that are not zero, each with its offset. -/
def nonZero (bs : List Byte) : List (Nat × Byte) := ((List.range bs.length).zip bs).filter (·.2 ≠ 0)

/-- The stash records of a section of n from an offset on, over what they do not hold, and the offset after them. -/
def stashAt (p : List Byte) (old : List StashRec) (off n : Nat) : List StashRec × Nat :=
  (List.range n).foldl (fun (e : List StashRec × Nat) i =>
    let w := leAt p e.2 8
    let len := w >>> 32
    let r := (old[i]?).getD { id := 0, saggar := 0, tile := 0, key := 0, bytes := [] }
    (e.1 ++ [{ r with key := bits w 0 12, bytes := (p.drop (e.2 + 8)).take len }], e.2 + 8 + (len + 15) / 16 * 16)) ([], off)

/-- A tile record read back, over what it does not hold: range unit, partition, stash and side memory. -/
def TileSnap.read (t : TileSnap) (p : List Byte) : TileSnap :=
  let word (off : Nat) : Nat := leAt p off 8
  let held := word 8 = 1
  let range : Option RangeSnap :=
    if held then some { lo := word 16, hi := word 24, next := word 32, p := bits (word 40) 0 8 + 1, cmin := word 40 >>> 32 } else none
  let o1 := if held then 48 else 16
  let lines := Nat.min (word o1) 4096
  let o2 := o1 + 8
  let o3 := o2 + 2048 * lines
  let o4 := o3 + 16 * lines
  let o5 := o4 + 8 * lines
  let full := leAt p o3 (16 * lines)
  let stash := stashAt p t.stash (o5 + 8) (Nat.min (word o5) 4096)
  let n := Nat.min (word stash.2) 8192
  { t with
    range := range
    bytes := nonZero ((p.drop o2).take (2048 * lines))
    full := (List.range (128 * lines)).filter fun i => bitOf full i
    tags := ((List.range lines).map fun l => (l, BitVec.ofNat 64 (word (o4 + 8 * l)))).filter (·.2 ≠ 0)
    stash := stash.1
    side := ((List.range n).map fun e => (e, BitVec.ofNat 64 (word (stash.2 + 8 + 8 * e)))).filter (·.2 ≠ 0) }

/-! ### The region as its record states it -/

/-- A saved region as the record in memory states it, over what the record does not hold (R339). (DESIGN CHOICE, log entry 61.) -/
def Saved.read (v : Saved) (bs : List Byte) : Saved :=
  let ps := recordParts bs
  { v with
    cells := v.cells.map fun e => (e.1, match cellPartOf ps e.1.1 e.1.2 with
      | some p => e.2.readRecord v.site p
      | none => e.2)
    tiles := v.tiles.map fun t => match tilePartOf ps t.rtile with
      | some p => t.read p
      | none => t }

/-- The requests of a saved region as the record in memory states them. (DESIGN CHOICE, log entry 61.) -/
def State.readRequests (s : State) (v : Saved) (bs : List Byte) : State :=
  let ps := recordParts bs
  let new := v.cells.flatMap fun e => match cellPartOf ps e.1.1 e.1.2 with
    | some p => Bank.readRequests p (s.reqs.filter fun r => r.site = v.site e.1.1 e.1.2)
    | none => []
  { s with reqs := s.reqs.map fun r => (new.find? (·.id = r.id)).getD r }

/-- A bank whose registers that wait for a request are those that the request now names (R339). -/
def Bank.pendAs (b : Bank) (rs : List Req) : Bank :=
  { b with pend := b.pend.map fun p => match rs.find? (·.id = p.id) with
      | some r => { p with writes := r.dst.pending }
      | none => p }

/-- Whether some cell record of a record holds the region's first DRAIN. -/
def drainIn (bs : List Byte) : Bool := (recordParts bs).any fun p => (partHead p).1 = 0x01 && drainHeldIn p

end Sys2Proof.Machine
end

