-- ==== Sys2Proof/Machine/Traverse.lean ====
section
/-! DEFINITION. Pre-emption by traverse: MARK, SNAP and RESUME, a traverse from its beginning to its record, and the restore
of a saved region (R319 to R330, R338 to R344). -/

namespace Sys2Proof.Machine

/-! ### A traverse begins (R320, R321) -/

/-- The traverses in progress in the package. -/
def State.traverses (s : State) : Nat := (s.launches.filter (·.trav.isSome)).length

/-- Whether a limit of R320 keeps every traverse of a saggar from beginning. -/
def State.traverseFull (s : State) (g : Nat) : Bool := 8 ≤ s.traverses || 256 ≤ (s.saggar g).saved.length

/-- The bytes that a traverse of a launch reserves. (DEDUCED, log entry 63.) -/
def State.recordNeed (s : State) (l : Launch) : Nat := units4k (s.recordBound l)

/-- A traverse of a launch begins, with the MARK requests that report it; none when its record has no space. -/
def State.beginTraverse (s : State) (l : Launch) (requeue forDispatch : Bool) (marks : List Nat) : Option State :=
  let n := s.recordNeed l
  (s.recordPlace l.saggar n).map fun base =>
    (s.modSaggar l.saggar fun g => { g with reserved := g.reserved ++ [(l.num, base, n)] }).modLaunch l.num fun l =>
      { l with trav := some { requeue := requeue, base := base, len := n, marks := marks, forDispatch := forDispatch } }

/-! ### MARK (R342) -/

/-- MARK of the own region. -/
def execMarkOwn (h : Hdr) (s : State) : Result :=
  fire (.markOwn h) (fun c s =>
    { refuse := 8 ≤ s.traverses
      act := fun s => s.issue c { op := .mark none true true [s.launchNum c.x] [], path := .h } }) s

/-- MARK of a cohort: its tokens form one group, which stays open until the last. -/
def execMarkCohort (h : Hdr) (od : OutOpt) (coh : BitVec 8) (requeue : Bool) (s : State) : Result :=
  fire (.markCohort h od coh requeue) (fun c s =>
    let ch := s.cohort? (s.saggarOf c.x) coh.toNat
    let op : ReqOp := .mark (some coh.toNat) requeue false [] []
    { fault := if (ch.map (·.closing)).getD false then some (cohRaise 0x3C coh.toNat 0) else none
      slots := (outOpt od).toList
      refuse := 8 ≤ s.traverses
      act := fun s => match outOpt od with
        | some o => (s.issue c { op := op, path := .h, dst := .out o, data := 1 }).modGroup c.x o c.id fun g =>
            { g with closed := false }
        | none => s.issue c { op := op, path := .h } }) s

/-- The region members of a cohort that run on this device. -/
def State.regionMembers (s : State) (g k : Nat) : List Nat :=
  match s.cohort? g k with
  | none => []
  | some c => c.members.filterMap fun m => match m.gone, m.who with
    | false, .region j => if (s.launch? j).any (fun l => l.phase = .placed || l.phase = .running) then some j else none
    | _, _ => none

/-- The MARKs whose cohort is formed start: they wait for each region member. One that has ended while its region is saved is
answered in the record (R336). -/
def State.startMarks (s : State) : State :=
  s.reqs.foldl (fun s r => match r.op with
    | .mark _ _ true [] [] => if r.held && r.answered then s.renewRecord r.launch else s
    | .mark (some k) rq false _ _ =>
      if (s.cohort? r.saggar k).any (·.formed) then
        (s.modReq r.id fun q => { q with op := .mark (some k) rq true (s.regionMembers r.saggar k) [] }).settleMark r.id id
      else s
    | _ => s) s

/-- The MARKs that wait for a launch, oldest first. (DEDUCED, log entry 59.) -/
def State.marksFor (s : State) (j : Nat) : List Req :=
  s.reqs.filter fun r => match r.op with
    | .mark _ _ true w _ => w.contains j
    | _ => false

/-- A member is skipped (R342). -/
def State.skipMember (s : State) (j : Nat) : State :=
  (s.marksFor j).foldl (fun s r => s.settleMark r.id fun (w, u) => (w.erase j, u)) s

/-- A member's traverse is reported by the MARKs that waited for it. (DEDUCED, log entry 59.) -/
def State.joinTraverse (s : State) (j : Nat) (ms : List Req) : State :=
  let s := s.modLaunch j fun l => { l with trav := l.trav.map fun t => { t with marks := t.marks ++ ms.map (·.id) } }
  ms.foldl (fun s r => s.settleMark r.id fun (w, u) => (w.erase j, u ++ [j])) s

/-- Whether a MARK asks for its members to go back to their queues. (DEDUCED, log entry 59.) -/
def Req.requeues (r : Req) : Bool :=
  match r.op with
  | .mark _ rq _ _ _ => rq
  | _ => false

/-- The traverse-space fault of a MARK: its issuing region freezes and the member is not traversed. -/
def State.noSpace (s : State) (l : Launch) (r : Req) : State :=
  let w : Where := { s.whereAt r.site r.rule with saggar := r.saggar, word := r.word }
  let f : Raise := { cls := 0x5F, a := BitVec.ofNat 64 l.region, b := BitVec.ofNat 64 (s.recordNeed l) }
  (s.takeFault r.saggar w f [r.launch]).settleMark r.id fun (w, u) => (w.erase l.num, u)

/-- TRAVERSE_BEGIN (R320, R342): the traverse that MARKs ask for begins, is joined or is skipped; or it waits. -/
def execTraverseBegin (j : Nat) (s : State) : Result :=
  let s := s.startMarks
  let ms := s.marksFor j
  match s.launch? j with
  | none => .next (s.skipMember j)
  | some l =>
    if ms.isEmpty then .next s
    else if l.draining || l.freeze || l.phase = .saved || l.phase = .queued then .next (s.skipMember j)
    else if l.trav.isSome then .next (s.joinTraverse j ms)
    else if l.phase = .placed || s.traverseFull l.saggar || s.holdUp ≠ .none then .next s
    else match s.beginTraverse l (ms.head?.any Req.requeues) false [] with
      | some s => .next (s.joinTraverse j ms)
      | none => .next (ms.foldl (State.noSpace · l) s)

/-! ### The traverse reaches a tile and its cells (R320, R323, R324) -/

/-- The bound outputs of a bank. -/
def Bank.boundOuts (b : Bank) : List Nat := (List.range 8).filter fun o => (b.out o).bind.isSome

/-- A cell without instruction words counts as marked at once, and sends its markers. -/
def State.markEmpty (s : State) (x : Site) : State :=
  if (s.bank x).programmed then s
  else (s.modBank x fun b => { b with mark := .saved, markWait := b.boundOuts }).sendMarkers x

/-- TRAVERSE_REACH_TILE (R320): the lowest tile of the launch that its traverse has not reached. -/
def execTraverseReachTile (j t : Nat) (s : State) : Result :=
  match s.launch? j with
  | none => .next s
  | some l =>
    let next := (l.tiles.find? fun e => e.slot.any fun k => !(s.slot e.tile k).traversed).map (·.tile)
    match (l.at t).bind (·.slot) with
    | none => .next s
    | some k =>
      if l.trav.isNone || next ≠ some t then .next s
      else
        let s := s.modSlot t k fun sl => { sl with traversed := true }
        .next ((s.banksAt t k).foldl State.markEmpty s)

/-- The launch of a bank is being traversed. -/
def State.traversed (s : State) (x : Site) : Bool := ((s.launchAt x).bind (·.trav)).isSome

/-- Whether a cell has come to its save point: it is marked, or its SNAP has committed, between two rounds of its plane,
with no result of fixed latency to come. (DEDUCED, log entry 60.) -/
def State.mayCellSave (s : State) (x : Site) : Bool :=
  let b := s.bank x
  s.traversed x && b.programmed && b.mark ≠ .saved && (b.mark ≠ .clear || b.snapDue) && s.round.live ≠ some (x.tile, x.slot)
    && !(b.pend.any (·.left.isSome)) && b.busy = 0

/-- A cell saves: its channel contents stand as they are, the markers in its channels are consumed, and its own markers
are sent. (DEDUCED, log entry 60.) -/
def Bank.save (b : Bank) : Bank :=
  { b with
    mark := .saved, snapDue := false, markWait := b.boundOuts
    chans := b.chans.map fun c =>
      let toks := c.toks.filter notMarker
      { c with toks := toks, kept := toks.length } }

/-- The requests of a cell that its save point parks (R327). -/
def State.park (s : State) (x : Site) : State :=
  { s with reqs := s.reqs.map fun r => if r.site = x && r.parks then { r with held := true } else r }

/-- CELL_SAVE (R323 to R327). -/
def execCellSave (x : Site) (s : State) : Result :=
  .next (if s.mayCellSave x then ((s.modBank x Bank.save).park x).sendMarkers x else s)

/-- SNAP (R343): it fixes the save point of a snap cell to which the traverse has come. -/
def execSnap (h : Hdr) (s : State) : Result :=
  fire (.snap h) (fun c _ =>
    { act := fun s =>
        if s.traversed c.x && s.marksNow c.x then s.modBank c.x fun b => { b with snapDue := true } else s }) s

/-- SNAP_FORCED_SAVE (R324): a snap cell that has committed no SNAP in 2^16 rounds is marked. -/
def execSnapForcedSave (x : Site) (s : State) : Result :=
  let b := s.bank x
  .next (if s.traversed x && b.isSnap && b.mark = .clear && !b.snapDue && s.marksNow x && 2 ^ 16 ≤ b.snapAge then
    s.setBank x { b with mark := .marked true, forced := true } else s)

/-! ### The traverse completes (R328, R329) -/

/-- Whether every cell of a launch has saved, every pair has delivered its marker, and every request that runs out is
performed. -/
def State.traverseDone (s : State) (l : Launch) : Bool :=
  let xs := s.banksOf l.num
  l.tiles.all (fun e => e.slot.all fun k => (s.slot e.tile k).traversed)
    && xs.all (fun x => !(s.bank x).programmed || (s.bank x).mark = .saved)
    && xs.all (fun x => (s.bank x).boundOuts.all fun o => match s.consumer x o with
        | some (y, n) => (s.bank y).markIn.contains (arrivedOn (s.pairOf x o) n)
        | none => false)
    && s.reqs.all fun r => r.launch ≠ l.num || r.held || r.performed

/-- The keys of a saggar's partition on a tile. -/
def State.partSpan (s : State) (g t : Nat) : Nat × Nat := (partKey s g t 0, s.partSize g)

/-- A poisoned word of the partitions that a traverse reads (R352), or a tagged entry of the side memory: the tile.
(DESIGN CHOICE, log entry 84.) -/
def State.poisonedTile (s : State) (l : Launch) : Option Nat :=
  (l.tiles.find? fun e =>
    let p := s.partSpan l.saggar e.tile
    (s.poison.any fun w => p.1 ≤ 8 * w && 8 * w < p.1 + p.2) || s.sideBad.any fun v => v.1 = e.tile && v.2.1 = l.saggar).map (·.tile)

/-- The tiles of a launch whose stash layers hold records of its saggar, which a traverse reads. -/
def State.stashTiles (s : State) (l : Launch) : List Nat :=
  (l.tiles.map (·.tile)).filter fun t => s.stashed.any fun v => v.saggar = l.saggar && v.tile = t && v.overAt.isNone

/-- What a tile record takes of a tile (R328). -/
def State.tileSnap (s : State) (l : Launch) (e : LTile) : TileSnap :=
  let g := l.saggar
  let p := s.partSpan g e.tile
  let line := (s.saggar g).lineBase
  let lines := (s.saggar g).res.lines
  { rtile := e.rtile
    range := (s.tile e.tile).range.bind fun r =>
      if e.slot = some r.slot then some { lo := r.lo, hi := r.hi, next := r.next, p := r.p, cmin := r.cmin } else none
    bytes := (s.mem.filter fun c => p.1 ≤ c.1 && c.1 < p.1 + p.2).map fun c => (c.1 - p.1, c.2)
    full := (s.granules.filter fun k => p.1 ≤ 16 * k && 16 * k < p.1 + p.2).map (· - p.1 / 16)
    tags := (s.tags.filter fun v => v.1.1 = e.tile && line ≤ v.1.2 && v.1.2 < line + lines).map fun v => (v.1.2 - line, v.2)
    stash := s.stashed.filter fun v => v.saggar = g && v.tile = e.tile
    side := (s.side.filter fun v => v.1.1 = e.tile && v.1.2.1 = g).map fun v => (v.1.2.2, v.2) }

/-- Every place of a bank's tokens is renamed. -/
def Token.moved (f : Site → Site) (t : Token) : Token := { t with src := f t.src }

def OutState.moved (f : Site → Site) (o : OutState) : OutState :=
  { o with flight := o.flight.map (Token.moved f), kept := o.kept.map (Token.moved f), resend := o.resend.map (Token.moved f) }

def Bank.moved (f : Site → Site) (b : Bank) : Bank :=
  { b with
    chans := b.chans.map fun c => { c with toks := c.toks.map (Token.moved f) }
    outs := b.outs.map (OutState.moved f) }

/-- Words that a stream read ahead and did not send are read again (R326). (DEDUCED, log entry 60.) -/
def ReqOp.rewound : ReqOp → ReqOp
  | .stream a n next buf bad => .stream a n (next - buf.length) [] bad
  | .unstash key v next buf bad => .unstash key v (next - buf.length) [] bad
  | o => o

/-- The places of a launch's requests, lags and owner ranges are renamed. -/
def State.moveWork (s : State) (j : Nat) (f : Site → Site) : State :=
  { s with
    reqs := s.reqs.map fun r => if r.launch = j then { r with site := f r.site } else r
    lags := s.lags.map fun l => { l with site := l.site.map f, seen := l.seen.map fun e => (e.1, e.2.map f) }
    owners := s.owners.map fun w => if w.launch = j then { w with site := f w.site } else w }

/-- The place of a launch's cell, parked; the cells of other launches keep theirs. -/
def Launch.parked (l : Launch) (x : Site) : Site :=
  if l.tiles.any fun e => e.tile = x.tile && e.slot = some x.slot then parkSite l.num x else x

/-- The snapshot of a launch, from which its record is written. -/
def State.snapshot (s : State) (l : Launch) (handle : Nat) : Saved :=
  { handle := handle, launch := l.num, base := 0, bytes := []
    old := l.tiles.map fun e => (e.tile, e.rtile)
    cells := l.tiles.flatMap fun e => match e.slot with
      | some k => (s.banksAt e.tile k).map fun x => ((e.rtile, x.cell), (s.bank x).moved (l.parked))
      | none => []
    tiles := l.tiles.map (s.tileSnap l) }

/-- The lowest free handle of a saggar. (DEDUCED, log entry 59.) -/
def State.freeHandle (s : State) (g : Nat) : Option Nat :=
  (List.range 256).find? fun n => !((s.saggar g).saved.any (·.handle = n))

/-- The payload of a MARK token (R342). -/
def markWord (handle : Nat) (l : Launch) : Word :=
  BitVec.ofNat 64 (handle ||| l.region <<< 8 ||| l.placed <<< 16 ||| (l.tiles.length - 1) <<< 24)

/-- A MARK token goes: the first in the slot taken at commit, a further one when a slot is free; or it is kept while the
region of the MARK is saved. -/
def State.sendMark (s : State) (r : Req) (p : Word) : State :=
  match r.dst with
  | .out o =>
    if r.held then (s.modReq r.id fun q => { q with answers := q.answers ++ [p] }).renewRecord r.launch
    else if (s.bank r.site).keepsSlot o r.id then s.fillGroup r.site o r.id (dataTok p)
    else (s.modGroup r.site o r.id fun g => { g with toks := g.toks ++ [dataTok p] }).flush r.site o
  | _ => s

/-- The MARKs that report a traverse are told of its end. -/
def State.tellMarks (s : State) (t : Traverse) (j : Nat) (p : Word) : State :=
  t.marks.foldl (fun s q => match s.parked? q with
    | some r => (s.sendMark r p).settleMark q fun (w, u) => (w, u.erase j)
    | none => s) s

/-- A successor spliced behind a region gives up the tiles that it holds ahead of time: it follows the region to where it
is restored. (DEDUCED, log entry 62.) -/
def State.looseSplices (s : State) (j : Nat) : State :=
  (s.launches.filter fun l => l.pred = some (true, j) && l.phase = .placed).foldl (fun s l =>
    (s.releaseAll l.num).modLaunch l.num fun l => { l with tiles := [] }) s

/-- The region is saved: every observer sees what it wrote, its record is written at the top of its reservation, its slots are
released, and it goes back to its queue or is held (R321, R329). It goes back also to a queue that already holds 64 launches.
(DESIGN CHOICE, log entry 96.) -/
def State.saveRegion (s : State) (l : Launch) (t : Traverse) (handle : Nat) : State :=
  let j := l.num
  let v := s.snapshot l handle
  let s : State := { s with reqs := s.reqs.map fun r => if r.launch = j then { r with op := r.op.rewound } else r }
  let s := s.showAll fun o => (o.site.map fun x => decide (l.parked x ≠ x)).getD false
  let s := s.moveWork j (l.parked)
  let s := l.tiles.foldl (fun s e => match e.slot with
    | some k => s.clearSlot e.tile k
    | none => s) s
  let bytes := s.recordBytes l v
  let base := t.base + t.len - units4k bytes.length
  let s := s.writeRecord l.saggar base [] bytes
  let s := s.modSaggar l.saggar fun g => { g with
    reserved := g.reserved.filter fun e => e.1 ≠ j
    saved := g.saved ++ [{ v with base := base, bytes := bytes, queued := t.requeue }] }
  let s := (s.modLaunch j fun l => { l with
    phase := if t.requeue then .queued else .saved, tiles := [], trav := none, succ := l.succ }).looseSplices j
  let s : State := if t.requeue then { s with queues := setAt [] s.queues l.queue (j :: s.queues.getD l.queue []) } else s
  s.tellMarks t j (markWord handle l)

/-- TRAVERSE_COMPLETE (R329): every cell has saved, every pair is closed and every request that runs out is performed. A
poisoned word of the tile stores that it reads raises the poison fault (R352). The stash layers that it reads are powered first
(R95, R96). (DEDUCED, log entry 59.) -/
def execTraverseComplete (j : Nat) (s : State) : Result :=
  match s.launch? j with
  | none => .next s
  | some l =>
    match l.trav, s.freeHandle l.saggar with
    | some t, some h =>
      if !(s.traverseDone l) then .next s
      else
      let a := s.stashesAwake (s.stashTiles l)
      if !a.2 then .next a.1
      else
      let s := a.1
      match s.poisonedTile l with
      | some p =>
        let w : Where := { saggar := l.saggar, region := l.region, ptile := p, rtile := ((l.at p).map (·.rtile)).getD 0
                           slot := ((l.at p).bind (·.slot)).getD 0 }
        .next (s.takeFault l.saggar w { cls := 0x0A, reason := 4, source := 3, a := 0xFF } [j])
      | none => .next (s.saveRegion l t h)
    | _, _ => .next s

/-! ### RESUME (R344) -/

/-- The held region of a handle. -/
def State.heldRegion (s : State) (g handle : Nat) : Option (Saved × Launch) :=
  ((s.saggar g).saved.find? (·.handle = handle)).bind fun v => (s.launch? v.launch).map fun l => (v, l)

/-- A resume launch of a held region enters a queue. -/
def State.enterResume (s : State) (v : Saved) (q prio origin : Nat) (flt : Bool) (req : Option Nat) : State :=
  match s.launch? v.launch with
  | none => s
  | some l =>
    let s := s.modSaved l fun v => { v with queued := true }
    let s := s.modLaunch l.num fun l =>
      { l with phase := .queued, queue := q, prio := prio, origin := origin, floating := flt, resume := req }
    { s with queues := setAt [] s.queues q (s.queues.getD q [] ++ [l.num]) }

/-- Whether a launch queue is full (R264). -/
def State.queueFull (s : State) (q : Nat) : Bool := 64 ≤ (s.queues.getD q []).length

/-- The priority of the launch of a bank. -/
def State.prioAt (s : State) (x : Site) : Nat := ((s.launchAt x).map (·.prio)).getD 0

/-- The launch-priority fault of a launch of a region (R297, R344, R362). -/
def State.prioFault (s : State) (x : Site) (rgn prio : Nat) : Option Raise :=
  if s.prioAt x < prio then some { cls := 0x5D, a := BitVec.ofNat 64 rgn } else none

/-- The resume-handle fault (R344). -/
def handleFault (v : Option (Saved × Launch)) (handle : Nat) : Option Raise :=
  if v.any (fun e => !e.1.queued) then none else some { cls := 0x5E, a := BitVec.ofNat 64 handle }

/-- RESUME. -/
def execResume (h : Hdr) (od : OutOpt) (s1 s2 : Src) (q : BitVec 5) (prio : BitVec 2) (flt : Bool) (s : State) : Result :=
  fire (.resume h od s1 s2 q prio flt) (fun c s =>
    let b := c.bank s
    let origin := (b.raw h 0 s1).toNat
    let handle := b.low h 0 8 s2
    let v := s.heldRegion (s.saggarOf c.x) handle
    { fault := (handleFault v handle).or (s.prioFault c.x ((v.map (·.2.region)).getD 0) prio.toNat)
      slots := (outOpt od).toList
      refuse := s.queueFull q.toNat
      act := fun s =>
        match v with
        | none => s
        | some (v, _) =>
          match outOpt od with
          | some o =>
            (s.issue c { op := .resume v.launch, path := .h, dst := .out o, data := 1, queue := some q.toNat }).enterResume v q.toNat
              prio.toNat origin flt (some c.id)
          | none => s.enterResume v q.toNat prio.toNat origin flt none }) s

/-! ### The restore (R339) -/

/-- The loop units of a tile after the nests of its cells have taken theirs, and the first unit of each: none when a nest
finds no run of free units. (DEDUCED, log entry 52.) -/
def placeNests : List (Option (Nat × Nat × Nat)) → List (Nat × Nat × Nat × Nat) →
    Option (List (Option (Nat × Nat × Nat)) × List Nat)
  | loops, [] => some (loops, [])
  | loops, (m, k, c, o) :: r =>
    match freeUnits loops m with
    | none => none
    | some u =>
      (placeNests ((List.range m).foldl (fun l i => setAt none l (u + i) (some (k, c, o))) loops) r).map fun (ls, us) => (ls, u :: us)

/-- The nests of the cells of a saved tile: the units of each, the slot, the cell and the output. -/
def Saved.nestsOn (v : Saved) (rt k : Nat) : List (Nat × Nat × Nat × Nat) :=
  (v.cells.filter fun e => e.1.1 = rt).flatMap fun e => e.2.units.filterMap fun u => match u.work with
    | .nest n => some (n.units, k, e.1.2, n.out)
    | _ => none

/-- Whether a saved region's loop nests and range unit find what they need on a tile (R338). -/
def State.unitsFor (s : State) (v : Saved) (rt t : Nat) : Bool :=
  (placeNests (s.tile t).loops (v.nestsOn rt 0)).isSome
    && (!((v.tiles.find? (·.rtile = rt)).any (·.range.isSome)) || (s.tile t).range.isNone)

/-- The nests of a bank stand in the units that they are given, in order. -/
def placeUnits : List UnitRec → List Nat → List UnitRec × List Nat
  | [], us => ([], us)
  | u :: r, us =>
    match u.work, us with
    | .nest n, f :: us =>
      let (r, us) := placeUnits r us
      ({ u with work := .nest { n with first := f } } :: r, us)
    | _, us =>
      let (r, us) := placeUnits r us
      (u :: r, us)

/-- A bank as a restore sets it: what the record does not hold is as at activation (R333). -/
def Bank.restored (b : Bank) : Bank :=
  { b with
    mark := .clear, markIn := [], markWait := [], drainIn := [], snapAge := 0, snapDue := false, forced := false
    drainHeld := false, stalls := [], reuse := List.replicate 4 [none, none, none]
    chans := b.chans.map fun c => { c with kept := 0 }
    outs := b.outs.map fun o => { o with notify := false } }

/-- The banks of a saved tile are set on its new slot. -/
def State.restoreBanks (s : State) (v : Saved) (f : Site → Site) (e : LTile) (k : Nat) : State :=
  match placeNests (s.tile e.tile).loops (v.nestsOn e.rtile k) with
  | none => s
  | some (loops, us) =>
    let s := s.modTile e.tile fun t => { t with loops := loops }
    ((v.cells.filter fun c => c.1.1 = e.rtile).foldl (fun (a : State × List Nat) c =>
      let (units, us) := placeUnits c.2.units a.2
      (a.1.setBank { tile := e.tile, slot := k, cell := c.1.2 } { (c.2.moved f).restored with units := units }, us)) (s, us)).1

/-- The keys of a range leave a list of keys of units of w bytes. -/
def dropKeys (w : Nat) (p : Nat × Nat) (ks : List Nat) : List Nat := ks.filter fun k => !(p.1 ≤ w * k && w * k < p.1 + p.2)

/-- A stash record as the layer of a tile holds it. -/
def StashRec.onTile (t : Nat) (v : StashRec) : StashRec := { v with tile := t, overAt := none }

/-- A tile record is written back, replacing what the saggar holds of the tile (R328, R339). -/
def State.restoreTile (s : State) (g : Nat) (e : LTile) (k : Nat) (t : TileSnap) : State :=
  let p := s.partSpan g e.tile
  let line := (s.saggar g).lineBase
  let lines := (s.saggar g).res.lines
  let s : State := { s with
    mem := s.mem.filter fun c => !(p.1 ≤ c.1 && c.1 < p.1 + p.2)
    poison := dropKeys 8 p s.poison
    granules := dropKeys 16 p s.granules
    tags := (s.tags.filter fun v => !(v.1.1 = e.tile && line ≤ v.1.2 && v.1.2 < line + lines))
      ++ t.tags.map fun v => ((e.tile, line + v.1), v.2)
    side := (s.side.filter fun v => !(v.1.1 = e.tile && v.1.2.1 = g)) ++ t.side.map fun v => ((e.tile, g, v.1), v.2)
    sideBad := s.sideBad.filter fun v => !(v.1 = e.tile && v.2.1 = g)
    stashed := (s.stashed.filter fun v => !(v.saggar = g && v.tile = e.tile)) ++ t.stash.map (StashRec.onTile e.tile) }
  let s : State := t.bytes.foldl (fun s b => s.setByte (p.1 + b.1) b.2) s
  let s : State := { s with granules := t.full.foldl (fun gs n => setAdd (p.1 / 16 + n) gs) s.granules }
  match t.range with
  | none => s
  | some r => s.modTile e.tile fun tl => { tl with range := some { slot := k, lo := r.lo, hi := r.hi, next := r.next, p := r.p, cmin := r.cmin } }

/-- The answer of a request that came while it was parked is applied. -/
def State.applyAnswer (s : State) (r : Req) : State :=
  match r.op with
  | .launch _ =>
    let s := s.modReq r.id fun q => { q with answers := [], answered := false }
    let n := r.answers.length
    (List.range n).foldl (fun s i => match s.req? r.id with
      | some q => s.endWord q (r.answers.getD i 0) (r.answered && i + 1 = n)
      | none => s) s
  | .mark .. =>
    let s := s.modReq r.id fun q => { q with answers := [], answered := false }
    let s := r.answers.foldl (fun s p => s.sendMark r p) s
    if r.answered then s.endMark r else s
  | .ldp .. | .join .. | .resume _ => if r.answered then s.loaded { r with answers := [] } r.answers (r.late ≠ 0) else s
  | _ => if r.answered then s.finish r r.late else s

/-- The requests of a launch on some tiles are parked no longer, and their answers are applied (R330, R339). -/
def State.giveAnswers (s : State) (j : Nat) (f : Nat → Bool) : State :=
  let mine (r : Req) : Bool := r.launch = j && f r.site.tile
  let s : State := { s with reqs := s.reqs.map fun r => if mine r then { r with held := false } else r }
  (s.reqs.filter fun r => mine r && (r.answered || !r.answers.isEmpty)).foldl (fun s r => s.applyAnswer r) s

/-- Where a parked place of a saved launch comes to stand. -/
def Saved.placeAt (v : Saved) (tiles : List LTile) (x : Site) : Site :=
  if x.tile / 64 ≠ v.launch + 1 then x
  else match tiles.find? (·.rtile = v.rtile x) with
  | some e => { tile := e.tile, slot := e.slot.getD 0, cell := x.cell }
  | none => x

/-- A successor spliced behind a restored region is placed where the region now stands. (DEDUCED, log entry 62.) -/
def State.followSplices (s : State) (l : Launch) : State :=
  (s.launches.filter fun o => o.pred = some (true, l.num) && o.phase = .placed).foldl (fun s o =>
    s.modLaunch o.num fun o => { o with
      placed := l.placed, origin := l.placed, tiles := l.tiles.map fun e => { rtile := e.rtile, tile := e.tile } }) s

/-- The restore of a launch whose planes are loaded: banks, tiles, requests and their answers, in the order of R339.
(DESIGN CHOICE, log entry 61.) -/
def State.restoreRegion (s : State) (l : Launch) (v : Saved) : State :=
  let bs := s.recordAt l.saggar v.base
  let s := s.readRequests v bs
  let v := v.read bs
  let v := { v with cells := v.cells.map fun e => (e.1, e.2.pendAs s.reqs) }
  let f := v.placeAt l.tiles
  let s := l.tiles.foldl (fun s e => match e.slot with
    | some k =>
      let s := (s.activateSlot l e.tile k false).restoreBanks v f e k
      match v.tiles.find? (·.rtile = e.rtile) with
      | some t => s.restoreTile l.saggar e k t
      | none => s
    | none => s) s
  let s := s.modSaggar l.saggar fun g => { g with saved := g.saved.filter fun o => o.launch ≠ l.num }
  let s := s.moveWork l.num f
  let s := s.modLaunch l.num fun l =>
    { l with phase := .running, draining := l.draining || drainIn bs, heldDrain := none }
  ((s.giveAnswers l.num fun _ => true).answerResume l.num false).followSplices l

/-- The traverse-record fault: it freezes no region, and the record is discarded with its launch (R338).
(DEDUCED, log entry 62.) -/
def State.badRecord (s : State) (l : Launch) (v : Saved) : State :=
  let w : Where := { saggar := l.saggar, region := l.region, ptile := l.placed }
  let s := s.modSaggar l.saggar fun g => { g with recFaults := g.recFaults + 1 }
  (s.takeFault l.saggar w { cls := 0x60, a := BitVec.ofNat 64 v.handle } []).endByForce l.num

/-- The tiles of a resume launch whose stash layers its restore writes. -/
def State.stashNeeds (s : State) (l : Launch) (v : Saved) : List Nat :=
  s.stashTiles l ++ (l.tiles.filter fun e => (v.tiles.find? (·.rtile = e.rtile)).any fun t => !t.stash.isEmpty).map (·.tile)

/-- RESTORE (R339): every plane of the resume launch is loaded, its units are free, and the stash layers that it writes are
powered (R95, R96). (DEDUCED, log entry 62.) -/
def execRestore (j : Nat) (s : State) : Result :=
  match s.launch? j with
  | none => .next s
  | some l =>
    match s.savedOf l with
    | none => .next s
    | some v =>
      let ready := l.phase = .placed && !l.freeze && l.tiles.all fun e =>
        (e.slot.any fun k => (s.slot e.tile k).phase = .loaded) && s.unitsFor v e.rtile e.tile
      if !ready then .next s
      else if !(s.recordOk l v) then .next (s.badRecord l v)
      else
        let a := s.stashesAwake (s.stashNeeds l v)
        .next (if a.2 then a.1.restoreRegion l v else a.1)

end Sys2Proof.Machine
end

