-- ==== Sys2Proof/Machine/Launch.lean ====
section
/-! DEFINITION. Launches and successors: SPLICE, PLANE, RANGE, LAUNCH and YIELD (R274, R289 to R293, R297, R298), the launch
dispatcher (R264 to R267, R276, R338), planes loaded and made active (R43, R45, R83, R271), the drain and the freeze on their
way over the tiles (R80, R81, R88, R360), and the power of the stacked layers (R96). -/

namespace Sys2Proof.Machine

/-! ### Successors (R271, R290 to R292) -/

/-- A fault that names a region (R362). -/
def regionRaise (cls rgn : Nat) : Raise := { cls := cls, a := BitVec.ofNat 64 rgn }

/-- A launch reserves the lowest free slot of a tile, when there is one. -/
def State.reserveFree (s : State) (j g t : Nat) : State :=
  match s.freeSlotFor g t with
  | some k => s.reserveSlot j t k
  | none => s

/-- A successor of a launch is placed at the launch's origin: it takes a free slot on each tile that has one. -/
def State.addSuccessor (s : State) (l : Launch) (splice : Bool) (rgn : Nat) (plat tiles : List Nat) : State :=
  let num := s.nextLaunch
  let new : Launch :=
    { num := num, no := l.no, saggar := l.saggar, image := l.image, region := rgn, queue := l.queue, prio := l.prio
      floating := l.floating, origin := l.origin, placed := l.placed, phase := .placed
      tiles := (plat.zip tiles).map fun (r, t) => { rtile := r, tile := t }
      stamp := l.stamp, endTo := l.endTo, pred := some (splice, l.num), baseWeight := l.baseWeight }
  let s : State := { s with nextLaunch := num + 1, launches := s.launches ++ [new] }
  tiles.foldl (fun s t => s.reserveFree num l.saggar t) (s.modLaunch l.num fun l => { l with succ := some (splice, rgn) })

/-- What a SPLICE or a PLANE finds of its successor: its plat, and its tiles when the placement is good. -/
def State.successorTiles (s : State) (l : Launch) (splice : Bool) (rgn : Nat) : List Nat × Option (List Nat) :=
  let plat := ((s.image? l.saggar l.image).map (·.plat rgn)).getD []
  if splice then (plat, if plat = l.tiles.map (·.rtile) then some (l.tiles.map (·.tile)) else none)
  else (plat, (platAt l.placed plat).filter fun ts => ts.all s.offered)

/-- The plan of SPLICE and PLANE: a first naming makes the successor; a repeat has no further effect. -/
def successorPlan (c : Ctx) (s : State) (splice : Bool) (rgn : Nat) : Plan :=
  match s.launchAt c.x with
  | none => {}
  | some l =>
    match l.succ with
    | some e => { fault := if e = (splice, rgn) then none else some (regionRaise 0x5C rgn) }
    | none =>
      let (plat, tiles) := s.successorTiles l splice rgn
      match tiles with
      | none => { fault := some (regionRaise (if splice then 0x5A else 0x5B) rgn) }
      | some ts => { act := fun s => s.addSuccessor l splice rgn plat ts }

/-- SPLICE (R290, R291). -/
def execSplice (h : Hdr) (rgn : BitVec 8) (s : State) : Result :=
  fire (.splice h rgn) (fun c s => successorPlan c s true rgn.toNat) s

/-- PLANE (R290, R292). -/
def execPlane (h : Hdr) (rgn : BitVec 8) (s : State) : Result :=
  fire (.plane h rgn) (fun c s => successorPlan c s false rgn.toNat) s

/-! ### The range unit (R274, R293) -/

/-- The faults of RANGE open: a range that ends before it begins, a chunk minimum of zero. (DEDUCED, log entry 53.) -/
def rangeFault (lo hi cmin : Nat) : Option Raise :=
  if hi < lo then some { cls := 0x23, a := BitVec.ofNat 64 hi }
  else if cmin = 0 then some { cls := 0x23, a := 0 }
  else none

/-- RANGE open. (DEDUCED, log entry 53.) -/
def execRangeOpen (h : Hdr) (s1 s2 s3 : Src) (p1 : BitVec 8) (s : State) : Result :=
  fire (.rangeOpen h s1 s2 s3 p1) (fun c s =>
    let b := c.bank s
    let lo := (b.raw h 0 s1).toNat
    let hi := (b.raw h 0 s2).toNat
    let cmin := b.low h 0 32 s3
    { fault := rangeFault lo hi cmin
      refuse := (s.tile c.x.tile).range.any fun r => r.slot ≠ c.x.slot
      act := fun s => s.modTile c.x.tile fun t =>
        { t with range := some { slot := c.x.slot, lo := lo, hi := hi, next := lo, p := p1.toNat + 1, cmin := cmin } } }) s

/-- The length of the next chunk of a range (R274). -/
def RangeUnit.chunk (r : RangeUnit) : Nat :=
  let rem := r.hi - r.next
  if rem = 0 then 0 else Nat.min (Nat.max ((rem + 2 * r.p - 1) / (2 * r.p)) r.cmin) rem

/-- The pair of registers that a RANGE take writes. -/
def rangeDst : Dst → List PWrite
  | .g n => [.reg (.g n.toNat) 0, .reg (.g (n.toNat + 1)) 0]
  | _ => []

/-- The answer to a take, at latency 2 (R293). -/
def State.takeChunk (s : State) (c : Ctx) (dst : Dst) (r : RangeUnit) : State :=
  let k := r.chunk
  let vs : List Word := [BitVec.ofNat 64 r.next, BitVec.ofNat 64 k]
  let ws := (rangeDst dst).zip vs |>.map fun (w, v) => match w with
    | .reg g _ => PWrite.reg g v
    | w => w
  let s := s.modTile c.x.tile fun t => { t with range := some { r with next := r.next + k } }
  s.modBank c.x fun b => { b with pend := b.pend ++ [{ id := c.id, rule := c.k, left := some 2, lat := 2, writes := ws }] }

/-- RANGE take. -/
def execRangeTake (h : Hdr) (dst : Dst) (s : State) : Result :=
  fire (.rangeTake h dst) (fun c s =>
    match (s.tile c.x.tile).range.filter fun r => r.slot = c.x.slot with
    | none => { fault := some (regionRaise 0x59 ((s.launchAt c.x).map (·.region) |>.getD 0)) }
    | some r => { act := fun s => s.takeChunk c dst (((s.tile c.x.tile).range).getD r) }) s

/-- RANGE close. -/
def execRangeClose (h : Hdr) (s : State) : Result :=
  fire (.rangeClose h) (fun c _ =>
    { act := fun s => s.modTile c.x.tile fun t => { t with range := t.range.filter fun r => r.slot ≠ c.x.slot } }) s

/-! ### LAUNCH and YIELD (R297, R298) -/

/-- A launch enters a queue (R264). (DEDUCED, log entry 58.) -/
def State.enterLaunch (s : State) (g : Nat) (image : List Byte) (rgn q prio origin : Nat) (flt : Bool) (dest : EndTo) : State :=
  let num := s.nextLaunch
  let new : Launch :=
    { num := num, no := num % 2 ^ 16, saggar := g, image := image, region := rgn, queue := q, prio := prio, floating := flt
      origin := origin, endTo := dest }
  { s with nextLaunch := num + 1, launches := s.launches ++ [new], queues := setAt [] s.queues q (s.queues.getD q [] ++ [num]) }

/-- LAUNCH. -/
def execLaunch (h : Hdr) (od : OutOpt) (s1 : Src) (rgn : BitVec 8) (q : BitVec 5) (prio : BitVec 2) (flt : Bool) (s : State) :
    Result :=
  fire (.launch h od s1 rgn q prio flt) (fun c s =>
    let origin := ((c.bank s).raw h 0 s1).toNat
    match s.launchAt c.x with
    | none => {}
    | some l =>
      let enter (s : State) (dest : EndTo) : State :=
        s.enterLaunch l.saggar l.image rgn.toNat q.toNat prio.toNat (if flt then 0 else origin) flt dest
      { fault := s.prioFault c.x rgn.toNat prio.toNat
        slots := (outOpt od).toList
        refuse := s.queueFull q.toNat
        act := fun s => match outOpt od with
          | some o => enter (s.issue c { op := .launch s.nextLaunch, path := .h, cm := some o, queue := some q.toNat }) (.req c.id)
          | none => enter s .nowhere }) s

/-- YIELD: the plane gives up the rounds of the tile cycles after this one. -/
def execYield (h : Hdr) (cyc1 : BitVec 12) (s : State) : Result :=
  fire (.yield h cyc1) (fun c _ =>
    { act := fun s => s.modSlot c.x.tile c.x.slot fun k => { k with yield := cyc1.toNat + 3 } }) s

/-! ### The dispatcher (R265, R266, R276, R338) -/

/-- The tiles of a launch at an origin, when the placement is valid and every tile is offered (R14, R24). -/
def State.fits (s : State) (l : Launch) (o : Nat) : Option (List Nat) := (platAt o (s.platOf l)).filter fun ts => ts.all s.offered

/-- The origins that a launch may take, lowest first. (DEDUCED, log entry 57.) -/
def State.originsFor (s : State) (l : Launch) : List Nat :=
  (if l.floating then List.range 64 else [l.origin]).filter fun o => (s.fits l o).isSome

/-- Whether a launch asks for a running region (R276). (DEDUCED, log entry 57.) -/
def State.asksRunning (s : State) (l : Launch) : Bool :=
  !l.floating && s.launches.any fun o => o.num ≠ l.num && o.saggar = l.saggar && o.image = l.image && o.region = l.region &&
    (o.phase = .placed || o.phase = .running) && ((s.fits l l.origin).getD []).any fun t => (o.at t).any (fun e => !e.passed)

/-- Whether every tile at an origin has a free slot for a launch, and what a restore needs (R265, R338). -/
def State.slotsFor (s : State) (l : Launch) (o : Nat) : Bool :=
  ((s.platOf l).zip ((s.fits l o).getD [])).all fun (rt, t) =>
    (s.freeSlotFor l.saggar t).isSome && match s.savedOf l with
      | some v => s.unitsFor v rt t
      | none => true

/-- Whether every column at an origin lies below the threshold. -/
def State.belowThreshold (s : State) (l : Launch) (o : Nat) : Bool :=
  ((s.fits l o).getD []).all fun t => s.occupancy (t % 16) < s.colthr

/-- A launch is dispatched at an origin: it reserves its slots at once. -/
def State.placeLaunch (s : State) (l : Launch) (o : Nat) (takes : Bool) : State :=
  let ts := (s.fits l o).getD []
  let tiles := ((s.platOf l).zip ts).map fun (r, t) => ({ rtile := r, tile := t } : LTile)
  let s : State := { s.unqueue l.num with stamp := s.stamp + 1, lastQ := setAt none s.lastQ l.prio (some l.queue) }
  let s := s.modLaunch l.num fun l =>
    { l with phase := .placed, placed := o, tiles := tiles, stamp := s.stamp, takes := takes, baseWeight := 4 * (l.prio + 1) }
  ts.foldl (fun s t => s.reserveFree l.num l.saggar t) s

/-- A dispatch; the record of a resume launch is checked first (R338). -/
def State.dispatch (s : State) (l : Launch) (o : Nat) (takes : Bool) : State :=
  match s.savedOf l with
  | some v =>
    let known := ((s.image? l.saggar l.image).map fun i => l.region < i.regions && (i.plat l.region).length = v.old.length).getD false
    if known && s.recordOk l v then s.placeLaunch l o takes else s.badRecord l v
  | none => s.placeLaunch l o takes

/-- Whether a launch holds a slot in a tile column. -/
def State.inColumn (s : State) (c : Nat) (l : Launch) : Bool :=
  l.tiles.any fun e => e.tile % 16 = c && e.slot.any fun k => (s.slot e.tile k).phase ≠ .free

/-- The least column by occupancy, the lowest number on ties. -/
def State.leastColumn (s : State) : List Nat → Option Nat
  | [] => none
  | c :: r => match s.leastColumn r with
    | none => some c
    | some d => if s.occupancy c ≤ s.occupancy d then some c else some d

/-- The region to pre-empt: the lowest priority, then the one dispatched most recently. (DEDUCED, log entry 57.) -/
def victim : List Launch → Option Launch
  | [] => none
  | l :: r => match victim r with
    | none => some l
    | some m => if l.prio < m.prio || (l.prio = m.prio && m.stamp ≤ l.stamp) then some l else some m

/-- The candidate columns of a launch. -/
def State.columnsFor (s : State) (l : Launch) : List Nat :=
  if l.floating then List.range 16
  else (List.range 16).filter fun c => ((s.fits l l.origin).getD []).any fun t => t % 16 = c

/-- The traverse by which the dispatcher makes room for a launch of priority 3 (R266): none when it does not begin.
(DEDUCED, log entry 57.) -/
def State.preempt (s : State) (l : Launch) : Option State :=
  match s.leastColumn (s.columnsFor l) with
  | none => none
  | some c =>
    match victim (s.launches.filter fun o => s.inColumn c o && o.prio < 3) with
    | none => none
    | some v =>
      if v.draining || v.freeze || v.phase ≠ .running || v.trav.isSome || s.traverseFull v.saggar then none
      else s.beginTraverse v true true []

/-- The full-columns case (R266). -/
def State.fullColumns (s : State) (l : Launch) : Option State :=
  if l.prio = 3 then
    if s.launches.any fun o => o.trav.any (·.forDispatch) then none else s.preempt l
  else if 1 ≤ l.prio then ((s.originsFor l).find? (s.slotsFor l ·)).map fun o => s.dispatch l o true
  else none

/-- The dispatcher's answer to a queue head: what it does, or none when the launch waits (R265). -/
def State.decideHead (s : State) (l : Launch) : Option State :=
  let os := s.originsFor l
  if os.isEmpty then some (s.refuseLaunch l.num)
  else if s.asksRunning l then none
  else match os.find? fun o => s.slotsFor l o && s.belowThreshold l o with
  | some o => some (s.dispatch l o false)
  | none => if os.all fun o => !(s.belowThreshold l o) then s.fullColumns l else none

/-- The queues in the order in which the dispatcher visits them at a priority. -/
def State.queueOrder (s : State) (p : Nat) : List Nat :=
  match s.lastQ.getD p none with
  | some q => (List.range 32).map fun i => (q + 1 + i) % 32
  | none => List.range 32

/-- The queue heads in the order in which they are visited. -/
def State.heads (s : State) : List Launch :=
  [3, 2, 1, 0].flatMap fun p => (s.queueOrder p).filterMap fun q =>
    (((s.queues.getD q []).head?).bind s.launch?).filter fun l => l.prio = p

/-- Whether the dispatcher places launches (R369, R370, R393). -/
def State.dispatching (s : State) : Bool := s.dispatchOn && s.holdUp = .none && (s.service = .full || s.service = .bisque)

/-- LAUNCH_DISPATCH (R265): one decision. -/
def execLaunchDispatch (s : State) : Result :=
  .next (if s.dispatching then ((s.heads.findSome? s.decideHead).getD s) else s)

/-- DISPATCH_ENABLE (R369): the reserve measures 5.0 J or more for the first time since the start.
(DEDUCED, log entry 1.) -/
def execDispatchEnable (s : State) : Result :=
  .next (if s.service = .off || s.holdUp ≠ .none then s else { s with dispatchOn := true })

/-! ### Planes are loaded and become active (R43, R45, R83, R84, R96, R271) -/

/-- The image and the plane of a launch on a relative tile. -/
def State.planeOn (s : State) (l : Launch) (rt : Nat) : Option (Image × Nat) :=
  (s.image? l.saggar l.image).bind fun i => (i.planeOf l.region rt).map fun p => (i, p)

/-- The configuration fault of a plane (R43): the lowest item, and how many more fail. The launch is refused. -/
def State.refusePlane (s : State) (l : Launch) (e : LTile) (k p : Nat) (bad : List BadItem) (b : BadItem) : State :=
  let w : Where :=
    { saggar := l.saggar, region := l.region, ptile := e.tile, rtile := e.rtile, cell := b.cell, slot := k
      rule := if b.index < 16 then b.index else 0, plane := p, word := b.word }
  (s.takeFault l.saggar w { cls := 0x01, reason := b.code, more := bad.length - 1, source := 3, a := BitVec.ofNat 64 b.chan } []).refuseLaunch
    l.num

/-- The plane of a launch comes into its slot on a tile, or fails its checks. -/
def State.loadPlane (s : State) (l : Launch) (e : LTile) (k : Nat) : State :=
  let s := s.modTile e.tile fun t => { t with planeStore := t.planeStore.use }
  if (s.tile e.tile).planeStore.off then s
  else match s.planeOn l e.rtile with
  | none => s.refuseLaunch l.num
  | some (i, p) =>
    let bad := s.badItems i l.region (i.body p)
    match firstItem bad with
    | some b => s.refusePlane l e k p bad b
    | none => s.modSlot e.tile k fun sl => { sl with phase := .loaded }

/-- PLANE_LOAD (R43): the plane of launch j is loaded on tile t; a successor that PLANE named takes a slot that has become
free (R83). (DEDUCED, log entry 1.) -/
def execPlaneLoad (j t : Nat) (s : State) : Result :=
  match s.launch? j with
  | none => .next s
  | some l =>
    match l.at t with
    | none => .next s
    | some e =>
      if l.phase ≠ .placed || e.passed then .next s
      else match e.slot with
      | some k => .next (if (s.slot t k).phase = .reserved then s.loadPlane l e k else s)
      | none =>
        if l.pred.map (·.1) = some false then
          match s.freeSlotFor l.saggar t with
          | some k => .next ((s.reserveSlot j t k).loadPlane l e k)
          | none => .next s
        else .next s

/-- Whether the drain of the predecessor of a spliced launch has passed a tile. -/
def State.predPassed (s : State) (p t : Nat) : Bool :=
  match (s.launch? p).bind (·.at t) with
  | some e => e.passed
  | none => true

/-- Whether the planes of a launch are loaded, or active, on every tile. -/
def State.allLoaded (s : State) (l : Launch) : Bool :=
  l.tiles.all fun e => match e.slot with
    | some k => (s.slot e.tile k).phase = .loaded || (s.slot e.tile k).phase = .active
    | none => e.passed

/-- A loaded plane becomes active: its bank is set as R45 states. -/
def State.activatePlane (s : State) (l : Launch) (e : LTile) (k : Nat) (waits : Bool) : State :=
  match s.planeOn l e.rtile with
  | none => s
  | some (i, p) =>
    let s := (s.activateSlot l e.tile k waits).setBanks e.tile k (s.saggar l.saggar).res.seed e.rtile (i.body p)
    if s.allActive l then s.start l.num else s

/-- PLANE_ACTIVATE (R45): a region starts when its planes are active on all its tiles (R265); a spliced successor's plane
becomes active when the drain of its predecessor has passed the tile (R84, R271). A resume launch is restored instead.
(DEDUCED, log entry 1.) -/
def execPlaneActivate (j t : Nat) (s : State) : Result :=
  match s.launch? j with
  | none => .next s
  | some l =>
    match l.at t, (l.at t).bind (·.slot) with
    | some e, some k =>
      if l.phase ≠ .placed || l.freeze || (s.slot t k).phase ≠ .loaded || (s.savedOf l).isSome then .next s
      else match l.pred with
      | some (true, p) => .next (if s.predPassed p t then s.activatePlane l e k false else s)
      | _ => .next (if s.allLoaded l then s.activatePlane l e k true else s)
    | _, _ => .next s

/-! ### The drain (R80, R81, R88) -/

/-- The drain token of a bank's output: it leaves after every token of the rules that committed before.
(DEDUCED, log entry 31.) -/
def State.sendDrain (x : Site) (s : State) (o : Nat) : State :=
  let s := s.addGroup x o { id := s.nextId, toks := [{ cls := clsDrain, payload := 0, seqr := true }], closed := true }
  ({ s with nextId := s.nextId + 1 } : State).flush x o

/-- A cell that the drain reaches retires and sends its drain tokens. (DEDUCED, log entry 31.) -/
def State.drainCell (s : State) (x : Site) : State :=
  let s := s.retireCell x
  (s.bank x).boundOuts.foldl (State.sendDrain x) s

/-- The lowest tile of a launch that its drain has not reached, be its slot still to come. -/
def State.nextDrained (s : State) (l : Launch) : Option Nat :=
  (l.tiles.find? fun e => !e.passed && e.slot.all fun k => !(s.slot e.tile k).drained).map (·.tile)

/-- The lowest tile of a launch that meets a test of its slot. -/
def State.nextTile (s : State) (l : Launch) (f : Slot → Bool) : Option Nat :=
  (l.tiles.find? fun e => e.slot.any fun k => f (s.slot e.tile k)).map (·.tile)

/-- DRAIN_REACH_TILE (R80): the lowest tile of the launch that its drain has not reached; a tile on which a spliced successor has
no slot yet keeps the drain from the tiles after it. -/
def execDrainReachTile (j t : Nat) (s : State) : Result :=
  match s.launch? j with
  | none => .next s
  | some l =>
    match (l.at t).bind (·.slot) with
    | none => .next s
    | some k =>
      if !l.draining || l.freeze || s.nextDrained l ≠ some t || (s.slot t k).phase ≠ .active then .next s
      else
        let s := s.modSlot t k fun sl => { sl with drained := true }
        .next ((s.banksAt t k).foldl State.drainCell s)

/-- Whether every pair bound into a tile has delivered its drain token. -/
def State.drainedInto (s : State) (l : Launch) (t : Nat) : Bool :=
  (s.banksOf l.num).all fun x => (s.bank x).boundOuts.all fun o => match s.consumer x o with
    | some (y, n) => y.tile ≠ t || (s.bank y).drainIn.contains (arrivedOn (s.pairOf x o) n)
    | none => true

/-- Whether an output of a retired cell sends nothing more: its gate has no credit, which no rule adds any more, for the token
or the run at its front. (DEDUCED, log entry 54.) -/
def OutState.stuck (p : OutState) : Bool :=
  p.gateOn && p.credit = 0 && match p.groups with
    | g :: _ => g.resv = 0 && match g.toks with
      | t :: _ => !t.slot && !t.seqr
      | [] => g.run && !g.closed
    | [] => false

/-- Whether the cells of a slot have sent everything that still can leave (R80, R81). (DEDUCED, log entry 54.) -/
def State.outsEmpty (s : State) (t k : Nat) : Bool :=
  (s.banksAt t k).all fun x => (s.bank x).outs.all fun o =>
    (o.groups.isEmpty || o.stuck) && o.flight.isEmpty && o.resend.isEmpty

/-- Whether the drain waits for an operation: an access, an engine command or a fence (R81, R85 to R88). -/
def ReqOp.beforeDrain (o : ReqOp) : Bool :=
  o.isAccess || match o with
    | .fence .. | .cmpl => true
    | _ => false

/-- Whether every access and fence of a slot's cells is performed, and every update routed to their ranges is applied (R81,
R102). -/
def State.accessesDone (s : State) (t k : Nat) : Bool :=
  !(s.reqs.any fun r => inSlot t k r.site && r.op.beforeDrain && !r.performed && !r.lost)
    && !(s.owners.any fun w => inSlot t k w.site && s.updPending w.saggar w.base w.len s.nextId)

/-- The output whose run a unit keeps open while it waits for what a retired cell does not get, or for its release. -/
def UnitWork.openRun : UnitWork → Option Nat
  | .nest n => some n.out
  | .sparse t => if t.outq.isEmpty then t.out else none
  | .cturn t => if t.outq.isEmpty then some t.out else none
  | _ => none

/-- A retired cell whose plane the drain passes waits for nothing more: its nests are released (R288), its runs that can send
nothing end, and of what it asked for beside its accesses no token is sent (R297). (DEDUCED, log entry 54.) -/
def State.letGo (s : State) (x : Site) : State :=
  let s := (s.bank x).units.foldl (fun s u => match u.work.openRun with
    | some o => if u.work.nestOut.isSome then s.releaseNest x o else s.endRun x o u.id
    | none => s) s
  let rs := s.reqs.filter fun r => r.site = x && !r.op.beforeDrain
  let s := rs.foldl (fun s r =>
    let s := match r.dst with
      | .out o => s.endRun x o r.id
      | _ => s
    match r.cout with
    | some o => s.endRun x o r.cgroup
    | none => s) s
  s.abandonReqs fun r => r.site = x && !r.op.beforeDrain

/-- A spliced successor of a launch that has no slot on a tile takes that of its predecessor (R84, R271).
(DEDUCED, log entry 54.) -/
def State.spliceTakes (s : State) (j t k : Nat) : State :=
  match s.launches.find? fun l => l.pred = some (true, j) && l.phase = .placed && (l.at t).any (fun e => e.slot.isNone && !e.passed) with
  | some l => s.reserveSlot l.num t k
  | none => s

/-- DRAIN_PASSED_TILE (R81): the plane slot is released, once what its cells still send has left (R80), and a spliced
successor takes it (R84). (DEDUCED, log entry 54.) -/
def execDrainPassedTile (j t : Nat) (s : State) : Result :=
  match s.launch? j with
  | none => .next s
  | some l =>
    match (l.at t).bind (·.slot) with
    | none => .next s
    | some k =>
      let all := l.draining && !l.freeze && l.tiles.all fun e => e.passed || e.slot.any fun k => (s.slot e.tile k).drained
      if all && s.round.live ≠ some (t, k) && s.drainedInto l t && s.accessesDone t k then
        let s := (s.banksAt t k).foldl State.letGo s
        .next (if s.outsEmpty t k then (s.releaseTile j t).spliceTakes j t k else s)
      else .next s

/-- REGION_END (R88): the drain has passed every tile. -/
def execRegionEnd (j : Nat) (s : State) : Result :=
  match s.launch? j with
  | none => .next s
  | some l => .next (if l.draining && l.phase ≠ .queued && l.phase ≠ .saved && l.tiles.all (·.passed) then
      (s.reportEnd l 0).forget j else s)

/-! ### The freeze (R360) -/

/-- FREEZE_REACH_TILE (R360): the lowest tile of the launch that its freeze has not reached. An answer that came while an
abandoned traverse had parked its request enters the bank now. (DEDUCED, log entries 25, 60.) -/
def execFreezeReachTile (j t : Nat) (s : State) : Result :=
  match s.launch? j with
  | none => .next s
  | some l =>
    match (l.at t).bind (·.slot) with
    | none => .next s
    | some k =>
      .next (if l.freeze && s.nextTile l (fun sl => sl.halt = .go) = some t then
        (s.modSlot t k fun sl => { sl with halt := .reached }).giveAnswers j fun u => u = t else s)

/-! ### The stacked layers (R96) -/

/-- LAYER_POWER_OFF (R96). -/
def execLayerPowerOff (t : Nat) (l : Layer) (s : State) : Result :=
  .next (if s.layerDue t l then s.modTile t fun tl => tl.setLayer l { tl.layer l with off := true } else s)

end Sys2Proof.Machine
end

