-- ==== Sys2Proof/Machine/Power.lean ====
section
/-! DEFINITION. Start-up, power and the hold-up sequence: SAVESET, SAVEDROP and PFACK (R374 to R376, R383 to R386), the
power-fail trap and its phases (R369 to R373), the save records (R377 to R381), starts and self-tests (R363, R393, R394),
clocks and temperature (R396), row disturbance (R317, R318), and what the ports drop (R13, R315, R316, R387, R388). -/

namespace Sys2Proof.Machine

/-! ### Must-save declarations (R374 to R376, R384) -/

/-- The charge of a declaration of n bytes. -/
def charge (n : Nat) : Nat := n + 16 * ((n + 511) / 512) + 192

/-- The greatest length of a declaration: 152 MiB. -/
def declMax : Nat := 152 * 2 ^ 20

/-- The length of a declaration that R374 allows. -/
def declLen (n : Nat) : Bool := n % 16 = 0 && 16 ≤ n && n ≤ declMax

/-- The charges of a saggar's declarations. -/
def Saggar.charged (g : Saggar) : Nat := (g.decls.map fun d => charge d.len).foldl (· + ·) 0

/-- The declarations of an image of a saggar. -/
def Saggar.declsOf (g : Saggar) (image : List Byte) : List Decl := g.decls.filter (·.image = image)

/-- Whether a range meets a declaration of a saggar. -/
def Saggar.declared (g : Saggar) (base n : Nat) : Bool := g.decls.any fun d => spansMeet [(d.base, d.len)] [(base, n)]

/-- The number that a declaration at run time takes: the lowest free one that the image does not hold. -/
def Saggar.freeDecl (g : Saggar) (image : List Byte) : Option Nat :=
  let k := ((g.images.find? (·.hash = image)).map (·.decls)).getD 0
  (List.range 256).find? fun m => k ≤ m && !((g.declsOf image).any (·.num = m))

/-- The first reason that applies. -/
def firstReason (rs : List (Nat × Bool)) : Nat := ((rs.find? (·.2)).map (·.1)).getD 0

/-- The reason for which a SAVESET is refused; 0 for none. -/
def State.setReason (s : State) (g : Nat) (image : List Byte) (base n : Nat) : Nat :=
  let sg := s.saggar g
  firstReason
    [ (1, decide (sg.res.share < sg.charged + charge n)), (2, (sg.freeDecl image).isNone),
      (3, (s.unmapped g base n).isSome), (4, sg.declared base n), (5, decide (s.holdUp ≠ .none)) ]

/-- The reason for which a SAVEDROP is refused; 0 for none. (DEDUCED, log entry 65.) -/
def State.dropReason (s : State) (g : Nat) (image : List Byte) (num : Nat) : Nat :=
  let d := ((s.saggar g).declsOf image).find? (·.num = num)
  firstReason [(5, decide (s.holdUp ≠ .none)), (6, d.isNone), (7, d.any (·.byImage))]

/-- The answer to a SAVESET or a SAVEDROP. -/
def Saggar.declAnswer (g : Saggar) (why num : Nat) : Word :=
  let left := (g.res.share - g.charged) / 16
  BitVec.ofNat 64 (b2n (why ≠ 0) <<< 63 ||| why <<< 56 ||| (left % 2 ^ 32) <<< 16 ||| (if why = 0 then num else 0))

/-- The port die has decided a request: its answer is to be written. -/
def State.decided (s : State) (r : Req) (w : Word) : State := { s with saveAnswers := s.saveAnswers ++ [(r.id, w)] }

/-- The port die decides a SAVESET. -/
def State.decideSet (s : State) (r : Req) (image : List Byte) (base n : Nat) : State :=
  let g := r.saggar
  let why := s.setReason g image base n
  let num := ((s.saggar g).freeDecl image).getD 0
  let d : Decl := { image := image, num := num, base := base, len := n, byImage := false }
  let s := if why = 0 then s.modSaggar g fun sg => { sg with decls := sg.decls ++ [d] } else s
  s.decided r ((s.saggar g).declAnswer why num)

/-- The port die decides a SAVEDROP. -/
def State.decideDrop (s : State) (r : Req) (image : List Byte) (num : Nat) : State :=
  let g := r.saggar
  let why := s.dropReason g image num
  let s := if why = 0 then s.modSaggar g fun sg => { sg with decls := sg.decls.filter fun d => !(d.image = image && d.num = num) }
    else s
  s.decided r ((s.saggar g).declAnswer why num)

/-- A request has come to the port die, which decides it. (DEDUCED, log entry 65.) -/
def State.decide (s : State) (q : Nat) : State :=
  let s : State := { s with saveReqs := s.saveReqs.erase q }
  match s.req? q with
  | none => s
  | some r =>
    let image := ((s.launch? r.launch).map (·.image)).getD []
    match r.op with
    | .saveset base n => s.decideSet r image base n
    | .savedrop num => s.decideDrop r image num
    | _ => s

/-- The answer of a request that is decided is written (R384). (DEDUCED, log entry 65.) -/
def State.writeAnswer (s : State) (e : Nat × Word) : State :=
  let s : State := { s with saveAnswers := s.saveAnswers.erase e }
  match s.req? e.1 with
  | none => s
  | some r => s.loaded r [e.2] false

/-- SAVE_DECLARATION_ANSWER (R376, R384): a request comes to the port die, in an order that the spec leaves open, and is
decided; or the answer of one that is decided is written. (DEDUCED, log entry 65.) -/
def execSaveDeclarationAnswer (s : State) : Result :=
  let n := s.saveReqs.length
  let k := Config.unstated s.tick 0 % Nat.max 1 (n + s.saveAnswers.length)
  match s.saveReqs[k]?, s.saveAnswers[k - n]? with
  | some q, _ => .next (s.decide q)
  | none, some e => .next (s.writeAnswer e)
  | none, none => .next s

/-- A request goes to the port die. (DEDUCED, log entry 65.) -/
def State.askPortDie (s : State) (c : Ctx) (op : ReqOp) (dst : Dst) : State :=
  let s := s.issue c { op := op, path := .h, dst := Dst.reqDst dst, data := 1 }
  { s with saveReqs := s.saveReqs ++ [c.id] }

/-- SAVESET declare (R383, R384). -/
def execSavesetDeclare (h : Hdr) (dst : Dst) (s1 s2 : Src) (s : State) : Result :=
  fire (.savesetDeclare h dst s1 s2) (fun c s =>
    let a := (c.bank s).raw h 0 s1
    let n := (c.bank s).raw h 0 s2
    { fault := (vaFault a 16).or (lenFault (declLen n.toNat) n (vaOf a))
      slots := Dst.slots dst
      act := fun s => s.askPortDie c (.saveset (vaOf a) n.toNat) dst }) s

/-- SAVEDROP declaration (R383, R384). -/
def execSavedropDeclaration (h : Hdr) (dst : Dst) (s1 : Src) (s : State) : Result :=
  fire (.savedropDeclaration h dst s1) (fun c s =>
    let m := (c.bank s).low h 0 8 s1
    { slots := Dst.slots dst
      act := fun s => s.askPortDie c (.savedrop m) dst }) s

/-- The notify bit of an output (R372, R385). -/
def State.setNotify (s : State) (x : Site) (o : Nat) (v : Bool) : State :=
  s.modBank x fun b => b.modOut o fun p => { p with notify := v }

/-- SAVESET notify (R385). -/
def execSavesetNotify (h : Hdr) (o : Out) (s : State) : Result :=
  fire (.savesetNotify h o) (fun c _ => { act := fun s => s.setNotify c.x o.toNat true }) s

/-- SAVEDROP notify (R385). -/
def execSavedropNotify (h : Hdr) (o : Out) (s : State) : Result :=
  fire (.savedropNotify h o) (fun c _ => { act := fun s => s.setNotify c.x o.toNat false }) s

/-! ### The phases of the hold-up sequence (R370 to R373) -/

/-- Every region of a saggar freezes, never to continue: the sequence writes no record of a fault (R370, R371).
(DEDUCED, log entry 64.) -/
def State.holdFreeze (s : State) (g : Nat) : State :=
  ((s.launches.filter fun l => l.saggar = g && (l.phase = .placed || l.phase = .running)).map (·.num)).foldl
    (State.freezeLaunch · 0) s

/-- The outputs of the active banks of the package whose notify bit is set. -/
def State.notifies (s : State) : List (Site × Nat) :=
  s.banks.flatMap fun (x, b) =>
    if (s.slot x.tile x.slot).phase = .active then ((List.range 8).filter fun o => (b.out o).notify).map fun o => (x, o) else []

/-- A notify token goes: it leaves when its consumer has a free slot, and takes no credit (R372). -/
def State.sendNotify (s : State) (e : Site × Nat) : State :=
  let t : GTok := { cls := clsCtl, payload := BitVec.ofNat 64 (s.store.gen + 1), seqr := true }
  let s := s.addGroup e.1 e.2 { id := s.nextId, toks := [t], closed := true }
  ({ s with nextId := s.nextId + 1 } : State).flush e.1 e.2

/-- Whether a token is a notify token that has not left. -/
def GTok.isNotify (t : GTok) : Bool := t.seqr && t.cls = clsCtl

/-- The notify tokens of an output that have not left are never sent. -/
def OutState.purge (p : OutState) : OutState :=
  { p with groups := p.groups.map fun g => { g with toks := g.toks.filter fun t => !t.isNotify } }

/-- The slots that the notify tokens left on an output have taken. -/
def OutState.notifySlots (p : OutState) : Nat :=
  (p.groups.map fun g => (g.toks.filter fun t => t.isNotify && t.slot).length).foldl (· + ·) 0

/-- The notify tokens left on an output are dropped, and what waited behind them may leave. (DEDUCED, log entry 65.) -/
def State.purgeNotify (s : State) (e : Site × Nat) : State :=
  let n := ((s.bank e.1).out e.2).notifySlots
  let s := match s.consumer e.1 e.2 with
    | some (y, c) => s.modBank y fun b => b.modChan c fun h => { h with taken := h.taken - n }
    | none => s
  (s.modBank e.1 fun b => b.modOut e.2 OutState.purge).flush e.1 e.2

/-- Phase 2 ends. -/
def State.endPhase2 (s : State) : State :=
  let es := s.banks.flatMap fun e => (List.range 8).map fun o => (e.1, o)
  let s := es.foldl State.purgeNotify s
  { s with holdUp := .runOut }

/-- Phase 2 ends for one saggar. -/
def State.endGrace (s : State) (g : Nat) : State :=
  match s.holdUp with
  | .grace open_ =>
    if open_.contains g then
      let s := s.holdFreeze g
      let rest := open_.filter (· ≠ g)
      if rest.isEmpty then s.endPhase2 else { s with holdUp := .grace rest }
    else s
  | _ => s

/-- PFACK (R386). -/
def execPfack (h : Hdr) (s : State) : Result :=
  fire (.pfack h) (fun c s =>
    let g := s.saggarOf c.x
    { act := fun s => s.endGrace g }) s

/-- Every traverse in progress and every load not yet complete is abandoned (R330, R370). -/
def State.dropWork (s : State) : State :=
  let js := (s.launches.filter (·.trav.isSome)).map (·.num)
  let s := js.foldl (fun s j => (s.abandonTraverse j).giveAnswers j fun _ => true) s
  { s with saggars := (s.saggars.map fun g => { g with load := none }), readouts := [] }

/-- The trap and phase 1 (R370 to R372). -/
def State.trap (s : State) (supply : Bool) : State :=
  let es := s.notifies
  let open_ := (es.map fun e => s.saggarOf e.1).eraseDups
  let s := s.dropWork
  let s : State := { s with supplyTrap := supply, tiles := s.tiles.map fun t => { t with clock := 1 }, holdUp := .grace open_ }
  let s := ((List.range 16).filter fun g => !(open_.contains g)).foldl State.holdFreeze s
  let s := es.foldl State.sendNotify s
  if open_.isEmpty then s.endPhase2 else s

/-- POWER_FAIL_TRAP (R369, R370). -/
def execPowerFailTrap (supply : Bool) (s : State) : Result :=
  .next (if s.service = .off || s.holdUp ≠ .none then s else s.trap supply)

/-- GRACE_END (R372): the regions of the saggars whose phase 2 is open freeze. -/
def execGraceEnd (s : State) : Result :=
  match s.holdUp with
  | .grace open_ => .next ((open_.foldl State.holdFreeze s).endPhase2)
  | _ => .next s

/-- The state that a step leaves; its own when it stops. -/
def stateOf (s : State) : Result → State
  | .next s' => s'
  | _ => s

/-- An engine command as it would be performed now. -/
def State.tryEngine (s : State) (r : Req) : State :=
  match r.op with
  | .copy .. => stateOf s (execCopyPerformed r.id {} s)
  | .kvput .. | .kvcommit .. | .kvrot .. => stateOf s (execKvCommandPerformed r.id {} s)
  | .coll (some _) .. => stateOf s (execCollectivePerformed r.id [] {} s)
  | .coll none .. => stateOf s (execXredPerformed r.id [] {} s)
  | .stash .. => stateOf s (execStashPerformed r.id {} s)
  | _ => s

/-- A set of keys in which each granule is as in one of two sets. (DEDUCED, log entry 66.) -/
def blendKeys (new : Nat → Bool) (old next : List Nat) : List Nat :=
  let add := (next.filter fun k => new k && !(setMem k old)).foldl (fun m k => setAdd k m) old
  (old.filter fun k => new k && !(setMem k next)).foldl (fun m k => setDel k m) add

/-- Memory in which each 16-byte granule of HBM is wholly as before or wholly as after (R90, R373).
(DEDUCED, log entry 66; DESIGN CHOICE, log entry 71.) -/
def State.blend (s t : State) (q : Nat) : State :=
  let new (k : Nat) : Bool := k < 2 ^ 56 && Config.unstated (s.tick + q) k % 2 = 1
  let cells := (t.mem.filter fun c => !(s.mem.contains c)) ++ s.mem.filter fun c => !(t.mem.contains c)
  let ks := (cells.map (·.1)).filter fun k => k < 2 ^ 60 && new (k / 16)
  let s := ks.foldl (fun s k => s.setByte k (t.byte k)) s
  { s with full := blendKeys (fun w => new (w / 2)) s.full t.full, poison := blendKeys (fun w => new (w / 2)) s.poison t.poison }

/-- What the requests abandoned at the end of run-out leave in memory: an engine's write may be there in part.
(DEDUCED, log entry 66.) -/
def State.leavings (s : State) : State :=
  (s.reqs.filter fun r => r.placed.isSome || s.mayPerform r).foldl (fun s r =>
    if r.placed.isSome then s.leavePart r.id else s.blend (s.tryEngine r) r.id) s

/-! ### The maps of the package (R363) -/

/-- A set of numbers as a little-endian bit map. -/
def bitMap (n : Nat) (ks : List Nat) : List Byte := leBytes n (ks.foldl (fun m k => m ||| 1 <<< k) 0)

/-- The disable map. -/
def State.disableMap (s : State) : List Byte :=
  bitMap 8 s.tilesOff ++ bitMap 8 s.storeOff ++ bitMap 8 s.stashOff ++ bitMap 32 s.channelsOff ++ bitMap 8 s.portsOff

/-- Whether the package has not come to full service: its reports say bisque mode (R393). -/
def State.early (s : State) : Bool := s.service = .bisque || s.service = .refused

/-- Bytes cut or padded with zeros to a length. -/
def fitBytes (n : Nat) (bs : List Byte) : List Byte := (bs ++ List.replicate (n - bs.length) 0).take n

/-- The tenant hash of a saggar (R314): zero for saggar 0, which has no tenant. -/
def State.tenantHash (s : State) (g : Nat) : List Byte := if g = 0 then List.replicate 48 0 else sha384 (s.saggar g).tenant

/-! ### The save records (R377 to R380) -/

/-- The record of a declaration: the bytes of the range, and its words that are full or uncorrectable. -/
def State.saveRec (s : State) (n : ReadNature) (gen g : Nat) (d : Decl) : SaveRec :=
  let k := hbmKey g d.base
  let words := (List.range (d.len / 8)).map fun i => k / 8 + i
  { gen := gen, saggar := g, tenant := s.tenantHash g, image := d.image, num := d.num, byImage := d.byImage
    base := d.base
    bytes := (List.range d.len).map fun i => if s.badWord n ((k + i) / 8) then 0 else s.byte (k + i)
    full := (words.filter fun w => setMem w s.full).map (· - k / 8)
    bad := (words.filter (s.badWord n)).map (· - k / 8) }

/-- Insert a declaration into a list in ascending number. -/
def insertDecl (d : Decl) : List Decl → List Decl
  | [] => [d]
  | e :: r => if d.num ≤ e.num then d :: e :: r else e :: insertDecl d r

/-- The declarations of a saggar in store order: images in load order, numbers ascending. -/
def Saggar.storeOrder (g : Saggar) : List Decl :=
  g.images.flatMap fun i => (g.declsOf i.hash).foldr insertDecl []

/-- The saggars for which the sequence writes records. -/
def State.saving (s : State) : List Nat :=
  (List.range 16).filter fun g => (s.saggar g).st = .created || (s.saggar g).st = .loaded

/-- The disable map as State holds it. -/
def State.disabled (s : State) : SelfTest :=
  { tilesOff := s.tilesOff, storeOff := s.storeOff, stashOff := s.stashOff, channelsOff := s.channelsOff, portsOff := s.portsOff }

/-- The device-state record (R379). -/
def State.deviceRec (s : State) (gen : Nat) : DeviceRec :=
  { gen := gen, boots := s.store.boots, platMap := Config.platMap s.early s.disableMap, disabled := s.disabled
    supply := s.supplyTrap
    logs := (List.range 16).map fun g => (g, (s.saggar g).log)
    tenants := s.saving.map fun g => (g, s.tenantHash g)
    overflow := (List.range 16).map fun g => (g, (s.saggar g).overflow)
    drops := (List.range 16).map fun g => (g, (s.saggar g).drops)
    endpoint := s.endpointDrops
    decls := s.saving.flatMap fun g => (s.saggar g).storeOrder.map fun d =>
      (g, s.tenantHash g, d.image, d.num, d.len) }

/-- The header of a record of a kind and a length (R378). -/
def recordHeader (kind len gen : Nat) (r : Option SaveRec) : List Byte :=
  let word (k : Nat) : List Byte := leBytes 8 k
  word (kind <<< 56 ||| 1 <<< 48 ||| len) ++ word gen ++ match r with
    | none => List.replicate 112 0
    | some r => word (r.base % 2 ^ 48) ++ word (b2n r.byImage <<< 44 ||| r.saggar <<< 40 ||| r.num <<< 32 ||| r.bytes.length)
        ++ fitBytes 48 r.tenant ++ fitBytes 48 r.image

/-- The word map of a record: two bits a word, full and uncorrectable (R379). -/
def SaveRec.wordMap (r : SaveRec) : List Byte :=
  bitMap (16 * ((r.bytes.length + 511) / 512)) (r.full.map (2 * ·) ++ r.bad.map (2 * · + 1))

/-- A payload as it is stored: data units of 512 bytes, each under its place in the store (R379). -/
def sealed (key : List Byte) (off : Nat) (bs : List Byte) : List Byte :=
  (List.range ((bs.length + 511) / 512)).flatMap fun k =>
    let u := (bs.drop (512 * k)).take 512
    fitBytes u.length (Config.xtsSeal key ((off + 512 * k) / 512) u)

/-- A record as it is stored at an offset: header, payload, trailer (R378, R379). -/
def storedRecord (kind gen off : Nat) (key payload : List Byte) (r : Option SaveRec) : List Byte :=
  let front := recordHeader kind (192 + payload.length) gen r ++ sealed key (off + 128) payload
  front ++ sha384 front ++ leBytes 8 gen ++ List.replicate 8 0

/-- The payload of a saggar record, and the save key of its tenant (R379). -/
def SaveRec.payload (r : SaveRec) : List Byte := r.bytes ++ r.wordMap
def SaveRec.key (r : SaveRec) : List Byte := hkdf r.tenant Config.deviceSecret (infoBytes "oxb save") 64

/-- The payload of the device-state record, whose layout and key the spec leaves to the datum. (DESIGN CHOICE, log entry 88.) -/
def DeviceRec.payload (d : DeviceRec) : List Byte :=
  let word (k : Nat) : List Byte := leBytes 8 k
  let map (n : Nat) (l : List Nat) : List Byte := bitMap n l
  word d.boots ++ word d.platMap.length ++ d.platMap
    ++ map 8 d.disabled.tilesOff ++ map 8 d.disabled.storeOff ++ map 8 d.disabled.stashOff ++ map 32 d.disabled.channelsOff
    ++ map 8 d.disabled.portsOff ++ word (b2n d.supply)
    ++ (d.logs.flatMap fun e => word e.2.length ++ e.2.flatMap fun r => word r.seq ++ r.words.flatMap fun w => word w.toNat)
    ++ (d.tenants.flatMap fun e => word e.1 ++ e.2) ++ (d.overflow.flatMap fun e => word e.2.toNat) ++ (d.drops.flatMap fun e => word e.2)
    ++ word d.endpoint
    ++ d.decls.flatMap fun e => word (e.1 <<< 40 ||| e.2.2.2.1 <<< 32 ||| e.2.2.2.2) ++ e.2.1 ++ e.2.2.1

/-- The half of the store that holds the records of a generation (R377). -/
def halfOf (gen : Nat) : Nat := 0x40000000 * (1 + gen % 2)

/-- The next offset of a record: a multiple of 64 (R377). -/
def nextRecord (off len : Nat) : Nat := off + (len + 63) / 64 * 64

/-- Bytes are written into the store from an offset on. -/
def putBytes (m : List Host.Cell) (off : Nat) (bs : List Byte) : List Host.Cell :=
  ((List.range bs.length).zip bs).foldl (fun m e => Memory.put m (off + e.1) e.2) m

/-- The bytes of the store. -/
def SaveStore.read (st : SaveStore) (off n : Nat) : List Byte := (List.range n).map fun i => Memory.get st.cells (off + i)

/-- The control block is written (R377). -/
def SaveStore.control (st : SaveStore) : SaveStore :=
  { st with cells := putBytes st.cells 0 (leBytes 8 st.boots ++ leBytes 8 st.gen ++ List.replicate 48 0) }

/-- The next record of a sequence is written. -/
def SaveStore.append (e : SaveStore × Nat) (r : SaveRec) : SaveStore × Nat :=
  let r := { r with off := e.2 }
  let bs := storedRecord 0x10 r.gen e.2 r.key r.payload (some r)
  ({ e.1 with recs := e.1.recs ++ [r], cells := putBytes e.1.cells e.2 bs }, nextRecord e.2 bs.length)

/-- Phases 4 and 5: the generation goes up, the control block and then the records are written, that of the device first
(R377, R380). (DESIGN CHOICE, log entry 88.) -/
def State.writeStore (s : State) (n : ReadNature) : SaveStore :=
  let gen := s.store.gen + 1
  let d := { s.deviceRec gen with off := halfOf gen }
  let bs := storedRecord 0x11 gen d.off (hkdf [] Config.deviceSecret (infoBytes "device") 64) d.payload none
  let st : SaveStore := { s.store with gen := gen, device := some d, recs := [], prior := s.store.cells }
  let st := st.control
  let st := { st with cells := putBytes st.cells d.off bs }
  let rs := s.saving.flatMap fun g => (s.saggar g).storeOrder.map (s.saveRec n gen g)
  (rs.foldl SaveStore.append (st, nextRecord d.off bs.length)).1

/-- The package without power, or at a start: nothing is left but the save store; what the host has been told, the steps
still to come, and the numbers that name free values and exchanges go on. (DEDUCED, log entry 67.) -/
def State.afresh (s : State) (store : SaveStore) : State :=
  { State.reset with
    store := store, agenda := s.agenda, tick := s.tick, nextId := s.nextId, answers := s.answers, exchanges := s.exchanges }

/-- RUN_OUT_END (R373, R380): what is not performed is abandoned, the records are written, and the power is gone.
(DEDUCED, log entry 66.) -/
def execRunOutEnd (n : ReadNature) (s : State) : Result :=
  match s.holdUp with
  | .runOut => .next { s.afresh (s.leavings.writeStore n) with holdUp := .ended }
  | _ => .next s

/-! ### A start, and the self-tests (R363, R377, R381, R393, R394) -/

/-- The units of 64 bytes of the records that a sequence writes, part after part: header, payload and trailer of the record of
the device, and then of each saggar record (R377, R378). (DEDUCED, log entry 67.) -/
def SaveStore.parts (st : SaveStore) : List (List Nat) :=
  ((st.device.map (·.off)).toList ++ st.recs.map (·.off)).flatMap fun off =>
    let len := ofLeBytes (st.read off 8) % 2 ^ 32
    let first := off / 64
    let tail := (off + len - 64) / 64
    let upTo (a b : Nat) : List Nat := (List.range (b - a)).map (a + ·)
    [upTo first (first + 2), upTo (first + 2) tail, upTo tail ((off + len + 63) / 64)]

/-- The units that a sequence cut short leaves unwritten: some of the part that it was writing, and every later part.
(DEDUCED, log entry 67.) -/
def unwritten (torn : List Nat) : List (List Nat) → List Nat
  | [] => []
  | p :: ps =>
    let lost := p.filter torn.contains
    if lost.isEmpty then unwritten torn ps else lost ++ ps.flatten

/-- The store after a sequence that was cut short: the units that it had not written are as they were before it. The control
block is written (R378, R380). (DEDUCED, log entry 67.) -/
def SaveStore.tear (st : SaveStore) (torn : List Nat) : SaveStore :=
  let lost := unwritten torn st.parts
  let old (u : Nat) : List Byte := (List.range 64).map fun i => Memory.get st.prior (64 * u + i)
  { st with cells := lost.foldl (fun m u => putBytes m (64 * u) (old u)) st.cells }

/-- Whether the record at an offset has a trailer of its generation, with the hash of its header and payload (R381). -/
def SaveStore.trailed (st : SaveStore) (off len : Nat) : Bool :=
  let t := st.read (off + len - 64) 64
  decide (192 ≤ len) && t.take 48 = sha384 (st.read off (len - 64)) && ofLeBytes ((t.drop 48).take 8) = st.gen

/-- The records of the latest generation that a walk by the lengths of the headers finds from an offset on, each with whether
it is whole: at most n (R381). -/
def SaveStore.walk (st : SaveStore) : Nat → Nat → List (Nat × Bool)
  | 0, _ => []
  | n + 1, off =>
    let head := ofLeBytes (st.read off 8)
    let len := head % 2 ^ 32
    let kind := head >>> 56
    if (kind ≠ 0x10 && kind ≠ 0x11) || ofLeBytes (st.read (off + 8) 8) ≠ st.gen || len = 0 then []
    else (off, st.trailed off len) :: st.walk n (nextRecord off len)

/-- The records as a start finds them: whole or torn, and those without a header are absent (R381).
(DEDUCED, log entry 67.) -/
def SaveStore.classed (st : SaveStore) : SaveStore :=
  let found := if st.gen = 0 then [] else st.walk (st.recs.length + 1) (halfOf st.gen)
  { st with
    device := st.device.bind fun d => (alGet d.off found).map fun w => { d with whole := w }
    recs := st.recs.filterMap fun r => (alGet r.off found).map fun w => { r with whole := w } }

/-- A start: one more is counted in the control block, and the records are classed (R377, R381). -/
def SaveStore.restart (st : SaveStore) (torn : List Nat) : SaveStore :=
  ({ st.tear torn with boots := st.boots + 1 } : SaveStore).control.classed

/-- The key slots of one number on every base die hold a memory key (R311). (DESIGN CHOICE, log entry 92.) -/
def State.setSlotKey (s : State) (g : Nat) (key : List Byte) : State :=
  { s with keySlots := (List.range 8).foldl (fun m d => alPut (d, g) key m) s.keySlots }

/-- The key slots of one number are erased on every base die (R306). -/
def State.eraseSlotKey (s : State) (g : Nat) : State := { s with keySlots := s.keySlots.filter fun e => e.1.2 ≠ g }

/-- Saggar 0 with its fixed grant and its management page (R13, R302, R397). (DEDUCED, log entry 67.) -/
def saggar0 : Saggar :=
  { st := .loaded, gen := 1, res := { spill := 2, slots := 1, planes := 16, seed := Config.firmwareSeed }
    pages := [{ base := mgmtBase, size := 65536, attr := .rw }] }

/-- POWER_ON_START (R377, R393): from power-on or a reset. The store units that a sequence left unwritten are nature's choice;
a start that follows none finds the store as it was. (DEDUCED, log entries 1, 67.) -/
def execPowerOnStart (sigOk : Bool) (torn : List Nat) (s : State) : Result :=
  if s.holdUp = .none || s.holdUp = .ended then
    let s := s.afresh (s.store.restart (if s.holdUp = .ended then torn else []))
    let s : State := { s with service := if sigOk then .bisque else .refused, saggars := setAt {} s.saggars 0 saggar0 }
    .next (s.setSlotKey 0 (Config.memoryKey 0 s.store.boots))
  else .next s

/-- Whether the self-tests found everything whole (R4). -/
def cleanTest (f : SelfTest) : Bool :=
  f.tilesOff.isEmpty && f.storeOff.isEmpty && f.stashOff.isEmpty && f.channelsOff.isEmpty && f.portsOff.isEmpty

/-- SELF_TEST_END (R363, R394): the disable map is written and full service begins, the tile clocks at 4 GHz.
(DEDUCED, log entry 1; DESIGN CHOICE, log entry 8.) -/
def execSelfTestEnd (f : SelfTest) (s : State) : Result :=
  .next (if s.service = .bisque && s.holdUp = .none then
    { s with
      service := .full, degraded := !(cleanTest f), tilesOff := f.tilesOff, storeOff := f.storeOff, stashOff := f.stashOff
      channelsOff := f.channelsOff, portsOff := f.portsOff
      ports := ((List.range 16).zip s.ports).map fun (p, e) => if f.portsOff.contains p then { e with up := false } else e
      tiles := s.tiles.map fun t => { t with clock := 16 } }
    else s)

/-! ### Clocks and temperature (R395, R396) -/

/-- A clock one step of 250 MHz lower, down to 1 GHz; or higher, up to that of the mode. -/
def stepClock (hot : Bool) (top c : Nat) : Nat := if hot then Nat.max 4 (c - 1) else Nat.min top (c + 1)

/-- THERMAL_THROTTLE (R396): one step of every tile clock, for the inlet temperature in 0.1 °C and the power in W.
(DESIGN CHOICE, log entry 80.) -/
def execThermalThrottle (inlet power : Nat) (s : State) : Result :=
  let hot := 450 < inlet || 3600 < power
  let top := if s.service = .full then 16 else 4
  .next (if s.service = .off || s.holdUp ≠ .none then s
    else { s with tiles := s.tiles.map fun t => { t with clock := stepClock hot top t.clock } })

/-- A region freezes with the stall class, and waits for a kill or a discard (R396): the record names its first tile.
(DEDUCED, log entry 24.) -/
def State.freezeHot (s : State) (l : Launch) : State :=
  match l.tiles.find? fun e => e.slot.isSome with
  | none => s
  | some e =>
    let x : Site := { tile := e.tile, slot := e.slot.getD 0, cell := 0 }
    let w : Where := { saggar := l.saggar, region := l.region, ptile := e.tile, rtile := e.rtile, slot := x.slot, plane := s.planeNum x }
    (s.takeFault l.saggar w { cls := 0x10, source := 3, a := BitVec.ofNat 64 (s.queued e.tile x.slot) } [l.num]).modLaunch l.num
      fun l => { l with causes := l.causes ++ [0] }

/-- OVERTEMP_FREEZE (R396): above 55 °C every region freezes, those that a fault has frozen too; a region that has frozen for
the heat already is left as it is. -/
def execOvertempFreeze (inlet : Nat) (s : State) : Result :=
  .next (if inlet ≤ 550 || s.holdUp ≠ .none then s
    else (s.launches.filter fun l => !(l.causes.contains 0) && (l.phase = .placed || l.phase = .running)).foldl State.freezeHot s)

/-! ### Row disturbance (R317, R318) -/

/-- The count of a row's activations. -/
def State.rowCount (s : State) (d b r : Nat) : Nat :=
  ((s.rows.find? fun c => c.die = d && c.bank = b && c.row = r).map (·.n)).getD 0

/-- Set the count of a row; a count of zero is not listed. -/
def State.setRow (s : State) (d b r n : Nat) : State :=
  let rest := s.rows.filter fun c => !(c.die = d && c.bank = b && c.row = r)
  { s with rows := if n = 0 then rest else rest ++ [{ die := d, bank := b, row := r, n := n }] }

/-- ROW_ALERT (R317): row r of bank b of base die d is activated; its count may reach RMTHR, and then its neighbours are
refreshed. (DEDUCED, log entry 78.) -/
def execRowAlert (d b r : Nat) (s : State) : Result :=
  let n := s.rowCount d b r + 1
  .next (if 8 ≤ d || s.service = .off || s.refreshing.contains (d, b) then s
    else if n < s.rmthr then s.setRow d b r n
    else
      let s := s.setRow d b r 0
      { s with alerts := setAt 0 s.alerts d (s.alerts.getD d 0 + 1), refreshing := s.refreshing ++ [(d, b)] })

/-- REFRESH_PASS (R317): a full pass of a bank's periodic refresh. -/
def execRefreshPass (d b : Nat) (s : State) : Result :=
  .next { s with rows := s.rows.filter fun c => !(c.die = d && c.bank = b) }

/-! ### The ports (R315, R316, R387, R388) -/

/-- PACKET_RECEIVE (R13, R315, R316, R387, R388): a packet that reaches no saggar. (DESIGN CHOICE, log entry 8.) -/
def execPacketReceive (p : Nat) (k : PacketKind) (s : State) : Result :=
  .next (if !(s.portWorks p) then s
    else match k with
    | .unprotected | .badTag | .unsupported | .otherTenant => s.dropPacket p
    | .saggarZero => { s with endpointDrops := s.endpointDrops + 1 })

/-- Whether the proof that a peer device shows on a port is accepted: its certificates, the signature of its report, the
nonce, and the fields that are expected (R314, R315). -/
def peerAccepted (q : PeerProof) (p : Nat) : Bool :=
  Config.chainOk q.certs && Config.ecdsaOk (Config.certifiedKey q.certs) (sha384 (q.report.take 0x418)) (q.report.drop 0x418)
    && (q.report.drop 0xB8).take 48 = fitBytes 48 (Config.linkNonce p) && Config.expectedPeer q.report

/-- The key of a link with a peer device: derived from the agreement of the two attestation keys (R315).
(DESIGN CHOICE, log entry 69.) -/
def peerLinkKey (q : PeerProof) : List Byte := hkdf [] (Config.linkSecret (Config.certifiedKey q.certs)) [] 32

/-- The port after its training: with a peer device, which has to show its proof, or with the host. -/
def Port.trained (e : Port) (p : Nat) : Option PeerProof → Port
  | none => { e with up := true, key := Config.hostLinkKey p }
  | some q => if peerAccepted q p then { e with up := true, key := peerLinkKey q } else { e with up := false, key := [] }

/-- LINK_TRAINING (R315, R387): the link of a port comes up, and takes its key. -/
def execLinkTraining (p : Nat) (peer : Option PeerProof) (s : State) : Result :=
  .next (if s.portWorks p then { s with ports := setAt {} s.ports p ((s.ports.getD p {}).trained p peer) } else s)

end Sys2Proof.Machine
end

