-- ==== Sys2Proof/Machine/Host.lean ====
section
/-! DEFINITION. The command endpoint (R264, R275, R300 to R307, R312 to R314, R338, R360, R382, R388 to R391, R397): what is
accepted, and every command of the host. -/

namespace Sys2Proof.Machine

/-! ### Acceptance (R300, R301, R370, R388, R389, R394) -/

/-- The types of commands that a saggar accepts in a state. (DEDUCED, log entry 73.) -/
def SagState.accepts (t : Nat) : SagState → Bool
  | .free => t = 0x05
  | .created => t = 0x01 || t = 0x04 || t = 0x05 || t = 0x06
  | .loaded => 0x01 ≤ t && t ≤ 0x08
  | .killing => t = 0x03 || t = 0x04

/-- The loads whose last chunk has come and that wait for plane-store layers to wake, with their saggars. -/
def State.endingLoads (s : State) : List (CmdHead × LoadBuf) :=
  s.saggars.filterMap fun g => g.load.bind fun b => b.ending.map fun c => (c, b)

/-- Whether commands reach the datum: it has started, no hold-up sequence runs, some link is up, and no command is still being
carried out (R389). (DEDUCED, log entry 76.) -/
def State.listens (s : State) : Bool :=
  s.service ≠ .off && s.holdUp = .none && s.ports.any (·.up) && s.endingLoads.isEmpty

/-- A message that is dropped and counted. -/
def State.dropCommand (s : State) (g : Nat) : State :=
  { s.modSaggar g (fun sg => { sg with drops := sg.drops + 1 }) with endpointDrops := s.endpointDrops + 1 }

/-- Whether a command of a type has the tag that R388 gives it: zeros for a key exchange and an attest; for any other that of
GCM over header and body, under the saggar's key for commands and the IV of its direction and counter.
(DESIGN CHOICE, log entry 69.) -/
def Saggar.sealed (g : Saggar) (c : CmdHead) (t : Nat) : Bool :=
  if t = 0x04 || t = 0x05 then c.tag = List.replicate 16 0
  else match g.keys with
  | none => false
  | some k => c.tag = Config.gcmTag k.1 (messageIv false c.seq) (messageHead t c.saggar c.length c.seq) c.body

/-- Whether a message has the form of R388, is authentic, and has a counter above the last (R300).
(DESIGN CHOICE, log entry 69; DEDUCED, log entry 72.) -/
def State.authentic (s : State) (c : CmdHead) (t : Nat) : Bool :=
  let sg := s.saggar c.saggar
  sg.ctrIn < c.seq && c.rz = 0 && c.length = c.body.length && sg.sealed c t

/-- The answer to a command. -/
def State.answer (s : State) (c : CmdHead) (t status : Nat) (words : List Word) (bytes : List Byte) : State :=
  s.tell c.saggar (0x80 ||| t) status words bytes

/-- A command is refused: its answer is all that it leaves. (DEDUCED, log entry 73.) -/
def State.refuse (s : State) (c : CmdHead) (t status : Nat) : State := s.answer c t status [] []

/-- A command reaches the datum: it is dropped, refused for the state of its saggar, or taken. A key exchange leaves the counter
to its own outcome (R313).
(DESIGN CHOICE, log entry 8; DEDUCED, log entry 72.) -/
def State.command (s : State) (c : CmdHead) (t : Nat) (take : State → State) : State :=
  if !s.listens then s
  else if c.saggar = 0 || 16 ≤ c.saggar then { s with endpointDrops := s.endpointDrops + 1 }
  else if !(s.authentic c t) then s.dropCommand c.saggar
  else
    let s := if t = 0x05 then s else s.modSaggar c.saggar fun sg => { sg with ctrIn := c.seq }
    if s.service = .refused && t ≠ 0x04 then s
    else if !((s.saggar c.saggar).st.accepts t) then s.refuse c t 2
    else take s

/-! ### Attestation (R314, R363) -/

/-- A report of a saggar before its signature. (DESIGN CHOICE, log entry 68.) -/
def State.reportBody (s : State) (g : Nat) (nonce : List Byte) : List Byte :=
  let sg := s.saggar g
  leBytes 2 1 ++ leBytes 2 (b2n s.early ||| b2n s.degraded <<< 1) ++ leBytes 4 0x478
    ++ fitBytes 16 Config.deviceId ++ leBytes 8 s.store.boots ++ fitBytes 48 Config.firmwareHash
    ++ sha384 (Config.platMap s.early s.disableMap)
    ++ leBytes 1 g ++ leBytes 1 sg.images.length ++ leBytes 2 0 ++ leBytes 4 sg.gen.toNat
    ++ s.tenantHash g ++ fitBytes 48 nonce
    ++ fitBytes 768 (sg.images.map fun i => fitBytes 48 i.hash).flatten ++ fitBytes 48 sg.history

/-- The attestation key: derived from the device secret with the firmware measurement as salt (R312).
(DESIGN CHOICE, log entry 69.) -/
def attestationKey : List Byte := hkdf (fitBytes 48 Config.firmwareHash) Config.deviceSecret [] 48

/-- A signed report, with the certificates. -/
def State.report (s : State) (g : Nat) (nonce : List Byte) : List Byte :=
  let b := s.reportBody g nonce
  b ++ fitBytes 96 (Config.ecdsaSign attestationKey (sha384 b)) ++ Config.certificates

/-- ATTEST (R314). (DEDUCED, log entry 72.) -/
def execAttest (c : CmdHead) (nonce : List Byte) (s : State) : Result :=
  .next (s.command c 0x04 fun s => s.answer c 0x04 0 [] (s.report c.saggar nonce))

/-! ### Key exchange (R302, R313) -/

/-- Whether a request lies within the ranges of R302. -/
def Resources.ok (r : Resources) : Bool :=
  r.pages ≤ 8388608 && r.lines ≤ 4096 && r.lines % 16 = 0 && r.stash ≤ 96 && r.ovBase % 65536 = 0 && r.ovSize % 65536 = 0
    && r.ovSize ≤ 2 ^ 40 && r.ovBase + r.ovSize ≤ 2 ^ 48 && r.spill ≤ 2 && 1 ≤ r.slots && r.slots ≤ 4 && r.planes ≤ 512
    && r.side ≤ 8192 && r.side % 64 = 0 && r.owners ≤ 256 && r.seed < 2 ^ 32 && r.share ≤ declMax && r.share % 65536 = 0

/-- The pages of 64 KiB that the package grants: those of the channels offered, less the 8 MiB held for device state.
(DEDUCED, log entry 77.) -/
def State.pagePool (s : State) : Nat :=
  (if s.service = .bisque then 32 else 256 - s.channelsOff.length) * 32768 - 128

/-- The sum of one resource over all saggars. -/
def State.granted (s : State) (f : Resources → Nat) : Nat :=
  ((s.saggars.filter fun g => g.st ≠ .free).map fun g => f g.res).foldl (· + ·) 0

/-- Whether the shared capacities hold a further request (R302). (DEDUCED, log entry 77.) -/
def State.holds (s : State) (r : Resources) : Bool :=
  s.granted (·.pages) + r.pages ≤ s.pagePool && s.granted (·.lines) + r.lines ≤ 4096 && s.granted (·.stash) + r.stash ≤ 96
    && s.granted (·.planes) + r.planes ≤ 512 && s.granted (·.side) + r.side ≤ 8192 && s.granted (·.owners) + r.owners ≤ 256
    && s.granted (·.slots) + r.slots ≤ 4 && s.granted (·.share) + r.share ≤ declMax

/-- The lowest base at which a run of lines is free on every tile and fits. (DESIGN CHOICE, log entry 89.) -/
def State.lineBaseFor (s : State) (n : Nat) : Option Nat :=
  let taken := (s.saggars.filter fun g => g.st ≠ .free).map fun g => (g.lineBase, g.res.lines)
  ((0 :: taken.map fun e => e.1 + e.2).filter fun b => b + n ≤ 4096 && !(spansMeet [(b, n)] taken)).min?

/-- The signature of a key exchange: over the ephemeral key, the saggar and the generation that it will have.
(DESIGN CHOICE, log entry 75.) -/
def signedBy (a : KeyArgs) (g gen : Nat) : Bool :=
  Config.ecdsaOk a.tenant (sha384 (a.eph ++ leBytes 1 g ++ leBytes 4 gen)) a.sig

/-- The command keys of an exchange: of commands, and of answers (R313). -/
def commandKeys (e : Nat) (eph : List Byte) : List Byte × List Byte :=
  let key (info : String) : List Byte := hkdf (sha384 (eph ++ Config.datumPublic e)) (Config.sharedSecret e eph) (infoBytes info) 32
  (key "oxb host to device", key "oxb device to host")

/-- The exchange is made: the answer carries the datum's public key and a report, and then the keys are those of this exchange
and both counters are zero. -/
def State.exchange (s : State) (c : CmdHead) (a : KeyArgs) : State :=
  let e := s.exchanges
  let pub := Config.datumPublic e
  let s : State := { s with exchanges := e + 1 }
  let s := s.answer c 0x05 0 [] (pub ++ s.report c.saggar (sha384 (a.eph ++ pub)))
  s.modSaggar c.saggar fun sg => { sg with keys := some (commandKeys e a.eph), ctrIn := 0, ctrOut := 0 }

/-- A key exchange that creates its saggar, and draws its memory key (R302, R311, R313). A run of lines for which no base is free
is refused as a capacity. -/
def State.createSaggar (s : State) (c : CmdHead) (a : KeyArgs) : State :=
  let gen := (s.saggar c.saggar).gen + 1
  if !(signedBy a c.saggar gen.toNat) || !(Resources.ok a.res) then s.refuse c 0x05 1
  else if !(s.holds a.res) then s.refuse c 0x05 3
  else match s.lineBaseFor a.res.lines with
  | none => s.refuse c 0x05 3
  | some base =>
    let s := s.setSlotKey c.saggar (Config.memoryKey c.saggar s.exchanges)
    (s.modSaggar c.saggar fun sg =>
      { st := .created, gen := gen, tenant := a.tenant, res := a.res, lineBase := base, ctrIn := sg.ctrIn
        early := s.service = .bisque }).exchange c a

/-- A key exchange of a saggar that exists. -/
def State.rekey (s : State) (c : CmdHead) (a : KeyArgs) : State :=
  let sg := s.saggar c.saggar
  if !(signedBy a c.saggar sg.gen.toNat) || a.tenant ≠ sg.tenant then s.refuse c 0x05 1 else s.exchange c a

/-- KEY_EXCHANGE (R313). (DEDUCED, log entry 72.) -/
def execKeyExchange (c : CmdHead) (a : KeyArgs) (s : State) : Result :=
  .next (s.command c 0x05 fun s => if (s.saggar c.saggar).st = .free then s.createSaggar c a else s.rekey c a)

/-! ### Load image (R25, R275, R302, R304, R305, R307, R314, R375, R390, R391) -/

/-- The size of a page by its code. -/
def pageSize : Nat → Nat
  | 0 => 2 ^ 16
  | 1 => 2 ^ 21
  | _ => 2 ^ 30

def pageAttr : Nat → PageAttr
  | 0 => .rw
  | 1 => .ro
  | _ => .once

/-- Whether a mapping has the form of R307. -/
def mapOk (m : Nat × Nat × Nat) : Bool :=
  m.2.1 ≤ 2 && m.2.2 ≤ 2 && m.1 % pageSize m.2.1 = 0 && m.1 + pageSize m.2.1 ≤ 2 ^ 48

def mapPage (m : Nat × Nat × Nat) : Page := { base := m.1, size := pageSize m.2.1, attr := pageAttr m.2.2 }

/-- Pages are added one by one; none when one of them overlaps a page that is there. -/
def addPages : List Page → List Page → Option (List Page)
  | ps, [] => some ps
  | ps, p :: r => if spansMeet [(p.base, p.size)] (ps.map fun q => (q.base, q.size)) then none else addPages (ps ++ [p]) r

/-- The mappings that a load makes, with the pages of 64 KiB that a range touches and none of them covers (R307). -/
def coverPages (ps : List Page) (r : Nat × Nat) : List Page :=
  (pieces r.1 r.2).foldl (fun ps p =>
    if ps.any fun q => q.base ≤ p.1 && p.1 < q.base + q.size then ps
    else ps ++ [{ base := p.1 - p.1 % 65536, size := 65536, attr := .rw }]) ps

/-- The ranges of an image's data and declarations. -/
def Image.dataRanges (i : Image) : List (Nat × Nat) :=
  ((List.range i.segments).map fun k => let d := i.segment k; (d.1, d.2.length)) ++ (List.range i.decls).map i.decl

/-- Whether a range lies wholly in read-write pages. -/
def inRw (ps : List Page) (a n : Nat) : Bool :=
  (pieces a n).all fun p => (ps.find? fun q => q.base ≤ p.1 && p.1 < q.base + q.size).any fun q => q.attr = .rw

/-- The declarations of an image as a saggar holds them. -/
def Image.declList (i : Image) : List Decl :=
  (List.range i.decls).map fun k => { image := i.hash, num := k, base := (i.decl k).1, len := (i.decl k).2, byImage := true }

/-- Whether no two ranges of a list meet. -/
def apart : List (Nat × Nat) → Bool
  | [] => true
  | r :: rs => !(spansMeet [r] rs) && apart rs

/-- Whether the declarations of an image are admitted, given the pages (R374, R375). -/
def Saggar.admits (g : Saggar) (i : Image) : Bool :=
  let ds := i.declList
  ds.all (fun d => d.base % 16 = 0 && declLen d.len) && apart ((ds ++ g.decls).map fun d => (d.base, d.len))
    && g.charged + (ds.map fun d => charge d.len).foldl (· + ·) 0 ≤ g.res.share

/-- The plane-store planes of the loaded images of a saggar. -/
def Saggar.planesUsed (g : Saggar) : Nat := (g.images.map Image.planes).foldl (· + ·) 0

/-- The count of pages of 64 KiB. -/
def pageCount (ps : List Page) : Nat := (ps.map fun p => p.size / 65536).foldl (· + ·) 0

/-- The pages of a saggar after a load; none when a mapping is wrong, or a mapping or a page of the image's data overlaps a page
that is there. -/
def Saggar.pagesAfter (g : Saggar) (i : Image) (maps : List (Nat × Nat × Nat)) : Option (List Page) :=
  if maps.all mapOk && i.dataRanges.all (fun r => r.1 + r.2 ≤ 2 ^ 48) then
    addPages g.pages (i.dataRanges.foldl coverPages (maps.map mapPage))
  else none

/-- The status with which the last chunk of a load is refused; 0 when the image is loaded. (DEDUCED, log entry 73.) -/
def Saggar.loadStatus (g : Saggar) (i : Image) (maps : List (Nat × Nat × Nat)) (restore : Option Nat) : Nat :=
  let sig := i.bytes.drop (i.bytes.length - 96)
  if !(Config.ecdsaOk Config.imageKey i.hash sig) || !i.wellFormed then 1
  else if g.images.any (·.hash = i.hash) || 16 ≤ g.images.length then 1
  else if g.res.planes < g.planesUsed + i.planes then 3
  else match g.pagesAfter i maps with
  | none => 1
  | some ps =>
    if g.res.pages < pageCount ps then 3
    else if !(inRw ps g.res.ovBase g.res.ovSize) || !(restore.all fun t => inRw ps t 2048) || !(g.admits i) then 1
    else 0

/-- The datum writes bytes of a saggar's memory: every later read sees them. (DEDUCED, log entry 77.) -/
def State.datumWrite (s : State) (g a : Nat) (bs : List Byte) : State :=
  let k := hbmKey g a
  let s := s.setBytes k bs
  { s with
    poison := (wholeWords k bs.length).foldl (fun p w => setDel w p) s.poison
    lags := s.lags.filter fun l => !(k ≤ l.key && l.key < k + bs.length) }

/-- A word of a write-once page becomes full; the loads that wait for it are answered. (DEDUCED, log entry 77.) -/
def State.fillWord (s : State) (g a : Nat) : State :=
  if s.attr? g a = some .once then ({ s with full := setAdd (hbmWord g a) s.full } : State).answerHeld g a else s

/-- The piece of a data segment that lies in one page: a write-once page is written word by word (R105). -/
def WriteRun.dataPiece (g : Nat) (w : Writer) (base : Nat) (bs : List Byte) (t : WriteRun) (p : Nat × Nat) : WriteRun :=
  let at_ (a n : Nat) : List Byte := (bs.drop (a - base)).take n
  if t.s.attr? g p.1 = some .once then ((List.range ((p.2 + 7) / 8)).map (p.1 + 8 * ·)).foldl (WriteRun.word g w fun a => at_ a 8) t
  else { t with s := t.s.write w (hbmKey g p.1) (at_ p.1 p.2), done := t.done ++ [p] }

/-- A fault of a port's write: the record names the port, and no region freezes (R108, R361). (DESIGN CHOICE, log entry 89.) -/
def State.portFault (s : State) (g p : Nat) (f : Raise) : State :=
  s.takeFault g { saggar := g } { f with source := if f.cls = 0x2A then 4 else 2, party := .port p } []

/-- A data segment is written by a port: it counts at the barriers (R112), and every later read sees it. -/
def State.writeSegment (s : State) (g p : Nat) (d : Nat × List Byte) : State :=
  let w : Writer := { path := .h, acc := 0, party := .port p }
  match s.misalignedOnce .engine g d.1 d.2.length with
  | some f => s.portFault g p f
  | none =>
    let t := (pieces d.1 d.2.length).foldl (WriteRun.dataPiece g w d.1 d.2) { s := s }
    let s := (t.s.countWrite g w t.done).showAll (·.acc = 0)
    match t.full with
    | some a => s.portFault g p { cls := 0x2A, addr := a }
    | none => s

/-! ### The restore option (R381, R382) -/

/-- Whether the header of a record, as the store holds it, names a tenant, an image and a declaration number (R378).
(DEDUCED, log entry 67.) -/
def SaveStore.heads (st : SaveStore) (off : Nat) (tenant image : List Byte) (m : Nat) : Bool :=
  st.read (off + 0x20) 48 = fitBytes 48 tenant && st.read (off + 0x50) 48 = fitBytes 48 image
    && bits (ofLeBytes (st.read (off + 0x18) 8)) 32 8 = m

/-- The unclaimed record that a restore takes for a declaration number: its place and itself. -/
def State.recordFor (s : State) (tenant image : List Byte) (m : Nat) : Option (Nat × SaveRec) :=
  ((List.range s.store.recs.length).zip s.store.recs).find? fun (_, r) => !r.claimed && s.store.heads r.off tenant image m

/-- A word of a whole record is written back: full or empty, and with the poison code. -/
def State.backWord (r : SaveRec) (g : Nat) (s : State) (i : Nat) : State :=
  let a := r.base + 8 * i
  let s : State := if s.attr? g a = some .once && !(r.full.contains i) then { s with full := setDel (hbmWord g a) s.full } else s
  let s : State := if r.bad.contains i then { s with poison := setAdd (hbmWord g a) s.poison } else s
  if r.full.contains i then s.fillWord g a else s

/-- The datum writes bytes by a port, and the barriers count them (R112). (DEDUCED, log entry 77.) -/
def State.portWrite (s : State) (g p a : Nat) (bs : List Byte) : State :=
  (s.datumWrite g a bs).countWrite g { path := .h, acc := 0, party := .port p } [(a, bs.length)]

/-- A whole record is written back; of a torn one nothing. The spec does not say what a range does that the new saggar does not
map read-write: its bytes are written at the address (DESIGN CHOICE, log entry 98). (DEDUCED, log entry 77.) -/
def State.writeBack (s : State) (g p : Nat) (r : SaveRec) : State :=
  if r.whole then (List.range (r.bytes.length / 8)).foldl (State.backWord r g) (s.portWrite g p r.base r.bytes) else s

/-- A record is claimed. -/
def SaveStore.claim (st : SaveStore) (k : Nat) : SaveStore :=
  { st with recs := ((List.range st.recs.length).zip st.recs).map fun (i, r) => if i = k then { r with claimed := true } else r }

/-- The entry of a restart table. -/
def State.restartEntry (s : State) (tenant image : List Byte) (m : Nat) (r : Option SaveRec) : Word :=
  let gen := s.store.gen % 2 ^ 32
  match r with
  | some r => BitVec.ofNat 64 (gen <<< 32 ||| b2n (r.whole && !r.bad.isEmpty) <<< 2 ||| (if r.whole then 2 else 1))
  | none =>
    let listed := match s.store.device with
      | some d => !d.whole || d.decls.any fun e => e.2.1 = tenant && e.2.2.1 = image && e.2.2.2.1 = m
      | none => true
    if s.store.gen = 0 || !listed then 3 else 0

/-- Every record is written back before the table is. (DEDUCED, log entry 77.) -/
def State.restoreImage (s : State) (g p table : Nat) (image : List Byte) : State :=
  let tenant := s.tenantHash g
  let rs := (List.range 256).map fun m => (m, s.recordFor tenant image m)
  let s := rs.foldl (fun s e => match e.2 with
    | some (k, r) => { s.writeBack g p r with store := s.store.claim k }
    | none => s) s
  rs.foldl (fun s e => s.portWrite g p (table + 8 * e.1) (leBytes 8 (s.restartEntry tenant image e.1 (e.2.map (·.2))).toNat)) s

/-- An image is loaded by a port (R275, R305, R314). -/
def State.takeImage (s : State) (g p : Nat) (i : Image) (ps : List Page) (restore : Option Nat) : State :=
  let s := s.modSaggar g fun sg => { sg with
    pages := ps, st := .loaded, images := sg.images ++ [i], decls := sg.decls ++ i.declList
    history := sha384 (sg.history ++ i.hash) }
  let s := ((List.range i.segments).map i.segment).foldl (fun s d => s.writeSegment g p d) s
  match restore with
  | some t => s.restoreImage g p t i.hash
  | none => s

/-- The tiles into whose plane-store layers a load writes: those offered (R302, R363). -/
def State.planeTiles (s : State) : List Nat :=
  (List.range 64).filter fun t => !(s.tilesOff.contains t) && !(s.storeOff.contains t)

/-- A load uses the plane-store layer of every offered tile; whether all are on. One that is off begins to wake (R7, R89, R96).
(DEDUCED, log entry 73.) -/
def State.usePlanes (s : State) : State × Bool :=
  (s.planeTiles.foldl (fun s t => s.modTile t fun tl => { tl with planeStore := tl.planeStore.use }) s,
    s.planeTiles.all fun t => !(s.tile t).planeStore.off)

/-- The last chunk of a load has come: the image is refused, waits for a plane-store layer to wake, or is loaded (R89, R96, R390).
(DEDUCED, log entry 73.) -/
def State.endLoad (s : State) (c : CmdHead) (b : LoadBuf) : State :=
  let i : Image := { hash := sha384 (b.got.take (b.got.length - 96)), bytes := b.got }
  let sg := s.saggar c.saggar
  let st := sg.loadStatus i b.maps b.restore
  let ready := if i.planes = 0 then (s, true) else s.usePlanes
  if st ≠ 0 then s.refuse c 0x01 st
  else if !ready.2 then ready.1.modSaggar c.saggar fun g => { g with load := some { b with ending := some c } }
  else (ready.1.takeImage c.saggar c.port i ((sg.pagesAfter i b.maps).getD sg.pages) b.restore).answer c 0x01 0 [] i.hash

/-- The loads that wait for plane-store layers are tried again. -/
def State.retryLoads (s : State) : State :=
  s.endingLoads.foldl (fun s e => (s.modSaggar e.1.saggar fun g => { g with load := none }).endLoad e.1 e.2) s

/-- LAYER_WAKE_DONE (R96): what waits for the layer goes on. -/
def execLayerWakeDone (t : Nat) (l : Layer) (s : State) : Result :=
  let p := (s.tile t).layer l
  .next (if p.waking then (s.modTile t fun tl => tl.setLayer l {}).retryLoads else s)

/-- A chunk of a load-image command: none is taken while 16 images are loaded (R314). (DEDUCED, log entry 73.) -/
def State.takeChunkOf (s : State) (c : CmdHead) (a : LoadArgs) : State :=
  let b := (s.saggar c.saggar).load.getD { total := a.total, got := [], restore := none, maps := [] }
  let got := b.got ++ a.chunk
  let ok := (s.saggar c.saggar).images.length < 16 && a.offset = b.got.length && a.total = b.total && got.length ≤ b.total && (!a.last || got.length = b.total)
  let b : LoadBuf := { b with got := got, restore := a.restore.or b.restore, maps := b.maps ++ a.maps }
  let s := s.modSaggar c.saggar fun sg => { sg with load := none }
  if !ok then s.refuse c 0x01 1
  else if a.last then s.endLoad c b
  else (s.modSaggar c.saggar fun sg => { sg with load := some b }).answer c 0x01 0 [] []

/-- LOAD_IMAGE (R390). -/
def execLoadImage (c : CmdHead) (a : LoadArgs) (s : State) : Result :=
  .next (s.command c 0x01 fun s => s.takeChunkOf c a)

/-! ### Launch (R24, R264, R338, R360, R390) -/

/-- Whether the fields of a launch command are in range, and its queue has a place. -/
def State.launchFits (s : State) (a : LaunchArgs) (plat : List Nat) : Bool :=
  a.queue < 32 && a.prio < 4 && !(s.queueFull a.queue) && (a.floating || (platAt a.origin plat).isSome)

/-- The answer to a launch command that is done. -/
def State.launched (s : State) (c : CmdHead) (no : Nat) : State := s.answer c 0x02 0 [BitVec.ofNat 64 no] []

/-- LAUNCH_NEW (R264, R390). (DEDUCED, log entry 81.) -/
def execLaunchNew (c : CmdHead) (a : LaunchArgs) (s : State) : Result :=
  .next (s.command c 0x02 fun s =>
    match s.image? c.saggar a.image with
    | none => s.refuse c 0x02 1
    | some i =>
      if a.region < i.regions && s.launchFits a (i.plat a.region) then
        (s.enterLaunch c.saggar a.image a.region a.queue a.prio (if a.floating then 0 else a.origin) a.floating .host).launched c
          (s.nextLaunch % 2 ^ 16)
      else s.refuse c 0x02 1)

/-- LAUNCH_RESUME (R338, R344): of a held region that no resume launch names. -/
def execLaunchResume (c : CmdHead) (a : LaunchArgs) (s : State) : Result :=
  .next (s.command c 0x02 fun s =>
    match s.heldRegion c.saggar a.handle with
    | none => s.refuse c 0x02 1
    | some (v, l) =>
      if !v.queued && s.launchFits a (s.platOf l) then
        (s.enterResume v a.queue a.prio a.origin a.floating none).launched c l.no
      else s.refuse c 0x02 1)

/-- The launches of a saggar that a launch number names and that meet a test. (DEDUCED, log entry 58.) -/
def State.named (s : State) (g no : Nat) (f : Launch → Bool) : List Launch :=
  s.launches.filter fun l => l.saggar = g && l.no = no && f l

/-- Whether a launch can be discarded: its region is frozen, or held saved. (DEDUCED, log entry 74.) -/
def State.discardable (s : State) (l : Launch) : Bool := l.freeze || (s.savedOf l).isSome

/-- LAUNCH_DISCARD (R329, R338, R360). (DEDUCED, log entry 74.) -/
def execLaunchDiscard (c : CmdHead) (a : LaunchArgs) (s : State) : Result :=
  .next (s.command c 0x02 fun s =>
    let ls := s.named c.saggar a.handle s.discardable
    if ls.isEmpty then s.refuse c 0x02 1
    else (ls.foldl (fun s l => s.killLaunch l.num) s).launched c a.handle)

/-- A TRAP that raised a software trap commits with its guard-word effects only (R360). -/
def State.commitTrap (x : Site) (s : State) (k : Nat) : State :=
  match (s.bank x).awake k with
  | none => s
  | some i =>
    let c : Ctx := { x := x, k := k, id := s.nextId, h := Instr.hdr i }
    ({ s with nextId := s.nextId + 1 } : State).commit c i {}

def State.commitTraps (s : State) (x : Site) : State :=
  let ks := (s.bank x).trapped
  ks.foldl (State.commitTrap x) (s.modBank x fun b => { b with trapped := [] })

/-- A frozen launch goes on (R360). -/
def State.goOn (s : State) (j : Nat) : State :=
  (s.banksOf j).foldl State.commitTraps ((s.continueLaunch j).giveAnswers j fun _ => true)

/-- LAUNCH_CONTINUE (R360). -/
def execLaunchContinue (c : CmdHead) (a : LaunchArgs) (s : State) : Result :=
  .next (s.command c 0x02 fun s =>
    let ls := s.named c.saggar a.handle (·.freeze)
    if ls.isEmpty || ls.any (fun l => !(l.causes.all resumable)) then s.refuse c 0x02 1
    else (ls.foldl (fun s l => s.goOn l.num) s).launched c a.handle)

/-! ### Status (R111, R259, R318, R338, R347, R361, R379, R389, R397) -/

/-- A slot in a status answer: its place and launch number, its counters, and its corrected checks.
(DESIGN CHOICE, log entry 75.) -/
def State.slotWords (s : State) (g t k : Nat) : List Word :=
  let sl := s.slot t k
  match s.launch? sl.launch with
  | some l =>
    if sl.phase ≠ .free && l.saggar = g then
      BitVec.ofNat 64 (t ||| k <<< 6 ||| l.no <<< 16) :: sl.counters ++ [BitVec.ofNat 64 sl.corrected]
    else []
  | none => []

/-- What the device-state record tells a tenant after a restart, but for its log. (DESIGN CHOICE, log entry 75.) -/
def State.restartWords (s : State) (g : Nat) : List Word :=
  let tenant := s.tenantHash g
  match s.store.device with
  | some d =>
    if !d.whole then []
    else
      let mine := (d.tenants.filter fun e => e.2 = tenant).map (·.1)
      [BitVec.ofNat 64 d.gen, BitVec.ofNat 64 d.boots, BitVec.ofNat 64 (b2n d.supply), BitVec.ofNat 64 d.endpoint]
        ++ (d.overflow.filter fun e => mine.contains e.1).map (fun e => e.2.setWidth 64)
        ++ (d.drops.filter fun e => mine.contains e.1).map (fun e => BitVec.ofNat 64 e.2)
        ++ (d.decls.filter fun e => e.2.1 = tenant).map fun e => BitVec.ofNat 64 (e.1 ||| e.2.2.2.1 <<< 4 ||| e.2.2.2.2 <<< 12)
  | none => []

/-- The maps of the start before, and the hashes of the tenant's declarations (R379). (DESIGN CHOICE, log entry 75.) -/
def State.restartBytes (s : State) (g : Nat) : List Byte :=
  let tenant := s.tenantHash g
  match s.store.device with
  | some d =>
    if !d.whole then []
    else
      let off := d.disabled
      d.platMap ++ bitMap 8 off.tilesOff ++ bitMap 8 off.storeOff ++ bitMap 8 off.stashOff ++ bitMap 32 off.channelsOff
        ++ bitMap 8 off.portsOff ++ (d.decls.filter fun e => e.2.1 = tenant).flatMap fun e => e.2.1 ++ e.2.2.1
  | none => []

/-- STATUS_SAGGAR (R389). (DESIGN CHOICE, log entry 75.) -/
def execStatusSaggar (c : CmdHead) (s : State) : Result :=
  .next (s.command c 0x03 fun s =>
    let sg := s.saggar c.saggar
    let slots := (List.range 64).flatMap fun t => (List.range 4).flatMap fun k => s.slotWords c.saggar t k
    s.answer c 0x03 0 (slots ++ [sg.overflow.setWidth 64, BitVec.ofNat 64 sg.drops, BitVec.ofNat 64 sg.recFaults, sg.backoff.setWidth 64]
      ++ s.restartWords c.saggar) (s.restartBytes c.saggar))

/-- The records of a log from a sequence number, which wraps. -/
def logFrom (first : Nat) (l : List LogRec) : List Word :=
  (l.filter fun r => (r.seq + 2 ^ 32 - first % 2 ^ 32) % 2 ^ 32 < 2 ^ 31).flatMap fun r => BitVec.ofNat 64 r.seq :: r.words

/-- The log that the device-state record holds of a tenant. (DEDUCED, log entry 67.) -/
def State.oldLog (s : State) (g : Nat) : List LogRec :=
  match s.store.device with
  | some d =>
    let mine := (d.tenants.filter fun e => e.2 = s.tenantHash g).map (·.1)
    if d.whole then (d.logs.filter fun e => mine.contains e.1).flatMap (·.2) else []
  | none => []

/-- STATUS_LOG (R361, R389): the records from a sequence number; those from before a restart come after them. -/
def execStatusLog (c : CmdHead) (first : Nat) (s : State) : Result :=
  .next (s.command c 0x03 fun s =>
    s.answer c 0x03 0 (logFrom first (s.saggar c.saggar).log ++ (s.oldLog c.saggar).flatMap fun r => BitVec.ofNat 64 r.seq :: r.words) [])

/-- The offsets of the management registers. -/
def mgmtOffsets : List Nat :=
  [0x000, 0x008, 0x010, 0x018, 0x020, 0x028] ++ (List.range 8).map (0x040 + 8 * ·) ++ (List.range 256).map (0x100 + 8 * ·)
    ++ (List.range 16).map (0x900 + 8 * ·)

/-- STATUS_MGMT (R397). -/
def execStatusMgmt (c : CmdHead) (s : State) : Result :=
  .next (s.command c 0x03 fun s => s.answer c 0x03 0 (mgmtOffsets.map s.mgmtReg) [])

/-! ### Readout (R318, R389, R390) -/

/-- The bytes of a readout: those of a poisoned word are zero. -/
def readoutBytes (bs : List Byte) (bad : List Nat) : List Byte :=
  ((List.range bs.length).zip bs).map fun (i, b) => if bad.contains (i / 8) then 0 else b

/-- A readout is performed: kind LD on path H. -/
def State.performReadout (s : State) (r : Readout) : State :=
  let g := r.cmd.saggar
  let k := hbmKey g r.a
  let t := (s.countFixed r.n g r.a r.len).read .h none r.n k r.len
  let bad := ((t.1.taintedAt .h none r.n k r.len).map (· / 8)).eraseDups
  t.1.answer r.cmd 0x07 0 [] (readoutBytes t.2 bad ++ bitMap ((r.len / 8 + 7) / 8) bad)

/-- The addresses of a range whose banks are under a neighbour refresh. -/
def State.readoutWaits (s : State) (g a len : Nat) : List Nat :=
  (addressesOf [(a, len)]).filter fun b => s.refreshing.contains (s.bankOf g b)

/-- Whether a readout must wait: a bank of its range is under a neighbour refresh, or has a request to serve that was delayed
before it (R318). (DEDUCED, log entry 78.) -/
def State.readoutHeld (s : State) (r : Readout) : Bool :=
  !(s.readoutWaits r.cmd.saggar r.a r.len).isEmpty || (addressesOf [(r.a, r.len)]).any fun b =>
    r.before.any fun q => s.delayed.contains (s.bankOf r.cmd.saggar b, q) && s.stillDelayed q

/-- A readout waits: one that meets a bank under a neighbour refresh is counted once, at the channel and for its saggar (R318).
(DEDUCED, log entry 78.) -/
def State.delayReadout (s : State) (r : Readout) : State :=
  let g := r.cmd.saggar
  match s.readoutWaits g r.a r.len with
  | [] => { s with readouts := s.readouts ++ [r] }
  | b :: _ =>
    let ch := s.channelOf g b
    let s := s.modSaggar g fun sg => { sg with backoff := sg.backoff + 1 }
    { s with backoff := setAt 0 s.backoff ch (s.backoff.getD ch 0 + 1), readouts := s.readouts ++ [r] }

/-- READOUT (R390): a readout that meets a bank under a neighbour refresh is served after it. -/
def execReadout (c : CmdHead) (a len : Nat) (n : ReadNature) (s : State) : Result :=
  .next (s.command c 0x07 fun s =>
    let r : Readout := { cmd := c, a := a, len := len, n := n, before := s.delayed.map (·.2) }
    if a % 8 ≠ 0 || len % 8 ≠ 0 || len < 8 || 65536 < len || (s.unmapped c.saggar a len).isSome then s.refuse c 0x07 1
    else if s.readoutHeld r then s.delayReadout r
    else s.performReadout r)

/-- The readouts that nothing delays any more are performed, in order of arrival. -/
def State.serveReadouts (s : State) : State :=
  s.readouts.foldl (fun s r =>
    if s.readoutHeld r then s else ({ s with readouts := s.readouts.erase r } : State).performReadout r) s

/-- NEIGHBOUR_REFRESH_DONE (R318): the bank accepts requests again; and a bank that does serves what waits. (DEDUCED, log entry
78.) -/
def execNeighbourRefreshDone (d b : Nat) (s : State) : Result :=
  .next ({ s with refreshing := s.refreshing.filter (· ≠ (d, b)) } : State).serveReadouts

/-! ### Kill and scrub (R305, R306) -/

/-- The objects of a saggar that a kill takes at once. -/
def State.clearObjects (s : State) (g : Nat) : State :=
  let s := s.abandonReqs fun r => r.saggar = g
  let tiles := s.tiles.map fun t => { t with tlb := t.tlb.filter (·.saggar ≠ g) }
  let s : State := { s.modSaggar g (fun sg => { sg with
      load := none, decls := [], barriers := List.replicate 16 {}, buffers := [], saved := [], reserved := [] }) with
    tiles := tiles
    cohorts := s.cohorts.filter (·.saggar ≠ g)
    owners := s.owners.filter (·.saggar ≠ g)
    engineTlb := s.engineTlb.map fun e => (e.1, e.2.filter (·.saggar ≠ g))
    walks := s.walks.filter fun w => w.2.1 ≠ g
    walkWait := s.walkWait.filter fun w => w.2.1 ≠ g
    lags := s.lags.filter fun l => l.key / 2 ^ 48 ≠ g
    readouts := s.readouts.filter fun e => e.cmd.saggar ≠ g }
  s.refillWalks.serveReadouts

/-- The launches of a saggar end one after another. -/
def State.killAll (s : State) (g : Nat) : State :=
  ((s.launches.filter (·.saggar = g)).map (·.num)).foldl (fun s j => s.killLaunch j) s

/-- KILL (R306): its regions end, its objects go and its key slots are erased; its answer comes when the scrub is complete.
(DEDUCED, log entry 76.) -/
def execKill (c : CmdHead) (s : State) : Result :=
  .next (s.command c 0x06 fun s =>
    (((s.modSaggar c.saggar fun sg => { sg with st := .killing }).killAll c.saggar).clearObjects c.saggar).eraseSlotKey c.saggar)

/-- Whether a key lies in the memory of a saggar: its address space, or its partition of a tile's store. -/
def State.ownKey (s : State) (g k : Nat) : Bool :=
  let sg := s.saggar g
  if k < 2 ^ 60 then k / 2 ^ 48 = g
  else
    let off := (k - 2 ^ 60) % 2 ^ 23
    sg.lineBase * 2048 ≤ off && off < (sg.lineBase + sg.res.lines) * 2048

/-- Every resource of a saggar holds what R305 gives it. -/
def State.scrub (s : State) (g : Nat) : State :=
  let sg := s.saggar g
  { s with
    mem := s.mem.filter fun c => !(s.ownKey g c.1)
    full := s.full.filter fun w => !(s.ownKey g (8 * w))
    poison := s.poison.filter fun w => !(s.ownKey g (8 * w))
    granules := s.granules.filter fun w => !(s.ownKey g (16 * w))
    tags := s.tags.filter fun v => !(sg.lineBase ≤ v.1.2 && v.1.2 < sg.lineBase + sg.res.lines)
    side := s.side.filter fun v => v.1.2.1 ≠ g
    sideBad := s.sideBad.filter fun v => v.2.1 ≠ g
    stashed := s.stashed.filter (·.saggar ≠ g)
    lags := s.lags.filter fun l => !(s.ownKey g l.key) }

/-- KILL_SCRUB_COMPLETE (R305): the saggar is free and the kill is answered. (DEDUCED, log entry 76.) -/
def execKillScrubComplete (g : Nat) (s : State) : Result :=
  .next (if (s.saggar g).st = .killing && s.holdUp = .none then
    ((s.scrub g).tell g 0x86 0 [] []).modSaggar g fun sg => { gen := sg.gen }
  else s)

/-! ### Unload (R275, R390) -/

/-- UNLOAD_IMAGE (R275, R375, R390). -/
def execUnloadImage (c : CmdHead) (hash : List Byte) (s : State) : Result :=
  .next (s.command c 0x08 fun s =>
    let used := s.launches.any fun l => l.saggar = c.saggar && l.image = hash
    if used || (s.image? c.saggar hash).isNone then s.refuse c 0x08 1
    else (s.modSaggar c.saggar fun sg => { sg with
      images := sg.images.filter (·.hash ≠ hash), decls := sg.decls.filter (·.image ≠ hash) }).answer c 0x08 0 [] [])

end Sys2Proof.Machine
end

