-- ==== Sys2Proof/Machine/SparseUnit.lean ====
section
/-! DEFINITION. The sparse units: ISECT, UNION, SACCI and SACCF (R239 to R251). -/

namespace Sys2Proof.Machine

/-! ### Fiber tokens and stops (R239 to R241) -/

/-- What a token that a sparse unit is to take says. -/
inductive Item
  | elem (coord : Nat) (v : FVal) (isLast : Bool)
  | empty
  | stop (level : Nat)
deriving DecidableEq, Repr

/-- The payload of a fiber token (R239). -/
def fiberWord (tag coord v : Nat) : Word := BitVec.ofNat 64 (tag <<< 62 ||| coord <<< 32 ||| v)

/-- The empty-fiber token. (DEDUCED, log entry 27.) -/
def emptyFiber : BitVec 3 × Word := (clsData, fiberWord 2 0 0)

/-- Whether a channel entry is one that a sparse unit reads (R241). -/
def sparseEntryOk (ints : Bool) (e : BitVec 16) : Bool :=
  let f := fmtOf e
  fmtSsrc e = 0 && (if ints then f = .int8 || f = .int32
    else f = .fp32 || f = .bf16 || f = .fp16 || f = .e4m3 || f = .e5m2 || f = .int8)

/-- The item that a token is, or none where its form is bad (R239, R240, R245). (DEDUCED, log entry 27.) -/
def Bank.itemOf (b : Bank) (n : Nat) (ints : Bool) (t : Token) : Option Item :=
  let e := (b.chan n).fmt
  let p := t.payload.toNat
  let w := fmtBits (fmtOf e)
  if !(sparseEntryOk ints e) then none
  else if t.cls = clsStop then (if 16 ≤ p ∨ p = 0 then none else some (.stop p))
  else if bits p 48 14 ≠ 0 ∨ bits p 62 2 = 3 ∨ (bits p 0 32) >>> w ≠ 0 then none
  else if bits p 62 2 = 2 then some .empty
  else some (.elem (bits p 32 16) (b.elemRaw e (bits p 0 w)) (bits p 62 2 = 1))

/-- What an input finds at the head of its channel (R191, R242, R245, R351). -/
inductive Look
  | wait
  | bad (r : Raise)
  | item (i : Item) (t : Token)
deriving DecidableEq, Repr

/-- Whether an item breaks the order of its fiber (R240, R245). -/
def SIn.disorder (i : SIn) : Item → Bool
  | .elem c _ _ => match i.last with
    | some l => i.begun && c ≤ l
    | none => false
  | _ => i.begun && !i.closed

/-- The next item of an input. -/
def Bank.look (b : Bank) (ints : Bool) (i : SIn) : Look :=
  match (b.chan i.ch).toks with
  | [] => .wait
  | t :: _ =>
    if t.cls = clsMarker then .wait
    else if t.cls ≠ clsData ∧ t.cls ≠ clsLast ∧ t.cls ≠ clsStop then .bad (headRaise 0x4D i.ch t)
    else if t.etag then .bad (unitPoison i.ch t)
    else match b.itemOf i.ch ints t with
    | none => .bad (headRaise 0x54 i.ch t)
    | some it => if i.disorder it then .bad (headRaise 0x55 i.ch t) else .item it t

/-- An input after it has consumed an item of a fiber. -/
def SIn.use (i : SIn) (keep : Bool) : Item → SIn
  | .elem c v l => { i with begun := true, closed := l, last := some c, count := i.count + 1
                            el := if keep then i.el ++ [(c, v)] else i.el }
  | .empty => { i with begun := true, closed := true }
  | .stop _ => i

/-- An input before its next item. -/
def SIn.fresh (i : SIn) : SIn := { ch := i.ch }

/-! ### Forming output (R244) -/

/-- The output format (R247). -/
def ofmtF : OFmt → FFmt
  | .f32 => Machine.fp32 | .bf16 => Machine.bf16 | .f16 => Machine.fp16

/-- An output element is formed: the one held back is to be sent. -/
def Sparse.form (w : Sparse) (c v : Nat) : Sparse :=
  { w with held := some (c, v), outq := w.outq ++ (w.held.map fun (c, v) => (clsData, fiberWord 0 c v)).toList }

/-- The output fiber is closed: its last element goes with its tag, or the empty-fiber token. -/
def Sparse.close (w : Sparse) : Sparse :=
  { w with held := none, outq := w.outq ++ [match w.held with
    | some (c, v) => (clsData, fiberWord 1 c v)
    | none => emptyFiber] }

/-- A stop is formed; at the end level the unit takes nothing more. -/
def Sparse.stopAt (w : Sparse) (l : Nat) : Sparse :=
  { w with outq := w.outq ++ [(clsStop, BitVec.ofNat 64 l)], final := w.lvl ≤ l }

/-- A rounded output element, with the flags of its exact result. -/
def Sparse.round (w : Sparse) (r : FRes) (env : REnv) : Nat × REnv := roundRes (ofmtF w.ofmt) w.rm false r env

/-- FMAX and FMIN on values (R206). -/
def pickV (greater : Bool) (a b : FVal) : FVal :=
  if a.isNan && b.isNan then .nan a.neg?
  else if a.isNan then b
  else if b.isNan then a
  else if greater then (if fless a b then b else a) else (if fless b a then b else a)

/-- The negation of a value; a NaN keeps its sign (R161). -/
def negV (x : FVal) : FVal := if x.isNan then x else x.negate

/-- The result at a coordinate of both inputs (R247, R248). -/
def bothV (op : SparseOp) (rm : Rm) (a b : FVal) : FRes :=
  match op with
  | .union .add => faddV rm a b
  | .union .sub => fsubV rm a b
  | .union .max => { val := pickV true a b }
  | .union .min => { val := pickV false a b }
  | _ => fmulV a b

/-- The result at a coordinate of one input; none where that gives no output (R247). -/
def oneV (op : SparseOp) (ofB : Bool) (v : FVal) : Option FRes :=
  match op with
  | .union .sub => some { val := if ofB then negV v else v }
  | .union _ => some { val := v }
  | _ => none

/-! ### The work of a unit in one step -/

/-- What one step of a unit does: the channels whose heads it removes, the unit after it, the bank's flags and LFSR, the
accumulator tile after it, and whether it forms a result, which both firings compute (R244). -/
inductive Doing
  | idle
  | fault (r : Raise)
  | does (pops : List Nat) (w : Sparse) (env : REnv) (tile : Option (Nat × AccTile)) (forms : Bool)
deriving DecidableEq, Repr

/-- A merge of two fibers, or of two stops (R243, R248). A marker due on either channel lets neither be taken from (R191,
R242). -/
def Bank.merge (b : Bank) (w : Sparse) (i j : SIn) : Doing :=
  let env := b.env
  let put (w : Sparse) (r : Option FRes) (c : Nat) : Sparse × REnv × Bool := match r with
    | some r => let q := w.round r env; (w.form c q.1, q.2, true)
    | none => (w, env, false)
  let look (x : SIn) : Look := if x.closed then .wait else b.look false x
  let mismatch (n : Nat) (t : Token) : Doing := .fault (headRaise 0x57 n t)
  let fromA (it : Item) : Doing := match it with
    | .elem c v _ =>
      let (w, e, f) := put w (oneV w.op false v) c
      .does [i.ch] { w with a := i.use false it } e none f
    | _ => .does [i.ch] { w with a := i.use false it } env none false
  let fromB (it : Item) : Doing := match it with
    | .elem c v _ =>
      let (w, e, f) := put w (oneV w.op true v) c
      .does [j.ch] { w with b := some (j.use false it) } e none f
    | _ => .does [j.ch] { w with b := some (j.use false it) } env none false
  if i.closed && j.closed then
    .does [] { w.close with a := i.fresh, b := some j.fresh } env none false
  else if b.dueOn i.ch = .marker || b.dueOn j.ch = .marker then .idle
  else match look i, look j with
  | .bad r, _ => .fault r
  | _, .bad r => .fault r
  | .wait, .wait => .idle
  | .wait, .item it t =>
    match it with
    | .stop _ => if i.begun then mismatch j.ch t else .idle
    | _ => if i.closed then fromB it else .idle
  | .item it t, .wait =>
    match it with
    | .stop _ => if j.begun then mismatch i.ch t else .idle
    | _ => if j.closed then fromA it else .idle
  | .item x t, .item y t' =>
    match x, y with
    | .stop l, .stop l' =>
      if l = l' then .does [i.ch, j.ch] { w.stopAt l with a := i.fresh, b := some j.fresh } env none false
      else mismatch i.ch t
    | .stop _, _ => mismatch i.ch t
    | _, .stop _ => mismatch j.ch t'
    | .empty, _ => fromA x
    | _, .empty => fromB y
    | .elem c v _, .elem c' v' _ =>
      if c = c' then
        let (w, e, f) := put w (some (bothV w.op w.rm v v')) c
        .does [i.ch, j.ch] { w with a := i.use false x, b := some (j.use false y) } e none f
      else if c < c' then fromA x else fromB y

/-- The sum of a dot in column j over a fiber (R249); none where no element of it meets an occupied place. -/
def dotColumn (t : AccTile) (j : Nat) (el : List (Nat × FVal)) (env : REnv) : Option Nat × REnv :=
  el.foldl (fun (a : Option Nat × REnv) (k, v) =>
    if t.occ.getLsbD (16 * k + j) then
      let r := fmulV v (Machine.fp32.decode (t.el.getD (16 * k + j) 0).toNat)
      let p := r32 r.val (a.2.raise r.flags)
      match a.1 with
      | none => (some p.1, p.2)
      | some s => let q := add32 s p.1 p.2; (some q.1, q.2)
    else a) (none, env)

/-- The output elements of a dot fiber (R249). A flat coordinate above 65,535 is a fault (R245). -/
def Sparse.dotFiber (w : Sparse) (flat : Bool) (t : AccTile) (el : List (Nat × FVal)) (env : REnv) :
    Option (Sparse × REnv × Bool) :=
  (List.range 16).foldl (fun (a : Option (Sparse × REnv × Bool)) j =>
    match a with
    | none => none
    | some (w, env, f) =>
      match dotColumn t j el env with
      | (none, env) => some (w, env, f)
      | (some s, env) =>
        let c := if flat then 16 * w.fiber + j else j
        if 0xFFFF < c then none
        else
          let r := w.round { val := Machine.fp32.decode s } env
          some (w.form c r.1, r.2, true)) (some (w, env, false))

/-- A step of ISECT dot (R249): the element or empty fiber that closes a fiber forms its output, and a fault that this finds
leaves it in its channel (R245). -/
def Bank.dot (b : Bank) (w : Sparse) (acc : Nat) (flat : Bool) : Doing :=
  let i := w.a
  let take (it : Item) (t : Token) : Doing :=
    let i' := i.use true it
    if !i'.closed then .does [i.ch] { w with a := i' } b.env none false
    else match w.dotFiber flat (b.acc.getD acc {}) i'.el b.env with
    | none => .fault (headRaise 0x55 i.ch t)
    | some (w, env, f) =>
      let w := if flat then w else w.close
      .does [i.ch] { w with a := i.fresh, fiber := w.fiber + 1 } env none f
  match b.look false i with
  | .wait => .idle
  | .bad r => .fault r
  | .item (.stop l) _ =>
    let w := if flat && 0 < w.fiber then w.close else w
    .does [i.ch] { w.stopAt l with a := i.fresh, fiber := 0 } b.env none false
  | .item (.elem c v l) t =>
    if 15 < c then .fault (headRaise 0x56 i.ch t) else take (.elem c v l) t
  | .item .empty t => take .empty t

/-- One element scattered into a tile (R250). -/
def scatterOne (ty : KTy) (t : AccTile) (p : Nat) (v : FVal) (env : REnv) : AccTile × REnv :=
  let old := t.el.getD p 0
  let r : Nat × REnv := match ty with
    | .f32 =>
      let s := faddV .rne (Machine.fp32.decode old.toNat) v
      r32 s.val (env.raise s.flags)
    | .i32 =>
      let x := old.toInt + v.toInt
      (wrap 32 x, env.raiseIf (x < -(2 ^ 31) || 2 ^ 31 - 1 < x) flagIntOverflow)
  ({ t with el := setAt 0 t.el p (BitVec.ofNat 32 r.1), occ := t.occ ||| (1#256 <<< p) }, r.2)

/-- A step of SACCI (R250). -/
def Bank.scatter (b : Bank) (w : Sparse) (acc : Nat) (ty : KTy) (row : Nat) : Doing :=
  let i := w.a
  match b.look (ty = .i32) i with
  | .wait => .idle
  | .bad r => .fault r
  | .item (.stop l) _ => .does [i.ch] { w with a := i.fresh, final := w.lvl ≤ l } b.env none false
  | .item .empty _ => .does [i.ch] { w with a := i.fresh, fiber := w.fiber + 1 } b.env none false
  | .item (.elem c v l) t =>
    if 15 < c || 15 < row + w.fiber then .fault (headRaise 0x56 i.ch t)
    else
      let r := scatterOne ty (b.acc.getD acc {}) (16 * (row + w.fiber) + c) v b.env
      let w := if l then { w with a := i.fresh, fiber := w.fiber + 1 } else { w with a := i.use false (.elem c v l) }
      .does [i.ch] w r.2 (some (acc, r.1)) true

/-- The next step of a unit whose output is sent. -/
def Bank.sparseDoing (b : Bank) (w : Sparse) : Doing :=
  match w.op with
  | .dot acc flat => b.dot w acc flat
  | .scatter acc ty row => b.scatter w acc ty row
  | _ => match w.b with
    | some j => b.merge w w.a j
    | none => .idle

/-- A sparse unit is final (R242, R250). -/
def State.endSparse (s : State) (x : Site) (u : UnitRec) (w : Sparse) : State :=
  match w.out with
  | some o => (s.closeGroup x o u.id).dropUnit x u.id
  | none => match w.op with
    | .scatter acc _ _ => (s.modBank x fun b => b.disown [acc]).dropUnit x u.id
    | _ => s.dropUnit x u.id

/-- A step takes effect (R244, R347). -/
def State.doSparse (s : State) (x : Site) (u : UnitRec) (up : Option Upset) : Doing → State
  | .idle => s
  | .fault r => s.unitFault x u r
  | .does pops w env tile forms =>
    if forms && 3 ≤ (up.map (·.disagree)).getD 0 then
      s.unitFault x u { cls := 0x08, a := (up.map (·.a)).getD 0, b := (up.map (·.b)).getD 0 }
    else
      let s := if forms then s.noteCorrected x up else s
      let s := s.modBank x fun b =>
        let b := b.setEnv env
        match tile with
        | some (n, t) => { b with acc := setAt {} b.acc n t }
        | none => b
      let s := pops.foldl (fun s n => s.takeData x u n) s
      let s := s.setWork x u.id (.sparse w)
      if w.final && w.outq.isEmpty then s.endSparse x u w else s

/-- One step of a sparse unit: a token that it has formed is sent first. -/
def State.sparseStep (s : State) (x : Site) (u : UnitRec) (w : Sparse) (up : Option Upset) : State :=
  match w.outq, w.out with
  | (cls, p) :: rest, some o =>
    if !(s.runReady x o u.id) then s
    else
      let w' : Sparse := { w with outq := rest }
      let s := (s.setWork x u.id (.sparse w')).sendRun x o u.id { cls := cls, payload := p }
      if w.final && rest.isEmpty then s.endSparse x u w' else s
  | _, _ => if w.final then s else s.doSparse x u up ((s.bank x).sparseDoing w)

/-- SPARSE_UNIT_TOKEN (R243, R244, R249, R250). -/
def execSparseUnitToken (x : Site) (u : Nat) (up : Option Upset) (s : State) : Result :=
  if s.stopped x then .next s
  else match (s.bank x).unit? u with
  | none => .next s
  | some r => match r.work with
    | .sparse w => .next (s.sparseStep x r w up)
    | _ => .next s

/-! ### The instructions (R247 to R251) -/

/-- A sparse unit starts; its run, where it sends one, joins its output (R242, R244). -/
def State.startSparse (c : Ctx) (w : Sparse) (s : State) : State :=
  let s := s.modBank c.x fun b => { b with units := b.units ++
    [{ id := c.id, firing := c.id, rule := c.k, work := .sparse w }] }
  match w.out with
  | some o => s.addGroup c.x o { id := c.id, run := true }
  | none => s

def headOf (h : Hdr) (hd : Head) : SIn := { ch := (Hdr.headCh h hd).getD 0 }

/-- ISECT mul (R248). -/
def execIsectMul (h : Hdr) (o : Out) (hd0 hd1 : Head) (ofmt : OFmt) (rm : Rm) (lvl : BitVec 4) (s : State) : Result :=
  fire (.isectMul h o hd0 hd1 ofmt rm lvl) (fun c _ =>
    let w : Sparse := { op := .mul, out := some o.toNat, ofmt := ofmt, rm := rm, lvl := lvl.toNat
                        a := headOf h hd0, b := some (headOf h hd1) }
    { act := State.startSparse c w }) s

/-- The accumulator-kind fault of ISECT dot and SACCF (R245). -/
def Bank.kindFault (b : Bank) (acc : Nat) (k : AccKind) : Option Raise :=
  if (b.acc.getD acc {}).kind = k then none else some { cls := 0x51, a := 0 }

/-- ISECT dot (R249). -/
def execIsectDot (h : Hdr) (o : Out) (hd0 : Head) (ofmt : OFmt) (rm : Rm) (acc : BitVec 2) (flat : Bool) (lvl : BitVec 4)
    (s : State) : Result :=
  fire (.isectDot h o hd0 ofmt rm acc flat lvl) (fun c s =>
    let w : Sparse := { op := .dot acc.toNat flat, out := some o.toNat, ofmt := ofmt, rm := rm, lvl := lvl.toNat
                        a := headOf h hd0 }
    { fault := (c.bank s).kindFault acc.toNat .fp32, act := State.startSparse c w }) s

/-- UNION (R248). -/
def execUnion (h : Hdr) (op : UOp) (o : Out) (hd0 hd1 : Head) (ofmt : OFmt) (rm : Rm) (lvl : BitVec 4) (s : State) : Result :=
  fire (.union h op o hd0 hd1 ofmt rm lvl) (fun c _ =>
    let w : Sparse := { op := .union op, out := some o.toNat, ofmt := ofmt, rm := rm, lvl := lvl.toNat
                        a := headOf h hd0, b := some (headOf h hd1) }
    { act := State.startSparse c w }) s

/-- The tile kind that SACCI and SACCF name. -/
def ktyKind : KTy → AccKind
  | .f32 => .fp32 | .i32 => .int32

/-- SACCI (R250): the tile is owned, and records its kind and shape; its occupancy bits stay. -/
def execSacci (h : Hdr) (kd : KTy) (hd : Head) (acc : BitVec 2) (lvl row : BitVec 4) (s : State) : Result :=
  fire (.sacci h kd hd acc lvl row) (fun c _ =>
    let w : Sparse := { op := .scatter acc.toNat kd row.toNat, out := none, ofmt := .f32, rm := .rne, lvl := lvl.toNat
                        a := headOf h hd }
    { act := fun s => (s.startSparse c w).modBank c.x fun b => b.modAcc acc.toNat fun t =>
        { t with owner := some (c.id, c.k, b.rounds), kind := ktyKind kd, shape := .ij } }) s

/-- The columns of a tile row that are occupied (R251). -/
def AccTile.occupied (t : AccTile) (i : Nat) : List Nat := (List.range 16).filter fun j => t.occ.getLsbD (16 * i + j)

/-- The fiber tokens of one tile row (R251). -/
def flushRow (kd : KTy) (ofmt : OFmt) (rm : Rm) (t : AccTile) (i : Nat) (env : REnv) : List (BitVec 3 × Word) × REnv :=
  let cols := t.occupied i
  if cols.isEmpty then ([emptyFiber], env)
  else cols.foldl (fun (a : List (BitVec 3 × Word) × REnv) j =>
    let x := (t.el.getD (16 * i + j) 0).toNat
    let r : Nat × REnv := match kd with
      | .i32 => (x, a.2)
      | .f32 => fpRound (ofmtF ofmt) rm false (Machine.fp32.decode x) a.2
    (a.1 ++ [(clsData, fiberWord (if cols.getLast? = some j then 1 else 0) j r.1)], r.2)) ([], env)

/-- SACCF (R251): the values are fixed, and the tile is cleared. -/
def execSaccf (h : Hdr) (kd : KTy) (o : Out) (ofmt : OFmt) (rm : Rm) (acc : BitVec 2) (lvl : BitVec 4) (s : State) : Result :=
  fire (.saccf h kd o ofmt rm acc lvl) (fun c s =>
    let b := c.bank s
    let t := b.acc.getD acc.toNat {}
    let r := (List.range 16).foldl (fun (a : List (BitVec 3 × Word) × REnv) i =>
      let q := flushRow kd ofmt rm t i a.2
      (a.1 ++ q.1, q.2)) ([], b.env)
    let run : RunOut := { out := o.toNat, toks := r.1 ++ [(clsStop, lvl.setWidth 64)] }
    { fault := b.kindFault acc.toNat (ktyKind kd)
      act := fun s =>
        let s := (c.env r.2 s).modBank c.x fun b => (b.modAcc acc.toNat fun t =>
          { t with el := List.replicate 256 0, kind := .fp32, shape := .ij, occ := 0 })
        let s := s.modBank c.x fun b => { b with units := b.units ++
          [{ id := c.id, firing := c.id, rule := c.k, work := .run run, wait := 0 }] }
        s.addGroup c.x o.toNat { id := c.id, run := true } }) s

end Sys2Proof.Machine
end

