-- ==== Sys2Proof/Machine/Dispatch.lean ====
section
/-! DEFINITION. The dispatcher: one arm an instruction, each a direct call of its meaning. -/

namespace Sys2Proof.Machine

def exec (i : Instr) (s : State) : Host.Outcome State Fault Refusal :=
  match i with
  | .nop h => Sys2Proof.Machine.execNop h s
  | .plog h pd pa pb tt => Sys2Proof.Machine.execPlog h pd pa pb tt s
  | .cmp h ty s1 s2 pk cond => Sys2Proof.Machine.execCmp h ty s1 s2 pk cond s
  | .tst h ty s1 s2 pk ifzero => Sys2Proof.Machine.execTst h ty s1 s2 pk ifzero s
  | .sel h dst s1 s2 pk => Sys2Proof.Machine.execSel h dst s1 s2 pk s
  | .retire h => Sys2Proof.Machine.execRetire h s
  | .add h ty dst s1 s2 imm => Sys2Proof.Machine.execAdd h ty dst s1 s2 imm s
  | .sub h ty dst s1 s2 imm => Sys2Proof.Machine.execSub h ty dst s1 s2 imm s
  | .mul h ty dst s1 s2 imm => Sys2Proof.Machine.execMul h ty dst s1 s2 imm s
  | .mulh h ty dst s1 s2 imm => Sys2Proof.Machine.execMulh h ty dst s1 s2 imm s
  | .mad h ty dst s1 s2 s3 imm => Sys2Proof.Machine.execMad h ty dst s1 s2 s3 imm s
  | .div h ty dst s1 s2 imm => Sys2Proof.Machine.execDiv h ty dst s1 s2 imm s
  | .min h ty dst s1 s2 imm => Sys2Proof.Machine.execMin h ty dst s1 s2 imm s
  | .max h ty dst s1 s2 imm => Sys2Proof.Machine.execMax h ty dst s1 s2 imm s
  | .abs h ty dst s1 imm => Sys2Proof.Machine.execAbs h ty dst s1 imm s
  | .neg h ty dst s1 imm => Sys2Proof.Machine.execNeg h ty dst s1 imm s
  | .and h ty dst s1 s2 imm => Sys2Proof.Machine.execAnd h ty dst s1 s2 imm s
  | .or h ty dst s1 s2 imm => Sys2Proof.Machine.execOr h ty dst s1 s2 imm s
  | .xor h ty dst s1 s2 imm => Sys2Proof.Machine.execXor h ty dst s1 s2 imm s
  | .andn h ty dst s1 s2 imm => Sys2Proof.Machine.execAndn h ty dst s1 s2 imm s
  | .not h ty dst s1 imm => Sys2Proof.Machine.execNot h ty dst s1 imm s
  | .addc h ty dst s1 s2 s3 pk => Sys2Proof.Machine.execAddc h ty dst s1 s2 s3 pk s
  | .shl h ty dst s1 s2 imm => Sys2Proof.Machine.execShl h ty dst s1 s2 imm s
  | .shr h ty dst s1 s2 imm => Sys2Proof.Machine.execShr h ty dst s1 s2 imm s
  | .sar h ty dst s1 s2 imm => Sys2Proof.Machine.execSar h ty dst s1 s2 imm s
  | .rot h ty dst s1 s2 imm => Sys2Proof.Machine.execRot h ty dst s1 s2 imm s
  | .clz h ty dst s1 imm => Sys2Proof.Machine.execClz h ty dst s1 imm s
  | .popc h ty dst s1 imm => Sys2Proof.Machine.execPopc h ty dst s1 imm s
  | .ext h ty dst s1 pos len1 => Sys2Proof.Machine.execExt h ty dst s1 pos len1 s
  | .ins h ty dst s1 s2 pos len1 => Sys2Proof.Machine.execIns h ty dst s1 s2 pos len1 s
  | .brev h ty dst s1 imm => Sys2Proof.Machine.execBrev h ty dst s1 imm s
  | .addr h dst s1 s2 sc off => Sys2Proof.Machine.execAddr h dst s1 s2 sc off s
  | .limm h clear chunk dst val => Sys2Proof.Machine.execLimm h clear chunk dst val s
  | .mov h dst s1 imm => Sys2Proof.Machine.execMov h dst s1 imm s
  | .send h cls o s1 imm => Sys2Proof.Machine.execSend h cls o s1 imm s
  | .deq h ch cnt1 => Sys2Proof.Machine.execDeq h ch cnt1 s
  | .fwd h o hd => Sys2Proof.Machine.execFwd h o hd s
  | .tagof h dst hd => Sys2Proof.Machine.execTagof h dst hd s
  | .rdspec h dst num => Sys2Proof.Machine.execRdspec h dst num s
  | .wrspec h s1 num => Sys2Proof.Machine.execWrspec h s1 num s
  | .fadd h ty dst s1 s2 rm ftz => Sys2Proof.Machine.execFadd h ty dst s1 s2 rm ftz s
  | .fsub h ty dst s1 s2 rm ftz => Sys2Proof.Machine.execFsub h ty dst s1 s2 rm ftz s
  | .fmul h ty dst s1 s2 rm ftz => Sys2Proof.Machine.execFmul h ty dst s1 s2 rm ftz s
  | .fma h ty dst s1 s2 s3 rm ftz => Sys2Proof.Machine.execFma h ty dst s1 s2 s3 rm ftz s
  | .fmin h ty dst s1 s2 => Sys2Proof.Machine.execFmin h ty dst s1 s2 s
  | .fmax h ty dst s1 s2 => Sys2Proof.Machine.execFmax h ty dst s1 s2 s
  | .fcmp h ty s1 s2 pk cond => Sys2Proof.Machine.execFcmp h ty s1 s2 pk cond s
  | .fabs h ty dst s1 => Sys2Proof.Machine.execFabs h ty dst s1 s
  | .fneg h ty dst s1 => Sys2Proof.Machine.execFneg h ty dst s1 s
  | .frcp h ty dst s1 rm ftz => Sys2Proof.Machine.execFrcp h ty dst s1 rm ftz s
  | .frsq h ty dst s1 rm ftz => Sys2Proof.Machine.execFrsq h ty dst s1 rm ftz s
  | .fexp2 h ty dst s1 rm ftz => Sys2Proof.Machine.execFexp2 h ty dst s1 rm ftz s
  | .flog2 h ty dst s1 rm ftz => Sys2Proof.Machine.execFlog2 h ty dst s1 rm ftz s
  | .fscale h ty dst s1 s2 rm ftz => Sys2Proof.Machine.execFscale h ty dst s1 s2 rm ftz s
  | .fclass h ty dst s1 => Sys2Proof.Machine.execFclass h ty dst s1 s
  | .fsqrt h ty dst s1 rm ftz => Sys2Proof.Machine.execFsqrt h ty dst s1 rm ftz s
  | .vadd h ty dst s1 s2 rm ftz => Sys2Proof.Machine.execVadd h ty dst s1 s2 rm ftz s
  | .vsub h ty dst s1 s2 rm ftz => Sys2Proof.Machine.execVsub h ty dst s1 s2 rm ftz s
  | .vmul h ty dst s1 s2 rm ftz => Sys2Proof.Machine.execVmul h ty dst s1 s2 rm ftz s
  | .vfma h ty dst s1 s2 s3 rm ftz => Sys2Proof.Machine.execVfma h ty dst s1 s2 s3 rm ftz s
  | .vmin h ty dst s1 s2 => Sys2Proof.Machine.execVmin h ty dst s1 s2 s
  | .vmax h ty dst s1 s2 => Sys2Proof.Machine.execVmax h ty dst s1 s2 s
  | .vcmp h ty dst s1 s2 cond => Sys2Proof.Machine.execVcmp h ty dst s1 s2 cond s
  | .vsel h ty dst s1 s2 s3 => Sys2Proof.Machine.execVsel h ty dst s1 s2 s3 s
  | .vsum h ty dst s1 rm ftz => Sys2Proof.Machine.execVsum h ty dst s1 rm ftz s
  | .vamax h ty dst s1 s2 => Sys2Proof.Machine.execVamax h ty dst s1 s2 s
  | .vshuf h ty dst s1 s2 z sel => Sys2Proof.Machine.execVshuf h ty dst s1 s2 z sel s
  | .vdot3 h ty dst s1 s2 s3 rm ftz => Sys2Proof.Machine.execVdot3 h ty dst s1 s2 s3 rm ftz s
  | .cvt h tgt dst s1 rm ftz src fit => Sys2Proof.Machine.execCvt h tgt dst s1 rm ftz src fit s
  | .vcvt h tgt dst s1 rm ftz src part => Sys2Proof.Machine.execVcvt h tgt dst s1 rm ftz src part s
  | .cvti h tgt dst s1 rm src uns => Sys2Proof.Machine.execCvti h tgt dst s1 rm src uns s
  | .cvtf h tgt dst s1 rm ftz src uns => Sys2Proof.Machine.execCvtf h tgt dst s1 rm ftz src uns s
  | .scaleq h tgt dst s1 s2 s3 rm ftz src byte part => Sys2Proof.Machine.execScaleq h tgt dst s1 s2 s3 rm ftz src byte part s
  | .scaledq h tgt dst s1 s2 rm ftz src byte part => Sys2Proof.Machine.execScaledq h tgt dst s1 s2 rm ftz src byte part s
  | .cbld h s1 kc quarter => Sys2Proof.Machine.execCbld h s1 kc quarter s
  | .cblook h dst s1 kc part => Sys2Proof.Machine.execCblook h dst s1 kc part s
  | .setfmt h s1 ch => Sys2Proof.Machine.execSetfmt h s1 ch s
  | .seal h dst s1 tgt => Sys2Proof.Machine.execSeal h dst s1 tgt s
  | .amaxacc h ty dst s1 s2 => Sys2Proof.Machine.execAmaxacc h ty dst s1 s2 s
  | .contract h fmt s1 s2 s3 role sv uidx vidx acc stile ovw half => Sys2Proof.Machine.execContract h fmt s1 s2 s3 role sv uidx vidx acc stile ovw half s
  | .stay h fmt hd stile cm => Sys2Proof.Machine.execStay h fmt hd stile cm s
  | .accz h acc => Sys2Proof.Machine.execAccz h acc s
  | .accrd h tgt o rm ftz shape acc ovr => Sys2Proof.Machine.execAccrd h tgt o rm ftz shape acc ovr s
  | .accld h src hd shape acc => Sys2Proof.Machine.execAccld h src hd shape acc s
  | .accsc h e8m0 s1 rm ftz acc => Sys2Proof.Machine.execAccsc h e8m0 s1 rm ftz acc s
  | .cturn h o hd node blk1 => Sys2Proof.Machine.execCturn h o hd node blk1 s
  | .gradpair h fmt hd0 hd1 sv1 sv0 idx0 idx1 acc0 stile ovw acc1 => Sys2Proof.Machine.execGradpair h fmt hd0 hd1 sv1 sv0 idx0 idx1 acc0 stile ovw acc1 s
  | .isectMul h o hd0 hd1 ofmt rm lvl => Sys2Proof.Machine.execIsectMul h o hd0 hd1 ofmt rm lvl s
  | .isectDot h o hd0 ofmt rm acc flat lvl => Sys2Proof.Machine.execIsectDot h o hd0 ofmt rm acc flat lvl s
  | .union h op o hd0 hd1 ofmt rm lvl => Sys2Proof.Machine.execUnion h op o hd0 hd1 ofmt rm lvl s
  | .sacci h kd hd acc lvl row => Sys2Proof.Machine.execSacci h kd hd acc lvl row s
  | .saccf h kd o ofmt rm acc lvl => Sys2Proof.Machine.execSaccf h kd o ofmt rm acc lvl s
  | .stop h o lvl => Sys2Proof.Machine.execStop h o lvl s
  | .rowf h op s1 s2 s3 cm fmt eps => Sys2Proof.Machine.execRowf h op s1 s2 s3 cm fmt eps s
  | .rowb h op s1 s2 s3 cm fmt eps => Sys2Proof.Machine.execRowb h op s1 s2 s3 cm fmt eps s
  | .xred h s1 s2 s3 cm fmt coh => Sys2Proof.Machine.execXred h s1 s2 s3 cm fmt coh s
  | .ld h ty dst s1 cm => Sys2Proof.Machine.execLd h ty dst s1 cm s
  | .st h ty s1 s2 cm => Sys2Proof.Machine.execSt h ty s1 s2 cm s
  | .lds h ty dst s1 cm => Sys2Proof.Machine.execLds h ty dst s1 cm s
  | .sts h ty s1 s2 cm => Sys2Proof.Machine.execSts h ty s1 s2 cm s
  | .tlook h dst s1 cm => Sys2Proof.Machine.execTlook h dst s1 cm s
  | .tset h s1 s2 s3 cm => Sys2Proof.Machine.execTset h s1 s2 s3 cm s
  | .tinv h s1 cm => Sys2Proof.Machine.execTinv h s1 cm s
  | .ldfe h dst s1 cm => Sys2Proof.Machine.execLdfe h dst s1 cm s
  | .stfe h s1 s2 s3 cm => Sys2Proof.Machine.execStfe h s1 s2 s3 cm s
  | .stream h cm o s1 s2 imm => Sys2Proof.Machine.execStream h cm o s1 s2 imm s
  | .stash h s1 s2 cm key => Sys2Proof.Machine.execStash h s1 s2 cm key s
  | .unstash h o cm key => Sys2Proof.Machine.execUnstash h o cm key s
  | .ldp h dst s1 cm => Sys2Proof.Machine.execLdp h dst s1 cm s
  | .stp h s1 s2 cm => Sys2Proof.Machine.execStp h s1 s2 cm s
  | .clrp h s1 s2 cm => Sys2Proof.Machine.execClrp h s1 s2 cm s
  | .upd h op s1 s2 cm => Sys2Proof.Machine.execUpd h op s1 s2 cm s
  | .ownEnter h s1 s2 cm => Sys2Proof.Machine.execOwnEnter h s1 s2 cm s
  | .ownRelease h s1 cm => Sys2Proof.Machine.execOwnRelease h s1 cm s
  | .fencex h cm x y => Sys2Proof.Machine.execFencex h cm x y s
  | .cmplT h cm => Sys2Proof.Machine.execCmplT h cm s
  | .drain h => Sys2Proof.Machine.execDrain h s
  | .bcpost h s1 cm bar => Sys2Proof.Machine.execBcpost h s1 cm bar s
  | .bcarm h s1 s2 cm bar => Sys2Proof.Machine.execBcarm h s1 s2 cm bar s
  | .copy h s1 s2 s3 cm dts sts refill q buf => Sys2Proof.Machine.execCopy h s1 s2 s3 cm dts sts refill q buf s
  | .copyqDeclare h s1 s2 s3 cm buf => Sys2Proof.Machine.execCopyqDeclare h s1 s2 s3 cm buf s
  | .copyqRelease h cm buf => Sys2Proof.Machine.execCopyqRelease h cm buf s
  | .consumed h cm buf => Sys2Proof.Machine.execConsumed h cm buf s
  | .coll h op s1 s2 s3 cm fmt coh => Sys2Proof.Machine.execColl h op s1 s2 s3 cm fmt coh s
  | .cabort h cm coh => Sys2Proof.Machine.execCabort h cm coh s
  | .kvappPut h s1 s2 s3 cm layer => Sys2Proof.Machine.execKvappPut h s1 s2 s3 cm layer s
  | .kvappCommit h s1 s3 cm => Sys2Proof.Machine.execKvappCommit h s1 s3 cm s
  | .kvrot h o s1 cm => Sys2Proof.Machine.execKvrot h o s1 cm s
  | .steer h o hd pk o2 => Sys2Proof.Machine.execSteer h o hd pk o2 s
  | .merge h o hd va vb => Sys2Proof.Machine.execMerge h o hd va vb s
  | .fork h o hd also => Sys2Proof.Machine.execFork h o hd also s
  | .sink h ch cnt1 => Sys2Proof.Machine.execSink h ch cnt1 s
  | .ctl h o s1 imm => Sys2Proof.Machine.execCtl h o s1 imm s
  | .cnt h dst s1 pk lim1 => Sys2Proof.Machine.execCnt h dst s1 pk lim1 s
  | .loopopen h o s1 dep1 => Sys2Proof.Machine.execLoopopen h o s1 dep1 s
  | .loopdone h o => Sys2Proof.Machine.execLoopdone h o s
  | .gateSet h o s1 imm => Sys2Proof.Machine.execGateSet h o s1 imm s
  | .gateAdd h o s1 imm => Sys2Proof.Machine.execGateAdd h o s1 imm s
  | .gateOff h o => Sys2Proof.Machine.execGateOff h o s
  | .splice h rgn => Sys2Proof.Machine.execSplice h rgn s
  | .plane h rgn => Sys2Proof.Machine.execPlane h rgn s
  | .rangeOpen h s1 s2 s3 p1 => Sys2Proof.Machine.execRangeOpen h s1 s2 s3 p1 s
  | .rangeTake h dst => Sys2Proof.Machine.execRangeTake h dst s
  | .rangeClose h => Sys2Proof.Machine.execRangeClose h s
  | .join h rgn od s1 s2 coh => Sys2Proof.Machine.execJoin h rgn od s1 s2 coh s
  | .leave h rgn coh => Sys2Proof.Machine.execLeave h rgn coh s
  | .bar h rgn o coh => Sys2Proof.Machine.execBar h rgn o coh s
  | .launch h od s1 rgn q prio flt => Sys2Proof.Machine.execLaunch h od s1 rgn q prio flt s
  | .yield h cyc1 => Sys2Proof.Machine.execYield h cyc1 s
  | .trap h s1 code => Sys2Proof.Machine.execTrap h s1 code s
  | .chkerr h hd pk clean => Sys2Proof.Machine.execChkerr h hd pk clean s
  | .faultrdWord h dst s1 wsel => Sys2Proof.Machine.execFaultrdWord h dst s1 wsel s
  | .faultrdCount h dst => Sys2Proof.Machine.execFaultrdCount h dst s
  | .markOwn h => Sys2Proof.Machine.execMarkOwn h s
  | .markCohort h od coh req => Sys2Proof.Machine.execMarkCohort h od coh req s
  | .snap h => Sys2Proof.Machine.execSnap h s
  | .resume h od s1 s2 q prio flt => Sys2Proof.Machine.execResume h od s1 s2 q prio flt s
  | .savesetDeclare h dst s1 s2 => Sys2Proof.Machine.execSavesetDeclare h dst s1 s2 s
  | .savesetNotify h o => Sys2Proof.Machine.execSavesetNotify h o s
  | .savedropDeclaration h dst s1 => Sys2Proof.Machine.execSavedropDeclaration h dst s1 s
  | .savedropNotify h o => Sys2Proof.Machine.execSavedropNotify h o s
  | .pfack h => Sys2Proof.Machine.execPfack h s
  | .replay h hd => Sys2Proof.Machine.execReplay h hd s
  | .cellRound t ups => Sys2Proof.Machine.execCellRound t ups s
  | .resultWrite x => Sys2Proof.Machine.execResultWrite x s
  | .tokenArrival x o => Sys2Proof.Machine.execTokenArrival x o s
  | .flitHop x o k => Sys2Proof.Machine.execFlitHop x o k s
  | .accessPerformed q n => Sys2Proof.Machine.execAccessPerformed q n s
  | .translationWalkDone g v => Sys2Proof.Machine.execTranslationWalkDone g v s
  | .ownerUpdateApply q n => Sys2Proof.Machine.execOwnerUpdateApply q n s
  | .streamTokenSend q n => Sys2Proof.Machine.execStreamTokenSend q n s
  | .runTokenSend x u n => Sys2Proof.Machine.execRunTokenSend x u n s
  | .contractionStep x u up => Sys2Proof.Machine.execContractionStep x u up s
  | .stayTokenTake x u => Sys2Proof.Machine.execStayTokenTake x u s
  | .accldTokenTake x u => Sys2Proof.Machine.execAccldTokenTake x u s
  | .cornerTurnToken x u => Sys2Proof.Machine.execCornerTurnToken x u s
  | .sparseUnitToken x u up => Sys2Proof.Machine.execSparseUnitToken x u up s
  | .loopStep x u => Sys2Proof.Machine.execLoopStep x u s
  | .copyPerformed q n => Sys2Proof.Machine.execCopyPerformed q n s
  | .refillStart q => Sys2Proof.Machine.execRefillStart q s
  | .collectivePerformed q r n => Sys2Proof.Machine.execCollectivePerformed q r n s
  | .xredPerformed q r n => Sys2Proof.Machine.execXredPerformed q r n s
  | .abortTokenReceive g k r a => Sys2Proof.Machine.execAbortTokenReceive g k r a s
  | .collectiveMemberTimeout g k => Sys2Proof.Machine.execCollectiveMemberTimeout g k s
  | .barComplete g k => Sys2Proof.Machine.execBarComplete g k s
  | .joinRecordReceive g k r => Sys2Proof.Machine.execJoinRecordReceive g k r s
  | .rowCommandPerformed t n => Sys2Proof.Machine.execRowCommandPerformed t n s
  | .stashPerformed q n => Sys2Proof.Machine.execStashPerformed q n s
  | .kvCommandPerformed q n => Sys2Proof.Machine.execKvCommandPerformed q n s
  | .layerPowerOff t l => Sys2Proof.Machine.execLayerPowerOff t l s
  | .layerWakeDone t l => Sys2Proof.Machine.execLayerWakeDone t l s
  | .drainReachTile j t => Sys2Proof.Machine.execDrainReachTile j t s
  | .drainPassedTile j t => Sys2Proof.Machine.execDrainPassedTile j t s
  | .regionEnd j => Sys2Proof.Machine.execRegionEnd j s
  | .planeLoad j t => Sys2Proof.Machine.execPlaneLoad j t s
  | .planeActivate j t => Sys2Proof.Machine.execPlaneActivate j t s
  | .launchDispatch => Sys2Proof.Machine.execLaunchDispatch  s
  | .dispatchEnable => Sys2Proof.Machine.execDispatchEnable  s
  | .watchdogStall t k => Sys2Proof.Machine.execWatchdogStall t k s
  | .yieldEnd t k => Sys2Proof.Machine.execYieldEnd t k s
  | .stateScrub x bad => Sys2Proof.Machine.execStateScrub x bad s
  | .freezeReachTile j t => Sys2Proof.Machine.execFreezeReachTile j t s
  | .traverseBegin j => Sys2Proof.Machine.execTraverseBegin j s
  | .traverseReachTile j t => Sys2Proof.Machine.execTraverseReachTile j t s
  | .cellSave x => Sys2Proof.Machine.execCellSave x s
  | .snapForcedSave x => Sys2Proof.Machine.execSnapForcedSave x s
  | .traverseComplete j => Sys2Proof.Machine.execTraverseComplete j s
  | .restore j => Sys2Proof.Machine.execRestore j s
  | .rowAlert d b r => Sys2Proof.Machine.execRowAlert d b r s
  | .neighbourRefreshDone d b => Sys2Proof.Machine.execNeighbourRefreshDone d b s
  | .refreshPass d b => Sys2Proof.Machine.execRefreshPass d b s
  | .packetReceive p k => Sys2Proof.Machine.execPacketReceive p k s
  | .powerFailTrap supply => Sys2Proof.Machine.execPowerFailTrap supply s
  | .graceEnd => Sys2Proof.Machine.execGraceEnd  s
  | .runOutEnd n => Sys2Proof.Machine.execRunOutEnd n s
  | .powerOnStart sigOk torn => Sys2Proof.Machine.execPowerOnStart sigOk torn s
  | .selfTestEnd found => Sys2Proof.Machine.execSelfTestEnd found s
  | .thermalThrottle inlet power => Sys2Proof.Machine.execThermalThrottle inlet power s
  | .overtempFreeze inlet => Sys2Proof.Machine.execOvertempFreeze inlet s
  | .loadImage c a => Sys2Proof.Machine.execLoadImage c a s
  | .launchNew c a => Sys2Proof.Machine.execLaunchNew c a s
  | .launchResume c a => Sys2Proof.Machine.execLaunchResume c a s
  | .launchDiscard c a => Sys2Proof.Machine.execLaunchDiscard c a s
  | .launchContinue c a => Sys2Proof.Machine.execLaunchContinue c a s
  | .statusSaggar c => Sys2Proof.Machine.execStatusSaggar c s
  | .statusLog c first => Sys2Proof.Machine.execStatusLog c first s
  | .statusMgmt c => Sys2Proof.Machine.execStatusMgmt c s
  | .attest c nonce => Sys2Proof.Machine.execAttest c nonce s
  | .keyExchange c a => Sys2Proof.Machine.execKeyExchange c a s
  | .kill c => Sys2Proof.Machine.execKill c s
  | .killScrubComplete g => Sys2Proof.Machine.execKillScrubComplete g s
  | .readout c a len n => Sys2Proof.Machine.execReadout c a len n s
  | .unloadImage c hash => Sys2Proof.Machine.execUnloadImage c hash s
  | .colthrWrite v => Sys2Proof.Machine.execColthrWrite v s
  | .rmthrWrite v => Sys2Proof.Machine.execRmthrWrite v s
  | .mgmtRegWrite num v => Sys2Proof.Machine.execMgmtRegWrite num v s
  | .saveDeclarationAnswer => Sys2Proof.Machine.execSaveDeclarationAnswer  s
  | .linkTraining p peer => Sys2Proof.Machine.execLinkTraining p peer s

end Sys2Proof.Machine
end

