-- ==== Sys2Proof/WellFormed.lean ====
section
/-! DEFINITION. Well-formed instructions: a rule instruction whose word R43 accepts, and a step of the machine whose
arguments name parts that the package has (R4, R7, R21). -/

namespace Sys2Proof

/-- Why an instruction is not well formed: a reason of R43 for a rule instruction; a part that does not exist for a step of
the machine. -/
inductive IllFormed
  | configuration (code : Nat)
  | tile | slot | cell | out | saggar | port | cohort
deriving DecidableEq, Repr

/-- The first check that fails in a list of checks. -/
def firstBad : List (Bool × IllFormed) → Option IllFormed
  | [] => none
  | (ok, b) :: r => if ok then firstBad r else some b

/-- The parts that a step of the machine names. -/
structure Parts where
  tile   : Nat := 0
  slot   : Nat := 0
  cell   : Nat := 0
  out    : Nat := 0
  saggar : Nat := 0
  port   : Nat := 0
  cohort : Nat := 0
deriving DecidableEq, Repr

/-- The parts of a bank. -/
def Site.parts (x : Site) : Parts := { tile := x.tile, slot := x.slot, cell := x.cell }

/-- The parts that an instruction names beside its word. -/
def Instr.parts : Instr → Parts
  | .cellRound t _ => { tile := t }
  | .resultWrite x => x.parts
  | .tokenArrival x o => { x.parts with out := o }
  | .flitHop x o _ => { x.parts with out := o }
  | .translationWalkDone g _ => { saggar := g }
  | .runTokenSend x _ _ => x.parts
  | .contractionStep x _ _ => x.parts
  | .stayTokenTake x _ => x.parts
  | .accldTokenTake x _ => x.parts
  | .cornerTurnToken x _ => x.parts
  | .sparseUnitToken x _ _ => x.parts
  | .loopStep x _ => x.parts
  | .abortTokenReceive g k _ a => { saggar := g, cohort := k, port := a.port }
  | .collectiveMemberTimeout g k => { saggar := g, cohort := k }
  | .barComplete g k => { saggar := g, cohort := k }
  | .joinRecordReceive g k r => { saggar := g, cohort := k, port := r.port }
  | .rowCommandPerformed t _ => { tile := t }
  | .layerPowerOff t _ => { tile := t }
  | .layerWakeDone t _ => { tile := t }
  | .drainReachTile _ t => { tile := t }
  | .drainPassedTile _ t => { tile := t }
  | .planeLoad _ t => { tile := t }
  | .planeActivate _ t => { tile := t }
  | .watchdogStall t k => { tile := t, slot := k }
  | .yieldEnd t k => { tile := t, slot := k }
  | .stateScrub x _ => x.parts
  | .freezeReachTile _ t => { tile := t }
  | .traverseReachTile _ t => { tile := t }
  | .cellSave x => x.parts
  | .snapForcedSave x => x.parts
  | .packetReceive p _ => { port := p }
  | .loadImage c _ | .launchNew c _ | .launchResume c _ | .launchDiscard c _ | .launchContinue c _ | .statusSaggar c
  | .statusLog c _ | .statusMgmt c | .attest c _ | .keyExchange c _ | .kill c | .readout c _ _ _ | .unloadImage c _ =>
    { saggar := c.saggar }
  | .killScrubComplete g => { saggar := g }
  | .linkTraining p _ => { port := p }
  | _ => {}

/-- The checks on the parts: 64 tiles, 4 plane slots, 192 cells, 8 outputs, 16 saggars, 16 ports, 256 cohort numbers. -/
def Parts.check (p : Parts) : Option IllFormed :=
  firstBad [(p.tile < 64, .tile), (p.slot < 4, .slot), (p.cell < 192, .cell), (p.out < 8, .out), (p.saggar < 16, .saggar),
    (p.port < 16, .port), (p.cohort < 256, .cohort)]

/-- The check of an instruction; none when it is well formed. -/
def Instr.check (i : Instr) : Option IllFormed :=
  match i.op? with
  | some _ => (reason {} (encodeFields i)).map .configuration
  | none => i.parts.check

/-- Whether an instruction is well formed. -/
def Instr.wellFormed (i : Instr) : Bool := i.check = none

end Sys2Proof
end

