-- ==== Sys2Proof/Machine/Step.lean ====
section
/-! DEFINITION. One step of the machine: the next firing of the open round, or else the next move of the package. -/

namespace Sys2Proof.Machine

/-- A move of the package: a step that no rule word asks for, of parts that exist. Anything else passes.
(DESIGN CHOICE, log entry 3.) -/
def State.move (s : State) (i : Instr) : Result :=
  if i.op? = none ∧ i.wellFormed = true then exec i s else .next s

/-- The step that ends a firing: the round closes with its last rule. (DESIGN CHOICE, log entry 3.) -/
def closeStep : Result → Result
  | .next s => .next s.finishRound
  | r => r

/-- One step. While a round is open, its next firing: the rule word is fetched from the bank and decoded, and its
instruction runs. Else the next step of the agenda, or one that nature chooses (00 R2, R73).
(DESIGN CHOICE, log entry 3.) -/
def step (s : State) : Host.Outcome State Fault Refusal :=
  match s.round.firing with
  | f :: rest =>
    match (s.bank f.site).instr f.rule with
    | some i => closeStep (exec i s)
    | none => .next (s.openFiring rest).finishRound
  | [] =>
    let t : State := { s with tick := s.tick + 1 }
    match s.agenda with
    | i :: rest => State.move { t with agenda := rest } i
    | [] => match Config.freeMove s.tick with
      | some i => t.move i
      | none => .next t

/-- The bank in which a word placed from outside stands. (DEDUCED, log entry 1.) -/
def fetchSite : Site := { tile := 0, slot := 0, cell := 0 }

/-- The state whose next step fetches and runs the word w: it stands in rule slot 0 of a bank, and is the one rule chosen.
(DEDUCED, log entry 1.) -/
def State.withFetchWord (s : State) (_nbits w : Nat) : State :=
  { s.modBank fetchSite (fun b => { b with rules := setAt 0 b.rules 0 (BitVec.ofNat 128 w) }) with
    round := { firing := [{ site := fetchSite, rule := 0 }] } }

end Sys2Proof.Machine
end

