-- ==== Sys2Proof/Safety.lean ====
section
/-! DEFINITION. The terms of the statements: the canonical form of memory, a rule that nothing keeps from its own effect,
what a committed rule leaves, and the parts of the state that it leaves alone. -/

namespace Sys2Proof.Machine

/-- The memory has its canonical form. -/
def State.memOk (s : State) : Prop := Memory.wf s.mem = true

/-! ### The parts of a cell -/

/-- The registers of a cell on one plane (R44): everything that its own instructions and units change, its channels and
outputs apart. -/
structure Regs where
  g      : List Word
  m      : List Word
  p      : BitVec 8
  d      : List HistEntry
  acc    : List AccTile
  stay   : List StayTile
  kb     : List (List (BitVec 16))
  sb     : List (Option (Nat × Nat))
  lfsr   : BitVec 32
  sticky : BitVec 6
  chkint : BitVec 16
  pend   : List Pend
  units  : List UnitRec
  retired : Bool
deriving DecidableEq, Repr

def Bank.regs (b : Bank) : Regs where
  g      := b.g
  m      := b.m
  p      := b.p
  d      := b.d
  acc    := b.acc
  stay   := b.stay
  kb     := b.kb
  sb     := b.sb
  lfsr   := b.lfsr
  sticky := b.sticky
  chkint := b.chkint
  pend   := b.pend
  units  := b.units
  retired := b.retired

/-- A token as the program sees it: its class, its payload, its error tag. -/
structure Said where
  cls     : BitVec 3
  payload : Word
  etag    : Bool := false
deriving DecidableEq, Repr

def Token.said (t : Token) : Said := { cls := t.cls, payload := t.payload, etag := t.etag }
def GTok.said (t : GTok) : Said := { cls := t.cls, payload := t.payload, etag := t.etag }

/-- The tokens of an output that have not arrived, in the order in which they arrive; markers apart (R323). -/
def OutState.said (p : OutState) : List Said :=
  (p.flight.map Token.said ++ p.resend.map Token.said ++ p.groups.flatMap fun g => g.toks.map GTok.said).filter
    (·.cls ≠ clsMarker)

/-- The guard-word effects on the registers (R34): the predicates and the scoreboard slot. -/
def Regs.guard (h : Hdr) (rule id : Nat) (r : Regs) : Regs :=
  { r with
    p := predUpdate r.p h.pset h.pclr
    sb := match h.sbset with
      | some n => setAt none r.sb n.toNat (some (rule, id))
      | none => r.sb }

/-- A history pushed with a value (R42). -/
def Regs.push (r : Regs) (e : HistEntry) : Regs := { r with d := (e :: r.d).take 4 }

/-- A register written (R40); an output or `zero` writes none. -/
def Regs.write (r : Regs) (dst : Dst) (v : Word) : Regs :=
  match dst with
  | .g n => { r with g := setAt 0 r.g n.toNat v }
  | .m n => { r with m := setAt 0 r.m n.toNat v }
  | _ => r

/-- A predicate written. -/
def Regs.pred (r : Regs) (k : BitVec 3) (v : Bool) : Regs :=
  { r with p := if v then r.p ||| (1#8 <<< k.toNat) else r.p &&& ~~~(1#8 <<< k.toNat) }

/-- A result of latency 1 that is pushed (R36, R49): it stands in its register, and in d1, at once. -/
def Regs.now (r : Regs) (dst : Dst) (v : Word) : Regs := (r.write dst v).push { val := v }

/-- What a result that is still to come writes (R36, R51). -/
def Dst.writes (dst : Dst) (v : Word) : List PWrite :=
  match dst with
  | .g n => [.reg (.g n.toNat) v]
  | .m n => [.reg (.m n.toNat) v]
  | .o n => [.tok n.toNat (dataTok v)]
  | .zero => []

/-- A result of latency `lat` that is pushed (R36, R50): its destination and d1 are pending. -/
def Regs.later (r : Regs) (dst : Dst) (rule id lat : Nat) (v : Word) : Regs :=
  Regs.push { r with pend := r.pend ++ [{ id := id, rule := rule, left := some lat, lat := lat, writes := Dst.writes dst v }] }
    { val := v, pend := some id }

/-- The data token that a destination code sends at once (R40, R51). -/
def Dst.sends (dst : Dst) (v : Word) : List (Nat × Said) :=
  match dst with
  | .o n => [(n.toNat, { cls := clsData, payload := v })]
  | _ => []

/-- A channel without the count of slots that senders have taken for tokens to come. -/
def Chan.look (c : Chan) : Chan := { c with taken := 0 }

/-- Channel n after a DEQ bit with the channel test t (R34): its head is removed, and the scale latch follows (R178); a
drain token or a marker stays (R80, R323). -/
def deqOne (on : Bool) (t : Option ChanTest) (n : Nat) (c : Chan) : Chan :=
  match on, t, c.toks with
  | true, some t, hd :: r => if t.ch.toNat = n && !(stays hd) then { c.noteRemoved hd with toks := r } else c
  | _, _, _ => c

def Hdr.dequeues (h : Hdr) (n : Nat) (c : Chan) : Chan := deqOne h.deqB h.ctb n (deqOne h.deqA h.cta n c)

/-! ### The rest of the machine -/

/-- The state without its banks, tiles, requests, open round and count of firings: memory, tables, stash, owner ranges,
saggars, cohorts, launches, queues, ports, power and management registers. -/
def State.rest (s : State) : State := { s with round := {}, nextId := 0, banks := [], tiles := [], reqs := [] }

/-- A tile without its plane slots: frame table, loop-control units, range unit, corner-turn nodes, layers, clock. -/
def Tile.shared (t : Tile) : Tile := { t with slots := [] }

/-- A plane slot without its counters and progress marks. -/
def Slot.plane (k : Slot) : Slot := { k with counters := [], progress := false, decoupled := [] }

/-- Tiles and plane slots are as before, but for counters and progress marks. -/
structure SameTiles (s t : State) : Prop where
  shared : ∀ n, (t.tile n).shared = (s.tile n).shared
  plane  : ∀ n k, (t.slot n k).plane = (s.slot n k).plane

/-! ### A rule that has its own effect -/

/-- The channel holds no scale header that breaks a check of R179 or bears a tag (R351). -/
def Chan.headersGood (c : Chan) : Bool :=
  c.toks.all fun t => !(t.cls = clsHdr && fmtSsrc c.fmt = 1 && (t.etag || badHeader t.payload))

/-- Nothing keeps the rule at the head of the open round from the effect of its instruction (R33 to R39): it lacks no port,
no upset meets it, it is not held, it names no tile that an array instruction owns (R194), it reads no tagged head (R351),
and its DEQ bits remove no scale header that is bad or tagged (R179, R351). -/
structure Clear (s : State) (f : Firing) (rest : List Firing) (i : Instr) : Prop where
  first   : s.round.firing = f :: rest
  ports   : f.short = false
  upset   : (s.round.ups.find? fun u => u.cell = f.site.cell && u.rule = f.rule) = none
  noHold  : s.held f.site f.rule i = false
  noOwner : (s.bank f.site).busyTile i = none
  noTag   : (s.bank f.site).tainted i = none
  headA   : ∀ t, (Instr.hdr i).deqA = true → (Instr.hdr i).cta = some t → ((s.bank f.site).chan t.ch.toNat).headersGood = true
  headB   : ∀ t, (Instr.hdr i).deqB = true → (Instr.hdr i).ctb = some t → ((s.bank f.site).chan t.ch.toNat).headersGood = true

/-- The destination has room: an output has a free slot at its consumer, and a credit when its gate is on (R35, R285). -/
def State.room (s : State) (x : Site) (dst : Dst) : Prop := ∀ n, dst = .o n → s.canSend x n.toNat 1 = true

/-- How an output is bound and gated, its credit apart. -/
structure Wire where
  bind   : Option Binding
  gateOn : Bool
  notify : Bool
deriving DecidableEq, Repr

def OutState.wire (p : OutState) : Wire := { bind := p.bind, gateOn := p.gateOn, notify := p.notify }

/-- What the effect of an instruction is, its guard word apart: the registers that it leaves, the tokens that it sends, each
at the end of its output, the requests that it makes, what it does to its channels and to the gates of its outputs, to the
parts of its tile that the planes share, and to the rest of the machine. -/
structure Effect where
  regs  : Regs
  sends : List (Nat × Said) := []
  asks  : List Req := []
  chans : Nat → Chan → Chan := fun _ c => c
  wires : Nat → Wire → Wire := fun _ w => w
  tile  : Tile → Tile := fun t => t
  rest  : State → State := fun r => r

/-- What a committed rule leaves: the effect e of its instruction on its own bank, then its guard word's predicates,
scoreboard slot and DEQ bits; and nothing else anywhere. -/
structure Leaves (s t : State) (f : Firing) (i : Instr) (e : Effect) : Prop where
  own    : (t.bank f.site).regs = e.regs.guard (Instr.hdr i) f.rule s.nextId
  others : ∀ y, y ≠ f.site → (t.bank y).regs = (s.bank y).regs
  tokens : ∀ y o, ((t.bank y).out o).said = ((s.bank y).out o).said ++
    (if y = f.site then (e.sends.filter (·.1 = o)).map (·.2) else [])
  heads  : ∀ y n, ((t.bank y).chan n).look =
    if y = f.site then (Hdr.dequeues (Instr.hdr i) n (e.chans n ((s.bank y).chan n))).look else ((s.bank y).chan n).look
  wires  : ∀ y o, ((t.bank y).out o).wire =
    if y = f.site then e.wires o ((s.bank y).out o).wire else ((s.bank y).out o).wire
  reqs   : t.reqs = s.reqs ++ e.asks
  shared : ∀ n, (t.tile n).shared = if n = f.site.tile then (e.tile (s.tile n)).shared else (s.tile n).shared
  plane  : ∀ n k, (t.slot n k).plane = (s.slot n k).plane
  rest   : t.rest = e.rest s.rest

end Sys2Proof.Machine
end

