-- ==== Sys2Proof/Certificates/Slice0/Obligations.lean ====
section
/-! DEFINITION. The statements for the provers, and the references that they are stated by: what the rules of the spec say
each instruction computes, written over bit vectors of the type's own width and over the tables of the spec. -/

namespace Sys2Proof.Claim

open Sys2Proof.Machine

/-! ### Integers and bits (R56, R60) -/

/-- The value of a pattern under the signedness of a type (R56). -/
def val {n : Nat} (sg : Bool) (x : BitVec n) : Int := if sg then x.toInt else (x.toNat : Int)

/-- The n-bit result of an instruction of groups 0x1_ and 0x2_ on the patterns of its sources (R56, R60). -/
def intResult {n : Nat} (sg : Bool) (x y z : BitVec n) : Instr → Option (BitVec n)
  | .add .. => some (x + y)
  | .sub .. => some (x - y)
  | .mul .. => some (x * y)
  | .mulh .. => some (BitVec.ofInt n (Int.fdiv (val sg x * val sg y) (2 ^ n)))
  | .mad .. => some (x * y + z)
  | .min .. => some (if val sg x ≤ val sg y then x else y)
  | .max .. => some (if val sg x ≤ val sg y then y else x)
  | .abs .. => some (if val sg x < 0 then -x else x)
  | .neg .. => some (-x)
  | .and .. => some (x &&& y)
  | .or .. => some (x ||| y)
  | .xor .. => some (x ^^^ y)
  | .andn .. => some (x &&& ~~~y)
  | .not .. => some (~~~x)
  | .shl .. => some (x <<< (y.toNat % n))
  | .shr .. => some (x >>> (y.toNat % n))
  | .sar .. => some (x.sshiftRight (y.toNat % n))
  | .rot .. => some (x.rotateRight (y.toNat % n))
  | .popc .. => some (BitVec.ofNat n ((List.range n).countP fun k => x.getLsbD k))
  | .brev .. => some x.reverse
  | .ext _ _ _ _ pos len1 =>
    let field := x.extractLsb' pos.toNat (len1.toNat + 1)
    some (if sg then field.signExtend n else field.setWidth n)
  | .ins _ _ _ _ _ pos len1 =>
    let mask := (BitVec.allOnes (len1.toNat + 1)).setWidth n <<< pos.toNat
    some ((x &&& ~~~mask) ||| ((y <<< pos.toNat) &&& mask))
  | _ => none

/-- The operands of an instruction of groups 0x1_ and 0x2_ that has a type. -/
structure IntForm where
  ty  : IntTy
  dst : Dst
  s1  : Src
  s2  : Src := .zero
  s3  : Src := .zero
  imm : BitVec 16 := 0

def intForm : Instr → Option IntForm
  | .add _ ty dst s1 s2 imm | .sub _ ty dst s1 s2 imm | .mul _ ty dst s1 s2 imm | .mulh _ ty dst s1 s2 imm
  | .div _ ty dst s1 s2 imm | .min _ ty dst s1 s2 imm | .max _ ty dst s1 s2 imm
  | .and _ ty dst s1 s2 imm | .or _ ty dst s1 s2 imm | .xor _ ty dst s1 s2 imm | .andn _ ty dst s1 s2 imm
  | .shl _ ty dst s1 s2 imm | .shr _ ty dst s1 s2 imm | .sar _ ty dst s1 s2 imm | .rot _ ty dst s1 s2 imm =>
    some { ty := ty, dst := dst, s1 := s1, s2 := s2, imm := imm }
  | .mad _ ty dst s1 s2 s3 imm => some { ty := ty, dst := dst, s1 := s1, s2 := s2, s3 := s3, imm := imm }
  | .abs _ ty dst s1 imm | .neg _ ty dst s1 imm | .not _ ty dst s1 imm | .clz _ ty dst s1 imm | .popc _ ty dst s1 imm
  | .brev _ ty dst s1 imm => some { ty := ty, dst := dst, s1 := s1, imm := imm }
  | .ext _ ty dst s1 _ _ => some { ty := ty, dst := dst, s1 := s1 }
  | .ins _ ty dst s1 s2 _ _ => some { ty := ty, dst := dst, s1 := s1, s2 := s2 }
  | _ => none

/-- The width of a type (R52). -/
def width : IntTy → Nat
  | .i32 | .n32 => 32
  | .i64 | .n64 => 64

/-- Whether a type is signed (R52). -/
def signed : IntTy → Bool
  | .i32 | .i64 => true
  | .n32 | .n64 => false

/-- The low bits of a source (R40). -/
def operand (b : Bank) (i : Instr) (n : Nat) (imm : BitVec 16) (s : Src) : BitVec n := (b.raw (Instr.hdr i) imm s).setWidth n

/-- The 64-bit result that an instruction of groups 0x1_ and 0x2_ writes, with its destination, from the bank before it. -/
def intWritten (b : Bank) (i : Instr) : Option (Dst × Word) :=
  (intForm i).bind fun o =>
    let n := width o.ty
    (intResult (signed o.ty) (operand b i n o.imm o.s1) (operand b i n o.imm o.s2) (operand b i n o.imm o.s3) i).map
      fun v => (o.dst, v.setWidth 64)

/-- The instructions of R56 whose latency is 3 (R51). -/
def latencyThree : Instr → Bool
  | .mul .. | .mulh .. | .mad .. => true
  | _ => false

/-- A register with its 16-bit chunk k replaced, the rest kept or cleared (R61). -/
def chunked (old : Word) (clear : Bool) (k : BitVec 2) (v : BitVec 16) : Word :=
  match k.toNat with
  | 0 => (if clear then 0 else old.extractLsb' 16 48) ++ v
  | 1 => ((if clear then 0 else old.extractLsb' 32 32) ++ v ++ (if clear then 0 else old.extractLsb' 0 16 : BitVec 16) : BitVec 64)
  | 2 => ((if clear then 0 else old.extractLsb' 48 16) ++ v ++ (if clear then 0 else old.extractLsb' 0 32 : BitVec 32) : BitVec 64)
  | _ => (v ++ (if clear then 0 else old.extractLsb' 0 48 : BitVec 48) : BitVec 64)

/-- The result of the instructions of SEL and of group 0x2_ that have no type: SEL, ADDR, LIMM, MOV (R53, R60, R61). -/
def wordWritten (b : Bank) (i : Instr) : Option (Dst × Word) :=
  match i with
  | .sel h dst s1 s2 pk => some (dst, if b.p.getLsbD pk.toNat then b.raw h 0 s1 else b.raw h 0 s2)
  | .addr h dst s1 s2 sc off =>
    let sum := b.raw h 0 s1 + b.raw h 0 s2 * (1 <<< sc.toNat) + off.signExtend 64
    some (dst, (sum.extractLsb' 0 48).signExtend 64)
  | .limm _ clear chunk dst v => some (dst, chunked (match dst with
      | .g n => b.reg (.g n.toNat)
      | .m n => b.reg (.m n.toNat)
      | _ => 0) clear chunk v)
  | .mov h dst s1 imm => some (dst, b.raw h imm s1)
  | _ => none

/-- Every instruction whose whole effect is one result of latency 1 over integers and bits, CLZ apart. -/
def writtenNow (b : Bank) (i : Instr) : Option (Dst × Word) :=
  if latencyThree i then none else (intWritten b i).or (wordWritten b i)

end Sys2Proof.Claim

open Sys2Proof Sys2Proof.Machine Sys2Proof.Claim

/-- R56, R60, R61, R53 (SEL): the result of every one-round instruction of groups 0x1_ and 0x2_ and of SEL is written, as
its type's bit pattern says, to its register, output or nowhere, and pushed; and nothing else changes. -/
def Obligations.IntegerResults : Prop :=
  ∀ (s : State) (f : Firing) (rest : List Firing) (i : Instr) (dst : Dst) (v : Word),
    writtenNow (s.bank f.site) i = some (dst, v) → Clear s f rest i → s.room f.site dst →
    ∃ t, exec i s = .next t ∧ Leaves s t f i { regs := (s.bank f.site).regs.now dst v, sends := Dst.sends dst v }

/-- R56, R36, R51: MUL, MULH and MAD leave their result pending for three rounds, in their destination and in d1. -/
def Sys2Proof.Claim.MultiplyResults : Prop :=
  ∀ (s : State) (f : Firing) (rest : List Firing) (i : Instr) (dst : Dst) (v : Word),
    latencyThree i = true → intWritten (s.bank f.site) i = some (dst, v) → Clear s f rest i → s.room f.site dst →
    ∃ t, exec i s = .next t ∧ Leaves s t f i { regs := (s.bank f.site).regs.later dst f.rule s.nextId 3 v }

/-- R60: CLZ counts the zero bits above the highest one bit, n of them when there is none. -/
def Sys2Proof.Claim.LeadingZeros : Prop :=
  ∀ (s : State) (f : Firing) (rest : List Firing) (h : Hdr) (ty : IntTy) (dst : Dst) (s1 : Src) (imm : BitVec 16) (k : Nat),
    k ≤ width ty →
    ((s.bank f.site).raw h imm s1).toNat % 2 ^ width ty < 2 ^ (width ty - k) →
    (k < width ty → 2 ^ (width ty - k - 1) ≤ ((s.bank f.site).raw h imm s1).toNat % 2 ^ width ty) →
    Clear s f rest (.clz h ty dst s1 imm) → s.room f.site dst →
    ∃ t, exec (.clz h ty dst s1 imm) s = .next t ∧
      Leaves s t f (.clz h ty dst s1 imm)
        { regs := (s.bank f.site).regs.now dst (BitVec.ofNat 64 k), sends := Dst.sends dst (BitVec.ofNat 64 k) }

/-- R57, R51: DIV by a divisor that is not zero leaves the quotient, rounded toward zero, pending for 12 or 20 rounds. -/
def Sys2Proof.Claim.DivideResult : Prop :=
  ∀ (s : State) (f : Firing) (rest : List Firing) (h : Hdr) (ty : IntTy) (dst : Dst) (s1 s2 : Src) (imm : BitVec 16),
    let i : Instr := .div h ty dst s1 s2 imm
    let a := val (signed ty) (operand (s.bank f.site) i (width ty) imm s1)
    let b := val (signed ty) (operand (s.bank f.site) i (width ty) imm s2)
    let lat := if width ty = 32 then 12 else 20
    let v : Word := (BitVec.ofInt (width ty) (Int.tdiv a b)).setWidth 64
    b ≠ 0 → Clear s f rest i → s.room f.site dst →
    ∃ t, exec i s = .next t ∧ Leaves s t f i { regs := (s.bank f.site).regs.later dst f.rule s.nextId lat v }

/-- R58: ADDC writes the low n bits of a + b + c[0] over the unsigned patterns, and bit n of it to its predicate, which its
footprint writes. -/
def Obligations.AddWithCarry : Prop :=
  ∀ (s : State) (f : Firing) (rest : List Firing) (h : Hdr) (ty : IntTy) (dst : Dst) (s1 s2 s3 : Src) (pk : BitVec 3),
    let i : Instr := .addc h ty dst s1 s2 s3 pk
    let a := (operand (s.bank f.site) i (width ty) 0 s1).toNat
    let b := (operand (s.bank f.site) i (width ty) 0 s2).toNat
    let c := b2n ((operand (s.bank f.site) i (width ty) 0 s3).getLsbD 0)
    let v : Word := BitVec.ofNat 64 ((a + b + c) % 2 ^ width ty)
    .p pk.toNat ∈ Instr.writes i ∧ (Clear s f rest i → s.room f.site dst →
    ∃ t, exec i s = .next t ∧
      Leaves s t f i { regs := ((s.bank f.site).regs.now dst v).pred pk (decide (2 ^ width ty ≤ a + b + c)), sends := Dst.sends dst v })

namespace Sys2Proof.Claim

/-- What CMP, TST and PLOG write to their predicate (R53). -/
def predWritten (b : Bank) (i : Instr) : Option (BitVec 3 × Bool) :=
  match i with
  | .plog _ pd pa pb tt => some (pd, match b.p.getLsbD pa.toNat, b.p.getLsbD pb.toNat with
      | false, false => tt.getLsbD 0
      | false, true => tt.getLsbD 1
      | true, false => tt.getLsbD 2
      | true, true => tt.getLsbD 3)
  | .cmp _ ty s1 s2 pk cond =>
    let a := val (signed ty) (operand b i (width ty) 0 s1)
    let c := val (signed ty) (operand b i (width ty) 0 s2)
    some (pk, match cond with
      | .eq => decide (a = c) | .ne => decide (a ≠ c) | .lt => decide (a < c)
      | .le => decide (a ≤ c) | .gt => decide (c < a) | .ge => decide (c ≤ a))
  | .tst _ ty s1 s2 pk ifzero =>
    let both := operand b i (width ty) 0 s1 &&& operand b i (width ty) 0 s2
    some (pk, if ifzero then decide (both = 0) else decide (both ≠ 0))
  | _ => none

end Sys2Proof.Claim

/-- R53: PLOG, CMP and TST write one predicate, before the guard word's own changes, and nothing else. -/
def Sys2Proof.Claim.PredicateResults : Prop :=
  ∀ (s : State) (f : Firing) (rest : List Firing) (i : Instr) (pk : BitVec 3) (v : Bool),
    predWritten (s.bank f.site) i = some (pk, v) → Clear s f rest i →
    ∃ t, exec i s = .next t ∧ Leaves s t f i { regs := (s.bank f.site).regs.pred pk v }

/-- R52, R34: NOP has its guard-word effects and no other. -/
def Sys2Proof.Claim.NopGuardWord : Prop :=
  ∀ (s : State) (f : Firing) (rest : List Firing) (h : Hdr), Clear s f rest (.nop h) →
    ∃ t, exec (.nop h) s = .next t ∧ Leaves s t f (.nop h) { regs := (s.bank f.site).regs }

/-! ### Channels, special registers, dataflow control (R62 to R67, R252, R278 to R288) -/

namespace Sys2Proof.Claim

/-- A copy of a token as its receiver sees it (R65, R278). -/
def copied (t : Token) : Said := { cls := t.cls, payload := t.payload, etag := t.etag }

/-- The tokens that an instruction sends at once whose whole effect is to send them, from the bank before it: SEND, CTL,
STOP, FWD, STEER, FORK (R63, R65, R252, R280, R281, R284). A marker is no head of a rule (R323). -/
def sentTokens (b : Bank) (i : Instr) : Option (List (Nat × Said)) :=
  match i with
  | .send h cls o s1 imm => some [(o.toNat, { cls := cls.code.setWidth 3, payload := b.raw h imm s1 })]
  | .ctl h o s1 imm => some [(o.toNat, { cls := 4, payload := b.raw h imm s1 })]
  | .stop _ o lvl => some [(o.toNat, { cls := 3, payload := lvl.setWidth 64 })]
  | .fwd h o hd => (b.headTok h hd).bind fun t => if t.cls = 6 then none else some [(o.toNat, copied t)]
  | .steer h o hd pk o2 => (b.headTok h hd).map fun t => [((if b.p.getLsbD pk.toNat then o else o2).toNat, copied t)]
  | .fork h o hd also => (b.headTok h hd).map fun t =>
    ((List.range 8).filter fun k => k = o.toNat || also.getLsbD k).map fun k => (k, copied t)
  | _ => none

/-- A channel from whose head at most n tokens are removed, stopping before a class in `stops` (R64, R283); its scale latch
follows each (R178). -/
def removed (stops : List (BitVec 3)) : Nat → Chan → Chan
  | 0, c => c
  | n + 1, c => match c.toks with
    | [] => c
    | t :: r => if stops.contains t.cls then c else removed stops n { c.noteRemoved t with toks := r }

/-- What DEQ and SINK do to channels: the channel that they name, how many tokens, and before which classes they stop:
control 4, drain 5, marker 6, completion 7 (R64, R69, R283). -/
def removal : Instr → Option (Nat × Nat × List (BitVec 3))
  | .deq _ ch cnt1 => some (ch.toNat, cnt1.toNat + 1, [4, 5, 6, 7])
  | .sink _ ch cnt1 => some (ch.toNat, cnt1.toNat + 1, [5, 6])
  | _ => none

/-- The special registers that the cell holds (R47), by number; CELLID apart. -/
def special (b : Bank) (num : Nat) : Option Word :=
  match num with
  | 0x01 => some b.rounds
  | 0x02 => some b.aborts
  | 0x03 => some b.shortHolds
  | 0x04 => some b.longWaits
  | 0x05 => some b.reuseMiss
  | 0x06 => some b.discards
  | 0x08 => some (b.lfsr.setWidth 64)
  | 0x09 => some (b.sticky.setWidth 64)
  | 0x0A => some (b.p.setWidth 64)
  | 0x0B => some (BitVec.ofNat 64 (b2n (b.sb.getD 0 none).isSome + 2 * b2n (b.sb.getD 1 none).isSome +
      4 * b2n (b.sb.getD 2 none).isSome + 8 * b2n (b.sb.getD 3 none).isSome + 16 * b2n (b.sb.getD 4 none).isSome +
      32 * b2n (b.sb.getD 5 none).isSome + 64 * b2n (b.sb.getD 6 none).isSome + 128 * b2n (b.sb.getD 7 none).isSome))
  | 0x0C => if (List.range 16).all fun k => (b.chan k).toks.length < 16 then
      some (BitVec.ofNat 64 (((List.range 16).map fun k => (b.chan k).toks.length * 16 ^ k).sum)) else none
  | 0x0D => if (List.range 16).all fun k => (b.chan (16 + k)).toks.length < 16 then
      some (BitVec.ofNat 64 (((List.range 16).map fun k => (b.chan (16 + k)).toks.length * 16 ^ k).sum)) else none
  | 0x18 => some (b.chkint.setWidth 64)
  | _ => none

/-- CELLID (R47), from its fields. -/
def cellIdWord (cell : BitVec 8) (tile rtile : BitVec 6) (slot : BitVec 2) (saggar : BitVec 4) (plane : BitVec 9) : Word :=
  0#29 ++ plane ++ saggar ++ slot ++ rtile ++ tile ++ cell

/-- What WRSPEC leaves of the registers (R47): a written zero of LFSR becomes 1, and bits without a flag are ignored. -/
def specialWritten (r : Regs) (num : Nat) (v : Word) : Option Regs :=
  match num with
  | 0x08 => some { r with lfsr := if v.setWidth 32 = 0#32 then 1#32 else v.setWidth 32 }
  | 0x09 => some { r with sticky := v.setWidth 6 }
  | 0x0A => some { r with p := v.setWidth 8 }
  | 0x18 => some { r with chkint := v.setWidth 16 }
  | _ => none

/-- A rule aborts (R35, R48): the round counts one abort more of its cell, whose counters stay as they are until it closes;
no register, channel, output, request, table or byte changes. -/
structure Aborts (s t : State) (x : Site) : Prop where
  banks  : ∀ y, (t.bank y).regs = (s.bank y).regs ∧ (t.bank y).chans = (s.bank y).chans ∧ (t.bank y).outs = (s.bank y).outs
  count  : (t.bank x).due = { (s.bank x).due with aborts := (s.bank x).due.aborts + 1 }
  aborts : (t.bank x).aborts = (s.bank x).aborts
  reqs   : t.reqs = s.reqs
  rest   : t.rest = s.rest
  tiles  : SameTiles s t

/-- A 32-bit credit after GATE set and GATE add (R285): a disabled gate starts at the amount, an enabled one saturates. -/
def creditAdded (p : OutState) (v : BitVec 32) : BitVec 32 :=
  if p.gateOn = false then v
  else if p.credit.toNat + v.toNat < 2 ^ 32 then p.credit + v else BitVec.allOnes 32

end Sys2Proof.Claim

/-- R63, R65, R252, R280, R281, R284: SEND, CTL, STOP, FWD, STEER and FORK send their tokens, each at the end of its output,
when every one of them finds a slot; they change no register. -/
def Obligations.TokensSent : Prop :=
  ∀ (s : State) (f : Firing) (rest : List Firing) (i : Instr) (sends : List (Nat × Said)),
    sentTokens (s.bank f.site) i = some sends → Clear s f rest i → s.lacksAfter f.site [] (sends.map (·.1)) = none →
    ∃ t, exec i s = .next t ∧ Leaves s t f i { regs := (s.bank f.site).regs, sends := sends }

/-- R35, R48: a rule that sends and finds no free slot or no credit on its output aborts: the round counts one abort more, no
register, channel, output, request or table changes, and no counter of the cell does before the round closes. -/
def Sys2Proof.Claim.SendAborts : Prop :=
  ∀ (s : State) (f : Firing) (rest : List Firing) (h : Hdr) (cls : SendCls) (o : Out) (s1 : Src) (imm : BitVec 16),
    let i : Instr := .send h cls o s1 imm
    Clear s f rest i → s.canSend f.site o.toNat 1 = false →
    ∃ t, exec i s = .next t ∧ Aborts s t f.site

/-- R64, R283, R178: DEQ and SINK remove up to their count of tokens from the head of their channel, stopping before the
classes that the rules name, and change nothing else, when no head that they reach is a bad scale header. -/
def Obligations.TokensRemoved : Prop :=
  ∀ (s : State) (f : Firing) (rest : List Firing) (i : Instr) (ch n : Nat) (stops : List (BitVec 3)),
    removal i = some (ch, n, stops) → Clear s f rest i → ((s.bank f.site).chan ch).headersGood = true →
    ∃ t, exec i s = .next t ∧ Leaves s t f i
      { regs := (s.bank f.site).regs, chans := fun k c => if k = ch then removed stops n c else c }

/-- R282: MERGE sends a copy of the head of the channel that its selector names, and removes that head before the DEQ bits
of its rule apply. -/
def Sys2Proof.Claim.MergeMoves : Prop :=
  ∀ (s : State) (f : Firing) (rest : List Firing) (h : Hdr) (o : Out) (hd : Head) (va vb : BitVec 5) (sel t : Token)
    (r : List Token),
    let i : Instr := .merge h o hd va vb
    let b := s.bank f.site
    let n := if sel.payload.getLsbD 0 then vb.toNat else va.toNat
    b.headTok h hd = some sel → (b.chan n).toks = t :: r → (b.chan n).headersGood = true →
    Clear s f rest i → s.canSend f.site o.toNat 1 = true →
    ∃ u, exec i s = .next u ∧ Leaves s u f i
      { regs := b.regs, sends := [(o.toNat, copied t)]
        chans := fun k c => if k = n then { c.noteRemoved t with toks := r } else c }

/-- R66: TAGOF writes the class, error tag, channel, plane slot and sequence number of the head of its channel,
which it reads and does not remove. -/
def Obligations.TagOfHead : Prop :=
  ∀ (s : State) (f : Firing) (rest : List Firing) (h : Hdr) (dst : Dst) (hd : Head) (ct : ChanTest) (k : Token) (r : List Token),
    let i : Instr := .tagof h dst hd
    let v : Word := BitVec.ofNat 32 k.seq ++ 0#21 ++ BitVec.ofNat 2 f.site.slot ++ ct.ch ++ BitVec.ofBool k.etag ++ k.cls
    (match hd with | .A => h.cta | .B => h.ctb) = some ct → ((s.bank f.site).chan ct.ch.toNat).toks = k :: r →
    f.site.slot < 4 → Clear s f rest i → s.room f.site dst →
    .v ct.ch.toNat ∈ Instr.reads i ∧ ∃ t, exec i s = .next t ∧ Leaves s t f i { regs := (s.bank f.site).regs.now dst v, sends := Dst.sends dst v }

/-- R47, R67: RDSPEC writes the special register that it names, CELLID from the place of the cell. -/
def Sys2Proof.Claim.SpecialRead : Prop :=
  ∀ (s : State) (f : Firing) (rest : List Firing) (h : Hdr) (dst : Dst) (num : BitVec 8) (v : Word),
    let i : Instr := .rdspec h dst num
    (special (s.bank f.site) num.toNat = some v ∨
      (num = 0 ∧ f.site.cell < 256 ∧ f.site.tile < 64 ∧ s.rtileOf f.site < 64 ∧ f.site.slot < 4 ∧ s.saggarOf f.site < 16 ∧
        s.planeNum f.site < 512 ∧
        v = cellIdWord (BitVec.ofNat 8 f.site.cell) (BitVec.ofNat 6 f.site.tile) (BitVec.ofNat 6 (s.rtileOf f.site))
          (BitVec.ofNat 2 f.site.slot) (BitVec.ofNat 4 (s.saggarOf f.site)) (BitVec.ofNat 9 (s.planeNum f.site)))) →
    Clear s f rest i → s.room f.site dst →
    ∃ t, exec i s = .next t ∧ Leaves s t f i { regs := (s.bank f.site).regs.now dst v, sends := Dst.sends dst v }

/-- R47, R67: WRSPEC writes LFSR, STICKY, PREDS or CHKINT, before the guard word's own changes, and nothing else. -/
def Sys2Proof.Claim.SpecialWritten : Prop :=
  ∀ (s : State) (f : Firing) (rest : List Firing) (h : Hdr) (s1 : Src) (num : BitVec 8) (r : Regs),
    let i : Instr := .wrspec h s1 num
    specialWritten (s.bank f.site).regs num.toNat ((s.bank f.site).raw h 0 s1) = some r → Clear s f rest i →
    ∃ t, exec i s = .next t ∧ Leaves s t f i { regs := r }

/-- R54, R80, R34: RETIRE sets the retired bit and, its own DEQ bits done, discards the tokens that the cell's channels still hold,
markers apart, counting those that are no drain tokens. -/
def Obligations.CellRetires : Prop :=
  ∀ (s : State) (f : Firing) (rest : List Firing) (h : Hdr), Clear s f rest (.retire h) →
    let b := s.bank f.site
    let left (n : Nat) : Chan := Hdr.dequeues h n (b.chan n)
    ∃ t, exec (.retire h) s = .next t ∧ Leaves s t f (.retire h)
        { regs := { b.regs with retired := true }
          chans := fun n c => { Hdr.dequeues h n c with toks := (Hdr.dequeues h n c).toks.filter (·.cls = 6) } } ∧
      (t.bank f.site).discards = b.discards + BitVec.ofNat 64
        (((List.range b.chans.length).flatMap fun n => (left n).toks).filter fun k => k.cls ≠ 5 ∧ k.cls ≠ 6).length

/-- R286: CNT counts up, wraps to 0 at its limit, and writes its predicate with the wrap; its footprint reads S1 and
writes DST and the predicate. -/
def Obligations.CountWraps : Prop :=
  ∀ (s : State) (f : Firing) (rest : List Firing) (h : Hdr) (dst : Dst) (s1 : Src) (pk : BitVec 3) (lim1 : BitVec 13),
    let i : Instr := .cnt h dst s1 pk lim1
    let n := ((s.bank f.site).raw h 0 s1).toNat % 2 ^ 32 + 1
    let wraps := lim1.toNat + 1 ≤ n
    let v : Word := if wraps then 0 else BitVec.ofNat 64 n
    ((∀ r ∈ Src.res h s1, r ∈ Instr.reads i) ∧ (∀ r ∈ Dst.res dst, r ∈ Instr.writes i) ∧ .p pk.toNat ∈ Instr.writes i) ∧
    (Clear s f rest i → s.room f.site dst →
      ∃ t, exec i s = .next t ∧
        Leaves s t f i { regs := ((s.bank f.site).regs.now dst v).pred pk (decide wraps), sends := Dst.sends dst v })

/-- R285: GATE set, add and off enable or disable the gate of one output and set its credit; a disabled gate keeps none that
counts. -/
def Sys2Proof.Claim.GatesSet : Prop :=
  ∀ (s : State) (f : Firing) (rest : List Firing) (h : Hdr) (o : Out) (s1 : Src) (imm : BitVec 16),
    let b := s.bank f.site
    let v := (b.raw h imm s1).setWidth 32
    let on (on : Bool) : Nat → Wire → Wire := fun k w => if k = o.toNat then { w with gateOn := on } else w
    (Clear s f rest (.gateSet h o s1 imm) → ∃ t, exec (.gateSet h o s1 imm) s = .next t ∧
      Leaves s t f (.gateSet h o s1 imm) { regs := b.regs, wires := on true } ∧ ((t.bank f.site).out o.toNat).credit = v) ∧
    (Clear s f rest (.gateAdd h o s1 imm) → ∃ t, exec (.gateAdd h o s1 imm) s = .next t ∧
      Leaves s t f (.gateAdd h o s1 imm) { regs := b.regs, wires := on true } ∧
      ((t.bank f.site).out o.toNat).credit = creditAdded (b.out o.toNat) v) ∧
    (Clear s f rest (.gateOff h o) → ∃ t, exec (.gateOff h o) s = .next t ∧
      Leaves s t f (.gateOff h o) { regs := b.regs, wires := on false })

namespace Sys2Proof.Claim

/-- The levels of a nest from registers gk on (R287): of each level, c and b in one register and s in the next. -/
def nestLevels (b : Bank) (k depth : Nat) : List LoopLevel :=
  (List.range depth).map fun l =>
    { c := ((b.reg (.g (k + 2 * l))).extractLsb' 0 32).toNat, b := (b.reg (.g (k + 2 * l))).extractLsb' 32 32
      s := (b.reg (.g (k + 2 * l + 1))).extractLsb' 0 32 }

/-- A tile whose m loop-control units from `u` on are held by an output of a cell and plane slot. -/
def unitsHeld (u m : Nat) (who : Nat × Nat × Nat) (t : Tile) : Tile :=
  { t with loops := (List.range m).foldl (fun l k => setAt none l (u + k) (some who)) t.loops }

end Sys2Proof.Claim

/-- R287: LOOPOPEN takes the lowest run of free loop-control units, one for four levels, reads its levels, all of them with a
count, from its registers, and holds its output as a nest; it sends nothing itself, and its first token leaves in a later round (log
entry 52). -/
def Sys2Proof.Claim.NestOpens : Prop :=
  ∀ (s : State) (f : Firing) (rest : List Firing) (h : Hdr) (o : Out) (k : BitVec 5) (dep1 : BitVec 4) (u : Nat),
    let i : Instr := .loopopen h o (.g k) dep1
    let b := s.bank f.site
    let levels := nestLevels b k.toNat (dep1.toNat + 1)
    let m := (dep1.toNat + 1 + 3) / 4
    let nest : UnitWork := .nest { out := o.toNat, first := u, units := m, levels := levels }
    let free (v : Nat) : Prop := v + m ≤ 4 ∧ ∀ j, j < m → (s.tile f.site.tile).loops.getD (v + j) none = none
    u < 4 → free u → (∀ v, v < u → ¬ free v) →
    (∀ l ∈ levels, l.c ≠ 0) → b.hasNest o.toNat = false → Clear s f rest i →
    ∃ t, exec i s = .next t ∧ Leaves s t f i
      { regs := { b.regs with units := b.regs.units ++ [{ id := s.nextId, firing := s.nextId, rule := f.rule, wait := 1, work := nest }] }
        tile := unitsHeld u m (f.site.slot, f.site.cell, o.toNat) }

/-- R288: LOOPDONE leaves its output held by no nest, and the loop-control units of a nest that held it free; it changes no
other register, request or table. One on an output that no nest holds has its guard-word effects only. -/
def Sys2Proof.Claim.NestReleased : Prop :=
  ∀ (s : State) (f : Firing) (rest : List Firing) (h : Hdr) (o : Out), Clear s f rest (.loopdone h o) →
    ∃ t, exec (.loopdone h o) s = .next t ∧ (t.bank f.site).hasNest o.toNat = false ∧
      (∀ n ∈ (s.bank f.site).units, ∀ w, n.work = .nest w → w.out = o.toNat → ∀ j, j < w.units →
        (t.tile f.site.tile).loops.getD (w.first + j) none = none) ∧
      { (t.bank f.site).regs with units := [], sb := [], p := 0 } = { (s.bank f.site).regs with units := [], sb := [], p := 0 } ∧
      (t.bank f.site).p = predUpdate (s.bank f.site).p h.pset h.pclr ∧
      (∀ y, y ≠ f.site → (t.bank y).regs = (s.bank y).regs) ∧ t.reqs = s.reqs ∧ t.rest = s.rest ∧
      ((s.bank f.site).hasNest o.toNat = false → Leaves s t f (.loopdone h o) { regs := (s.bank f.site).regs })

/-! ### Floating point, packed lanes, conversions, tables (R158 to R218) -/

namespace Sys2Proof.Claim

/-- The operands of a scalar floating-point instruction that rounds one exact result once (R204, R207): type, destination,
sources in order, mode, flush, latency (R202). -/
structure FloatForm where
  ty   : FTy
  dst  : Dst
  srcs : List Src
  rm   : Rm
  ftz  : Bool
  lat  : Nat

/-- The latency of the functions of R202. -/
def functionRounds (ty : FTy) : Nat := match ty with
  | .f64 => 16
  | _ => 8

def floatForm : Instr → Option FloatForm
  | .fadd _ ty dst s1 s2 rm ftz | .fsub _ ty dst s1 s2 rm ftz | .fmul _ ty dst s1 s2 rm ftz =>
    some { ty := ty, dst := dst, srcs := [s1, s2], rm := rm, ftz := ftz, lat := 4 }
  | .fma _ ty dst s1 s2 s3 rm ftz => some { ty := ty, dst := dst, srcs := [s1, s2, s3], rm := rm, ftz := ftz, lat := 4 }
  | .frcp _ ty dst s1 rm ftz | .frsq _ ty dst s1 rm ftz | .fexp2 _ ty dst s1 rm ftz | .flog2 _ ty dst s1 rm ftz
  | .fsqrt _ ty dst s1 rm ftz => some { ty := ty, dst := dst, srcs := [s1], rm := rm, ftz := ftz, lat := functionRounds ty }
  | .fscale _ ty dst s1 _ rm ftz => some { ty := ty, dst := dst, srcs := [s1], rm := rm, ftz := ftz, lat := 2 }
  | _ => none

/-- The exact result of R204 and R205 over the values of the sources, before its one rounding; n is FSCALE's integer, beyond
±8192 as at it: every format has overflowed or vanished there. -/
def exactResult (i : Instr) (n : Int) (a b c : FVal) : Option FRes :=
  match i with
  | .fadd _ _ _ _ _ rm _ => some (faddV rm a b)
  | .fsub _ _ _ _ _ rm _ => some (fsubV rm a b)
  | .fmul .. => some (fmulV a b)
  | .fma _ _ _ _ _ _ rm _ => some (ffmaV rm a b c)
  | .frcp .. => some (frcpV a)
  | .frsq .. => some (frsqV a)
  | .fexp2 .. => some (fexp2V a)
  | .flog2 .. => some (flog2V a)
  | .fsqrt .. => some (fsqrtV a)
  | .fscale .. => some { val := a.scaleBy (if n < -8192 then -8192 else if 8192 < n then 8192 else n) }
  | _ => none

/-- The integer source of FSCALE (R207). -/
def scaleSource (b : Bank) : Instr → Int
  | .fscale h _ _ _ s2 _ _ => (b.raw h 0 s2).toInt
  | _ => 0

/-- The flags of R161 and R205. -/
def resultFlags (r : FRes) : BitVec 6 := BitVec.ofBool r.divZero ++ BitVec.ofBool r.invalid |>.setWidth 6

/-- The registers after a rule that rounds: its LFSR, and its flags added to the sticky ones (R168, R169). -/
def rounded (r : Regs) (e : REnv) : Regs := { r with lfsr := e.lfsr, sticky := r.sticky ||| e.flags }

/-- The scalar instructions that pick or change encodings without rounding (R206, R207): their type, destination, sources,
and result over the source encodings. -/
def bitsForm : Instr → Option (FTy × Dst × List Src × (Nat → Nat → Nat))
  | .fmin _ ty dst s1 s2 => some (ty, dst, [s1, s2], minMaxBits (ftyF ty) false)
  | .fmax _ ty dst s1 s2 => some (ty, dst, [s1, s2], minMaxBits (ftyF ty) true)
  | .fabs _ ty dst s1 => some (ty, dst, [s1], fun x _ => x % 2 ^ ((ftyF ty).width - 1))
  | .fneg _ ty dst s1 => some (ty, dst, [s1], fun x _ => x ^^^ 2 ^ ((ftyF ty).width - 1))
  | .fclass _ ty dst s1 => some (ty, dst, [s1], fun x _ => match (ftyF ty).decode x with
      | .inf true => 1 | .inf false => 128 | .nan _ => 256
      | .fin neg m _ _ =>
        if m = 0 then (if neg then 8 else 16)
        else if (ftyF ty).isSubnormal x then (if neg then 4 else 32)
        else (if neg then 2 else 64))
  | _ => none

/-- A head source of a packed instruction can be read when its channel's entry is raw or has the lane width (R200). -/
def lanesReadable (b : Bank) (h : Hdr) (w : Nat) (srcs : List Src) : Prop :=
  ∀ hd n, Src.head hd ∈ srcs → Hdr.headCh h hd = some n → fmtOf (b.chan n).fmt = .raw ∨ fmtBits (fmtOf (b.chan n).fmt) = w

/-- The packed instructions that round one exact result a lane (R209). -/
def laneForm : Instr → Option (VTy × Dst × List Src × Rm × Bool)
  | .vadd _ ty dst s1 s2 rm ftz | .vsub _ ty dst s1 s2 rm ftz | .vmul _ ty dst s1 s2 rm ftz => some (ty, dst, [s1, s2], rm, ftz)
  | .vfma _ ty dst s1 s2 s3 rm ftz => some (ty, dst, [s1, s2, s3], rm, ftz)
  | _ => none

def laneExact (i : Instr) (a b c : FVal) : Option FRes :=
  match i with
  | .vadd _ _ _ _ _ rm _ => some (faddV rm a b)
  | .vsub _ _ _ _ _ rm _ => some (fsubV rm a b)
  | .vmul .. => some (fmulV a b)
  | .vfma _ _ _ _ _ _ rm _ => some (ffmaV rm a b c)
  | _ => none

/-- The lanes of a result, rounded in ascending order, each with the environment that the one before it left (R168, R209). -/
def roundLanes (f : FFmt) (rm : Rm) (ftz : Bool) : List FRes → REnv → List Nat × REnv
  | [], e => ([], e)
  | x :: r, e =>
    let y := fpRound f rm ftz x.val { e with flags := e.flags ||| resultFlags x }
    let z := roundLanes f rm ftz r y.2
    (y.1 :: z.1, z.2)

/-- The packed instructions that pick a result a lane without rounding (R209): their latency, and a lane's result and flags
over the lanes of the sources. -/
def pickForm : Instr → Option (VTy × Dst × List Src × Nat × (Nat → Nat → Nat → Nat) × (Nat → Nat → BitVec 6))
  | .vmin _ ty dst s1 s2 => some (ty, dst, [s1, s2], 1, fun x y _ => minMaxBits (vtyF ty) false x y, fun _ _ => 0)
  | .vmax _ ty dst s1 s2 => some (ty, dst, [s1, s2], 1, fun x y _ => minMaxBits (vtyF ty) true x y, fun _ _ => 0)
  | .vamax _ ty dst s1 s2 => some (ty, dst, [s1, s2], 2, fun x y _ => amaxBits (vtyF ty) x y, fun _ _ => 0)
  | .vsel _ ty dst s1 s2 s3 => some (ty, dst, [s1, s2, s3], 1,
      fun x y m => if 2 ^ ((vtyF ty).width - 1) ≤ m % 2 ^ (vtyF ty).width then x else y, fun _ _ => 0)
  | .vcmp _ ty dst s1 s2 cond => some (ty, dst, [s1, s2], 1,
      fun x y _ => if fcondHolds cond ((vtyF ty).decode x) ((vtyF ty).decode y) then 2 ^ (vtyF ty).width - 1 else 0,
      fun x y => if fcondInvalid cond ((vtyF ty).decode x) ((vtyF ty).decode y) then 1 else 0)
  | _ => none

/-- A result of a latency, at once or later. -/
def delivered (r : Regs) (dst : Dst) (rule id lat : Nat) (v : Word) : Regs :=
  if lat = 1 then r.now dst v else r.later dst rule id lat v

def sentNow (dst : Dst) (lat : Nat) (v : Word) : List (Nat × Said) := if lat = 1 then Dst.sends dst v else []

end Sys2Proof.Claim

/-- R204, R205, R207, R202: the scalar floating-point arithmetic rounds the exact result of its sources once; the value stands
in its destination after the latency, the LFSR and the sticky flags follow at once. -/
def Obligations.FloatResults : Prop :=
  ∀ (s : State) (f : Firing) (rest : List Firing) (i : Instr) (o : FloatForm) (x : List Nat) (e : REnv) (r : FRes),
    let b := s.bank f.site
    let v (k : Nat) : FVal := (ftyF o.ty).decode (x.getD k 0)
    let y := fpRound (ftyF o.ty) o.rm o.ftz r.val { e with flags := e.flags ||| resultFlags r }
    floatForm i = some o → b.readScalars (Instr.hdr i) (ftyFmt o.ty) o.srcs { lfsr := b.lfsr, flags := 0 } = (x, e) →
    exactResult i (scaleSource b i) (v 0) (if 1 < x.length then v 1 else .zero) (if 2 < x.length then v 2 else .zero) = some r →
    Clear s f rest i → s.room f.site o.dst →
    ∃ t, exec i s = .next t ∧
      Leaves s t f i { regs := rounded (b.regs.later o.dst f.rule s.nextId o.lat (BitVec.ofNat 64 y.1)) y.2 }

/-- R206, R207: FMIN, FMAX, FABS, FNEG and FCLASS give their result bit for bit, with no flag of their own. -/
def Sys2Proof.Claim.FloatBits : Prop :=
  ∀ (s : State) (f : Firing) (rest : List Firing) (i : Instr) (ty : FTy) (dst : Dst) (srcs : List Src)
    (op : Nat → Nat → Nat) (x : List Nat) (e : REnv),
    let b := s.bank f.site
    let v : Word := BitVec.ofNat 64 (op (x.getD 0 0) (x.getD 1 0))
    bitsForm i = some (ty, dst, srcs, op) → b.readScalars (Instr.hdr i) (ftyFmt ty) srcs { lfsr := b.lfsr, flags := 0 } = (x, e) →
    Clear s f rest i → s.room f.site dst →
    ∃ t, exec i s = .next t ∧ Leaves s t f i { regs := rounded (b.regs.now dst v) e, sends := Dst.sends dst v }

/-- R206: FCMP writes its predicate with the condition, which with a NaN holds for ne and un only, and sets invalid for lt, le,
gt and ge with a NaN. -/
def Sys2Proof.Claim.FloatCompare : Prop :=
  ∀ (s : State) (f : Firing) (rest : List Firing) (h : Hdr) (ty : FTy) (s1 s2 : Src) (pk : BitVec 3) (cond : FCond) (x y : Nat)
    (e : REnv),
    let i : Instr := .fcmp h ty s1 s2 pk cond
    let b := s.bank f.site
    let nan := ((ftyF ty).decode x).isNan || ((ftyF ty).decode y).isNan
    let holds := if nan then cond = .ne || cond = .un else fcondHolds cond ((ftyF ty).decode x) ((ftyF ty).decode y)
    let flag : BitVec 6 := if nan && (cond = .lt || cond = .le || cond = .gt || cond = .ge) then 1 else 0
    b.readScalars h (ftyFmt ty) [s1, s2] { lfsr := b.lfsr, flags := 0 } = ([x, y], e) → Clear s f rest i →
    ∃ t, exec i s = .next t ∧
      Leaves s t f i { regs := rounded (b.regs.pred pk holds) { e with flags := e.flags ||| flag } }

/-- R208, R209, R168: VADD, VSUB, VMUL and VFMA round one exact result a lane, in ascending lane order; the packed word stands
in the destination after four rounds. -/
def Obligations.LaneResults : Prop :=
  ∀ (s : State) (f : Firing) (rest : List Firing) (i : Instr) (ty : VTy) (dst : Dst) (srcs : List Src) (rm : Rm) (ftz : Bool)
    (x : List (List Nat)) (e : REnv) (rs : List FRes),
    let b := s.bank f.site
    let w := (vtyF ty).width
    let v (j k : Nat) : FVal := if j < x.length then (vtyF ty).decode ((x.getD j []).getD k 0) else .zero
    let y := roundLanes (vtyF ty) rm ftz rs e
    laneForm i = some (ty, dst, srcs, rm, ftz) → lanesReadable b (Instr.hdr i) w srcs →
    b.readLanes (Instr.hdr i) (vtyFmt ty) (64 / w) srcs { lfsr := b.lfsr, flags := 0 } = (x, e) →
    (List.range (64 / w)).map (fun k => laneExact i (v 0 k) (v 1 k) (v 2 k)) = rs.map some →
    Clear s f rest i → s.room f.site dst →
    ∃ t, exec i s = .next t ∧
      Leaves s t f i { regs := rounded (b.regs.later dst f.rule s.nextId 4 (packLanes w y.1)) y.2 }

/-- R209: VMIN, VMAX, VAMAX, VSEL and VCMP pick a result a lane; a VCMP lane is all ones or all zeros, with FCMP's flag. -/
def Sys2Proof.Claim.LanePicks : Prop :=
  ∀ (s : State) (f : Firing) (rest : List Firing) (i : Instr) (ty : VTy) (dst : Dst) (srcs : List Src) (lat : Nat)
    (op : Nat → Nat → Nat → Nat) (flags : Nat → Nat → BitVec 6) (x : List (List Nat)) (e : REnv),
    let b := s.bank f.site
    let w := (vtyF ty).width
    let lane (j k : Nat) : Nat := (x.getD j []).getD k 0
    let y : Word := packLanes w ((List.range (64 / w)).map fun k => op (lane 0 k) (lane 1 k) (lane 2 k))
    let fl := (List.range (64 / w)).foldl (fun a k => a ||| flags (lane 0 k) (lane 1 k)) e.flags
    pickForm i = some (ty, dst, srcs, lat, op, flags) → lanesReadable b (Instr.hdr i) w srcs →
    b.readLanes (Instr.hdr i) (vtyFmt ty) (64 / w) srcs { lfsr := b.lfsr, flags := 0 } = (x, e) →
    Clear s f rest i → s.room f.site dst →
    ∃ t, exec i s = .next t ∧
      Leaves s t f i { regs := rounded (delivered b.regs dst f.rule s.nextId lat y) { e with flags := fl }, sends := sentNow dst lat y }

namespace Sys2Proof.Claim

/-- VSUM's value (R210): the pairs added first, then the two sums; each sum rounded to FP32, the flush at the last only. -/
def sumTree (rm : Rm) (ftz : Bool) (e : REnv) : List FVal → Option (Nat × REnv)
  | [a, b] => some (roundRes fp32 rm ftz (faddV rm a b) e)
  | [a, b, c, d] =>
    let lo := roundRes fp32 rm false (faddV rm a b) e
    let hi := roundRes fp32 rm false (faddV rm c d) lo.2
    some (roundRes fp32 rm ftz (faddV rm (fp32.decode lo.1) (fp32.decode hi.1)) hi.2)
  | _ => none

/-- VDOT3's value (R210) over the exact products of its lanes: two FP32 products each rounded, then added; four 16-bit
products added exactly and rounded once. -/
def tripleSum (rm : Rm) (ftz : Bool) (e : REnv) : List FRes → Option (Nat × REnv)
  | [p, q] =>
    let a := roundRes fp32 rm false p e
    let b := roundRes fp32 rm false q a.2
    some (roundRes fp32 rm ftz (faddV rm (fp32.decode a.1) (fp32.decode b.1)) b.2)
  | [p, q, r, t] =>
    let sum := fsumV rm [p.val, q.val, r.val, t.val]
    some (roundRes fp32 rm ftz { sum with invalid := sum.invalid || (p.invalid || q.invalid || r.invalid || t.invalid) } e)
  | _ => none

/-- The selectors of VSHUF (R211): selector k names a lane of S1 and then of S2; a bit of z zeroes its lane. -/
def shuffled (lanes : List Nat) (n : Nat) (z : BitVec 4) (sel : BitVec 12) : List Nat :=
  (List.range n).map fun k => if z.getLsbD k then 0 else lanes.getD (sel.toNat / 8 ^ k % 8) 0

end Sys2Proof.Claim

/-- R210, R211: VSUM adds its lanes in a tree, VDOT3 adds the products of its lanes, VSHUF names a lane of its sources, or
zero, for each lane of its result. -/
def Sys2Proof.Claim.LaneReductions : Prop :=
  ∀ (s : State) (f : Firing) (rest : List Firing) (h : Hdr) (ty : VTy) (dst : Dst) (s1 s2 s3 : Src) (rm : Rm) (ftz : Bool)
    (z : BitVec 4) (sel : BitVec 12),
    let b := s.bank f.site
    let w := (vtyF ty).width
    let n := 64 / w
    let e : REnv := { lfsr := b.lfsr, flags := 0 }
    s.room f.site dst →
    (∀ x e' y, lanesReadable b h w [s1] → b.readElems h s1 (vtyFmt ty) 0 n e = (x, e') →
      sumTree rm ftz e' (x.map (vtyF ty).decode) = some y → Clear s f rest (.vsum h ty dst s1 rm ftz) →
      ∃ t, exec (.vsum h ty dst s1 rm ftz) s = .next t ∧ Leaves s t f (.vsum h ty dst s1 rm ftz)
        { regs := rounded (b.regs.later dst f.rule s.nextId 4 (BitVec.ofNat 64 y.1)) y.2 }) ∧
    (∀ x e' y, lanesReadable b h w [s1, s2, s3] → b.readLanes h (vtyFmt ty) n [s1, s2, s3] e = (x, e') →
      tripleSum rm ftz e' ((List.range n).map fun k => fprodV (x.map fun l => (vtyF ty).decode (l.getD k 0))) = some y →
      Clear s f rest (.vdot3 h ty dst s1 s2 s3 rm ftz) →
      ∃ t, exec (.vdot3 h ty dst s1 s2 s3 rm ftz) s = .next t ∧ Leaves s t f (.vdot3 h ty dst s1 s2 s3 rm ftz)
        { regs := rounded (b.regs.later dst f.rule s.nextId 4 (BitVec.ofNat 64 y.1)) y.2 }) ∧
    (∀ x y e', lanesReadable b h w [s1, s2] → b.readLanes h (vtyFmt ty) n [s1, s2] e = ([x, y], e') →
      Clear s f rest (.vshuf h ty dst s1 s2 z sel) →
      ∃ t, exec (.vshuf h ty dst s1 s2 z sel) s = .next t ∧ Leaves s t f (.vshuf h ty dst s1 s2 z sel)
        { regs := rounded (b.regs.now dst (packLanes w (shuffled (x ++ y) n z sel))) e'
          sends := Dst.sends dst (packLanes w (shuffled (x ++ y) n z sel)) })

namespace Sys2Proof.Claim

/-- A value converted from one format to another (R170, R173): the same floating-point format keeps its bits but for the
flush of R167, and .sr takes its LFSR step; any other conversion rounds the exact value once. -/
def convertOne (src tgt : Fmt) (rm : Rm) (ftz : Bool) (x : Nat) (e : REnv) : Nat × REnv :=
  match fpOf? src with
  | some f => if src = tgt then cvtFF f f rm ftz x e else roundTo tgt rm ftz (f.decode x) e
  | none => roundTo tgt rm ftz (decodeAs src x) e

/-- Values converted one after another (R168). -/
def convertEach (one : Nat → REnv → Nat × REnv) : List Nat → REnv → List Nat × REnv
  | [], e => ([], e)
  | x :: r, e =>
    let y := one x e
    let z := convertEach one r y.2
    (y.1 :: z.1, z.2)

/-- The limit of E4M3, E5M2 and INT8 (R214, R218). -/
def limitOf : Fmt → Nat
  | .e4m3 => 448
  | .e5m2 => 57344
  | _ => 127

/-- The value and environment of a conversion to pushed registers (R213 to R216, R218), from the bank before it, with its
destination and latency; none when a packed source cannot be read. -/
def converted (b : Bank) (i : Instr) : Option (Dst × Nat × Word × REnv) :=
  let e : REnv := { lfsr := b.lfsr, flags := 0 }
  let num (r : Nat × REnv) : Word × REnv := (BitVec.ofNat 64 r.1, r.2)
  match i with
  | .cvt h tgt dst s1 rm ftz src fit =>
    let x := b.readScalar h s1 src e
    some (dst, 2, num (if fit = 0 then convertOne src tgt rm ftz x.1 x.2 else
      cvtFit (if fit = 4 then 448 else if fit = 5 then 57344 else 127) (decodeAs src x.1) x.2))
  | .vcvt h tgt dst s1 rm ftz src part =>
    let n := 64 / max (fmtBits src) (fmtBits tgt)
    let x := b.readElems h s1 src (n * part.toNat) n e
    let y := convertEach (convertOne src tgt rm ftz) x.1 x.2
    some (dst, 2, packLanes (fmtBits tgt) y.1, y.2)
  | .cvti h tgt dst s1 rm src uns =>
    let sg := match tgt with | .n32 | .n64 => false | _ => true
    let n := match tgt with | .i32 | .n32 => 32 | .i64 | .n64 => 64 | .i8 => 8
    some (dst, 2, num (match fpOf? src with
      | some f =>
        let x := b.readScalar h s1 src e
        cvtFI sg n rm (f.decode x.1) x.2
      | none =>
        let x := (b.raw h 0 s1).toNat % 2 ^ fmtBits src
        cvtII sg n (if uns then (x : Int) else toSigned (fmtBits src) x) e))
  | .cvtf h tgt dst s1 rm ftz src uns =>
    let x := (b.raw h 0 s1).toNat % 2 ^ fmtBits src
    some (dst, 2, num (roundTo tgt rm ftz (.ofInt (if uns then (x : Int) else toSigned (fmtBits src) x)) e))
  | .scaleq h tgt dst s1 s2 s3 rm ftz src byte part =>
    let n := 64 / fmtBits src
    let x := b.readElems h s1 src 0 n e
    let k := ((b.raw h 0 s2).extractLsb' (8 * byte.toNat) 8).toNat
    let y := convertEach (fun v e => roundTo tgt rm ftz (unscaleE8m0 (decodeAs src v) k) e) x.1 x.2
    some (dst, 2, replaceBytes (b.raw h 0 s3) (n * part.toNat) y.1, y.2)
  | .scaledq h tgt dst s1 s2 rm ftz src byte part =>
    let n := 64 / fmtBits tgt
    let x := b.readElems h s1 src (n * part.toNat) n e
    let k := ((b.raw h 0 s2).extractLsb' (8 * byte.toNat) 8).toNat
    let y := convertEach (fun v e => roundTo tgt rm ftz (scaleE8m0 (decodeAs src v) k) e) x.1 x.2
    some (dst, 2, packLanes (fmtBits tgt) y.1, y.2)
  | .cblook h dst s1 kc part =>
    let v := b.raw h 0 s1
    some (dst, 1, packLanes 16 ((List.range 4).map fun k =>
      ((b.kb.getD kc.toNat []).getD (v.extractLsb' (16 * part.toNat + 4 * k) 4).toNat 0).toNat), { e with flags := 0 })
  | .seal h dst s1 tgt =>
    let x := b.readScalar h s1 .fp32 e
    some (dst, 2, BitVec.ofNat 64 (sealBits (limitOf tgt) x.1), x.2)
  | .amaxacc h ty dst s1 s2 =>
    let x := b.readScalar h s1 .fp32 e
    let y := b.readElems h s2 ty 0 (64 / fmtBits ty) x.2
    some (dst, 2, BitVec.ofNat 64 (amaxOf (fp32.decode x.1 :: y.1.map (decodeAs ty))), y.2)
  | _ => none

/-- The sources that a conversion reads as packed lanes, with the lane width (R200). -/
def packedSources : Instr → List Src × Nat
  | .vcvt _ _ _ s1 _ _ src _ => ([s1], fmtBits src)
  | .scaleq _ _ _ s1 _ _ _ _ src _ _ => ([s1], fmtBits src)
  | .scaledq _ _ _ s1 _ _ _ src _ _ => ([s1], fmtBits src)
  | .amaxacc _ ty _ _ s2 => ([s2], fmtBits ty)
  | _ => ([], 64)

/-- SEAL's targets (R218). -/
def sealTarget : Instr → Prop
  | .seal _ _ _ tgt => tgt = .e4m3 ∨ tgt = .e5m2 ∨ tgt = .int8
  | _ => True

end Sys2Proof.Claim

/-- R212 to R218: CVT, VCVT, CVTI, CVTF, SCALEQ, SCALEDQ, CBLOOK, SEAL and AMAXACC leave their converted value in their
destination, pushed, with the LFSR and flags of the rounding. -/
def Obligations.Conversions : Prop :=
  ∀ (s : State) (f : Firing) (rest : List Firing) (i : Instr) (dst : Dst) (lat : Nat) (v : Word) (e : REnv),
    let b := s.bank f.site
    converted b i = some (dst, lat, v, e) → lanesReadable b (Instr.hdr i) (packedSources i).2 (packedSources i).1 → sealTarget i →
    Clear s f rest i → s.room f.site dst →
    ∃ t, exec i s = .next t ∧
      Leaves s t f i { regs := rounded (delivered b.regs dst f.rule s.nextId lat v) e, sends := sentNow dst lat v }

/-- R216, R217: CBLD loads four entries of a codebook from its source; SETFMT writes a valid entry to its channel. -/
def Obligations.TablesWritten : Prop :=
  ∀ (s : State) (f : Firing) (rest : List Firing) (h : Hdr) (s1 : Src),
    let b := s.bank f.site
    let v := b.raw h 0 s1
    (∀ kc quarter : BitVec 2, Clear s f rest (.cbld h s1 kc quarter) →
      ∃ t kb, exec (.cbld h s1 kc quarter) s = .next t ∧ Leaves s t f (.cbld h s1 kc quarter) { regs := { b.regs with kb := kb } } ∧
        ∀ n k, (kb.getD n []).getD k 0 =
          if n = kc.toNat ∧ 4 * quarter.toNat ≤ k ∧ k < 4 * quarter.toNat + 4 then v.extractLsb' (16 * (k - 4 * quarter.toNat)) 16
          else (b.kb.getD n []).getD k 0) ∧
    (∀ ch : BitVec 5, fmtValid (v.setWidth 16) = true → (∀ t ∈ (b.chan ch.toNat).toks, t.cls = 1 → badHeader t.payload = false) →
      Clear s f rest (.setfmt h s1 ch) →
      ∃ t, exec (.setfmt h s1 ch) s = .next t ∧ Leaves s t f (.setfmt h s1 ch)
        { regs := b.regs, chans := fun k c => if k = ch.toNat then { c with fmt := v.setWidth 16 } else c })

namespace Sys2Proof.Claim

/-- A finite value as an integer at the place 2^k, when it has no bits below that place. -/
def FVal.at (x : FVal) (k : Int) : Option Int :=
  match x with
  | .fin neg m e false => if k ≤ e then some ((if neg then -1 else 1) * (m : Int) * 2 ^ (e - k).toNat) else none
  | _ => none

/-- The formats of the package that round (R158, R159). -/
def roundingFormats : List FFmt := [fp64, fp32, bf16, fp16, e4m3, e5m2]

end Sys2Proof.Claim

/-- R165, R204: sum and product of finite values are exact: the value of a sum is the sum of the values, and of a product the
product, at every place that both can be read at. -/
def Sys2Proof.Claim.ExactArithmetic : Prop :=
  ∀ (rm : Rm) (a b : FVal) (j k : Int) (x y : Int), Claim.FVal.at a k = some x → Claim.FVal.at b k = some y →
    (Claim.FVal.at (faddV rm a b).val k = some (x + y) ∧ (faddV rm a b).invalid = false) ∧
    (∀ z, Claim.FVal.at b j = some z → Claim.FVal.at (fmulV a b).val (k + j) = some (x * z) ∧ (fmulV a b).invalid = false)

/-- R159, R165: a finite encoding of a format rounds back to itself, under every mode and with no flag. -/
def Sys2Proof.Claim.EncodingsAreExact : Prop :=
  ∀ (fm : FFmt) (rm : Rm) (x : Nat) (e : REnv), fm ∈ roundingFormats → x < 2 ^ fm.width →
    (∀ n, fm.decode x ≠ .nan n) → (∀ n, fm.decode x ≠ .inf n) →
    fpRound fm rm false (fm.decode x) e = (x, match rm with
      | .sr => { e with lfsr := lfsrNext e.lfsr }
      | _ => e)


namespace Sys2Proof.Claim

/-- m · 2^e is at most m' · 2^e'. -/
def AtMost (m : Nat) (e : Int) (m' : Nat) (e' : Int) : Prop := m * 2 ^ (e - min e e').toNat ≤ m' * 2 ^ (e' - min e e').toNat

/-- A positive result that cuts an exact value to at least 150 bits: the value is no less than it and below the next at its place,
by what `reaches` says of both ends, and the sticky bit says that it is not exact. -/
def Cuts (x : FRes) (reaches : Nat → Int → Prop) (exact : Nat → Int → Prop) : Prop :=
  ∃ q k st, x = { val := .fin false q k st } ∧ 2 ^ 150 ≤ q ∧ reaches q k ∧ ¬ reaches (q + 1) k ∧ (st = false ↔ exact q k)

/-- Values of 2^a and of log₂ a that are not exact, in FP32 and FP64, calculated outside the model in decimal arithmetic and rounded to the
nearest encoding. -/
def powers32 : List (Nat × Nat) := [(0x3F000000, 0x3FB504F3), (0xBF400000, 0x3F1837F0), (0x3DCCCCCD, 0x3F892FDF), (0xC1A26666, 0x354FEFCD)]
def powers64 : List (Nat × Nat) := [(0x3FE0000000000000, 0x3FF6A09E667F3BCD), (0x3FB999999999999A, 0x3FF125FBEE250664), (0xC0344CCCCCCCCCCD, 0x3EA9FDF8BCCE533A)]
def logs32 : List (Nat × Nat) := [(0x40400000, 0x3FCAE00D), (0x3DCCCCCD, 0xC0549A78), (0x3F400000, 0xBED47FCC), (0x3F800001, 0x3438AA3A)]
def logs64 : List (Nat × Nat) := [(0x4008000000000000, 0x3FF95C01A39FBD68), (0x3FB999999999999A, 0xC00A934F0979A371), (0x3FE8000000000000, 0xBFDA8FF971810A5E),
  (0x3FF0000020000000, 0x3E8715474E163BB8)]

end Sys2Proof.Claim

/-- R204, R205, R214, R218: the reciprocal, the square root and its reciprocal cut the exact value beyond every format, 2^a of an
integer and log₂ of a power of two are exact, others round to the values of the tables; special operands give what R205 states. A fit
code gives the smallest scale that covers a magnitude, and SEAL the smallest FP32 value that is not below |a| / T. -/
def Sys2Proof.Claim.FunctionValues : Prop :=
  (∀ (n : Bool) (m : Nat) (e : Int), m ≠ 0 →
    (∃ q k st, frcpV (.fin n m e false) = { val := .fin n q k st } ∧ 2 ^ 150 ≤ q ∧ AtMost (q * m) (k + e) 1 0 ∧ ¬ AtMost ((q + 1) * m) (k + e) 1 0 ∧
      (st = false ↔ AtMost 1 0 (q * m) (k + e))) ∧
    Cuts (fsqrtV (.fin false m e false)) (fun q k => AtMost (q * q) (2 * k) m e) (fun q k => AtMost m e (q * q) (2 * k)) ∧
    Cuts (frsqV (.fin false m e false)) (fun q k => AtMost (q * q * m) (2 * k + e) 1 0) (fun q k => AtMost 1 0 (q * q * m) (2 * k + e)) ∧
    (∀ k : Int, -2 ^ 14 ≤ k → k ≤ 2 ^ 14 → (n = decide (k < 0) ∧ AtMost m e k.natAbs 0 ∧ AtMost k.natAbs 0 m e → fexp2V (.fin n m e false) = { val := .fin false 1 k false }) ∧
      (AtMost m e 1 k ∧ AtMost 1 k m e → flog2V (.fin false m e false) = { val := FVal.mk k 0 false })) ∧
    (frsqV (.fin true m e false) = .bad ∧ fsqrtV (.fin true m e false) = .bad ∧ flog2V (.fin true m e false) = .bad) ∧
    (∀ (t c : Nat) (v : REnv), c ≤ 0xFE → AtMost m e t (c - 127) → (∀ d : Nat, d < c → ¬ AtMost m e t (d - 127)) → cvtFit t (.fin n m e false) v = (c, v)) ∧
    (∀ (t : Nat) (v : REnv), (∀ d : Nat, d ≤ 0xFE → ¬ AtMost m e t (d - 127)) → cvtFit t (.fin n m e false) v = (0xFE, { v with flags := v.flags ||| 0x14 }))) ∧
  (∀ (n : Bool) (rm : Rm) (x : FVal) (t : Nat) (v : REnv),
    frcpV (.zero n) = { val := .inf n, divZero := true } ∧ frcpV (.inf n) = { val := .zero n } ∧ frsqV (.zero n) = { val := .inf n, divZero := true } ∧
    fsqrtV (.zero n) = { val := .zero n } ∧ fexp2V (.zero n) = { val := .one } ∧ flog2V (.zero n) = { val := .inf true, divZero := true } ∧
    frsqV (.inf n) = (if n then .bad else { val := .zero false }) ∧ fsqrtV (.inf n) = (if n then .bad else { val := .inf false }) ∧
    flog2V (.inf n) = (if n then .bad else { val := .inf false }) ∧ fexp2V (.inf n) = { val := if n then .zero false else .inf false } ∧
    faddV rm (.inf n) (.inf !n) = .bad ∧ fsubV rm (.inf n) (.inf n) = .bad ∧ fmulV (.inf n) (.zero n) = .bad ∧ fmulV (.zero n) (.inf n) = .bad ∧
    (ffmaV rm (.inf n) (.zero n) x).invalid = true ∧ (ffmaV rm (.zero n) (.inf n) x).val.isNan = true ∧
    cvtFit t (.zero n) v = (0, v) ∧ cvtFit t (.inf n) v = (0xFF, { v with flags := v.flags ||| 1 }) ∧ cvtFit t (.nan n) v = (0xFF, { v with flags := v.flags ||| 1 })) ∧
  (∀ a t : Nat, t = 448 ∨ t = 57344 ∨ t = 127 → a < 2 ^ 32 →
    (∀ n m e, fp32.decode a = .fin n m e false → ∃ q k, fp32.decode (sealBits t a) = .fin false q k false ∧ AtMost m e (q * t) k ∧
      ∀ x < sealBits t a, ∀ q' k', fp32.decode x = .fin false q' k' false → ¬ AtMost m e (q' * t) k') ∧
    (∀ n, fp32.decode a = .inf n → sealBits t a = 0x7F800000) ∧ (∀ n, fp32.decode a = .nan n → sealBits t a = 0x7FC00000)) ∧
  (∀ p ∈ powers32, (fpRound fp32 .rne false (fexp2V (fp32.decode p.1)).val {}).1 = p.2) ∧
  (∀ p ∈ powers64, (fpRound fp64 .rne false (fexp2V (fp64.decode p.1)).val {}).1 = p.2) ∧
  (∀ p ∈ logs32, (fpRound fp32 .rne false (flog2V (fp32.decode p.1)).val {}).1 = p.2) ∧
  ∀ p ∈ logs64, (fpRound fp64 .rne false (flog2V (fp64.decode p.1)).val {}).1 = p.2


/-! ### The units of a cell: contractions, fills, turns, sparse units, accumulators (R180 to R251) -/

namespace Sys2Proof.Claim

/-- Tiles that a firing owns from its commit, with the kinds and the shape that it records; their occupancy is cleared
(R194, R224, R228, R236, R246). -/
def claimTiles (id rule : Nat) (rounds : Word) (sh : Shape) : Nat → List AccKind → List AccTile → List AccTile
  | _, [], l => l
  | a, k :: ks, l => claimTiles id rule rounds sh (a + 1) ks
      (setAt {} l a { (l.getD a {}) with owner := some (id, rule, rounds), occ := 0, kind := k, shape := sh })

/-- The kinds that a contraction records (R224). -/
def kindsOf : CFmt → List AccKind
  | .f64 => [.fp64lo, .fp64hi]
  | .i8 => [.int32]
  | _ => [.fp32]

/-- The channel of a head source. -/
def chanOf (h : Hdr) : Src → Option Nat
  | .head .A => h.cta.map (·.ch.toNat)
  | .head .B => h.ctb.map (·.ch.toNat)
  | _ => none

/-- The contraction that CONTRACT starts (R226, R228): role 0, 1 and 2 say which source is the stay, 3 that none is; the
other two, in ascending order, are U and V. -/
def contractionOf (h : Hdr) (fmt : CFmt) (s1 s2 s3 : Src) (role : BitVec 2) (sv : Shape) (uidx vidx : Bool) (acc : BitVec 2)
    (stile ovw : Bool) (half : BitVec 2) : Contraction :=
  { fmt := fmt, stay := if role = 3 then none else some (if stile then 1 else 0), role := role.toNat
    u := { ch := chanOf h (if role = 0 then s2 else s1), idxJ := uidx }
    v := { ch := chanOf h (if role = 0 ∨ role = 1 then s3 else s2), idxJ := vidx }
    surv := sv, acc := acc.toNat, ovw := ovw, half := half.toNat }

/-- A unit that a firing has started. -/
def unitOf (id firing rule : Nat) (w : UnitWork) : UnitRec := { id := id, firing := firing, rule := rule, work := w }

/-- One input of a sparse unit. -/
def fiberIn (h : Hdr) (hd : Head) : SIn := { ch := (chanOf h (.head hd)).getD 0 }

/-- What an instruction that starts units leaves of the units and the tiles, as firing number id of a rule (R228, R230, R232,
R236, R238, R248 to R250). -/
def unitsStarted (b : Bank) (id rule : Nat) (i : Instr) : Option (List UnitRec × List AccTile) :=
  match i with
  | .contract h fmt s1 s2 s3 role sv uidx vidx acc stile ovw half =>
    some ([unitOf id id rule (.contraction (contractionOf h fmt s1 s2 s3 role sv uidx vidx acc stile ovw half))],
      claimTiles id rule b.rounds sv acc.toNat (kindsOf fmt) b.acc)
  | .gradpair h fmt hd0 hd1 sv1 sv0 idx0 idx1 acc0 stile ovw acc1 =>
    let part (hd : Head) (sv : Shape) (idx : Bool) (acc : BitVec 2) (half : Nat) : Contraction :=
      { fmt := fmt, stay := some (if stile then 1 else 0), role := 1, u := { ch := chanOf h (.head hd), idxJ := idx }, v := {}
        surv := sv, acc := acc.toNat, ovw := ovw, half := half }
    some ([unitOf id id rule (.contraction (part hd0 sv0 idx0 acc0 1)), unitOf (id + 1) id rule (.contraction (part hd1 sv1 idx1 acc1 2))],
      claimTiles id rule b.rounds sv1 acc1.toNat (kindsOf fmt) (claimTiles id rule b.rounds sv0 acc0.toNat (kindsOf fmt) b.acc))
  | .stay h fmt hd stile cm =>
    some ([unitOf id id rule (.stayFill { ch := (chanOf h (.head hd)).getD 0, fmt := fmt, tile := if stile then 1 else 0, cm := cm })], b.acc)
  | .accld h src hd shape acc =>
    some ([unitOf id id rule (.accFill { ch := (chanOf h (.head hd)).getD 0, fmt := src, acc := acc.toNat, shape := shape })],
      claimTiles id rule b.rounds shape acc.toNat (match src with
        | .fp64 => [.fp64lo, .fp64hi]
        | .int32 => [.int32]
        | _ => [.fp32]) b.acc)
  | .cturn h o hd node blk1 =>
    some ([unitOf id id rule (.cturn { ch := (chanOf h (.head hd)).getD 0, out := o.toNat, node := if node then 1 else 0
                                       blocks := blk1.toNat + 1 })], b.acc)
  | .isectMul h o hd0 hd1 ofmt rm lvl =>
    some ([unitOf id id rule (.sparse { op := .mul, out := some o.toNat, ofmt := ofmt, rm := rm, lvl := lvl.toNat
                                        a := fiberIn h hd0, b := some (fiberIn h hd1) })], b.acc)
  | .isectDot h o hd0 ofmt rm acc flat lvl =>
    some ([unitOf id id rule (.sparse { op := .dot acc.toNat flat, out := some o.toNat, ofmt := ofmt, rm := rm, lvl := lvl.toNat
                                        a := fiberIn h hd0 })], b.acc)
  | .union h op o hd0 hd1 ofmt rm lvl =>
    some ([unitOf id id rule (.sparse { op := .union op, out := some o.toNat, ofmt := ofmt, rm := rm, lvl := lvl.toNat
                                        a := fiberIn h hd0, b := some (fiberIn h hd1) })], b.acc)
  | .sacci h kd hd acc lvl row =>
    some ([unitOf id id rule (.sparse { op := .scatter acc.toNat kd row.toNat, out := none, ofmt := .f32, rm := .rne
                                        lvl := lvl.toNat, a := fiberIn h hd })],
      setAt {} b.acc acc.toNat { (b.acc.getD acc.toNat {}) with
        owner := some (id, rule, b.rounds), shape := .ij, kind := match kd with
          | .f32 => .fp32
          | .i32 => .int32 })
  | _ => none

/-- The stay tile of a contraction holds a format that it accepts: both tiles together for FP32 (R181, R228). -/
def stayFits (b : Bank) (fmt : CFmt) (stile : Bool) : Prop :=
  let holds (n : Nat) : Bool := accepts fmt (b.stay.getD n {}).fmt
  if fmt = .f32 then holds 0 = true ∧ holds 1 = true else holds (if stile then 1 else 0) = true

/-- What lets an instruction start its unit: a stay tile of an accepted format for a contraction (R228), a free node for a
turn (R238), an FP32 tile for ISECT dot (R249). -/
def mayStart (s : State) (x : Site) : Instr → Prop
  | .contract _ fmt _ _ _ role _ _ _ _ stile _ _ => role = 3 ∨ stayFits (s.bank x) fmt stile
  | .gradpair _ fmt _ _ _ _ _ _ _ stile _ _ => stayFits (s.bank x) fmt stile
  | .cturn _ _ _ node _ => ((s.tile x.tile).nodes).getD (if node then 1 else 0) none = none
  | .isectDot _ _ _ _ _ acc _ _ => (((s.bank x).acc).getD acc.toNat {}).kind = .fp32
  | _ => True

/-- The node that a turn takes (R238). -/
def nodeTaken (id : Nat) : Instr → Tile → Tile
  | .cturn _ _ _ node _, t => { t with nodes := setAt none t.nodes (if node then 1 else 0) (some id) }
  | _, t => t

end Sys2Proof.Claim

/-- R228, R230, R232, R236, R238, R248, R249, R250: CONTRACT, GRADPAIR, STAY, ACCLD, CTURN, ISECT, UNION and SACCI start their
units, own their tiles from the commit, and send and remove nothing themselves. -/
def Obligations.UnitsStart : Prop :=
  ∀ (s : State) (f : Firing) (rest : List Firing) (i : Instr) (us : List UnitRec) (acc : List AccTile),
    unitsStarted (s.bank f.site) s.nextId f.rule i = some (us, acc) → mayStart s f.site i → Clear s f rest i →
    ∃ t, exec i s = .next t ∧ Leaves s t f i
      { regs := { (s.bank f.site).regs with units := (s.bank f.site).units ++ us, acc := acc }, tile := nodeTaken s.nextId i }

namespace Sys2Proof.Claim

/-- The element numbers that a shape names, in ascending order (R180). -/
def shapePlaces (sh : Shape) : List Nat := (List.range 256).filter fun p => match sh with
  | .ij => true
  | .i => p % 16 = 0
  | .j => p < 16
  | .none => p = 0

/-- The elements that ACCRD converts, one after another (R235): those of the tile, or of the FP64 pair that it belongs to; an
INT32 element that stays INT32 is copied. -/
def tileRead (b : Bank) (a : Nat) (sh : Shape) (tgt : Fmt) (rm : Rm) (ftz : Bool) : List Nat × REnv :=
  let el (n p : Nat) : BitVec 32 := (b.acc.getD n {}).el.getD p 0
  let low := a - a % 2
  convertEach (fun p e => match (b.acc.getD a {}).kind with
    | .int32 => if tgt = .int32 then ((el a p).toNat, e) else convertOne .int32 tgt rm ftz (el a p).toNat e
    | .fp32 => convertOne .fp32 tgt rm ftz (el a p).toNat e
    | .fp64lo | .fp64hi => convertOne .fp64 tgt rm ftz (el (low + 1) p ++ el low p).toNat e)
    (shapePlaces sh) { lfsr := b.lfsr, flags := 0 }

/-- ACCSC's scaled elements (R237). -/
def tileScaled (el : List (BitVec 32)) (e8m0 : Bool) (v : Word) (rm : Rm) (ftz : Bool) (e : REnv) : List Nat × REnv :=
  convertEach (fun x e =>
    let p : FRes := if e8m0 then { val := scaleE8m0 (fp32.decode x) (v.toNat % 256) } else fmulV (fp32.decode x) (fp32.decode (v.toNat % 2 ^ 32))
    fpRound fp32 rm ftz p.val { e with flags := e.flags ||| resultFlags p }) (el.map (·.toNat)) e

/-- The tokens of the tile rows that SACCF flushes (R251): an empty fiber for a row without an occupied column; else an
element a column, the last marked. -/
def flushed (kd : KTy) (ofmt : OFmt) (rm : Rm) (t : AccTile) : List Nat → REnv → List (BitVec 3 × Word) × REnv
  | [], e => ([], e)
  | i :: r, e =>
    let cols := (List.range 16).filter fun j => t.occ.getLsbD (16 * i + j)
    let v := convertEach (fun j e =>
      let x := (t.el.getD (16 * i + j) 0).toNat
      match kd with
      | .i32 => (x, e)
      | .f32 => fpRound (ofmtF ofmt) rm false (fp32.decode x) e) cols e
    let toks := if cols.isEmpty then [emptyFiber] else (cols.zip v.1).map fun (j, x) =>
      ((0 : BitVec 3), fiberWord (if cols.getLast? = some j then 1 else 0) j x)
    let z := flushed kd ofmt rm t r v.2
    (toks ++ z.1, z.2)

end Sys2Proof.Claim

/-- R234, R235, R237, R251: ACCZ clears a tile; ACCRD fixes and converts its elements and starts their run; ACCSC leaves the
scaled tile pending for four rounds; SACCF fixes what its tile holds, starts its run and clears the tile. -/
def Obligations.AccumulatorsRead : Prop :=
  ∀ (s : State) (f : Firing) (rest : List Firing) (h : Hdr) (a : BitVec 2),
    let b := s.bank f.site
    let old := b.acc.getD a.toNat {}
    let blank : AccTile := { old with el := List.replicate 256 0, kind := .fp32, shape := .ij, occ := 0 }
    let run (o : Out) (toks : List (BitVec 3 × Word)) : UnitRec :=
      { unitOf s.nextId s.nextId f.rule (.run { out := o.toNat, toks := toks }) with wait := 0 }
    (Clear s f rest (.accz h a) → ∃ t, exec (.accz h a) s = .next t ∧
      Leaves s t f (.accz h a) { regs := { b.regs with acc := setAt {} b.acc a.toNat blank } }) ∧
    (∀ (tgt : Fmt) (o : Out) (rm : Rm) (ftz : Bool) (shape : Shape) (ovr : Bool),
      let i : Instr := .accrd h tgt o rm ftz shape a ovr
      let v := tileRead b a.toNat (if ovr then shape else old.shape) tgt rm ftz
      Clear s f rest i → s.canSend f.site o.toNat 1 = true → ∃ t, exec i s = .next t ∧
        Leaves s t f i { regs := rounded { b.regs with units := b.units ++ [run o (packRun (fmtBits tgt) 256 v.1)] } v.2 }) ∧
    (∀ (e8m0 : Bool) (s1 : Src) (rm : Rm) (ftz : Bool),
      let i : Instr := .accsc h e8m0 s1 rm ftz a
      let v := tileScaled old.el e8m0 (b.raw h 0 s1) rm ftz { lfsr := b.lfsr, flags := 0 }
      old.kind = .fp32 → Clear s f rest i → ∃ t, exec i s = .next t ∧
        Leaves s t f i { regs := rounded { b.regs with pend := b.pend ++
          [{ id := s.nextId, rule := f.rule, left := some 4, lat := 4, writes := [.acc a.toNat (v.1.map (BitVec.ofNat 32))] }] } v.2 }) ∧
    (∀ (kd : KTy) (o : Out) (ofmt : OFmt) (rm : Rm) (lvl : BitVec 4),
      let i : Instr := .saccf h kd o ofmt rm a lvl
      let v := flushed kd ofmt rm old (List.range 16) { lfsr := b.lfsr, flags := 0 }
      old.kind = (match kd with | .f32 => .fp32 | .i32 => .int32) → Clear s f rest i → ∃ t, exec i s = .next t ∧
        Leaves s t f i { regs := rounded { b.regs with
          acc := setAt {} b.acc a.toNat blank, units := b.units ++ [run o (v.1 ++ [(3, lvl.setWidth 64)])] } v.2 })

/-! ### Requests: what an instruction asks the memories, the engines and the ports for (R75 to R79, R89 to R156, R219 to
R223, R294 to R297, R342, R376) -/

namespace Sys2Proof.Claim

/-- The 48-bit virtual address in a register value (R122). -/
def va (v : Word) : Nat := (v.setWidth 48).toNat

/-- A virtual address of the right form and alignment (R121, R122). -/
def addressOk (v : Word) (align : Nat) : Bool := (v.setWidth 48).signExtend 64 = v && v.toNat % align = 0

/-- n bytes at an offset of the issuing tile's store lie in the saggar's partition, aligned (R91, R121). -/
def storeOk (s : State) (x : Site) (v : Word) (align n : Nat) : Bool :=
  v.toNat < 2 ^ 23 && v.toNat % align = 0 && v.toNat + n ≤ 2048 * (s.saggar (s.saggarOf x)).res.lines

/-- A length that is a multiple of a unit, from the unit to a limit (R121). -/
def lengthOk (n : Word) (unit most : Nat) : Bool := n.toNat % unit = 0 && unit ≤ n.toNat && n.toNat ≤ most

/-- Whether an operation waits for every earlier fence of its cell: a fence, a CMPL, a BAR (R75, R85). -/
def waitsForFences : ReqOp → Bool
  | .fence .. | .cmpl | .bar .. => true
  | _ => false

/-- The fences of a cell not yet complete that hold an operation on a path back: those that name its path second (R79), or
all of them. -/
def fencesTo (s : State) (x : Site) (o : ReqOp) (p : Path) : List Nat :=
  (s.reqs.filter fun r => r.site = x && match r.op with
    | .fence _ y => y = p || waitsForFences o
    | _ => false).map (·.id)

/-- The request that a rule asks for, as it stands from its commit (R100, R118, R119), the accesses ordered before it among
its fields: those which its cell knows of once it has tested its own rule's completion heads (R78). -/
def reqOf (s : State) (f : Firing) (i : Instr) (a : Ask) : Req :=
  let r : Req :=
    { id := s.nextId, site := f.site, launch := s.launchNum f.site, saggar := s.saggarOf f.site, rule := f.rule
      word := (s.bank f.site).rules.getD f.rule 0, path := a.path, op := a.op, dst := a.dst, cout := a.cm
      cgroup := if a.run = false ∧ a.cm.isSome ∧ a.dst.out? = a.cm then s.nextId else s.nextId + 1
      queue := a.queue, after := fencesTo s f.site a.op a.path, joint := a.joint }
  { r with past := (s.learn f.site ((s.bank f.site).edgeWaits (Instr.hdr i))).pastFor r }

/-- The ranges of virtual addresses that a rule's request is known to meet at its issue: of a key/value command its
descriptor alone. -/
def rangesAtIssue (s : State) (r : Req) : List (Nat × Nat) :=
  match r.op with
  | .kvput d _ _ _ | .kvcommit d _ | .kvrot d => [(d, 160)]
  | _ => r.ranges s

/-- The ranges of a request of saggar 0 that meet the management page, where it is no load or store of 8 bytes (R397). -/
def misused (s : State) (r : Req) : List (Nat × Nat) :=
  let wide : Bool := match r.op with
    | .ld _ n _ | .st _ n _ => n = 8
    | _ => false
  if r.saggar = 0 ∧ wide = false then (rangesAtIssue s r).filter fun x =>
    0 < x.2 && x.1 < 0x7FFFFFFF0000 + 65536 && 0x7FFFFFFF0000 < x.1 + x.2 else []

/-- The registers that a request will write are pending from the commit (R120). -/
def awaited (s : State) (f : Firing) (a : Ask) : Regs :=
  let r := (s.bank f.site).regs
  let pend (ws : List PWrite) : Regs := { r with pend := r.pend ++ [{ id := s.nextId, rule := f.rule, left := none, writes := ws }] }
  match a.dst with
  | .reg g => pend [.reg g 0]
  | .pair g h => pend [.reg g 0, .reg h 0]
  | _ => r

/-- The slots that a request takes at commit: for its data and for its completion token (R119). -/
def slotsOf (a : Ask) : List Nat :=
  (match a.dst with | .out o => List.replicate a.data o | _ => []) ++ a.cm.toList

/-- The 32 requests that a cell may have outstanding on path L (R100); a fence counts for none (R138). -/
def roomL (s : State) (x : Site) (a : Ask) : Prop :=
  match a.op with
  | .fence .. => True
  | _ => a.path = .l → s.outstandingL x < 32

/-- The rule issues the request a: the request is outstanding, its registers are pending, and nothing else changes. -/
def Issues (s : State) (f : Firing) (rest : List Firing) (i : Instr) (a : Ask) (tile : Tile → Tile) (st : State → State) : Prop :=
  Clear s f rest i → s.lacksAfter f.site [] (slotsOf a) = none → roomL s f.site a → misused s (reqOf s f i a) = [] →
  ∃ t, exec i s = .next t ∧ Leaves s t f i { regs := awaited s f a, asks := [reqOf s f i a], tile := tile, rest := st }

/-- The output that an optional output operand names. -/
def outOf (o : Option (BitVec 3)) : Option Nat := o.map BitVec.toNat

/-- What the loads, stores, tag-table, stream, stash, presence, update, owner, fence and barrier instructions ask for, from
the state before them, and whether it can be asked for (R79, R112, R123 to R140). -/
def asked (s : State) (x : Site) (i : Instr) : Option (Ask × Bool) :=
  let b := s.bank x
  let src (h : Hdr) (v : Src) : Word := b.raw h 0 v
  match i with
  | .ld h ty dst s1 cm => some ({ op := .ld (va (src h s1)) (memSize ty) (memSigned ty), path := .l, dst := Dst.reqDst dst
                                  cm := outOf cm, data := 1 }, addressOk (src h s1) (memSize ty))
  | .st h ty s1 s2 cm => some ({ op := .st (va (src h s1)) (memSize ty) (src h s2), path := .l, cm := outOf cm },
      addressOk (src h s1) (memSize ty))
  | .lds h ty dst s1 cm => some ({ op := .lds (src h s1).toNat (memSize ty) (memSigned ty), path := .l, dst := Dst.reqDst dst
                                   cm := outOf cm, data := 1 }, storeOk s x (src h s1) (memSize ty) (memSize ty))
  | .sts h ty s1 s2 cm => some ({ op := .sts (src h s1).toNat (memSize ty) (src h s2), path := .l, cm := outOf cm },
      storeOk s x (src h s1) (memSize ty) (memSize ty))
  | .tlook h dst s1 cm => some ({ op := .tlook (src h s1), path := .l, dst := Dst.reqDst dst, cm := outOf cm, data := 1 },
      addressOk (src h s1) 1)
  | .tset h s1 s2 s3 cm => some ({ op := .tset (src h s1).toNat (src h s2) (src h s3), path := .l, cm := outOf cm },
      storeOk s x (src h s1) 2048 2048 && addressOk (src h s2) 1)
  | .tinv h s1 cm => some ({ op := .tinv (src h s1).toNat, path := .l, cm := outOf cm }, storeOk s x (src h s1) 2048 2048)
  | .stream h cm o s1 s2 imm => some ({ op := .stream (va (src h s1)) (b.raw h imm s2).toNat 0 [] false, path := .l
                                        dst := .out o.toNat, cm := outOf cm, data := 1, run := true },
      addressOk (src h s1) 8 && lengthOk (b.raw h imm s2) 1 (2 ^ 32 - 1))
  | .stash h s1 s2 cm key => some ({ op := .stash (src h s1).toNat (src h s2).toNat key.toNat, path := .v, cm := outOf cm },
      lengthOk (src h s2) 16 (2 ^ 22) && storeOk s x (src h s1) 16 (src h s2).toNat && s.stashCount x < 8
        && ((s.saggar (s.saggarOf x)).res.spill ≠ 1 || s.stashUsed (s.saggarOf x) x.tile + s.stashAsked (s.saggarOf x) x.tile +
          ((src h s2).toNat + 4095) / 4096 ≤ 16 * (s.saggar (s.saggarOf x)).res.stash))
  | .unstash _ o cm key => some ({ op := .unstash key.toNat none 0 [] false, path := .v, dst := .out o.toNat, cm := outOf cm
                                   data := 1, run := true }, s.stashCount x < 8)
  | .ldp h dst s1 cm => some ({ op := .ldp (va (src h s1)), path := .l, dst := Dst.reqDst dst, cm := outOf cm, data := 1 },
      addressOk (src h s1) 8)
  | .stp h s1 s2 cm => some ({ op := .stp (va (src h s1)) (src h s2), path := .l, cm := outOf cm }, addressOk (src h s1) 8)
  | .clrp h s1 s2 cm => some ({ op := .clrp (va (src h s1)) (src h s2).toNat, path := .l, cm := outOf cm },
      addressOk (src h s1) 8 && lengthOk (src h s2) 8 (2 ^ 30))
  | .upd h op s1 s2 cm => some ({ op := .upd op (va (src h s1)) (src h s2), path := .l, cm := outOf cm },
      addressOk (src h s1) (updSize op))
  | .ownEnter h s1 s2 cm => some ({ op := .ownEnter (va (src h s1)) (src h s2).toNat, path := .l, cm := outOf cm },
      addressOk (src h s1) 8 && lengthOk (src h s2) 8 (2 ^ 30))
  | .ownRelease h s1 cm => some ({ op := .ownRelease (va (src h s1)), path := .l, cm := outOf cm }, addressOk (src h s1) 8)
  | .cmplT _ cm => some ({ op := .cmpl, path := .l, cm := outOf cm, joint := s.issuedBy x }, true)
  | .bcarm h s1 s2 cm bar => some ({ op := .bcarm bar.toNat (va (src h s1)) (src h s2).toNat, path := .l, cm := outOf cm },
      addressOk (src h s1) 16 && lengthOk (src h s2) 16 (2 ^ 30))
  | .copyqDeclare h s1 s2 s3 cm buf => some ({ op := .copyqDeclare buf.toNat (va (src h s1)) (src h s2).toNat
                                                  ((src h s3).extractLsb' 58 6).toNat (consumerCells (src h s3))
                                               path := .c, cm := outOf cm },
      addressOk (src h s1) 1 && lengthOk (src h s2) 16 (2 ^ 30) && (s.tileOf x ((src h s3).extractLsb' 58 6).toNat).isSome)
  | .copyqRelease _ cm buf => some ({ op := .copyqRelease buf.toNat, path := .c, cm := outOf cm }, true)
  | .consumed _ cm buf => some ({ op := .consumed buf.toNat, path := .c, cm := outOf cm }, true)
  | .kvappPut h s1 s2 s3 cm layer => some ({ op := .kvput (va (src h s1)) (src h s2).toNat (src h s3).toNat layer.toNat, path := .c
                                             cm := outOf cm, queue := some 0 },
      addressOk (src h s1) 16 && storeOk s x (src h s2) 16 1 && (src h s3).toNat < 2 ^ 32 &&
        s.queueLength (s.saggarOf x) x.tile 0 < 64)
  | .kvappCommit h s1 s3 cm => some ({ op := .kvcommit (va (src h s1)) (src h s3).toNat, path := .c, cm := outOf cm, queue := some 0 },
      addressOk (src h s1) 16 && (src h s3).toNat < 2 ^ 32 && s.queueLength (s.saggarOf x) x.tile 0 < 64)
  | .kvrot h o s1 cm => some ({ op := .kvrot (va (src h s1)), path := .c, dst := .out o.toNat, cm := outOf cm, data := 1, queue := some 0 },
      addressOk (src h s1) 16 && s.queueLength (s.saggarOf x) x.tile 0 < 64)
  | .markOwn _ => some ({ op := .mark none true true [s.launchNum x] [], path := .h }, s.traverses < 8)
  | .markCohort _ od coh req => some ({ op := .mark (some coh.toNat) req false [] [], path := .h, data := 1
                                        dst := match outOf od with | some o => .out o | none => .none },
      s.traverses < 8 && !(((s.cohort? (s.saggarOf x) coh.toNat).map (·.closing)).getD false))
  | _ => none

end Sys2Proof.Claim

/-- R76, R100, R118 to R121, R123 to R140, R147, R148, R342: the accesses and the commands without an own effect at commit are
issued with their operands as they then are, and wait to be performed; no byte of memory and no other state changes. CMPL
covers every access that its cell has outstanding. -/
def Sys2Proof.Claim.RequestsIssued : Prop :=
  ∀ (s : State) (f : Firing) (rest : List Firing) (i : Instr) (a : Ask),
    asked s f.site i = some (a, true) → Issues s f rest i a id id ∧
      ∀ r ∈ s.reqs, r.site = f.site → r.op.isAccess = true → r.performed = false → (r.path, r.id) ∈ s.issuedBy f.site

/-- R79, R137: FENCEX is issued on its first path, and orders what it covers on both of its paths: the accesses of its cell on
the first that are outstanding, and those ordered before them; those that the cell knows of on that path, by the tokens that
it has tested, its own rule's among them, and by its earlier fences; and those whose bytes are not yet seen everywhere. -/
def Sys2Proof.Claim.FenceIssued : Prop :=
  ∀ (s : State) (f : Firing) (rest : List Firing) (h : Hdr) (cm : Cmpl) (x y : Path),
    let known := (s.bank f.site).known ++ (s.bank f.site).edgeWaits h
    ∃ l : List Nat, Issues s f rest (.fencex h cm x y)
        { op := .fence x y, path := x, cm := outOf cm, joint := l.map (fun a => (x, a)) ++ l.map (fun a => (y, a)) } id id ∧
      (∀ r ∈ s.reqs, r.site = f.site → r.path = x → r.op.isAccess = true → r.performed = false → r.id ∈ l) ∧
      (∀ a, (x, a) ∈ known → ((∃ r ∈ s.reqs, r.id = a) ∨ ∃ g ∈ s.lags, g.acc = a) → a ∈ l) ∧
      (∀ g ∈ s.lags, g.path = x → g.site = some f.site → g.acc ∈ l) ∧
      ∀ a ∈ l, (x, a) ∈ known ∨ (∃ r ∈ s.reqs, r.site = f.site ∧ r.path = x ∧ (r.id = a ∨ a ∈ r.past)) ∨
        ∃ g ∈ s.lags, g.path = x ∧ (g.site = some f.site ∨ x = .h) ∧ (g.acc = a ∨ a ∈ g.past)

namespace Sys2Proof.Claim

/-- An operand of a copy (R122): a virtual address; or a relative tile of the region and an offset in its partition. -/
def copyPlace (s : State) (x : Site) (store : Bool) (v n : Word) : Option Place :=
  if store then
    let off := (v.setWidth 23).toNat
    match s.tileOf x ((v.extractLsb' 24 6).toNat) with
    | some t => if v.toNat < 2 ^ 30 && !v.getLsbD 23 && off + n.toNat ≤ 2048 * (s.saggar (s.saggarOf x)).res.lines
        then some (.store t off v.toNat) else none
    | none => none
  else if addressOk v 1 then some (.hbm (va v)) else none

/-- The bytes of a row command's block of rows (R220). -/
def rowsBytes (f : Fmt) (desc : Word) : Nat :=
  ((desc.extractLsb' 40 11).toNat + 1) * (16 * ((desc.extractLsb' 32 8).toNat + 1)) * fmtBits f / 8

/-- Two blocks of n bytes that are equal or do not meet (R220). -/
def apart (a b : Word) (n : Nat) : Bool := a = b || a.toNat + n ≤ b.toNat || b.toNat + n ≤ a.toNat

/-- What a row command asks for, and whether it can be asked for (R219, R220, R223). -/
def rowAsked (s : State) (x : Site) (i : Instr) : Option (Ask × Bool) :=
  let b := s.bank x
  let common (f : Fmt) (a o d : Word) : Bool :=
    storeOk s x a 16 (rowsBytes f d) && storeOk s x o 16 (rowsBytes f d) && apart o a (rowsBytes f d) &&
      (d.extractLsb' 51 13).toNat + (d.extractLsb' 40 11).toNat + 1 ≤ (s.saggar (s.saggarOf x)).res.side && (s.tile x.tile).rows.length < 8
  match i with
  | .rowf h op s1 s2 s3 cm fmt eps =>
    let (a, o, d) := (b.raw h 0 s1, b.raw h 0 s2, b.raw h 0 s3)
    some ({ op := .row true op a.toNat o.toNat d fmt eps.toNat, path := .w, cm := outOf cm }, common fmt a o d && d.setWidth 23 = 0#23)
  | .rowb h op s1 s2 s3 cm fmt eps =>
    let (a, o, d) := (b.raw h 0 s1, b.raw h 0 s2, b.raw h 0 s3)
    let dy : Word := (d.setWidth 23).setWidth 64
    some ({ op := .row false op a.toNat o.toNat d fmt eps.toNat, path := .w, cm := outOf cm },
      common fmt a o d && storeOk s x dy 16 (rowsBytes fmt d) && apart o dy (rowsBytes fmt d))
  | _ => none

/-- What a collective asks for, and whether it can be asked for (R121, R144, R146, R253). -/
def collAsked (s : State) (x : Site) (i : Instr) : Option (Ask × Bool) :=
  let go (op : Option CollOp) (h : Hdr) (s1 s2 s3 : Src) (cm : Cmpl) (fmt : Fmt) (coh : BitVec 8) : Option (Ask × Bool) :=
    let (d, p, n) := ((s.bank x).raw h 0 s1, (s.bank x).raw h 0 s2, (s.bank x).raw h 0 s3)
    match s.memberOf x coh.toNat with
    | none => none
    | some (c, m) =>
      let e := fmtBits fmt / 8
      let written := e * match op with
        | some .allgather => c.size * n.toNat
        | some .reducescatter => n.toNat / c.size
        | _ => n.toNat
      let same := va d = va p && written = e * n.toNat
      some ({ op := .coll op (va d) (va p) n.toNat fmt coh.toNat m.rank m.attempt, path := .x, cm := outOf cm },
        addressOk d e && addressOk p e && 1 ≤ n.toNat && n.toNat < 2 ^ 32 && !c.closing && c.num = coh.toNat
          && (match op with
            | none => n.toNat % 32 = 0 && c.size ≤ 256
            | some .reducescatter | some .alltoall => n.toNat % c.size = 0
            | _ => true)
          && (same || va d + written ≤ va p || va p + e * n.toNat ≤ va d) && (s.colls (s.saggarOf x) coh.toNat).length < 16)
  match i with
  | .coll h op s1 s2 s3 cm fmt coh => go (some op) h s1 s2 s3 cm fmt coh
  | .xred h s1 s2 s3 cm fmt coh => go none h s1 s2 s3 cm fmt coh
  | _ => none

/-- The newest record of a saggar's log is that of a fault or trap (R361). -/
def Logged (s t : State) (g : Nat) (w : Where) (r : Raise) : Prop :=
  (t.saggar g).log.getLast? = some { seq := (s.saggar g).nextSeq.toNat, words := recordWords w r } ∧
  (t.saggar g).nextSeq = (s.saggar g).nextSeq + 1

/-- A region freezes, with one more cause (R360). -/
def Freezing (t : State) (l : Launch) (cls : Nat) : Prop :=
  (t.launch? l.num).map (fun o => (o.freeze, o.causes)) = some (true, l.causes ++ [cls])

/-- A fence of the cell that names a path second is outstanding (R79). -/
def Fenced (s : State) (f : Firing) (p : Path) : Prop := ∃ o ∈ s.reqs, o.site = f.site ∧ ∃ y, o.op = .fence y p

/-- What is outstanding, and what waits on an output of the cell, bears an earlier number than what the cell does next. -/
def Earlier (s : State) (f : Firing) : Prop :=
  (∀ o ∈ s.reqs, o.id < s.nextId) ∧ ∀ o, ∀ g ∈ ((s.bank f.site).out o).groups, g.id < s.nextId

/-- A refill that waits for its consumers stands on a copy queue of the cell's stack (R116). -/
def Blocked (s : State) (f : Firing) (q : Nat) : Prop :=
  ∃ o ∈ s.reqs, o.queue = some q ∧ o.saggar = s.saggarOf f.site ∧ isEast o.site.tile = isEast f.site.tile ∧ o.lost = false ∧
    ∃ d p n h, o.op = .copy d p n (some h) false

/-- A request that has ended at its commit: those outstanding are as before, no byte changed, and its completion token is on its
way (R76). -/
def Ended (s t : State) (f : Firing) (cm : Option Nat) (payload : Word) : Prop :=
  t.reqs = s.reqs ∧ t.mem = s.mem ∧ ∀ y o, ((t.bank y).out o).said = ((s.bank y).out o).said ++
    (if y = f.site ∧ cm = some o then [{ cls := 7, payload := payload }] else [])

end Sys2Proof.Claim

/-- R141, R142: COPY is issued on its queue with its places and its length; a refill that waits names its buffer. A copy of no
bytes is done at once, with its token, whatever else is outstanding; but it waits behind a refill that waits on its queue (R116)
and behind a fence of its cell (R79), and a refill of no bytes waits too: the model's choice between R116 and R142 (log entry
95). -/
def Obligations.CopiesIssued : Prop :=
  ∀ (s : State) (f : Firing) (rest : List Firing) (h : Hdr) (s1 s2 s3 : Src) (cm : Cmpl) (dts sts refill : Bool) (q : BitVec 4)
    (buf : BitVec 5) (d p : Place),
    let i : Instr := .copy h s1 s2 s3 cm dts sts refill q buf
    let b := s.bank f.site
    let n := b.raw h 0 s3
    n.toNat ≤ 2 ^ 32 → copyPlace s f.site dts (b.raw h 0 s1) n = some d → copyPlace s f.site sts (b.raw h 0 s2) n = some p →
    s.queueLength (s.saggarOf f.site) f.site.tile q.toNat < 64 →
    Earlier s f →
    (n ≠ 0 ∨ refill = true ∨ Blocked s f q.toNat ∨ Fenced s f .c →
      Issues s f rest i { op := .copy d p n.toNat (if refill then some buf.toNat else none) false, path := .c, cm := outOf cm
                          queue := some q.toNat } id id) ∧
    (n = 0 → refill = false → ¬ Blocked s f q.toNat → ¬ Fenced s f .c → misused s (reqOf s f i { op := .copy d p 0 none false, path := .c }) = [] → Clear s f rest i → s.lacksAfter f.site [] (outOf cm).toList = none →
      ∃ t, exec i s = .next t ∧ Ended s t f (outOf cm) (5#4 ++ Path.c.code.setWidth 4 ++ 0#4 ++ 0#4 ++ BitVec.ofNat 48 d.addr))

/-- R219, R220, R223: ROWF and ROWB are issued and join the queue of eight of their tile's row engine. -/
def Sys2Proof.Claim.RowsIssued : Prop :=
  ∀ (s : State) (f : Firing) (rest : List Firing) (i : Instr) (a : Ask), rowAsked s f.site i = some (a, true) →
    Issues s f rest i a (fun t => { t with rows := t.rows ++ [s.nextId] }) id

/-- R144, R253: COLL and XRED are issued for the member that their cell, or else its region, is: which of the two is the model's
reading (log entry 50). -/
def Sys2Proof.Claim.CollectivesIssued : Prop :=
  ∀ (s : State) (f : Firing) (rest : List Firing) (i : Instr) (a : Ask), collAsked s f.site i = some (a, true) →
    Issues s f rest i a id id

/-- R94, R127: LDFE of a full granule makes it empty at its commit, and STFE of an empty one makes it full, and no other granule
and no byte changes now. LDFE of an empty granule and STFE of a full one abort. That the bytes move only when the access is performed,
after the commit that changes the granule, is the model's reading of R94's one atomic step (log entry 33). -/
def Obligations.FullEmptyAccesses : Prop :=
  ∀ (s : State) (f : Firing) (rest : List Firing) (h : Hdr) (s1 : Src) (cm : Cmpl),
    let b := s.bank f.site
    let x := f.site
    let a := b.raw h 0 s1
    let k := partKey s (s.saggarOf x) x.tile a.toNat
    storeOk s x a 16 16 = true →
    (∀ dst : Dst,
      let i : Instr := .ldfe h dst s1 cm
      let target : ReqDst := match dst with
        | .g n => .pair (.g n.toNat) (.g (n.toNat + 1))
        | .o n => .out n.toNat
        | _ => .none
      let ask : Ask := { op := .ldfe a.toNat, path := .l, dst := target, cm := outOf cm, data := 2 }
      (setMem (k / 16) s.granules = true →
        Issues s f rest i ask id fun r => { r with granules := setDel (k / 16) r.granules }) ∧
      (setMem (k / 16) s.granules = false → Clear s f rest i → ∃ t, exec i s = .next t ∧ Aborts s t x)) ∧
    (∀ s2 s3 : Src,
      let i : Instr := .stfe h s1 s2 s3 cm
      let ask : Ask := { op := .stfe a.toNat (b.raw h 0 s2) (b.raw h 0 s3), path := .l, cm := outOf cm }
      (setMem (k / 16) s.granules = false →
        Issues s f rest i ask id fun r => { r with granules := setAdd (k / 16) r.granules }) ∧
      (setMem (k / 16) s.granules = true → Clear s f rest i → ∃ t, exec i s = .next t ∧ Aborts s t x))

/-- R113, R114, R115, R140: BCPOST on an armed barrier subtracts its count at its commit: the post waits while the balance is
negative; at zero, before a run-out has begun, the barrier is complete and the post is done; above zero the barrier overruns. A
post of another count, or of a barrier that is not armed, raises barrier_misuse and leaves the barrier as it was. -/
def Sys2Proof.Claim.BarrierPosted : Prop :=
  ∀ (s : State) (f : Firing) (rest : List Firing) (h : Hdr) (s1 : Src) (cm : Cmpl) (bar : BitVec 4),
    let i : Instr := .bcpost h s1 cm bar
    let g := s.saggarOf f.site
    let old := (s.saggar g).barriers.getD bar.toNat {}
    let e := ((s.bank f.site).raw h 0 s1).toNat
    let ask : Ask := { op := .bcpost bar.toNat false, path := .l, cm := outOf cm }
    let now (t : State) : Barrier := (t.saggar g).barriers.getD bar.toNat {}
    let good : Prop := old.st = .armed ∧ e ≠ 0 ∧ e < 2 ^ 48
    let raise (cls : Nat) (p : Party) (bal : Int) : Raise :=
      { cls := cls, party := p, a := BitVec.ofNat 64 bar.toNat, b := BitVec.ofInt 64 bal }
    (good → old.bal < e → Issues s f rest i ask id fun r => r.modSaggar g fun sg =>
      { sg with barriers := setAt {} sg.barriers bar.toNat { old with bal := old.bal - e, st := .posted, post := some s.nextId } }) ∧
    (Earlier s f → Clear s f rest i → s.lacksAfter f.site [] (slotsOf ask) = none → s.outstandingL f.site < 32 →
      (good → old.bal = e → ¬ Fenced s f .l → s.holdUp ≠ .runOut →
        ∃ t, exec i s = .next t ∧ Ended s t f (outOf cm) (1#4 ++ Path.l.code.setWidth 4 ++ 0#4 ++ 0#4 ++ BitVec.ofNat 48 old.base) ∧
          now t = { old with bal := 0, st := .complete, post := none }) ∧
      (good → old.bal > e → ∃ t, exec i s = .next t ∧ t.mem = s.mem ∧ now t = { old with bal := old.bal - e, st := .overrun, post := none } ∧
        Logged s t g old.by_ (raise 0x31 (.cell f.site.tile f.site.cell f.site.slot f.rule) (old.bal - e)) ∧
        ∀ l, s.launch? old.launch = some l → Freezing t l 0x31) ∧
      (¬ good → ∃ t w, exec i s = .next t ∧ t.mem = s.mem ∧ now t = old ∧ Logged s t g w (raise 0x30 .none old.bal)))

/-! ### Cohorts, regions, ranges, exceptions, hold-up (R194, R274, R289 to R299, R323, R343, R344, R351, R359 to R368, R383 to
R386) -/

namespace Sys2Proof.Claim

/-- A cohort of a saggar, in the list of cohorts, changed. -/
def cohortChanged (g k : Nat) (f : Cohort → Cohort) (s : State) : State :=
  { s with cohorts := s.cohorts.map fun c => if c.saggar = g ∧ c.num = k then f c else c }

/-- A member of a cohort changed, by its rank. -/
def memberChanged (r : Nat) (f : Member → Member) (c : Cohort) : Cohort :=
  { c with members := c.members.map fun m => if m.rank = r then f m else m }

/-- A member after a rank of another device has left (R295). -/
def leftOf (rank device : Nat) (m : Member) : Member := if m.rank = rank ∧ m.who = .remote device then { m with gone := true } else m

/-- No request of a cohort is outstanding. -/
def Idle (s : State) (g k : Nat) : Prop := ∀ r ∈ s.reqs, r.saggar = g → match r.op with
  | .coll _ _ _ _ _ c _ _ => c ≠ k
  | .bar c _ => c ≠ k
  | .cabort c _ _ _ _ => c ≠ k
  | .join c _ => c ≠ k
  | _ => True

end Sys2Proof.Claim

/-- R146, R295, R296: BAR arrives for its member with the accesses of its cell that are not yet performed; CABORT advances its
member to the next attempt, modulo 256, sends every other rank an abort token, and waits for those whose attempt numbers have
not passed its own; LEAVE closes its cohort and ends its member, and a cohort whose every member is gone is dissolved. That the member is the
cell's, or else its region's, that an attempt has passed another when it is less than 128 above it modulo 256, and when a cohort
dissolves are the model's reading (log entry 50). -/
def Sys2Proof.Claim.CohortMembers : Prop :=
  ∀ (s : State) (f : Firing) (rest : List Firing) (h : Hdr) (coh : BitVec 8) (c : Cohort) (m : Member),
    let g := s.saggarOf f.site
    let k := coh.toNat
    s.cohort? g k = some c →
    (∀ (rgn : Bool) (o : Out), c.find (s.memberId f.site rgn) = some m → c.closing = false → m.arrived = false →
      Issues s f rest (.bar h rgn o coh)
        { op := .bar k m.rank, path := .l, cm := some o.toNat, joint := s.issuedBy f.site } id
        (cohortChanged g k (memberChanged m.rank fun m => { m with arrived := true }))) ∧
    (∀ cm : Cmpl, s.memberOf f.site k = some (c, m) → Idle s g k →
      let others := c.members.filter fun o => o.gone = false ∧ o.rank ≠ m.rank
      let behind := others.filter fun o =>
        let d := (o.attempt + 256 - m.attempt) % 256
        d = 0 ∨ 128 ≤ d
      Issues s f rest (.cabort h cm coh)
        { op := .cabort k m.rank m.attempt (behind.map (·.rank)) (others.map (·.rank)), path := .x, cm := outOf cm } id
        (cohortChanged g k (memberChanged m.rank fun o => { o with attempt := (m.attempt + 1) % 256 }))) ∧
    (∀ rgn : Bool, c.find (s.memberId f.site rgn) = some m → Idle s g k → Clear s f rest (.leave h rgn coh) →
      ∃ t, exec (.leave h rgn coh) s = .next t ∧ Leaves s t f (.leave h rgn coh)
        { regs := (s.bank f.site).regs
          rest := fun r => { r with cohorts := (cohortChanged g k (fun c =>
              { c with closing := true, members := c.members.map fun o =>
                  if o.who = s.memberId f.site rgn then { o with gone := true } else o }) r).cohorts.filter fun c =>
                !(c.saggar = g && c.num = k && c.members.all (·.gone)) } })

/-- R294: JOIN makes its cohort when the number is free, and enters its member; while ranks are missing it asks for a formed
token when it names an output, and with the last rank the cohort is formed. -/
def Sys2Proof.Claim.CohortJoined : Prop :=
  ∀ (s : State) (f : Firing) (rest : List Firing) (h : Hdr) (rgn : Bool) (od : OutOpt) (s1 s2 : Src) (coh : BitVec 8),
    let i : Instr := .join h rgn od s1 s2 coh
    let b := s.bank f.site
    let g := s.saggarOf f.site
    let k := coh.toNat
    let r := (b.raw h 0 s1).toNat
    let n := (b.raw h 0 s2).toNat
    let who := s.memberId f.site rgn
    let new : Member := { rank := r, who := who }
    let ask (o : BitVec 3) : Ask := { op := .join k r, path := .h, dst := .out o.toNat, data := 1 }
    let leaves (t : State) (st : State → State) : Prop := Leaves s t f i
      { regs := b.regs, rest := st, asks := match od with | some o => [reqOf s f i (ask o)] | none => [] }
    Clear s f rest i → s.lacksAfter f.site [] (outOf od).toList = none → r < n → n ≤ 4096 →
    (s.cohort? g k = none → 1 < n → ∃ t, exec i s = .next t ∧ leaves t fun z =>
      { z with cohorts := z.cohorts ++ [{ saggar := g, num := k, size := n, members := [new] }] }) ∧
    (∀ c, s.cohort? g k = some c → c.closing = false → c.size = n → (∀ o ∈ c.members, o.rank ≠ r) → c.find who = none →
      (c.members.length + 1 < n → ∃ t, exec i s = .next t ∧
        leaves t (cohortChanged g k fun c => { c with members := c.members ++ [new] })) ∧
      (n ≤ c.members.length + 1 → c.formed = false →
        ∃ t d, exec i s = .next t ∧ t.cohort? g k = some d ∧ d.formed = true ∧ d.gen = 0 ∧ d.members.map (·.rank) = c.members.map (·.rank) ++ [r] ∧
          ∀ o ∈ d.members, o.attempt = 0))

/-- R80, R139, R290, R330: DRAIN begins the drain of its region, and one more has no further effect; YIELD gives up its plane's
rounds of the cycles after this one. -/
def Obligations.RegionDrains : Prop :=
  ∀ (s : State) (f : Firing) (rest : List Firing) (h : Hdr) (l : Launch),
    let regs := (s.bank f.site).regs
    s.launchAt f.site = some l →
    (l.trav = none ∨ l.draining = true → Clear s f rest (.drain h) → ∃ t, exec (.drain h) s = .next t ∧ Leaves s t f (.drain h)
      { regs := regs, rest := fun r => { r with launches := r.launches.map fun o => if o.num = l.num then { o with draining := true } else o } }) ∧
    (∀ cyc1 : BitVec 12, Clear s f rest (.yield h cyc1) → ∃ t, exec (.yield h cyc1) s = .next t ∧
      Leaves (s.modSlot f.site.tile f.site.slot fun k => { k with yield := cyc1.toNat + 3 }) t f (.yield h cyc1) { regs := regs })

/-- R290 to R292: the first SPLICE or PLANE of a region names its successor, which keeps the launch number, image, queue and
priority of its predecessor and stands at its origin; one more of the same kind and region has no further effect. -/
def Sys2Proof.Claim.SuccessorNamed : Prop :=
  ∀ (s : State) (f : Firing) (rest : List Firing) (h : Hdr) (rgn : BitVec 8) (l : Launch) (splice : Bool),
    let i : Instr := if splice then .splice h rgn else .plane h rgn
    let regs := (s.bank f.site).regs
    let plat := ((s.image? l.saggar l.image).map (·.plat rgn.toNat)).getD []
    s.launchAt f.site = some l → Clear s f rest i →
    (l.succ = some (splice, rgn.toNat) → ∃ t, exec i s = .next t ∧ Leaves s t f i { regs := regs }) ∧
    (l.succ = none → (∀ o ∈ s.launches, o.num ≠ s.nextLaunch) →
      (splice = true → plat = l.tiles.map (·.rtile)) →
      (splice = false → ∃ ts, platAt l.placed plat = some ts ∧ ts.all s.offered = true) →
      ∃ t, exec i s = .next t ∧ (t.bank f.site).regs = regs.guard h f.rule s.nextId ∧ t.reqs = s.reqs ∧ t.mem = s.mem ∧
        t.nextLaunch = s.nextLaunch + 1 ∧ (t.launch? l.num).map (·.succ) = some (some (splice, rgn.toNat)) ∧
        ∃ n, t.launch? s.nextLaunch = some n ∧ n.no = l.no ∧ n.saggar = l.saggar ∧ n.image = l.image ∧ n.region = rgn.toNat ∧
          n.queue = l.queue ∧ n.prio = l.prio ∧ n.placed = l.placed ∧ n.phase = .placed ∧ n.pred = some (splice, l.num) ∧
          n.tiles.map (·.rtile) = plat)

/-- R264, R297, R344: LAUNCH puts a launch of its own image at the end of a queue, and RESUME the resume launch of a held region;
each asks for its token when it names an output, and raises no priority above its own. -/
def Sys2Proof.Claim.LaunchesQueued : Prop :=
  ∀ (s : State) (f : Firing) (rest : List Firing) (h : Hdr) (od : OutOpt) (s1 s2 : Src) (rgn : BitVec 8) (q : BitVec 5)
    (prio : BitVec 2) (flt : Bool) (l : Launch),
    let b := s.bank f.site
    let joined (r : State) (n : Nat) : List (List Nat) := setAt [] r.queues q.toNat (r.queues.getD q.toNat [] ++ [n])
    let asks (i : Instr) (a : Nat → Ask) : List Req := match outOf od with | some o => [reqOf s f i (a o)] | none => []
    s.launchAt f.site = some l → (s.queues.getD q.toNat []).length < 64 → s.lacksAfter f.site [] (outOf od).toList = none →
    (prio.toNat ≤ l.prio → Clear s f rest (.launch h od s1 rgn q prio flt) →
      ∃ t, exec (.launch h od s1 rgn q prio flt) s = .next t ∧ Leaves s t f (.launch h od s1 rgn q prio flt)
        { regs := b.regs, asks := asks (.launch h od s1 rgn q prio flt) fun o => { op := .launch s.nextLaunch, path := .h, cm := some o, queue := some q.toNat }
          rest := fun r => { r with
            nextLaunch := r.nextLaunch + 1, queues := joined r s.nextLaunch
            launches := r.launches ++ [{ num := s.nextLaunch, no := s.nextLaunch % 2 ^ 16, saggar := l.saggar, image := l.image
                                         region := rgn.toNat, queue := q.toNat, prio := prio.toNat, floating := flt
                                         origin := if flt then 0 else (b.raw h 0 s1).toNat
                                         endTo := match od with | some _ => .req s.nextId | none => .nowhere }] } }) ∧
    (∀ (v : Saved) (held : Launch), let handle := ((b.raw h 0 s2).setWidth 8).toNat
      (s.saggar (s.saggarOf f.site)).saved.find? (·.handle = handle) = some v → s.launch? v.launch = some held → v.queued = false →
      (∀ o ∈ (s.saggar (s.saggarOf f.site)).saved, o.launch = v.launch → o = v) → held.saggar = s.saggarOf f.site →
      prio.toNat ≤ l.prio → Clear s f rest (.resume h od s1 s2 q prio flt) →
      ∃ t, exec (.resume h od s1 s2 q prio flt) s = .next t ∧ Leaves s t f (.resume h od s1 s2 q prio flt)
        { regs := b.regs, asks := asks (.resume h od s1 s2 q prio flt) fun o => { op := .resume v.launch, path := .h, dst := .out o, data := 1, queue := some q.toNat }
          rest := fun r => { r.modSaggar held.saggar (fun g => { g with saved := g.saved.map fun o => if o.launch = v.launch then { o with queued := true } else o }) with
            queues := joined r v.launch
            launches := r.launches.map fun o => if o.num = v.launch then
              { o with phase := .queued, queue := q.toNat, prio := prio.toNat, origin := (b.raw h 0 s1).toNat, floating := flt
                       resume := match od with | some _ => some s.nextId | none => none } else o } })

/-- R274, R293: RANGE open sets the tile's range unit; RANGE take hands out its next chunk, half of what is left shared over p,
no less than the chunk minimum while it lasts, two rounds later; RANGE close releases the unit. -/
def Obligations.RangesShared : Prop :=
  ∀ (s : State) (f : Firing) (rest : List Firing) (h : Hdr) (s1 s2 s3 : Src) (p1 : BitVec 8) (n : BitVec 5) (r : RangeUnit),
    let b := s.bank f.site
    let lo := (b.raw h 0 s1).toNat
    let hi := (b.raw h 0 s2).toNat
    let cmin := ((b.raw h 0 s3).setWidth 32).toNat
    let unit := (s.tile f.site.tile).range
    let left := r.hi - r.next
    let k := if left = 0 then 0 else min (max ((left + 2 * r.p - 1) / (2 * r.p)) r.cmin) left
    (lo ≤ hi → 0 < cmin → (∀ u, unit = some u → u.slot = f.site.slot) → Clear s f rest (.rangeOpen h s1 s2 s3 p1) →
      ∃ t, exec (.rangeOpen h s1 s2 s3 p1) s = .next t ∧ Leaves s t f (.rangeOpen h s1 s2 s3 p1)
        { regs := b.regs, tile := fun t => { t with
          range := some { slot := f.site.slot, lo := lo, hi := hi, next := lo, p := p1.toNat + 1, cmin := cmin } } }) ∧
    (unit = some r → r.slot = f.site.slot → Clear s f rest (.rangeTake h (.g n)) →
      ∃ t, exec (.rangeTake h (.g n)) s = .next t ∧
        Leaves s t f (.rangeTake h (.g n))
          { regs := { b.regs with pend := b.pend ++ [{ id := s.nextId, rule := f.rule, left := some 2, lat := 2, writes :=
              [.reg (.g n.toNat) (BitVec.ofNat 64 r.next), .reg (.g (n.toNat + 1)) (BitVec.ofNat 64 k)] }] }
            tile := fun t => { t with range := some { r with next := r.next + k } } }) ∧
    (Clear s f rest (.rangeClose h) → ∃ t, exec (.rangeClose h) s = .next t ∧ Leaves s t f (.rangeClose h)
      { regs := b.regs, tile := fun t => { t with range := t.range.filter fun u => u.slot ≠ f.site.slot } })

namespace Sys2Proof.Claim

/-- A precise fault or trap taken (R359 to R361): the record of the raising rule stands at the end of its saggar's log, its
region is frozen with the cause, its bank is halted in the state that it had, no later rule of the bank fires in the round, and
no byte, register, channel, output or request has changed. -/
structure Taken (s t : State) (f : Firing) (rest : List Firing) (r : Raise) (l : Launch) : Prop where
  record : ∃ old, (t.saggar l.saggar).log = old ++ [{ seq := (s.saggar l.saggar).nextSeq.toNat
                                                      words := recordWords (s.whereAt f.site f.rule) r }]
  next   : (t.saggar l.saggar).nextSeq = (s.saggar l.saggar).nextSeq + 1
  frozen : (t.launch? l.num).map (fun x => (x.freeze, x.causes)) = some (true, l.causes ++ [r.cls])
  halted : (t.bank f.site).halted = true
  round  : t.round.firing = rest.filter fun g => g.site ≠ f.site
  regs   : ∀ y, (t.bank y).regs = (s.bank y).regs ∧ (t.bank y).chans = (s.bank y).chans ∧ (t.bank y).outs = (s.bank y).outs
  reqs   : t.reqs = s.reqs
  mem    : t.mem = s.mem

/-- The fault of a DIV by zero (R57) and the trap of TRAP (R365). -/
def ownRaise (b : Bank) (i : Instr) : Option Raise :=
  match i with
  | .div h ty _ s1 s2 imm =>
    if operand b i (width ty) imm s2 = 0 then
      some { cls := 0x02, a := (operand b i (width ty) imm s1).setWidth 64 } else none
  | .trap h s1 code =>
    let tag : Bool := match s1 with
      | .head hd => ((b.headTok h hd).map (·.etag)).getD false
      | _ => false
    some { cls := 0x04, a := b.raw h 0 s1, b := (if tag then 1#48 else 0#48) ++ code }
  | _ => none

/-- The misaligned-access fault of a request that uses the management page and is no load or store of 8 bytes (R121, R397):
it names the first address of the range. -/
def pageRaise (s : State) (f : Firing) (i : Instr) : Option Raise :=
  match (asked s f.site i).or (collAsked s f.site i) with
  | some (a, true) => (misused s (reqOf s f i a)).head?.map fun x => { cls := 0x21, addr := x.1, a := BitVec.ofNat 64 x.1 }
  | _ => none

/-- A rule that is chosen, has its ports, meets no upset and is not held. -/
structure Fires (s : State) (f : Firing) (rest : List Firing) (i : Instr) : Prop where
  first  : s.round.firing = f :: rest
  ports  : f.short = false
  upset  : (s.round.ups.find? fun u => u.cell = f.site.cell && u.rule = f.rule) = none
  noHold : s.held f.site f.rule i = false

end Sys2Proof.Claim

/-- R57, R121, R359 to R361, R365, R397: DIV by zero, TRAP, and a request that misuses the management page are taken as precise
exceptions, with none of their rule's other effects. What a firing that does not commit leaves (log entry 9), the info words of the
record (log entry 24), that the bank stands still at once (log entry 25), and which accesses misuse the page (log entry 79) are the
model's reading. -/
def Sys2Proof.Claim.ExceptionsTaken : Prop :=
  ∀ (s : State) (f : Firing) (rest : List Firing) (i : Instr) (r : Raise) (l : Launch),
    (ownRaise (s.bank f.site) i).or (pageRaise s f i) = some r → Fires s f rest i → (s.bank f.site).busyTile i = none → (s.bank f.site).tainted i = none →
    s.launchAt f.site = some l → l.trav = none →
    ∃ t, exec i s = .next t ∧ Taken s t f rest r l

/-- R194, R351: a rule that names a tile which an array instruction owns, or reads one as the half of an FP64 pair, takes the accumulator-busy trap, unless it waits on
the owner's scoreboard slot; one that reads a head with an error tag as a source takes the poison fault. That the trap comes before the
fault where both hold (log entry 23), and which rules read the half of a pair (log entry 82), are the model's reading. -/
def Sys2Proof.Claim.BusyAndPoison : Prop :=
  ∀ (s : State) (f : Firing) (rest : List Firing) (i : Instr) (l : Launch) (hd : Head) (k : Token) (n : Nat),
    let b := s.bank f.site
    Fires s f rest i → s.launchAt f.site = some l → l.trav = none →
    (∀ (a id rule : Nat) (rounds : Word), a < 4 → (b.acc.getD a {}).owner = some (id, rule, rounds) →
      (∀ c, c < a → (b.acc.getD c {}).owner = none) → Res.acc a ∈ Instr.reads i ++ Instr.accReads b i ++ Instr.writes i →
      (∀ sl, (Instr.hdr i).sbw = some sl → (b.sb.getD sl.toNat none).map (·.2) ≠ some id) →
      ∃ t, exec i s = .next t ∧ Taken s t f rest { cls := 0x03, a := BitVec.ofNat 64 (a ||| rule <<< 4), b := rounds } l) ∧
    ((match i with | .add .. | .mov .. | .send .. | .ld .. | .cmp .. | .fadd .. => true | _ => false) = true →
      (Instr.view i).s1 = some (.head hd) → b.headTok (Instr.hdr i) hd = some k → chanOf (Instr.hdr i) (.head hd) = some n →
      k.etag = true → (∀ a, (b.acc.getD a {}).owner = none) →
      ∃ t, exec i s = .next t ∧ Taken s t f rest { cls := 0x0A, reason := 1, a := BitVec.ofNat 64 n, b := k.payload } l)

/-- R33, R36, R39: a chosen rule that is held, or that lacks a port, has no effect in the round but on the counts of holds. -/
def Sys2Proof.Claim.HeldRulesWait : Prop :=
  ∀ (s : State) (f : Firing) (rest : List Firing) (i : Instr), (Instr.op? i).isSome = true → s.round.firing = f :: rest →
    s.held f.site f.rule i = true ∨ f.short = true →
    ∃ t, exec i s = .next t ∧ (∀ y, (t.bank y).regs = (s.bank y).regs ∧ (t.bank y).chans = (s.bank y).chans ∧
        (t.bank y).outs = (s.bank y).outs) ∧ t.reqs = s.reqs ∧ t.rest = s.rest ∧
      (∀ n, (t.tile n).shared = (s.tile n).shared) ∧ ∀ n k, (t.slot n k).plane = (s.slot n k).plane

/-- R366: CHKERR writes its predicate with whether its head bears an error tag or a completion status that is not zero, or with
the opposite; FAULTRD returns a word of a record of its own saggar's log, 0 for one that the log does not hold, or the count. -/
def Obligations.ErrorsRead : Prop :=
  ∀ (s : State) (f : Firing) (rest : List Firing) (h : Hdr) (hd : Head) (pk : BitVec 3) (clean : Bool) (dst : Dst) (s1 : Src)
    (wsel : BitVec 3) (k : Token),
    let b := s.bank f.site
    let log := s.saggar (s.saggarOf f.site)
    let bad := k.etag || (k.cls = 7 && k.payload.extractLsb' 52 4 ≠ 0)
    let seq := ((b.raw h 0 s1).setWidth 32).toNat
    ((∀ n, Hdr.headCh h hd = some n → .v n ∈ Instr.reads (.chkerr h hd pk clean)) ∧ .p pk.toNat ∈ Instr.writes (.chkerr h hd pk clean)) ∧
    (b.headTok h hd = some k → Clear s f rest (.chkerr h hd pk clean) → ∃ t, exec (.chkerr h hd pk clean) s = .next t ∧
      Leaves s t f (.chkerr h hd pk clean) { regs := b.regs.pred pk (if clean then !bad else bad) }) ∧
    (∀ v : Word, ((∀ r ∈ log.log, r.seq ≠ seq) → v = 0) →
      (∀ old r more, log.log = old ++ r :: more → (∀ o ∈ old, o.seq ≠ seq) → r.seq = seq → v = r.words.getD wsel.toNat 0) →
      Clear s f rest (.faultrdWord h dst s1 wsel) → s.room f.site dst → ∃ t, exec (.faultrdWord h dst s1 wsel) s = .next t ∧
        Leaves s t f (.faultrdWord h dst s1 wsel) { regs := b.regs.later dst f.rule s.nextId 8 v }) ∧
    (Clear s f rest (.faultrdCount h dst) → s.room f.site dst → ∃ t, exec (.faultrdCount h dst) s = .next t ∧
      Leaves s t f (.faultrdCount h dst) { regs := b.regs.later dst f.rule s.nextId 8 (log.nextSeq.setWidth 64) })

/-- R343, R372, R383 to R386: SNAP fixes the save point of a snap cell to which a traverse has come; SAVESET and SAVEDROP notify
set and clear an output's notify mark; SAVESET declare and SAVEDROP declaration ask the port die; PFACK ends phase 2 for its
saggar, and outside phase 2 has no effect. -/
def Obligations.HoldUpPrepared : Prop :=
  ∀ (s : State) (f : Firing) (rest : List Firing) (h : Hdr) (o : Out) (dst : Dst) (s1 s2 : Src),
    let b := s.bank f.site
    let mark (v : Bool) : Nat → Wire → Wire := fun k w => if k = o.toNat then { w with notify := v } else w
    let a := b.raw h 0 s1
    let n := b.raw h 0 s2
    let asks (i : Instr) (op : ReqOp) : Prop :=
      Issues s f rest i { op := op, path := .h, dst := Dst.reqDst dst, data := 1 } id fun r => { r with saveReqs := r.saveReqs ++ [s.nextId] }
    (Clear s f rest (.snap h) → ∃ t, exec (.snap h) s = .next t ∧ Leaves s t f (.snap h) { regs := b.regs } ∧
      ((t.bank f.site).snapDue = (b.snapDue || (s.traversed f.site && s.marksNow f.site)))) ∧
    (.o o.toNat ∈ Instr.writes (.savesetNotify h o) ∧ .o o.toNat ∈ Instr.writes (.savedropNotify h o)) ∧
    (Clear s f rest (.savesetNotify h o) → ∃ t, exec (.savesetNotify h o) s = .next t ∧
      Leaves s t f (.savesetNotify h o) { regs := b.regs, wires := mark true }) ∧
    (Clear s f rest (.savedropNotify h o) → ∃ t, exec (.savedropNotify h o) s = .next t ∧
      Leaves s t f (.savedropNotify h o) { regs := b.regs, wires := mark false }) ∧
    (addressOk a 16 = true → lengthOk n 16 declMax = true → asks (.savesetDeclare h dst s1 s2) (.saveset (va a) n.toNat)) ∧
    asks (.savedropDeclaration h dst s1) (.savedrop (a.setWidth 8).toNat) ∧
    (Clear s f rest (.pfack h) → ∃ t, exec (.pfack h) s = .next t ∧ (t.bank f.site).regs = b.regs.guard h f.rule s.nextId ∧ t.reqs = s.reqs ∧
      t.mem = s.mem ∧
      (∀ gs, s.holdUp = .grace gs → s.saggarOf f.site ∈ gs →
        let left := gs.filter (· ≠ s.saggarOf f.site)
        t.holdUp = if left = [] then .runOut else .grace left) ∧
      ((∀ gs, s.holdUp = .grace gs → s.saggarOf f.site ∉ gs) → Leaves s t f (.pfack h) { regs := b.regs }))

/-- R368: REPLAY of a data, header, data-last or stop head takes the tokens of its pair from the head on out of the channel, and
their sender sends them again from its kept copies, in order; after three times it raises the poison fault. On a completion, drain or
marker head, or a sequencer's token, it has its guard-word effects only, whatever the count: that the class is looked at first is the
model's reading (log entry 32). -/
def Obligations.TokensReplayed : Prop :=
  ∀ (s : State) (f : Firing) (rest : List Firing) (h : Hdr) (hd : Head) (k : Token) (n : Nat),
    let i : Instr := .replay h hd
    let b := s.bank f.site
    let p := (s.bank k.src).out k.out
    let fixed := k.cls = 7 || k.cls = 5 || k.cls = 6 || k.seqr
    let again (u : Token) : Bool := u.src = k.src && u.out = k.out && u.cls ≠ 6 && k.seq ≤ u.seq
    b.headTok h hd = some k → chanOf h (.head hd) = some n →
    (fixed = true → Clear s f rest i → ∃ t, exec i s = .next t ∧ Leaves s t f i { regs := b.regs }) ∧
    (fixed = false → (b.chan n).reinjCount (s.pairOf k.src k.out) k.seq < 3 → Clear s f rest i →
      ∃ t, exec i s = .next t ∧ (t.bank f.site).regs = b.regs.guard h f.rule s.nextId ∧ t.reqs = s.reqs ∧ t.mem = s.mem ∧
        (∀ m, ((t.bank f.site).chan m).toks = (Hdr.dequeues h m { (b.chan m) with
          toks := if m = n then (b.chan m).toks.filter (fun u => !again u) else (b.chan m).toks }).toks) ∧
        ((t.bank f.site).chan n).expected (s.pairOf k.src k.out) = k.seq ∧
        ((t.bank f.site).chan n).reinjCount (s.pairOf k.src k.out) k.seq = (b.chan n).reinjCount (s.pairOf k.src k.out) k.seq + 1 ∧
        ((t.bank k.src).out k.out).said = (p.flight.map Token.said ++ (p.kept.filter fun u => k.seq ≤ u.seq).map Token.said ++
          p.groups.flatMap fun g => g.toks.map GTok.said).filter (·.cls ≠ 6)) ∧
    (∀ l, fixed = false → 3 ≤ (b.chan n).reinjCount (s.pairOf k.src k.out) k.seq → Fires s f rest i → b.busyTile i = none →
      s.launchAt f.site = some l → l.trav = none →
      ∃ t, exec i s = .next t ∧ Taken s t f rest { cls := 0x0A, reason := 5, a := BitVec.ofNat 64 n, b := k.payload } l)

/-! ### Rounds, tokens and units (R33, R36, R54, R70 to R73, R82, R182 to R198, R225 to R251, R261, R268, R272, R298, R353,
R354, R358) -/

namespace Sys2Proof.Claim

/-- The plane slot that an entry of the frame table gives its round to (R268, R298). -/
def granted (tl : Tile) : Option Nat :=
  let e := tl.table.getD tl.pos 4
  let sl := tl.slots.getD e {}
  let may (k : Nat) : Bool :=
    let sl := tl.slots.getD k {}
    sl.runs && sl.base ≤ sl.weight && sl.yield ≤ 1
  let next := [(tl.last + 1) % 4, (tl.last + 2) % 4, (tl.last + 3) % 4, (tl.last + 4) % 4].find? may
  if e = 4 then next
  else if sl.runs ∧ sl.yield ≤ 1 then some e
  else next.or (if sl.runs then some e else none)

/-- The values in a cell's registers, tiles and tables; its pending results, units and scoreboard apart. -/
def valuesOf (r : Regs) : Regs := { r with sb := [], units := [], pend := [] }

/-- Nothing changes but in one bank, on the links, and in counters and progress marks. -/
structure OnlyIn (x : Site) (s t : State) : Prop where
  others : ∀ y, y ≠ x → (t.bank y).regs = (s.bank y).regs
  tiles  : SameTiles s t
  reqs   : t.reqs = s.reqs
  rest   : t.rest = s.rest

/-- The tokens of an output with those that group `id` has made put in their place in the order (R72). -/
def saidWith (p : OutState) (id : Nat) (made : List Said) : List Said :=
  (p.flight.map Token.said ++ p.resend.map Token.said ++
    p.groups.flatMap fun g => g.toks.map GTok.said ++ (if g.id = id then made else [])).filter (·.cls ≠ 6)

/-- A unit of a bank that may act: its plane runs, and its first round has come (R228, R232, R360). -/
def Acts (s : State) (x : Site) (u : Nat) (w : UnitWork) : Prop :=
  s.stopped x = false ∧ ((s.bank x).unit? u).map (·.work) = some w

/-- The work of a unit, while it is in flight. -/
def workOf (t : State) (x : Site) (u : Nat) : Option UnitWork := ((t.bank x).units.find? (·.id = u)).map (·.work)

/-- The channel without its head, the scale latch counting on (R178). -/
def popped (c : Chan) : Chan := match c.toks with
  | [] => c
  | t :: r => { c.noteRemoved t with toks := r }

end Sys2Proof.Claim

open Sys2Proof Sys2Proof.Machine Sys2Proof.Claim

/-- What may come at once after a cycle of a tile: a stall trap of a plane of it, the marking or the save point of a cell of it, the
scrub of a bank of it, and the end of an idle layer's power (R96, R261, R323, R324, R358; log entry 60). -/
def followsCycle (t : Nat) : Instr → Bool
  | .watchdogStall t' _ => t' = t
  | .snapForcedSave y | .cellSave y => y.tile = t
  | .stateScrub y _ => y.tile = t
  | .layerPowerOff t' _ => t' = t
  | _ => false

/-- R33, R256, R261, R268, R323, R324: a cycle of a tile in service moves its frame table on and gives the round to the plane of
the entry, or to the next that may take it; every cell of that plane counts the round, no other cell does, only rules of that
plane are chosen to fire, and memory, launches and requests stay as they are. Stall traps and save points that are due come
next. That ROUNDS counts the round at its opening (log entry 81), and what the agenda puts after a cycle (log entries 3 and 60), are
the model's. -/
def Sys2Proof.Claim.RoundsOpen : Prop :=
  ∀ (s : State) (t : Nat) (ups : List Upset), s.tileRuns t = true → s.round.firing = [] →
    ∃ u, exec (.cellRound t ups) s = .next u ∧ (u.tile t).pos = ((s.tile t).pos + 1) % 64 ∧ u.reqs = s.reqs ∧
      u.rest = { s.rest with agenda := u.agenda } ∧ (∃ more, u.agenda = s.agenda ++ more ∧ more.all (followsCycle t) = true) ∧
      (∀ y : Site, (u.bank y).rounds = (s.bank y).rounds +
        (if y.tile = t ∧ granted (s.tile t) = some y.slot then BitVec.ofNat 64 ((s.banks.map (·.1)).count y) else 0)) ∧
      (∀ f ∈ u.round.firing, f.site.tile = t ∧ granted (s.tile t) = some f.site.slot) ∧
      (granted (s.tile t) = none → u.round.firing = [] ∧ ∀ y, valuesOf (u.bank y).regs = valuesOf (s.bank y).regs ∧
        (u.bank y).chans = (s.bank y).chans ∧ (u.bank y).outs = (s.bank y).outs)

/-- R9, R31, R33, R256: the rules chosen in a round are ready, share no unit and no conflict, leave out no ready rule that could
join them, and take in the rule at the fairness index when it is ready. -/
def Obligations.ChosenRules : Prop :=
  ∀ b : Bank,
    (∀ k ∈ b.selectSet, k < 16 ∧ b.ready k = true) ∧
    b.selectSet.Pairwise (fun j k => b.classOf j ≠ b.classOf k ∧ (b.conf.getD k 0).getLsbD j = false ∧ (b.conf.getD j 0).getLsbD k = false ∧
      (b.prio k < b.prio j ∨ (b.prio k = b.prio j ∧ j < k))) ∧
    (∀ k, k < 16 → b.ready k = true → k ∉ b.selectSet → ∃ j ∈ b.selectSet,
      b.classOf j = b.classOf k ∨ (b.conf.getD k 0).getLsbD j = true ∨ (b.conf.getD j 0).getLsbD k = true) ∧
    (b.fair < 16 → b.ready b.fair = true → b.fair ∈ b.selectSet)

/-- R48: the counters of a cell change only between rounds: the end of a round adds to them what it counted, and no more. -/
def Sys2Proof.Claim.CountersSettle : Prop :=
  ∀ (s : State) (t k : Nat) (y : Site), y.tile = t → y.slot = k → (s.banks.map (·.1)).count y = 1 →
    let b := s.bank y
    let a := (s.closePlane t k).bank y
    a.due = {} ∧ a.aborts = b.aborts + BitVec.ofNat 64 b.due.aborts ∧
      a.shortHolds = b.shortHolds + BitVec.ofNat 64 b.due.shortHolds ∧
      a.longWaits = b.longWaits + BitVec.ofNat 64 b.due.longWaits ∧
      a.reuseMiss = b.reuseMiss + BitVec.ofNat 64 b.due.reuseMiss

/-- R36, R50, R261, R298, R358, R360: a result whose latency has run out is written, and the history entry that waits for it is
written too; the token of a result whose plane has stopped still leaves; a watchdog at its limit raises the stall trap; a yield ends; a bank's scrub reads its next word, and a parity error raises. -/
def Sys2Proof.Claim.CyclesEnd : Prop :=
  ∀ (s : State) (x : Site) (l : Launch),
    let b := s.bank x
    (∀ (p : Pend) (r : Reg) (v : Word), b.pend.filter (·.left = some 0) = [p] → p.writes = [.reg r v] →
      (s.slot x.tile x.slot).halt ≠ .stopped →
      ∃ t, exec (.resultWrite x) s = .next t ∧ (t.bank x).reg r = v ∧ (∀ r', r' ≠ r → (t.bank x).reg r' = b.reg r') ∧
        (t.bank x).pend = b.pend.filter (·.id ≠ p.id) ∧ (t.bank x).p = b.p ∧ (t.bank x).acc = b.acc ∧
        (t.bank x).d.map (·.val) = b.d.map (·.val) ∧ (∀ e ∈ (t.bank x).d, e.pend ≠ some p.id) ∧ OnlyIn x s t) ∧
    (∀ (p : Pend) (o : Nat) (g : GTok), b.pend.filter (·.left = some 0) = [] → p.writes = [.tok o g] → p.left.isSome = true →
      b.pend.filter (fun q => q.left.isSome && q.isToken) = [p] → (s.slot x.tile x.slot).halt = .stopped →
      ∃ t, exec (.resultWrite x) s = .next t ∧ ((t.bank x).out o).said = saidWith (b.out o) p.id [g.said] ∧
        (t.bank x).pend = b.pend.filter (·.id ≠ p.id) ∧ t.reqs = s.reqs ∧ t.rest = s.rest) ∧
    (∀ k, (s.slot x.tile k).phase = .active → 2 ^ 22 ≤ (s.slot x.tile k).wd → s.launch? (s.slot x.tile k).launch = some l →
      ∃ t w, exec (.watchdogStall x.tile k) s = .next t ∧ Logged s t l.saggar w { cls := 0x10, source := 3, a := BitVec.ofNat 64 (s.queued x.tile k) } ∧
        w.saggar = l.saggar ∧ w.region = l.region ∧ w.ptile = x.tile ∧ w.slot = k ∧ Freezing t l 0x10 ∧ (t.slot x.tile k).wd = 0) ∧
    (∀ k, (s.slot x.tile k).yield = 1 → ∃ t, exec (.yieldEnd x.tile k) s = .next t ∧ (t.slot x.tile k).yield = 0 ∧ t.banks = s.banks ∧
      t.reqs = s.reqs ∧ t.rest = s.rest) ∧
    (b.chkint ≠ 0 → b.chkint.toNat ≤ b.scrubAge → (s.slot x.tile x.slot).phase = .active → s.launchAt x = some l →
      (∃ t, exec (.stateScrub x none) s = .next t ∧ (t.bank x).scrub = (b.scrub + 1) % 1644 ∧ (t.bank x).regs = b.regs ∧ OnlyIn x s t) ∧
      (∀ bad : ParityHit, ∃ t w, exec (.stateScrub x (some bad)) s = .next t ∧ Logged s t l.saggar w { cls := 0x09, a := BitVec.ofNat 64 b.scrub } ∧
        w.cell = x.cell ∧ w.ptile = x.tile ∧ Freezing t l 0x09))

/-- R54, R70, R73, R80, R82, R355: the oldest token on a link enters its channel, in the order of its pair; a live cell
keeps it, a retired cell discards and counts it, one out of order is dropped, and one that finds no plane raises the plane-tag
fault of its sender. -/
def Obligations.TokensArrive : Prop :=
  ∀ (s : State) (x y : Site) (o n : Nat) (k : Token) (more : List Token),
    let c := (s.bank y).chan n
    let p := (s.rtileOf x, x.cell, o)
    ((s.bank x).out o).flight = k :: more →
    (s.consumer x o = some (y, n) → k.cls ≠ 6 →
      ∃ t, exec (.tokenArrival x o) s = .next t ∧ ((t.bank x).out o).flight = more ∧ t.reqs = s.reqs ∧ t.rest = s.rest ∧
        (∀ z, (t.bank z).regs = (s.bank z).regs) ∧
        (k.seq = c.expected p → ((t.bank y).chan n).expected p = k.seq + 1) ∧
        (k.seq = c.expected p → (s.bank y).retired = false → ((t.bank y).chan n).toks = c.toks ++ [k] ∧ ((t.bank y).chan n).taken = c.taken - 1) ∧
        (k.seq = c.expected p → (s.bank y).retired = true → ((t.bank y).chan n).toks = c.toks ∧ ((t.bank y).chan n).taken = c.taken - 1 ∧
          (t.bank y).discards = (s.bank y).discards + (if k.cls = 5 then 0 else 1) ∧
          ((t.bank k.src).out k.out).kept = ((s.bank k.src).out k.out).kept.filter (·.seq ≠ k.seq)) ∧
        (k.seq ≠ c.expected p → ((t.bank y).chan n).toks = c.toks)) ∧
    (∀ l, s.consumer x o = none → s.launchAt x = some l → ∃ t w a, exec (.tokenArrival x o) s = .next t ∧
      Logged s t l.saggar w { cls := 0x0B, source := 3, a := a, b := BitVec.ofNat 64 o } ∧ w.cell = x.cell ∧ w.ptile = x.tile ∧ Freezing t l 0x0B ∧
      (∀ z m, ((t.bank z).chan m).toks = if l.trav.isSome ∧ z ∈ s.banksOf l.num then ((s.bank z).chan m).toks.filter (·.cls ≠ 6) else ((s.bank z).chan m).toks))

namespace Sys2Proof.Claim

/-- One wrong bit of a flit, and two. -/
def oneWrong (e : BitVec 84) : Prop := ∃ i, i < 84 ∧ e = 1#84 <<< i
def twoWrong (e : BitVec 84) : Prop := ∃ i j, i < j ∧ j < 84 ∧ e = 1#84 <<< i ^^^ 1#84 <<< j

end Sys2Proof.Claim

/-- R69, R353, R354: the check of a flit corrects one wrong bit of its 84 and detects two. At a hop a clean flit crosses, a
corrected one crosses and is counted at the hop, and one with an error that is detected is sent again, up to three times; then its
fallback form crosses as a poisoned token with a payload of zero, or its loss raises the link-failure fault on every region that
stands on both tiles. -/
def Obligations.FlitsCrossHops : Prop :=
  (∀ w : BitVec 76, (flitOf w).setWidth 76 = w ∧ flitRead (flitOf w) = some (w, false) ∧
    (∀ e, oneWrong e → flitRead (flitOf w ^^^ e) = some (w, true)) ∧ ∀ e, twoWrong e → flitRead (flitOf w ^^^ e) = none) ∧
  (∀ (k : Token) (plane : BitVec 2) (ch : BitVec 5), k.flit plane.toNat ch.toNat =
    (0#1 ++ BitVec.ofBool k.etag ++ plane ++ ch ++ k.cls ++ k.payload : BitVec 76)) ∧
  ∀ (s : State) (x : Site) (o a b : Nat) (k : Token) (more : List Token) (before : List (BitVec 84)) (last : BitVec 84)
      (rest : List (BitVec 84)) (lost : Bool),
    ((s.bank x).out o).flight = k :: more → a < 64 → b < 64 → (∀ e ∈ before, twoWrong e) →
    let hop : Instr := .flitHop x o { a := a, b := b, errs := before ++ last :: rest, lost := lost }
    (before.length ≤ 3 → last = 0 → exec hop s = .next s) ∧
    (before.length ≤ 3 → oneWrong last → ∃ t, exec hop s = .next t ∧ t = { s with hopCount := t.hopCount } ∧
      ∀ h, (alGet h t.hopCount).getD 0 = (alGet h s.hopCount).getD 0 + (if h = (a, b) then 1 else 0)) ∧
    (before.length = 3 → twoWrong last → lost = false → ∃ t, exec hop s = .next t ∧
      ((t.bank x).out o).flight = { k with payload := 0, etag := true } :: more ∧ OnlyIn x s t) ∧
    (∀ l, before.length = 3 → twoWrong last → lost = true → s.launch? l.num = some l →
      l.tiles.any (fun e => e.tile = a && e.slot.isSome) = true → l.tiles.any (fun e => e.tile = b && e.slot.isSome) = true →
      ∃ t, exec hop s = .next t ∧ (t.launch? l.num).map (·.freeze) = some true ∧
        ∀ own, s.launchAt x = some own → ∃ w, Logged s t own.saggar w { cls := 0x0D, source := 3, a := BitVec.ofNat 64 (a ||| b <<< 6) })

/-- R72, R197, R198, R235, R244, R251, R272, R273: a run of a unit whose slot and credit are there sends its next token, behind
every token made before it on its output. A loop nest sends one token in a tile cycle: the data token of a step, and in the next
the stop token of the levels that wrapped. -/
def Obligations.RunsSend : Prop :=
  ∀ (s : State) (x : Site) (u : Nat) (n : ReadNature) (up : Option Upset),
    let out (o : Nat) := (s.bank x).out o
    let sends (t : State) (o : Nat) (made : List Said) : Prop :=
      ((t.bank x).out o).said = saidWith (out o) u made ∧ (∀ o', o' ≠ o → ((t.bank x).out o').said = (out o').said) ∧
      valuesOf (t.bank x).regs = valuesOf (s.bank x).regs
    (∀ (r : RunOut) (cls : BitVec 3) (v : Word) (more : List (BitVec 3 × Word)), Acts s x u (.run r) → r.toks = (cls, v) :: more →
      r.sent < r.age → s.runReady x r.out u = true →
      ∃ t, exec (.runTokenSend x u n) s = .next t ∧ sends t r.out [{ cls := cls, payload := v }] ∧ OnlyIn x s t ∧
        workOf t x u = if more = [] then none else some (.run { r with toks := more, sent := r.sent + 1 })) ∧
    (∀ (w : CTurn) (cls : BitVec 3) (v : Word) (more : List (BitVec 3 × Word)), Acts s x u (.cturn w) → w.outq = (cls, v) :: more →
      (∀ q, (s.tile x.tile).nodes.getD w.node none = some q → q = u) → s.runReady x w.out u = true →
      ∃ t, exec (.cornerTurnToken x u) s = .next t ∧ sends t w.out [{ cls := cls, payload := v }] ∧ t.reqs = s.reqs ∧ t.rest = s.rest ∧
        (more = [] → w.blocks ≤ 1 → workOf t x u = none ∧ (t.tile x.tile).nodes.getD w.node none = none) ∧
        (more = [] → 1 < w.blocks → workOf t x u = some (.cturn { w with el := [], count := 0, scales := [], outq := [], blocks := w.blocks - 1 })) ∧
        (more ≠ [] → workOf t x u = some (.cturn { w with outq := more }))) ∧
    (∀ (w : Sparse) (o : Nat) (cls : BitVec 3) (v : Word) (more : List (BitVec 3 × Word)), Acts s x u (.sparse w) → w.out = some o →
      w.outq = (cls, v) :: more → s.runReady x o u = true →
      ∃ t, exec (.sparseUnitToken x u up) s = .next t ∧ sends t o [{ cls := cls, payload := v }] ∧ OnlyIn x s t ∧
        workOf t x u = if w.final ∧ more = [] then none else some (.sparse { w with outq := more })) ∧
    (∀ m : Nest, Acts s x u (.nest m) → m.stop = none → m.done = false → s.runReady x m.out u = true →
      let value (k : Nat) : BitVec 32 := match m.levels[k]? with
        | some l => l.b + BitVec.ofNat 32 l.x * l.s
        | none => 0
      let data : Said := { cls := 0, payload := value 1 ++ value 0 }
      let wraps := (m.levels.takeWhile fun l => l.x + 1 = l.c).length
      let levels := m.levels.zipIdx.map fun (l, k) => { l with x := if k < wraps then 0 else if k = wraps then l.x + 1 else l.x }
      let next : Nest := { m with levels := levels, done := wraps = m.levels.length }
      ∃ t, exec (.loopStep x u) s = .next t ∧ OnlyIn x s t ∧ sends t m.out [data] ∧ (t.bank x).unit? u = none ∧
        workOf t x u = some (.nest { next with stop := if wraps = 0 then none else some wraps })) ∧
    (∀ (m : Nest) (l : Nat), Acts s x u (.nest m) → m.stop = some l → s.runReady x m.out u = true →
      ∃ t, exec (.loopStep x u) s = .next t ∧ OnlyIn x s t ∧ sends t m.out [{ cls := 3, payload := BitVec.ofNat 64 l }] ∧
        (t.bank x).unit? u = none ∧ workOf t x u = some (.nest { m with stop := none }))

namespace Sys2Proof.Claim

/-- An exact value, and a sum of two encodings, rounded to FP32 under .rne (R183, R185). -/
def inFp32 (v : FVal) : Nat := (fpRound fp32 .rne false v { lfsr := 1, flags := 0 }).1
def sum32 (a b : Nat) : Nat := inFp32 (faddV .rne (fp32.decode a) (fp32.decode b)).val

/-- Four values added in pairs. -/
def inPairs (p : Nat → Nat) : Nat := sum32 (sum32 (p 0) (p 1)) (sum32 (p 2) (p 3))

/-- A lane's product and its scale, rounded: of FP32 the product alone (R184, R185). -/
def laneValue (b : Bank) (c : Contraction) (e : Nat) : Nat :=
  let product := (b.laneProduct c e).val
  inFp32 (if c.fmt = .f32 then product else scaledBy product (scaleProduct (b.laneScales c e)))

/-- A block of four lanes: of FP32 the rounded products, added in pairs; of any other format the exact sum, scaled and rounded
once (R183, R185). -/
def blockSum (b : Bank) (c : Contraction) (lane : Nat → Nat) : Nat :=
  if c.fmt = .f32 then inPairs fun k => laneValue b c (lane k)
  else inFp32 (scaledBy (fsumV .rne ((List.range 4).map fun k => (b.laneProduct c (lane k)).val)).val (scaleProduct (b.laneScales c (lane 0))))

/-- A line of sixteen lanes: its four blocks, added in pairs (R183). -/
def lineSum (b : Bank) (c : Contraction) (lane : Nat → Nat) : Nat := inPairs fun k => blockSum b c fun i => lane (4 * k + i)

/-- What a step gives an FP32 accumulator at place p of its shape (R183 to R185). -/
def stepValue (b : Bank) (c : Contraction) (p : Nat) : Nat :=
  let column (j : Nat) : Nat := lineSum b c fun i => 16 * i + j
  match c.surv with
  | .ij => laneValue b c p
  | .i => lineSum b c fun j => p + j
  | .j => column p
  | .none => inPairs fun k => inFp32 (fsumV .rne ((List.range 4).map fun n => fp32.decode (column (4 * k + n)))).val

/-- The lanes whose products a place of a shape adds, in ascending order (R180). -/
def lanesOf (sv : Shape) (p : Nat) : List Nat := (List.range 256).filter fun e => match sv with
  | .ij => e = p
  | .i => e / 16 = p / 16
  | .j => e % 16 = p
  | .none => true

/-- The first step of a contraction with overwrite replaces what stands (R180). -/
def replaces (c : Contraction) : Bool := c.ovw && c.steps = 0

/-- The 32-bit element that a step leaves at place p: in INT32 the exact sum of the products, added and wrapped; in FP32 the
step's value, added and rounded (R180, R183 to R185, R187). -/
def steppedElement (b : Bank) (c : Contraction) (p : Nat) : BitVec 32 :=
  let old := (b.acc.getD c.acc {}).el.getD p 0
  match c.fmt with
  | .i8 => BitVec.ofInt 32 ((if replaces c then 0 else old.toInt) + ((lanesOf c.surv p).map fun e => (b.laneProduct c e).val.toInt).sum)
  | _ => BitVec.ofNat 32 (if replaces c then stepValue b c p else sum32 old.toNat (stepValue b c p))

/-- The FP64 element that a step leaves at place p of a pair: each product is fused into its addition, lane by lane (R186). -/
def steppedPair (b : Bank) (c : Contraction) (p : Nat) : BitVec 64 :=
  let el (a : Nat) : BitVec 32 := (b.acc.getD a {}).el.getD p 0
  let start : BitVec 64 := if replaces c then 0 else el (c.acc + 1) ++ el c.acc
  BitVec.ofNat 64 ((lanesOf c.surv p).foldl (fun v e =>
    (fpRound fp64 .rne false (faddV .rne (fp64.decode v) (b.laneProduct c e).val).val { lfsr := 1, flags := 0 }).1) start.toNat)

/-- The tiles of a contraction's accumulator (R224). -/
def tilesOf (c : Contraction) : List Nat := if c.fmt = .f64 then [c.acc, c.acc + 1] else [c.acc]

/-- A tile without its elements and its owner. -/
def AccTile.record (t : AccTile) : AccTile := { t with el := [], owner := none }

/-- Every channel of a contraction has a data token of a format that it accepts at its head, `isLast` saying of which class. -/
def Fed (b : Bank) (c : Contraction) (isLast : Bool) (tok : Nat → Token) : Prop :=
  ∀ n ∈ c.chans, b.dueOn n = .data (tok n) ∧ (tok n).cls = (if isLast then 2 else 0) ∧ accepts c.fmt (fmtOf (b.chan n).fmt) = true

/-- A contraction that has taken one token from each of its channels. -/
def fedWith (b : Bank) (c : Contraction) (tok : Nat → Token) : Contraction :=
  c.chans.foldl (fun c n => c.take n (tok n).payload (b.tokenElems n (tok n))) c

end Sys2Proof.Claim

/-- R180, R182 to R187, R189 to R192, R225, R228, R232, R236: a contraction takes one data token of each of its streams, and
adds a step when their vectors are complete, each place of its shape getting the sum of what it held and of the products of its lanes,
and every other place keeping what it held; the last tokens end it. A fill places the elements of its token, a load stores them, and their last token ends them. -/
def Obligations.UnitsTake : Prop :=
  ∀ (s : State) (x : Site) (u : Nat) (t0 : Token) (isLast : Bool),
    let b := s.bank x
    let cls : BitVec 3 := if isLast then 2 else 0
    (∀ (r : UnitRec) (c : Contraction) (tok : Nat → Token), s.stopped x = false → b.feedGroup u = [(r, c)] → r.id = u → r.dead = false → r.wait = 0 →
      c.chans ≠ [] → Fed b c isLast tok →
      let c' := fedWith b c tok
      ∃ t, (c'.full = false → isLast = false → exec (.contractionStep x u none) s = .next t ∧ OnlyIn x s t ∧
          (∀ n, ((t.bank x).chan n).toks = if n ∈ c.chans then (popped (b.chan n)).toks else (b.chan n).toks) ∧
          (t.bank x).acc = b.acc ∧ workOf t x u = some (.contraction c')) ∧
        (c'.full = true → b.badScales c' = false → exec (.contractionStep x u none) s = .next t ∧ OnlyIn x s t ∧
          let tile (r : State) (a : Nat) : AccTile := (r.bank x).acc.getD a {}
          let el (r : State) (a p : Nat) : BitVec 32 := (tile r a).el.getD p 0
          (∀ n, ((t.bank x).chan n).toks = if n ∈ c.chans then (popped (b.chan n)).toks else (b.chan n).toks) ∧
          (∀ p ∈ shapePlaces c.surv, if c.fmt = .f64 then el t (c.acc + 1) p ++ el t c.acc p = steppedPair b c' p
            else el t c.acc p = steppedElement b c' p) ∧
          (∀ a p, p ∉ shapePlaces c.surv → el t a p = el s a p) ∧ (∀ a, Claim.AccTile.record (tile t a) = Claim.AccTile.record (tile s a)) ∧
          (∀ a, a ∉ tilesOf c → tile t a = tile s a) ∧
          (isLast = true → workOf t x u = none ∧ ∀ a ∈ tilesOf c, (tile t a).owner = none) ∧
          (isLast = false → workOf t x u = some (.contraction c'.next)))) ∧
    (∀ f : StayFill, Acts s x u (.stayFill f) → b.dueOn f.ch = .data t0 → t0.cls = cls →
      fmtOf (b.chan f.ch).fmt = .raw ∨ fmtOf (b.chan f.ch).fmt = stayFmt f.fmt →
      let n := perToken (stayFmt f.fmt)
      let place (e : Nat) : Nat := if f.cm then 16 * (e % 16) + e / 16 else e
      let given (e : Nat) : Nat := elemBits (fmtBits (stayFmt f.fmt)) t0.payload e
      let el (t : State) (k p : Nat) : BitVec 16 := ((t.bank x).stay.getD k {}).el.getD p 0
      (f.count + n ≤ 256) → (isLast = true → f.count + n = 256) →
      (∀ e, e < n → ∀ sc, (subTile (place (f.count + e)), sc) ∈ f.seen → sc = b.scaleByte f.ch e) →
      (∀ e d, e < n → d < n → subTile (place (f.count + e)) = subTile (place (f.count + d)) → b.scaleByte f.ch e = b.scaleByte f.ch d) →
      ∃ t, exec (.stayTokenTake x u) s = .next t ∧ OnlyIn x s t ∧ ((t.bank x).chan f.ch).toks = (popped (b.chan f.ch)).toks ∧
        (∀ e, e < n → if f.fmt = .f32 then el t 0 (place (f.count + e)) = BitVec.ofNat 16 (given e) ∧
            el t 1 (place (f.count + e)) = BitVec.ofNat 16 (given e >>> 16)
          else el t f.tile (place (f.count + e)) = BitVec.ofNat 16 (given e)) ∧
        (isLast = true → workOf t x u = none ∧ ((t.bank x).stay.getD (if f.fmt = .f32 then 0 else f.tile) {}).fmt = stayFmt f.fmt) ∧
        (isLast = false → ∃ f', workOf t x u = some (.stayFill f') ∧ f'.count = f.count + n)) ∧
    (∀ f : AccFill, Acts s x u (.accFill f) → b.dueOn f.ch = .data t0 → t0.cls = cls →
      fmtOf (b.chan f.ch).fmt = .raw ∨ fmtOf (b.chan f.ch).fmt = f.fmt →
      let n := perToken f.fmt
      let places := placesOf f.shape
      (isLast = true ↔ places.length ≤ f.count + n) →
      ∃ t, exec (.accldTokenTake x u) s = .next t ∧ OnlyIn x s t ∧ ((t.bank x).chan f.ch).toks = (popped (b.chan f.ch)).toks ∧
        (f.fmt = .fp32 ∨ f.fmt = .int32 → ∀ e, e < n → ∀ p, places[f.count + e]? = some p →
          ((t.bank x).acc.getD f.acc {}).el.getD p 0 = BitVec.ofNat 32 (elemBits 32 t0.payload e)) ∧
        (isLast = true → workOf t x u = none ∧ ((t.bank x).acc.getD f.acc {}).owner = none) ∧
        (isLast = false → workOf t x u = some (.accFill { f with count := f.count + n })))

namespace Sys2Proof.Claim

/-- What an input of a merge offers: the element at its head, or, its fiber being closed, nothing. -/
def Offers (b : Bank) (i : SIn) : Option (Nat × FVal × Bool) → Prop
  | none => i.closed = true
  | some (c, v, z) => i.closed = false ∧ ∃ t, b.look false i = .item (.elem c v z) t

/-- Whether an element of one side is taken: its coordinate is not above that of the other (R243). -/
def goesFirst : Option (Nat × FVal × Bool) → Option (Nat × FVal × Bool) → Bool
  | some (c, _), some (c', _) => decide (c ≤ c')
  | some _, none => true
  | none, _ => false

/-- An input that has taken an element. -/
def used (i : SIn) : Option (Nat × FVal × Bool) → SIn
  | some (c, _, z) => { i with begun := true, closed := z, last := some c, count := i.count + 1 }
  | none => i

/-- The result at a coordinate that both sides have (R206, R247, R248). -/
def meetValue (op : SparseOp) (rm : Rm) (a b : FVal) : FRes :=
  let pick (second : Bool) : FRes := { val := if a.isNan then (if b.isNan then .nan a.neg? else b) else if b.isNan then a else if second then b else a }
  match op with
  | .union .add => faddV rm a b
  | .union .sub => fsubV rm a b
  | .union .max => pick (fless a b)
  | .union .min => pick (fless b a)
  | _ => fmulV a b

/-- The result at a coordinate that one side has: of a product none (R247, R248). -/
def loneValue (op : SparseOp) (ofB : Bool) (v : FVal) : Option FVal :=
  match op with
  | .union .sub => some (if ofB && !v.isNan then v.negate else v)
  | .union _ => some v
  | _ => none

/-- The output element that a step of a merge forms, before its rounding. -/
def mergeForms (op : SparseOp) (rm : Rm) (oa ob : Option (Nat × FVal × Bool)) : Option (Nat × FRes) :=
  let lone (ofB : Bool) (c : Nat) (v : FVal) : Option (Nat × FRes) := (loneValue op ofB v).map fun v => (c, { val := v })
  match oa, ob with
  | some (c, v, _), some (c', v', _) => if c = c' then some (c, meetValue op rm v v') else if c < c' then lone false c v else lone true c' v'
  | some (c, v, _), none => lone false c v
  | none, some (c, v, _) => lone true c v
  | none, none => none

/-- The token of an output element with a tag, and that which closes an output fiber (R239, R244). -/
def element (tag : Nat) (x : Nat × Nat) : BitVec 3 × Word := (0, fiberWord tag x.1 x.2)
def closing : Option (Nat × Nat) → BitVec 3 × Word
  | some x => element 1 x
  | none => emptyFiber

/-- The sum of ISECT dot in a column: of the rounded products of the elements that meet an occupied place (R249). -/
def dotSum (t : AccTile) (j : Nat) (els : List (Nat × FVal)) : Option Nat :=
  match (els.filter fun e => t.occ.getLsbD (16 * e.1 + j)).map fun e => inFp32 (fmulV e.2 (fp32.decode (t.el.getD (16 * e.1 + j) 0).toNat)).val with
  | [] => none
  | p :: ps => some (ps.foldl sum32 p)

end Sys2Proof.Claim

open Sys2Proof Sys2Proof.Machine Sys2Proof.Claim

/-- R197, R198, R243, R244, R247 to R250: a corner-turn node takes the elements of a block and turns it when its last token is taken; a
merge of two fibers removes the lesser coordinate, both when they are equal, and forms the value that its operation gives there; a dot
collects the elements of a fiber and forms the sum of each column when it closes; a scatter adds an element at its row and column. -/
def Obligations.NodesTake : Prop :=
  ∀ (s : State) (x : Site) (u : Nat),
    let b := s.bank x
    (∀ (w : CTurn) (t0 : Token), Acts s x u (.cturn w) → w.outq = [] → (∀ q, (s.tile x.tile).nodes.getD w.node none = some q → q = u) →
      b.dueOn w.ch = .data t0 → (∀ e ∈ w.scales, e.2 = 0x7F) → fmtSsrc (b.chan w.ch).fmt = 0 →
      let f := fmtOf (b.chan w.ch).fmt
      let n := perToken f
      let el := w.el ++ (List.range n).map fun e => elemBits (fmtBits f) t0.payload e
      w.count + n ≤ 256 →
      ∃ t, exec (.cornerTurnToken x u) s = .next t ∧ t.reqs = s.reqs ∧ t.rest = s.rest ∧ ((t.bank x).chan w.ch).toks = (popped (b.chan w.ch)).toks ∧
        (t.bank x).acc = b.acc ∧
        (t0.cls = 0 → ∃ w', workOf t x u = some (.cturn w') ∧ w'.el = el ∧ w'.count = w.count + n ∧ w'.outq = []) ∧
        (t0.cls = 2 → w.count + n = 256 → ∃ w', workOf t x u = some (.cturn w') ∧
          w'.outq = packRun (fmtBits f) 256 ((List.range 256).map fun p => el.getD (16 * (p % 16) + p / 16) 0))) ∧
    (∀ (w : Sparse) (j : SIn) (oa ob : Option (Nat × FVal × Bool)),
      Acts s x u (.sparse w) → w.op = .mul ∨ (∃ o, w.op = .union o) → w.outq = [] → w.final = false → w.b = some j → w.a.ch ≠ j.ch →
      Offers b w.a oa → Offers b j ob → oa = none ∧ ob = none ∨ b.dueOn w.a.ch ≠ .marker ∧ b.dueOn j.ch ≠ .marker →
      let y := (mergeForms w.op w.rm oa ob).map fun (c, r) => (c, roundRes (ofmtF w.ofmt) w.rm false r b.env)
      let e := (y.map fun y => y.2.2).getD b.env
      let w' : Sparse := if oa = none ∧ ob = none then
          { w with held := none, outq := [closing w.held], a := { ch := w.a.ch }, b := some { ch := j.ch } }
        else { w with a := if goesFirst oa ob then used w.a oa else w.a, b := some (if goesFirst ob oa then used j ob else j)
                      held := (y.map fun y => (y.1, y.2.1)).or w.held
                      outq := match y with | some _ => (w.held.map (element 0)).toList | none => [] }
      ∃ t, exec (.sparseUnitToken x u none) s = .next t ∧ OnlyIn x s t ∧ (t.bank x).acc = b.acc ∧ workOf t x u = some (.sparse w') ∧
        (t.bank x).lfsr = e.lfsr ∧ (t.bank x).sticky = b.sticky ||| e.flags ∧
        ((t.bank x).chan w.a.ch).toks = (if goesFirst oa ob then (b.chan w.a.ch).toks.drop 1 else (b.chan w.a.ch).toks) ∧
        ((t.bank x).chan j.ch).toks = (if goesFirst ob oa then (b.chan j.ch).toks.drop 1 else (b.chan j.ch).toks)) ∧
    (∀ (w : Sparse) (j : SIn) (ob : Option (Nat × FVal × Bool)) (t0 t1 : Token) (l : Nat),
      Acts s x u (.sparse w) → w.op = .mul ∨ (∃ o, w.op = .union o) → w.outq = [] → w.final = false → w.b = some j → w.a.ch ≠ j.ch →
      w.a.closed = false → b.dueOn j.ch ≠ .marker →
      (b.look false w.a = .item .empty t0 → Offers b j ob → ∃ t, exec (.sparseUnitToken x u none) s = .next t ∧ OnlyIn x s t ∧
        workOf t x u = some (.sparse { w with a := { w.a with begun := true, closed := true } }) ∧
        ((t.bank x).chan w.a.ch).toks = (b.chan w.a.ch).toks.drop 1 ∧ ((t.bank x).chan j.ch).toks = (b.chan j.ch).toks) ∧
      (b.look false w.a = .item (.stop l) t0 → j.closed = false → b.look false j = .item (.stop l) t1 → ∃ t, exec (.sparseUnitToken x u none) s = .next t ∧
        OnlyIn x s t ∧ workOf t x u = some (.sparse { w with a := { ch := w.a.ch }, b := some { ch := j.ch }, outq := [(3, BitVec.ofNat 64 l)], final := w.lvl ≤ l }) ∧
        ((t.bank x).chan w.a.ch).toks = (b.chan w.a.ch).toks.drop 1 ∧ ((t.bank x).chan j.ch).toks = (b.chan j.ch).toks.drop 1)) ∧
    (∀ (w : Sparse) (a : Nat) (flat : Bool) (it : Item) (t0 : Token), Acts s x u (.sparse w) → w.op = .dot a flat → w.outq = [] → w.final = false →
      b.look false w.a = .item it t0 →
      let takes (t : State) (w' : Sparse) : Prop := exec (.sparseUnitToken x u none) s = .next t ∧ OnlyIn x s t ∧ (t.bank x).acc = b.acc ∧
        ((t.bank x).chan w.a.ch).toks = (b.chan w.a.ch).toks.drop 1 ∧ workOf t x u = some (.sparse w')
      let ends (els : List (Nat × FVal)) : Prop :=
        let cols := (List.range 16).filterMap fun j => (dotSum (b.acc.getD a {}) j els).map fun v => (j, v)
        let vs := convertEach (fun v e => fpRound (ofmtF w.ofmt) w.rm false (fp32.decode v) e) (cols.map (·.2)) b.env
        let made := w.held.toList ++ (cols.map fun e => if flat then 16 * w.fiber + e.1 else e.1).zip vs.1
        ∃ t, (t.bank x).lfsr = vs.2.lfsr ∧ takes t { w with
          a := { ch := w.a.ch }, fiber := w.fiber + 1, held := if flat then made.getLast? else none
          outq := made.dropLast.map (element 0) ++ if flat then [] else [closing made.getLast?] }
      (∀ c v, it = .elem c v false → c < 16 → ∃ t, takes t { w with a := { used w.a (some (c, v, false)) with el := w.a.el ++ [(c, v)] } }) ∧
      (∀ c v, it = .elem c v true → c < 16 → (flat = true → 16 * w.fiber + 15 < 65536) → ends (w.a.el ++ [(c, v)])) ∧
      (it = .empty → (flat = true → 16 * w.fiber + 15 < 65536) → ends w.a.el) ∧
      (∀ l, it = .stop l → let closes : Bool := flat && decide (0 < w.fiber)
        ∃ t, takes t { w with a := { ch := w.a.ch }, fiber := 0, held := if closes then none else w.held, final := w.lvl ≤ l
                              outq := (if closes then [closing w.held] else []) ++ [(3, BitVec.ofNat 64 l)] })) ∧
    (∀ (w : Sparse) (a row c : Nat) (kd : KTy) (v : FVal) (z : Bool) (t0 : Token), Acts s x u (.sparse w) → w.op = .scatter a kd row → w.out = none →
      w.final = false → b.look (decide (kd = .i32)) w.a = .item (.elem c v z) t0 → c < 16 → row + w.fiber < 16 →
      let p := 16 * (row + w.fiber) + c
      let old := (b.acc.getD a {}).el.getD p 0
      ∃ t, exec (.sparseUnitToken x u none) s = .next t ∧ OnlyIn x s t ∧ ((t.bank x).chan w.a.ch).toks = (b.chan w.a.ch).toks.drop 1 ∧
        ((t.bank x).acc.getD a {}).el.getD p 0 = (match kd with
          | .i32 => BitVec.ofInt 32 (old.toInt + v.toInt)
          | .f32 => BitVec.ofNat 32 (inFp32 (faddV .rne (fp32.decode old.toNat) v).val)) ∧
        ((t.bank x).acc.getD a {}).occ = (b.acc.getD a {}).occ ||| 1#256 <<< p ∧
        (∀ q, q ≠ p → ((t.bank x).acc.getD a {}).el.getD q 0 = ((b.acc.getD a {}).el.getD q 0)) ∧ (∀ n, n ≠ a → (t.bank x).acc.getD n {} = b.acc.getD n {}) ∧
        workOf t x u = some (.sparse (if z then { w with a := { ch := w.a.ch }, fiber := w.fiber + 1 } else { w with a := used w.a (some (c, v, z)) })))

/-! ### Accesses, streams, copies, rows and the stash performed (R76, R79, R103, R105, R106, R116, R124, R129, R131, R135, R142, R148, R154,
R221, R222, R310) -/

namespace Sys2Proof.Claim

/-- A request may be performed now: nothing older keeps it back, no engine has begun to write for it, it does not misuse the
management page, its pages are in its translation cache and no bank of them is under a neighbour refresh (R77, R79, R310, R318,
R397). -/
def Ready (s : State) (r : Req) : Prop :=
  r.held = false ∧ r.placed = none ∧ r.wrote = [] ∧ s.mayPerform r = true ∧ r.badMgmt (r.ranges s) = false ∧ (s.tlbOf r).length ≤ 256 ∧
  ∀ a ∈ addressesOf (r.ranges s), s.bankBusy r a = false ∧ (s.tlbOf r).any (TlbEntry.covers r.saggar a) = true

def Reached (s : State) (q : Nat) (r : Req) : Prop := s.req? q = some r ∧ Ready s r

/-- The word of a completion token (R76). -/
def tokenWord (kind path status : BitVec 4) (addr : BitVec 48) : Word := kind ++ path ++ status ++ 0#4 ++ addr

/-- A request without data on an output is performed: it is outstanding no longer, and its token is sent (R76, R119). -/
def Completed (s t : State) (r : Req) (kind status : BitVec 4) (addr : Nat) : Prop :=
  t.req? r.id = none ∧ ∀ o, r.cout = some o → ((t.bank r.site).out o).said =
    saidWith ((s.bank r.site).out o) r.cgroup [{ cls := 7, payload := tokenWord kind (if kind.toNat < 7 then r.path.code else 0xF) status (BitVec.ofNat 48 addr) }]

/-- The bytes of memory from a key on are replaced, and no other. -/
def Stored (s t : State) (k : Nat) (bs : List Byte) : Prop :=
  ∀ j, t.byte j = if k ≤ j ∧ j < k + bs.length then bs.getD (j - k) 0 else s.byte j

/-- No barrier of a saggar counts (R113). -/
def NoBarrier (s : State) (g : Nat) : Prop := ∀ b, ((s.saggar g).barriers.getD b {}).st = .idle

/-- Every page of a range has an attribute. -/
def Mapped (s : State) (g a n : Nat) (attr : PageAttr) : Prop := ∀ i, i < n → s.attr? g (a + i) = some attr

/-- No byte of a range lies in a word that reads as uncorrectable. -/
def Whole (s : State) (k n : Nat) : Prop := ∀ i, i < n → setMem ((k + i) / 8) s.poison = false

/-- The little-endian bytes of a value. -/
def littleEndian : Nat → Nat → List Byte
  | 0, _ => []
  | n + 1, v => BitVec.ofNat 8 v :: littleEndian n (v / 256)

/-- The value of an ordered update (R135). -/
def updated (op : UpdOp) (o x : Word) : Word :=
  let low (v : Word) : BitVec 32 := v.setWidth 32
  let pick {w : Nat} (take : Bool) (a b : BitVec w) : BitVec w := if take then b else a
  match op with
  | .add32 => (low o + low x).setWidth 64
  | .add64 => o + x
  | .mini32 => (pick ((low x).slt (low o)) (low o) (low x)).setWidth 64
  | .mini64 => pick (x.slt o) o x
  | .maxi32 => (pick ((low o).slt (low x)) (low o) (low x)).setWidth 64
  | .maxi64 => pick (o.slt x) o x
  | .minn32 => (pick ((low x).ult (low o)) (low o) (low x)).setWidth 64
  | .minn64 => pick (x.ult o) o x
  | .maxn32 => (pick ((low o).ult (low x)) (low o) (low x)).setWidth 64
  | .maxn64 => pick (o.ult x) o x
  | .or64 => o ||| x
  | .and64 => o &&& x
  | .xor64 => o ^^^ x
  | .fadd32 => BitVec.ofNat 64 (fpRound fp32 .rne false (faddV .rne (fp32.decode (low o).toNat) (fp32.decode (low x).toNat)).val {}).1
  | .fadd64 => BitVec.ofNat 64 (fpRound fp64 .rne false (faddV .rne (fp64.decode o.toNat) (fp64.decode x.toNat)).val {}).1

/-- A request ends in a fault: no byte changes, it is never performed and sends no token, and the newest record of its saggar's log
is of the fault's class (R121, R361, R362). -/
def FaultsWith (s t : State) (r : Req) (cls : Nat) : Prop :=
  t.mem = s.mem ∧ (t.req? r.id).map (·.lost) = some true ∧ ∃ w f, f.cls = cls ∧ Logged s t r.saggar w f

/-- A barrier of a saggar. -/
def barrierOf (s : State) (g b : Nat) : Barrier := (s.saggar g).barriers.getD b {}

/-- An entry of the tag table is valid and holds the line of a virtual address (R92). -/
def holdsLine (e v : Word) : Bool := e.getLsbD 63 && decide (e.extractLsb' 22 37 = v.extractLsb' 11 37)

/-- The same entry with V clear. -/
def withoutV (e : Word) : Word := e &&& 0x7FFFFFFFFFFFFFFF#64

/-- An update of a range of the owner table is under way: it was issued before a release, and neither applied nor lost. -/
def Routed (s : State) (r : Req) (w : OwnerRange) : Prop :=
  ∃ o ∈ s.reqs, o.id < r.id ∧ o.saggar = r.saggar ∧ o.lost = false ∧ o.faulted = false ∧
    ∃ op b d, o.op = .upd op b d ∧ w.base ≤ b ∧ b < w.base + w.len

/-- A range of keys in the store of a tile does not wrap at its end. -/
def Inside (s : State) (g off n : Nat) : Prop := (s.saggar g).lineBase * 2048 + off + n ≤ 2 ^ 23

end Sys2Proof.Claim

/-- R76, R79, R94, R106, R124, R127, R134, R137: a load performed in a cell's register returns the bytes that memory or its tile's
store holds, extended, and LDFE its granule in two registers; a store writes its bytes there and no other; STP fills an empty word
of a write-once page, and LDP of a full one returns it; a fence whose accesses are performed is performed and leaves none of them
hidden on its second path, and one with an access to come waits. That LDFE and STFE leave the granules as their commit made them is
the model's reading (log entry 33). -/
def Sys2Proof.Claim.AccessesDone : Prop :=
  ∀ (s : State) (q : Nat) (r : Req), s.memOk → Reached s q r →
    let run (t : State) : Prop := exec (.accessPerformed q {}) s = .next t
    let store (off : Nat) : Nat := partKey s r.saggar r.site.tile off
    let value (sgn : Bool) (k n : Nat) : Word := loadValue sgn ((List.range n).map fun i => s.byte (k + i))
    let loads (k n : Nat) (sgn : Bool) (kind : BitVec 4) (addr : Nat) : Prop := ∀ g, r.dst = .reg g → Whole s k n →
      (s.bank r.site).pend.any (·.id = r.id) = true →
      ∃ t, run t ∧ (t.bank r.site).reg g = value sgn k n ∧ (∀ g', g' ≠ g → (t.bank r.site).reg g' = (s.bank r.site).reg g') ∧
        t.mem = s.mem ∧ Completed s t r kind 0 addr
    (∀ a n sgn, r.op = .ld a n sgn → (∀ i, i < n → (s.attr? r.saggar (a + i)).isSome = true) → onMgmt r.saggar a n = false → n ≤ 8 →
      a % 8 + n ≤ 8 → loads (hbmKey r.saggar a) n sgn 0 a) ∧
    (∀ a, r.op = .ldp a → a % 8 = 0 → s.attr? r.saggar a = some .once → setMem (hbmWord r.saggar a) s.full = true →
      loads (hbmKey r.saggar a) 8 false 2 a) ∧
    (∀ off n sgn, r.op = .lds off n sgn → loads (store off) n sgn 0 off) ∧
    (∀ a n d, r.op = .st a n d → onMgmt r.saggar a n = false → 1 ≤ n → a % 8 + n ≤ 8 → Mapped s r.saggar a n .rw → NoBarrier s r.saggar →
      ∃ t, run t ∧ Stored s t (hbmKey r.saggar a) (littleEndian n d.toNat) ∧ Completed s t r 1 0 a ∧ ∀ y, (t.bank y).g = (s.bank y).g) ∧
    (∀ off n d, r.op = .sts off n d →
      ∃ t, run t ∧ Stored s t (store off) (littleEndian n d.toNat) ∧ Completed s t r 1 0 off ∧ ∀ y, (t.bank y).g = (s.bank y).g) ∧
    (∀ a d, r.op = .stp a d → onMgmt r.saggar a 8 = false → a % 8 = 0 → s.attr? r.saggar a = some .once →
      setMem (hbmWord r.saggar a) s.full = false → NoBarrier s r.saggar → s.deferred = [] →
      ∃ t, run t ∧ Stored s t (hbmKey r.saggar a) (littleEndian 8 d.toNat) ∧ setMem (hbmWord r.saggar a) t.full = true ∧ Completed s t r 3 0 a) ∧
    (∀ a g h, r.op = .ldfe a → a % 16 = 0 → r.dst = .pair g h → g ≠ h → Whole s (store a) 16 → (s.bank r.site).pend.any (·.id = r.id) = true →
      ∃ t, run t ∧ (t.bank r.site).reg g = value false (store a) 8 ∧ (t.bank r.site).reg h = value false (store a + 8) 8 ∧
        (∀ g', g' ≠ g → g' ≠ h → (t.bank r.site).reg g' = (s.bank r.site).reg g') ∧ t.mem = s.mem ∧ t.granules = s.granules ∧ Completed s t r 0 0 a) ∧
    (∀ a lo hi, r.op = .stfe a lo hi → ∃ t, run t ∧ Stored s t (store a) (littleEndian 8 lo.toNat ++ littleEndian 8 hi.toNat) ∧
      t.granules = s.granules ∧ Completed s t r 1 0 a) ∧
    (∀ x y, r.op = .fence x y → (∀ e ∈ r.joint, ∀ o, s.req? e.2 = some o → o.performed = true) →
      ∃ t, run t ∧ t.mem = s.mem ∧ Completed s t r 7 0 0 ∧ ∀ l ∈ t.lags, (∃ e ∈ r.joint, e.2 = l.acc) → y ∉ l.hidden) ∧
    (∀ x y, r.op = .fence x y → (∃ e ∈ r.joint, ∃ o, s.req? e.2 = some o ∧ o.performed = false) →
      ∃ t, run t ∧ (t.req? q).isSome = true ∧ t.mem = s.mem ∧ t.lags = s.lags ∧ t.banks = s.banks)

/-- R92, R93, R102, R105, R112, R113, R116, R126, R134, R136, R138, R140, R143: TLOOK finds the line that holds an address, TSET
writes an entry and takes V from the other that holds its line, TINV takes V; OWN enters a range that meets none of its saggar
while the table has room, and removes one when no update of it is under way (log entry 93: one issued before the release is);
CLRP empties and zeroes every full word of its range; CMPL is performed when all that it covers is; BCARM arms a barrier that is
not armed or posted; COPYQ records and frees a buffer, and CONSUMED a member of it. Each faults as its rule says. The address in
TLOOK's token is the model's choice (log entry 87), a consumer set that is empty or names a cell group that does not exist is its
reading (log entry 42). -/
def Sys2Proof.Claim.TablesKept : Prop :=
  ∀ (s : State) (q : Nat) (r : Req), s.memOk → Reached s q r →
    let run (t : State) : Prop := exec (.accessPerformed q {}) s = .next t
    let sg := s.saggar r.saggar
    let entry (u : State) (n : Nat) : Word := u.tagEntry r.site.tile (sg.lineBase + n)
    (∀ (v : Word) (g : Reg), r.op = .tlook v → r.dst = .reg g → sg.res.lines ≤ 4096 → (s.bank r.site).pend.any (·.id = r.id) = true →
      let gives (w : Word) : Prop := ∃ t, run t ∧ (t.bank r.site).reg g = w ∧ (∀ g', g' ≠ g → (t.bank r.site).reg g' = (s.bank r.site).reg g') ∧
        t.tags = s.tags ∧ t.mem = s.mem ∧ Completed s t r 0 0 (v.toNat % 2 ^ 48)
      (∀ n, n < sg.res.lines → holdsLine (entry s n) v = true → (∀ n', n' < sg.res.lines → holdsLine (entry s n') v = true → n' = n) →
        gives (0#16 ++ (entry s n).setWidth 16 ++ BitVec.ofNat 32 (2048 * n))) ∧
      ((∀ n, n < sg.res.lines → holdsLine (entry s n) v = false) → gives 0x8000000000000000)) ∧
    (∀ l v u, r.op = .tset l v u → r.saggar < 16 → ∃ t, run t ∧ t.mem = s.mem ∧ Completed s t r 1 0 l ∧
      entry t (l / 2048) = 1#1 ++ BitVec.ofNat 4 r.saggar ++ v.extractLsb' 11 37 ++ 0#6 ++ u.setWidth 16 ∧
      (∀ n, n ≠ l / 2048 → entry t n = if n < sg.res.lines ∧ holdsLine (entry s n) v = true then withoutV (entry s n) else entry s n) ∧
      ∀ x n, x ≠ r.site.tile ∨ n < sg.lineBase → t.tagEntry x n = s.tagEntry x n) ∧
    (∀ l, r.op = .tinv l → ∃ t, run t ∧ t.mem = s.mem ∧ Completed s t r 1 0 l ∧ entry t (l / 2048) = withoutV (entry s (l / 2048)) ∧
      ∀ x n, (x, n) ≠ (r.site.tile, sg.lineBase + l / 2048) → t.tagEntry x n = s.tagEntry x n) ∧
    (∀ a n, r.op = .ownEnter a n →
      let mine := s.owners.filter fun w => w.saggar = r.saggar
      let meets : Prop := ∃ w ∈ mine, ∃ i, w.base ≤ i ∧ i < w.base + w.len ∧ a ≤ i ∧ i < a + n
      let room : Prop := s.owners.length < 256 ∧ mine.length < sg.res.owners
      (¬ meets → room → ∃ t, run t ∧ t.mem = s.mem ∧ Completed s t r 4 0 a ∧ t.owners = s.owners ++
        [{ saggar := r.saggar, base := a, len := n, site := r.site, launch := r.launch, rtile := s.rtileOf r.site }]) ∧
      (meets → ∃ t, run t ∧ t.owners = s.owners ∧ FaultsWith s t r 0x2D) ∧
      (¬ meets → ¬ room → ∃ t, run t ∧ t.owners = s.owners ∧ FaultsWith s t r 0x2E)) ∧
    (∀ a, r.op = .ownRelease a →
      let own (w : OwnerRange) : Bool := w.saggar = r.saggar && w.base = a && w.site = r.site
      (∀ w, s.owners.find? own = some w →
        (¬ Routed s r w → ∃ t, run t ∧ t.mem = s.mem ∧ Completed s t r 4 0 a ∧ t.owners = s.owners.erase w) ∧
        (Routed s r w → ∃ t, run t ∧ t.mem = s.mem ∧ t.owners = s.owners ∧ (t.req? q).map (·.op) = some r.op ∧ t.banks = s.banks)) ∧
      (s.owners.find? own = none → ∃ t, run t ∧ t.owners = s.owners ∧ FaultsWith s t r 0x2F)) ∧
    (∀ a n, r.op = .clrp a n → a % 8 = 0 → n % 8 = 0 → a + n ≤ 2 ^ 48 → let k := hbmKey r.saggar a
      (Mapped s r.saggar a n .once → s.full.Pairwise (· < ·) → ∃ t, run t ∧ Completed s t r 3 0 a ∧
        (∀ w, setMem w t.full = (setMem w s.full && !decide (k / 8 ≤ w ∧ w < (k + n) / 8))) ∧
        ∀ j, t.byte j = if k ≤ j ∧ j < k + n ∧ setMem (j / 8) s.full = true then 0 else s.byte j) ∧
      (0 < n → s.attr? r.saggar a = some .rw ∨ s.attr? r.saggar a = some .ro → ∃ t, run t ∧ t.full = s.full ∧ FaultsWith s t r 0x28)) ∧
    (r.op = .cmpl →
      ((∀ e ∈ r.joint, ∀ o, s.req? e.2 = some o → o.performed = true) → ∃ t, run t ∧ t.mem = s.mem ∧ Completed s t r 7 0 0) ∧
      ((∃ e ∈ r.joint, ∃ o, s.req? e.2 = some o ∧ o.performed = false) →
        ∃ t, run t ∧ t.mem = s.mem ∧ (t.req? q).map (·.op) = some r.op ∧ t.banks = s.banks)) ∧
    (∀ b base n, r.op = .bcarm b base n → let old := barrierOf s r.saggar b
      let busy : Prop := old.st = .armed ∨ old.st = .posted
      let armed (x : Barrier) : Prop := x.st = .armed ∧ x.bal = 0 ∧ x.base = base ∧ x.len = n ∧ x.launch = r.launch ∧ x.post = none
      (¬ busy → ∃ t, run t ∧ t.mem = s.mem ∧ Completed s t r 1 0 base ∧
        armed (barrierOf t r.saggar b) ∧
        ∀ g c, g ≠ r.saggar ∨ c ≠ b → barrierOf t g c = barrierOf s g c) ∧
      (busy → ∃ t, run t ∧ FaultsWith s t r 0x30 ∧ ∀ g c, barrierOf t g c = barrierOf s g c)) ∧
    (∀ h base n rt cells, r.op = .copyqDeclare h base n rt cells →
      let known : Prop := ∃ b ∈ sg.buffers, b.handle = h
      let fit : Prop := cells ≠ [] ∧ ∀ c ∈ cells, c < 192
      (¬ known → fit → ∃ t, run t ∧ t.mem = s.mem ∧ Completed s t r 5 0 base ∧ (t.saggar r.saggar).buffers = sg.buffers ++
        [{ handle := h, base := base, len := n, rtile := rt, cells := cells, gen := 0, done := [], launch := r.launch }]) ∧
      (known ∨ ¬ fit → ∃ t, run t ∧ (t.saggar r.saggar).buffers = sg.buffers ∧ FaultsWith s t r 0x32)) ∧
    (∀ h, r.op = .copyqRelease h →
      let waits : Prop := ∃ o ∈ s.reqs, o.saggar = r.saggar ∧ o.lost = false ∧ ∃ d p n, o.op = .copy d p n (some h) false
      (∀ b, sg.buffers.find? (·.handle = h) = some b → ¬ waits → ∃ t, run t ∧ t.mem = s.mem ∧ Completed s t r 5 0 b.base ∧
        (t.saggar r.saggar).buffers = sg.buffers.filter (·.handle ≠ h)) ∧
      (sg.buffers.find? (·.handle = h) = none ∨ waits → ∃ t, run t ∧ (t.saggar r.saggar).buffers = sg.buffers ∧ FaultsWith s t r 0x32)) ∧
    (∀ h, r.op = .consumed h →
      (∀ b, sg.buffers.find? (·.handle = h) = some b →
        let member : Prop := b.launch = r.launch ∧ b.rtile = s.rtileOf r.site ∧ r.site.cell ∈ b.cells
        (member → ∃ t b', run t ∧ t.mem = s.mem ∧ Completed s t r 5 0 b.base ∧ (t.saggar r.saggar).buffers.find? (·.handle = h) = some b' ∧
          { b' with done := b.done } = b ∧ (∀ c, c ∈ b'.done ↔ c = r.site.cell ∨ c ∈ b.done) ∧
          (t.saggar r.saggar).buffers.filter (·.handle ≠ h) = sg.buffers.filter (·.handle ≠ h)) ∧
        (¬ member → ∃ t, run t ∧ (t.saggar r.saggar).buffers = sg.buffers ∧ FaultsWith s t r 0x33)) ∧
      (sg.buffers.find? (·.handle = h) = none → ∃ t, run t ∧ (t.saggar r.saggar).buffers = sg.buffers ∧ FaultsWith s t r 0x32))

/-- R112 to R115: a store of a cell whose bytes lie in the range of a barrier that is armed or posted adds them to its balance; at
zero a posted barrier is complete, and the post of another cell is performed once the fences that it waits for are; above zero,
and when it was complete, it overruns: the region that armed it freezes, and the record names the writer. A barrier that is idle
or has overrun counts nothing. -/
def Sys2Proof.Claim.BarriersCount : Prop :=
  ∀ (s : State) (q : Nat) (r : Req) (a n : Nat) (d : Word) (b : Nat), s.memOk → Reached s q r → r.op = .st a n d → r.path = .l →
    onMgmt r.saggar a n = false → 1 ≤ n → a % 8 + n ≤ 8 → Mapped s r.saggar a n .rw → b < 16 →
    (∀ c, c ≠ b → (barrierOf s r.saggar c).st = .idle) →
    let old := barrierOf s r.saggar b
    let m := ((List.range n).filter fun i => old.base ≤ a + i && a + i < old.base + old.len).length
    let bal := old.bal + (m : Int)
    let ends (t : State) (st : BarState) (bal : Int) (post : Option Nat) : Prop :=
      exec (.accessPerformed q {}) s = .next t ∧ Stored s t (hbmKey r.saggar a) (littleEndian n d.toNat) ∧ Completed s t r 1 0 a ∧
        (∀ c, c ≠ b → barrierOf t r.saggar c = barrierOf s r.saggar c) ∧
        { barrierOf t r.saggar b with writes := old.writes } = { old with st := st, bal := bal, post := post }
    (m = 0 ∨ old.st = .idle ∨ old.st = .overrun → ∃ t, ends t old.st old.bal old.post) ∧
    (0 < m → old.st = .armed → ∃ t, ends t .armed bal old.post) ∧
    (0 < m → old.st = .posted → bal < 0 → ∃ t, ends t .posted bal old.post) ∧
    (0 < m → old.st = .posted → bal = 0 → s.holdUp ≠ .runOut → ∀ p o, old.post = some p → s.req? p = some o → o.op = .bcpost b false →
      o.site ≠ r.site → o.saggar = r.saggar → o.held = false → o.placed = none →
      ((∀ f ∈ o.after, s.req? f = none) → ∃ t, ends t .complete 0 none ∧ Completed s t o 1 0 old.base) ∧
      ((∃ f ∈ o.after, (s.req? f).isSome = true) → ∃ t, ends t .complete 0 none ∧ (t.req? p).map (·.op) = some (.bcpost b true))) ∧
    (0 < m → old.st = .complete ∨ old.st = .posted ∧ 0 < bal → ∃ t, ends t .overrun bal none ∧
      Logged s t r.saggar old.by_ { cls := 0x31, party := .cell r.site.tile r.site.cell r.site.slot r.rule, a := BitVec.ofNat 64 b, b := BitVec.ofInt 64 bal } ∧
      ∀ l, s.launch? old.launch = some l → Freezing t l 0x31)

/-- R79, R103, R106, R107, R129, R135, R310: an update is applied to what memory holds, at once; a stream reads its next word and
sends it behind the tokens that it has made; a page walk that ends lets every miss that joined it go on. -/
def Sys2Proof.Claim.UpdatesDone : Prop :=
  ∀ (s : State) (q : Nat) (r : Req), s.memOk →
    (∀ (op : UpdOp) (a : Nat) (d : Word) (w : OwnerRange), let n := updSize op
      Reached s q r → r.op = .upd op a d → s.ownerOf r.saggar a = some w → (s.tile w.site.tile).updPort = false → (∀ l, s.launch? w.launch = some l → (s.saggar l.saggar).saved.all (·.launch ≠ l.num) = true) →
      a % n = 0 → Mapped s r.saggar a n .rw → NoBarrier s r.saggar → Whole s (hbmKey r.saggar a) n →
      ∃ t, exec (.ownerUpdateApply q {}) s = .next t ∧ Completed s t r 4 0 a ∧
        Stored s t (hbmKey r.saggar a) (littleEndian n (updated op (BitVec.ofNat 64 (s.num (hbmKey r.saggar a) n)) d).toNat)) ∧
    (∀ (a n k o : Nat), let m := Nat.min 8 (n - 8 * k)
      Reached s q r → r.op = .stream a n k [] false → r.dst = .out o → s.stopped r.site = false → ((s.bank r.site).out o).resend = [] →
      r.spent = false → 8 * (k + 1) < n → s.unacked r.site o q [] < 64 → a % 8 = 0 → (s.attr? r.saggar (a + 8 * k)).isSome = true → Whole s (hbmKey r.saggar (a + 8 * k)) m →
      s.runReady r.site o q = true →
      ∃ t, exec (.streamTokenSend q {}) s = .next t ∧ t.mem = s.mem ∧
        ((t.bank r.site).out o).said = saidWith ((s.bank r.site).out o) q [{ cls := 0, payload := BitVec.ofNat 64 (s.num (hbmKey r.saggar (a + 8 * k)) m) }] ∧
        (t.req? q).map (·.op) = some (.stream a n (k + 1) [] false)) ∧
    (∀ (w g v : Nat), s.walks.find? (fun e => e.2 = (g, v)) = some (w, g, v) →
      ∃ t, exec (.translationWalkDone g v) s = .next t ∧ t.banks = s.banks ∧ t.mem = s.mem ∧ t.saggars = s.saggars ∧
        (∀ o ∈ s.reqs, o.walk = some v → o.saggar = g → walkerOf o.site.tile o.edge = w →
          ∀ o' ∈ t.reqs, o'.id = o.id → o'.walk = none ∧ v ∈ o'.walked) ∧
        t.walks = s.walks.erase (w, g, v) ++ (s.walkWait.find? (·.1 = w)).toList)

/-- R97, R101, R132: an UNSTASH takes the newest record of its key in its saggar on its tile, or raises stash-record-absent; it
sends the words of its record in order as a stream does, the last with class last; and when the last is acknowledged it is
performed, and its record is gone. -/
def Sys2Proof.Claim.RecordsReturned : Prop :=
  ∀ (s : State) (q : Nat) (r : Req) (key o : Nat), s.memOk → s.req? q = some r → r.dst = .out o → s.stopped r.site = false →
    (s.bank r.site).unit? q = none → r.faulted = false → r.placed = none → r.held = false →
    let run (t : State) : Prop := exec (.runTokenSend r.site q {}) s = .next t
    let awake (x : Nat) : Prop := x ∉ s.stashOff ∧ (s.tile x).stash.off = false
    (Reached s q r → r.op = .unstash key none 0 [] false → s.stashBehind r = false → awake r.site.tile →
      let mine (v : StashRec) : Prop := v.saggar = r.saggar ∧ v.tile = r.site.tile ∧ v.key = key ∧ v.taken = false
      (∀ older v newer, s.stashed = older ++ v :: newer → mine v → (∀ w ∈ newer, ¬ mine w) → (∀ w ∈ older ++ newer, w.id ≠ v.id) →
        ∃ t, run t ∧ t.mem = s.mem ∧ t.stashed = older ++ { v with taken := true } :: newer ∧
          (t.req? q).map (·.op) = some (.unstash key (some v.id) 0 [] false)) ∧
      ((∀ v ∈ s.stashed, ¬ mine v) → ∃ t, run t ∧ t.stashed = s.stashed ∧ FaultsWith s t r 0x35)) ∧
    (∀ (v : StashRec) (k : Nat), r.op = .unstash key (some v.id) k [] false → s.stashed.find? (·.id = v.id) = some v →
      let tokens := (v.bytes.length + 7) / 8
      (k < tokens → s.unacked r.site o q [] < 64 → s.runReady r.site o q = true →
        let sends (at_ : Nat → Byte) : Prop := ∃ t w, run t ∧ t.mem = s.mem ∧ t.stashed = s.stashed ∧ (∀ i, i < 8 → w.extractLsb' (8 * i) 8 = at_ i) ∧
          ((t.bank r.site).out o).said = saidWith ((s.bank r.site).out o) q [{ cls := if k + 1 = tokens then 2 else 0, payload := w }] ∧
          (t.req? q).map (·.op) = some (.unstash key (some v.id) (k + 1) [] false)
        (v.overAt = none → awake v.tile → k ∉ v.bad → sends fun i => v.bytes.getD (8 * k + i) 0) ∧
        (∀ a, v.overAt = some a → let b := a + 8 * k
          a % 8 = 0 → r.badMgmt [(b, 8)] = false → (s.attr? r.saggar b).isSome = true → s.bankBusy r b = false →
          (s.tlbOf r).any (TlbEntry.covers r.saggar b) = true → Whole s (hbmKey r.saggar b) 8 → sends fun i => s.byte (hbmKey r.saggar b + i))) ∧
      (k = tokens → s.unacked r.site o q [] = 0 → v.overAt.isSome = true ∨ v.tile ∉ s.stashOff →
        ∃ t, run t ∧ t.mem = s.mem ∧ t.stashed = s.stashed.filter (·.id ≠ v.id) ∧ Completed s t r 5 0 0))

/-- R116, R131, R142, R148, R154, R221 to R223: a copy moves its bytes, a refill starts once every member has consumed, a row
command writes each of its rows and its statistics, a stash keeps the bytes of its block, and a commit writes its commit word. -/
def Sys2Proof.Claim.EnginesMove : Prop :=
  ∀ (s : State) (q : Nat) (r : Req), s.memOk →
    let bytes (k n : Nat) : List Byte := (List.range n).map fun i => s.byte (k + i)
    (∀ (d p : Place) (n : Nat), let key (z : Place) : Nat := match z with
        | .hbm a => hbmKey r.saggar a
        | .store t off _ => partKey s r.saggar t off
      let may (w : Bool) (z : Place) : Prop := match z with
        | .hbm a => a + n ≤ 2 ^ 48 ∧ ∀ i, i < n → (if w then s.attr? r.saggar (a + i) = some .rw else (s.attr? r.saggar (a + i)).isSome = true)
        | .store .. => True
      Reached s q r → r.op = .copy d p n none false → s.queueBlocked r = false → 0 < n → may true d → may false p → NoBarrier s r.saggar →
      Whole s (key p) n → ∃ t, exec (.copyPerformed q {}) s = .next t ∧ Stored s t (key d) (bytes (key p) n) ∧ Completed s t r 5 0 d.addr) ∧
    (∀ (d p : Place) (n h : Nat) (b : Buffer), Reached s q r → r.op = .copy d p n (some h) false → s.queueBlocked r = false →
      (s.saggar r.saggar).buffers.find? (·.handle = h) = some b → b.holds n d = true → (∀ c ∈ b.cells, c ∈ b.done) →
      ∃ t, exec (.refillStart q) s = .next t ∧ t.mem = s.mem ∧ t.banks = s.banks ∧
        ((t.saggar r.saggar).buffers.find? (·.handle = h)) = some { b with gen := b.gen + 1, done := [] } ∧
        (t.req? q).map (·.op) = some (.copy d p n (some h) true)) ∧
    (∀ (op : RowOp) (x out eps : Nat) (desc : Word) (f : Fmt) (more : List Nat),
      let d := rowDesc desc
      let n := rowBytes f d
      let row (k : Nat) : List FVal := rowElems f d.len (bytes (partKey s r.saggar r.site.tile (x + k * n)) n)
      let o (k : Nat) := rowForward op (rowFmt f) eps (row k)
      (s.tile r.site.tile).rows = q :: more → Reached s q r → r.op = .row true op x out desc f eps → fmtBits f % 8 = 0 →
      Inside s r.saggar x (d.rows * n) → Inside s r.saggar out (d.rows * n) → x = out ∨ x + d.rows * n ≤ out ∨ out + d.rows * n ≤ x →
      Whole s (partKey s r.saggar r.site.tile x) (d.rows * n) →
      ∃ t, exec (.rowCommandPerformed r.site.tile {}) s = .next t ∧ (t.tile r.site.tile).rows = more ∧ Completed s t r 5 0 out ∧
        (∀ k, k < d.rows → t.bytes (partKey s r.saggar r.site.tile (out + k * n)) n = ((o k).y.flatMap (littleEndian (fmtBits f / 8))) ∧
          t.sideEntry r.site.tile r.saggar (d.slot + k) = BitVec.ofNat 32 (o k).b ++ BitVec.ofNat 32 (o k).a)) ∧
    (∀ off n key, Reached s q r → r.op = .stash off n key → s.stashBehind r = false → r.site.tile ∉ s.stashOff → (s.tile r.site.tile).stash.off = false →
      s.stashUsed r.saggar r.site.tile + (n + 4095) / 4096 ≤ 16 * (s.saggar r.saggar).res.stash → Whole s (partKey s r.saggar r.site.tile off) n →
      ∃ t, exec (.stashPerformed q {}) s = .next t ∧ Completed s t r 5 0 off ∧ t.mem = s.mem ∧
        t.stashed = s.stashed ++ [{ id := r.id, saggar := r.saggar, tile := r.site.tile, key := key
                                    bytes := bytes (partKey s r.saggar r.site.tile off) n }]) ∧
    (∀ a n, let d := seqDesc (bytes (hbmKey r.saggar a) 160)
      Reached s q r → r.op = .kvcommit a n → s.queueBlocked r = false → a % 16 = 0 → a + 160 ≤ 2 ^ 48 →
      (∀ i, i < 160 → (s.attr? r.saggar (a + i)).isSome = true) → Whole s (hbmKey r.saggar a) 160 →
      (d.ok = false ∨ (0 < d.slots ∧ s.attr? r.saggar d.commit ≠ some .once) →
        ∃ t, exec (.kvCommandPerformed q {}) s = .next t ∧ t.mem = s.mem ∧ (t.req? q).map (·.lost) = some true) ∧
      (d.ok = true → Mapped s r.saggar d.commit (512 * d.slots) .once → s.attr? r.saggar (d.commitAt n) = some .once → setMem (hbmWord r.saggar (d.commitAt n)) s.full = false → d.commitAt n + 8 ≤ 2 ^ 48 →
        NoBarrier s r.saggar → s.deferred = [] →
        ∃ t, exec (.kvCommandPerformed q {}) s = .next t ∧ Stored s t (hbmKey r.saggar (d.commitAt n)) (littleEndian 8 (n + 1)) ∧
          setMem (hbmWord r.saggar (d.commitAt n)) t.full = true ∧ Completed s t r 5 0 a))

namespace Sys2Proof.Claim

/-- The greatest magnitude of the finite elements of a BF16 row, as an FP32 encoding: +0.0 when there is none (R152). -/
def greatest : List (BitVec 16) → BitVec 32
  | [] => 0
  | x :: xs =>
    let m : BitVec 32 := if x.extractLsb' 7 8 = 0xFF then 0 else 0#1 ++ x.setWidth 15 ++ 0#16
    if m ≤ greatest xs then greatest xs else m

/-- The scale of a head and kind of a block from its greatest magnitude (R153). -/
def blockScale (m : Nat) : Nat :=
  if m = 0 then 0 else (fpRound fp32 .ru false (fdivV (fp32.decode m) (.ofInt 448)).val {}).1

/-- The E4M3 code of a BF16 element under a scale (R153). -/
def sealCode (scale : Nat) (x : BitVec 16) : Byte :=
  let sign : BitVec 1 := x.extractLsb' 15 1
  if x.extractLsb' 7 8 = 0xFF then sign ++ 0x7F#7
  else if scale = 0 then sign ++ 0#7
  else BitVec.ofNat 8 (fpRound e4m3 .rne false (fdivV (bf16.decode x.toNat) (fp32.decode scale)).val {}).1

/-- A key lies outside a range. -/
def Beside (j k n : Nat) : Prop := j < k ∨ k + n ≤ j

end Sys2Proof.Claim

/-- R147 to R154, R156: a put writes the rows of its position and their maxima to the staging area of its layer, opens the next
block after a sealed one, and with the last position of a block writes the block's slot from the staging area: its scales, its
codes and zeros after them; it faults, and writes nothing, outside the ring and out of order. A rotation clears the commit words
of the oldest block, counts ROT up and sends it; before the window has passed the block it faults. A ring whose every word is full
ends the committed length after one turn (log entry 85). -/
def Sys2Proof.Claim.KeyValueApplied : Prop :=
  ∀ (s : State) (q : Nat) (r : Req) (a : Nat), s.memOk → Reached s q r → s.queueBlocked r = false → NoBarrier s r.saggar →
    a % 16 = 0 → a + 160 ≤ 2 ^ 48 → (∀ i, i < 160 → (s.attr? r.saggar (a + i)).isSome = true) → Whole s (hbmKey r.saggar a) 160 → r.saggar < 16 →
    let d := seqDesc ((List.range 160).map fun i => s.byte (hbmKey r.saggar a + i))
    let run (t : State) : Prop := exec (.kvCommandPerformed q {}) s = .next t
    let key (v : Nat) : Nat := hbmKey r.saggar v
    let half (u : State) (k : Nat) : BitVec 16 := BitVec.ofNat 16 (u.num k 2)
    d.ok = true → Mapped s r.saggar d.commit (512 * d.slots) .once → d.commit + 512 * d.slots ≤ 2 ^ 48 →
    (∀ off n l : Nat, r.op = .kvput a off n l → n < 2 ^ 32 → l < d.layers → off % 16 = 0 →
      let H := d.heads
      let b := n / 64
      let p := n % 64
      let rows := partKey s r.saggar r.site.tile off
      let area := d.area l
      let ob := s.num (key area) 8
      let isSealed := (s.byte (key (area + 8))).getLsbD 0
      off + 4 * d.dim * H ≤ s.partSize r.saggar → Inside s r.saggar off (4 * d.dim * H) → Whole s rows (4 * d.dim * H) →
      area + d.areaSize ≤ 2 ^ 48 → Mapped s r.saggar area d.areaSize .rw → Whole s (key area) d.areaSize →
      let faults (cls : Nat) : Prop := ∃ t, run t ∧ FaultsWith s t r cls
      (b < d.rot → faults 0x42) ∧
      (d.rot + d.slots ≤ b → faults 0x41) ∧
      (d.rot ≤ b → b < d.rot + d.slots → b = ob + 1 → isSealed = false → faults 0x43) ∧
      (d.rot ≤ b → b < d.rot + d.slots → b ≠ ob → b ≠ ob + 1 → faults 0x44) ∧
      (d.rot ≤ b → b < d.rot + d.slots → b = ob ∨ b = ob + 1 ∧ isSealed = true →
        ∀ slot : Nat, (p = 63 → (∀ p' h k, p' < 63 → h < H → k < 2 → s.num (key (d.amaxAt l p' h k)) 4 < 0x7F800000) ∧
          ∃ e x i, d.slotAt l b = some (e, x) ∧ s.tileOf r.site e = some i ∧ x + d.slotSize ≤ s.partSize r.saggar ∧
            Inside s r.saggar x d.slotSize ∧ slot = partKey s r.saggar i x) →
        ∃ t, run t ∧ Completed s t r 5 0 a ∧ t.num (key area) 8 = b ∧
          (t.byte (key (area + 8))).getLsbD 0 = (decide (p = 63) || (decide (b = ob) && isSealed)) ∧
          (∀ h k, h < H → k < 2 →
            t.bytes (key (d.rowAt l p h k)) (2 * d.dim) = s.bytes (rows + 4 * d.dim * h + 2 * d.dim * k) (2 * d.dim) ∧
            t.num (key (d.amaxAt l p h k)) 4 =
              (greatest ((List.range d.dim).map fun e => half s (rows + 4 * d.dim * h + 2 * d.dim * k + 2 * e))).toNat) ∧
          (p = 63 →
            (∀ h k, h < H → k < 2 →
              let scale := blockScale (((List.range 64).map fun p' => t.num (key (d.amaxAt l p' h k)) 4).foldl Nat.max 0)
              t.num (slot + 128 * H * d.dim + 8 * h + 4 * k) 4 = scale ∧
              ∀ p' e, p' < 64 → e < d.dim → t.byte (slot + 128 * d.dim * h + 64 * d.dim * k + d.dim * p' + e) =
                sealCode scale (half t (key (d.rowAt l p' h k) + 2 * e))) ∧
            ∀ j, 128 * H * d.dim + 8 * H ≤ j → j < d.slotSize → t.byte (slot + j) = 0) ∧
          ∀ j, (b ≠ ob ∨ p = 63 → Beside j (key area) 16) →
            (∀ h k, h < H → k < 2 → Beside j (key (d.rowAt l p h k)) (2 * d.dim) ∧ Beside j (key (d.amaxAt l p h k)) 4) →
            (p = 63 → Beside j slot d.slotSize) → t.byte j = s.byte j)) ∧
    (∀ m o : Nat, r.op = .kvrot a → r.dst = .out o → Mapped s r.saggar (a + 0x18) 8 .rw →
      (r.cout = some o → r.cgroup = r.id ∧ ∀ g ∈ ((s.bank r.site).out o).groups, g.id = r.id → 2 ≤ g.resv) →
      let full (u : State) (n : Nat) : Bool := setMem (hbmWord r.saggar (d.commitAt n)) u.full
      64 * d.rot ≤ m → m ≤ 64 * d.rot + 64 * d.slots → (∀ n, 64 * d.rot ≤ n → n < m → full s n = true) →
      (m < 64 * d.rot + 64 * d.slots → full s m = false) → s.full.Pairwise (· < ·) →
      (d.window = 0 ∨ m - d.window ≤ 64 * d.rot + 63 → ∃ t, run t ∧ t.full = s.full ∧ FaultsWith s t r 0x45) ∧
      (0 < d.window → 64 * d.rot + 63 < m - d.window → d.rot + 1 < 2 ^ 64 →
        let freed (n : Nat) : Prop := 64 * d.rot ≤ n ∧ n < 64 * d.rot + 64
        let made : List Said := [{ cls := 0, payload := BitVec.ofNat 64 (d.rot + 1) }]
        let token : Said := { cls := 7, payload := tokenWord 5 r.path.code 0 (BitVec.ofNat 48 a) }
        ∃ t, run t ∧ t.req? q = none ∧ t.num (key (a + 0x18)) 8 = d.rot + 1 ∧
          (∀ n, freed n → full t n = false ∧ t.num (key (d.commitAt n)) 8 = 0) ∧
          (∀ w, (∀ n, freed n → w ≠ hbmWord r.saggar (d.commitAt n)) → setMem w t.full = setMem w s.full) ∧
          (∀ j, Beside j (key (a + 0x18)) 8 → (∀ n, freed n → Beside j (key (d.commitAt n)) 8) → t.byte j = s.byte j) ∧
          ((t.bank r.site).out o).said = saidWith ((s.bank r.site).out o) r.id (made ++ if r.cout = some o then [token] else []) ∧
          ∀ o', r.cout = some o' → o' ≠ o → ((t.bank r.site).out o').said = saidWith ((s.bank r.site).out o') r.cgroup [token]))

/-- R219, R220, R222, R223: a backward row command writes each row of its output from the row, the gradient row and the entry of the
side memory as it stands, changes no entry and no other byte, and leaves the queue. -/
def Sys2Proof.Claim.RowsBack : Prop :=
  ∀ (s : State) (q : Nat) (r : Req) (op : RowOp) (x out eps : Nat) (desc : Word) (f : Fmt) (more : List Nat),
    let d := rowDesc desc
    let n := rowBytes f d
    let m := d.rows * n
    let at_ (off : Nat) : Nat := partKey s r.saggar r.site.tile off
    let row (off k : Nat) : List FVal := rowElems f d.len (s.bytes (at_ (off + k * n)) n)
    let stat (k : Nat) : Word := s.sideEntry r.site.tile r.saggar (d.slot + k)
    let clear (a b : Nat) : Prop := a = b ∨ a + m ≤ b ∨ b + m ≤ a
    s.memOk → (s.tile r.site.tile).rows = q :: more → Reached s q r → r.op = .row false op x out desc f eps → fmtBits f % 8 = 0 →
    Inside s r.saggar x m → Inside s r.saggar out m → Inside s r.saggar d.dy m → clear out x → clear out d.dy →
    Whole s (at_ x) m → Whole s (at_ d.dy) m → (∀ k, k < d.rows → (r.site.tile, r.saggar, d.slot + k) ∉ s.sideBad) →
    ∃ t, exec (.rowCommandPerformed r.site.tile {}) s = .next t ∧ (t.tile r.site.tile).rows = more ∧ Completed s t r 5 0 out ∧
      t.side = s.side ∧ (∀ j, Beside j (at_ out) m → t.byte j = s.byte j) ∧
      ∀ k, k < d.rows → t.bytes (at_ (out + k * n)) n =
        (rowBackward op (rowFmt f) (row x k) (row d.dy k) (fp32.decode ((stat k).setWidth 32).toNat) (fp32.decode (stat k >>> 32).toNat)).flatMap
          (littleEndian (fmtBits f / 8))

/-- R144 to R146, R253, R254, R294 to R296, R316, R362: a collective that every rank has issued is performed on all of them, each rank's destination
receiving what R144 or R254 gives it of the sources in rank order; an abort token moves its rank to the next attempt, and one of
another attempt is dropped; a silent device ends the collectives of its cohort with status 2; a barrier that every member has
reached sends its tokens and begins the next generation; a JOIN of another device of the same tenant enters its member, its LEAVE
ends the membership, and a record of another tenant is dropped and counted at its port. How remote members are recorded, that a frozen
member has none, that attempt numbers pass modulo 256, and when a cohort dissolves are the model's reading (log entry 50); that a
silent device's collective ends with status 2 is its choice between R295 and R306 (log entry 97). -/
def Obligations.CohortsAct : Prop :=
  ∀ (s : State) (g k : Nat) (c : Cohort), s.memOk → s.cohort? g k = some c →
    (∀ (q : Nat) (r : Req) (op : Option CollOp) (n rank0 att d0 p0 : Nat) (f : Fmt) (req : Nat → Req) (dst src : Nat → Nat),
      let e := fmtBits f / 8
      let parts := (List.range c.size).map fun i => toElems e [] n 0 ((List.range (e * n)).map fun j => s.byte (hbmKey g (src i) + j))
      let given (i : Nat) : List Byte := (collResult op f n i parts).flatMap fun x => littleEndian e x.1
      let len := e * collOut op c.size n
      s.req? q = some r → r.placed = none → r.op = .coll op d0 p0 n f k rank0 att → r.saggar = g → c.formed = true → (∀ m ∈ c.members, s.memberFrozen m = false) →
      NoBarrier s g →
      (∀ i, i < c.size → ∃ m, c.members.find? (·.rank = i) = some m ∧ m.who.launch?.isSome = true ∧ s.nextColl g k i att = some (req i) ∧
        (req i).op = .coll op (dst i) (src i) n f k i att ∧ (req i).saggar = g ∧ Ready s (req i) ∧
        src i + e * n ≤ 2 ^ 48 ∧ dst i + len ≤ 2 ^ 48 ∧ (∀ j, j < e * n → (s.attr? g (src i + j)).isSome = true) ∧ Mapped s g (dst i) len .rw ∧
        Whole s (hbmKey g (src i)) (e * n)) →
      (∀ i j, i < c.size → j < c.size → i ≠ j → dst i + len ≤ dst j ∨ dst j + len ≤ dst i) →
      ∃ t, exec (if op.isSome then .collectivePerformed q [] {} else .xredPerformed q [] {}) s = .next t ∧
        ∀ i, i < c.size → t.req? (req i).id = none ∧ t.bytes (hbmKey g (dst i)) (given i).length = given i) ∧
    (∀ (rank att p device : Nat) (m : Member), c.members.find? (·.rank = rank) = some m → s.abortSent g k rank att = true →
      (∀ o ∈ s.colls g k, ¬(o.op.coll? = some (k, rank) ∧ o.op.attempt? = some att)) →
      ∃ t, exec (.abortTokenReceive g k rank ⟨att, p, device⟩) s = .next t ∧ t.mem = s.mem ∧ t.banks = s.banks ∧
        (att = m.attempt → t.cohorts = (cohortChanged g k (memberChanged rank fun o => { o with attempt := (att + 1) % 256 }) s).cohorts) ∧
        (att ≠ m.attempt → t.cohorts = s.cohorts) ∧
        ∀ o ∈ t.reqs, ∀ r left sent, o.op = .cabort k r att left sent → o.saggar = g → rank ∉ sent ∧ (att = m.attempt → rank ∉ left)) ∧
    ((∃ m ∈ c.members, m.who.launch? = none) → s.holdUp ≠ .runOut →
      ∃ t, exec (.collectiveMemberTimeout g k) s = .next t ∧ (∀ r ∈ s.colls g k, r.held = false → r.placed = none → t.req? r.id = none) ∧
        ((∀ r ∈ s.colls g k, r.held = false) → t.mem = s.mem) ∧
        ∀ r, s.colls g k = [r] → r.held = false → r.placed = none → ∀ o, r.cout = some o → ∃ a,
          ((t.bank r.site).out o).said = saidWith ((s.bank r.site).out o) r.cgroup [{ cls := 7, payload := tokenWord 6 r.path.code 2 a }]) ∧
    (c.formed = true → c.closing = false → (∀ m ∈ c.members, m.who.launch?.isSome = true → m.arrived = true) → s.bars g k ≠ [] →
      (∀ r ∈ s.bars g k, s.mayPerform r = true ∧ ∀ e ∈ r.joint, ∀ o, s.req? e.2 = some o → o.performed = true) →
      (∀ m ∈ c.members, m.who.launch?.isSome = true) ∨ s.portsOpen = true →
      ∃ t, exec (.barComplete g k) s = .next t ∧ ((∀ r ∈ s.bars g k, r.held = false) → t.mem = s.mem) ∧
        t.cohorts = (cohortChanged g k (fun c => { c with gen := c.gen + 1, members := c.members.map fun m => { m with arrived := false } }) s).cohorts ∧
        (∀ r ∈ s.bars g k, r.held = false → r.placed = none → t.req? r.id = none) ∧
        ∀ r, s.bars g k = [r] → r.held = false → r.placed = none → Completed s t r 7 0 0) ∧
    (∀ j : JoinRecord, s.portWorks j.port = true →
      let drops (t : State) : BitVec 32 := (t.ports.getD j.port {}).drops
      let sees (t : State) : Prop := t.mem = s.mem ∧ t.banks = s.banks ∧ t.reqs = s.reqs
      (s.peerAt j.port j.device = false ∨ s.sameTenant g j.tenant = false → ∃ t, exec (.joinRecordReceive g k j) s = .next t ∧
        drops t = drops s + 1 ∧ t.cohorts = s.cohorts ∧ sees t) ∧
      (s.peerAt j.port j.device = true → s.sameTenant g j.tenant = true →
        (j.kind = .join → c.closing = false → c.size = j.size → 1 ≤ j.size → j.size ≤ 4096 → j.rank < j.size →
          (∀ m ∈ c.members, m.rank ≠ j.rank) → c.members.length + 1 < c.size →
          ∃ t, exec (.joinRecordReceive g k j) s = .next t ∧ drops t = drops s ∧ sees t ∧
            t.cohorts = (cohortChanged g k (fun c => { c with members := c.members ++ [{ rank := j.rank, who := .remote j.device }] }) s).cohorts) ∧
        (j.kind = .gone → Idle s g k → ∃ t, exec (.joinRecordReceive g k j) s = .next t ∧ drops t = drops s ∧ sees t ∧
          t.cohorts = (cohortChanged g k (fun c => { c with closing := true, members := c.members.map (leftOf j.rank j.device) }) s).cohorts.filter fun c =>
            !(c.saggar = g && c.num = k && c.members.all (·.gone)))))

/-! ### Regions: planes, drain, freeze, traverse and restore (R43, R45, R80, R81, R84, R88, R96, R265, R267, R271, R320, R323 to R329,
R338, R339, R342, R360) -/

/-- R54, R80, R81, R84, R88, R96, R360: an idle stacked layer goes off and a waking one is on again; the drain retires the cells of the
lowest tile that it has not reached, and sends a drain token on each of their bound outputs; a tile that it has passed gives its
slot back; the region then ends and reports; a freeze reaches the lowest tile that it has not reached. -/
def Obligations.RegionsEnd : Prop :=
  ∀ (s : State) (j n k : Nat) (l : Launch), s.launch? j = some l →
    (∀ y : Layer, let p := (s.tile n).layer y
      (2 ^ 20 ≤ p.idle → p.off = false → p.waking = false → s.traversedTile n = false →
        ∃ t, exec (.layerPowerOff n y) s = .next t ∧ (t.tile n).layer y = { p with off := true } ∧ t.banks = s.banks ∧ t.rest = s.rest) ∧
      (p.waking = true → s.endingLoads = [] → ∃ t, exec (.layerWakeDone n y) s = .next t ∧ ((t.tile n).layer y).off = false ∧
        ((t.tile n).layer y).waking = false ∧ t.banks = s.banks ∧ t.rest = s.rest)) ∧
    ((l.at n).bind (·.slot) = some k →
      (l.draining = true → l.freeze = false → s.nextDrained l = some n → (s.slot n k).phase = .active →
        ∃ t, exec (.drainReachTile j n) s = .next t ∧ (t.slot n k).drained = true ∧ t.mem = s.mem ∧ t.reqs = s.reqs ∧
          (∀ x ∈ s.banksAt n k, (t.bank x).retired = true ∧ (∀ m, ∀ u ∈ ((t.bank x).chan m).toks, u.cls = 6) ∧
            ∀ o, o < 8 → ((s.bank x).out o).bind.isSome = true →
              ((t.bank x).out o).said = ((s.bank x).out o).said ++ List.replicate ((s.banks.map (·.1)).count x) { cls := 5, payload := 0 }) ∧
          ∀ x, x ∉ s.banksAt n k → (t.bank x).regs = (s.bank x).regs ∧ ∀ m, ((t.bank x).chan m).toks = ((s.bank x).chan m).toks) ∧
      (l.draining = true → l.freeze = false → (∀ e ∈ l.tiles, e.passed = true ∨ ∃ i, e.slot = some i ∧ (s.slot e.tile i).drained = true) →
        s.round.live ≠ some (n, k) → s.drainedInto l n = true → s.accessesDone n k = true → ((s.banksAt n k).foldl State.letGo s).outsEmpty n k = true →
        (∀ o ∈ s.launches, o.pred ≠ some (true, j)) →
        ∃ t, exec (.drainPassedTile j n) s = .next t ∧ (t.slot n k).phase = .free ∧ t.mem = s.mem ∧
          (∀ x ∈ t.banks, ¬(x.1.tile = n ∧ x.1.slot = k)) ∧ ((t.launch? j).bind (·.at n)).map (fun e => (e.slot, e.passed)) = some (none, true) ∧
          ∀ w ∈ t.owners, ¬(w.launch = j ∧ w.site.tile = n ∧ w.site.slot = k)) ∧
      (l.freeze = true → s.nextTile l (fun o => o.halt = .go) = some n →
        ∃ t, exec (.freezeReachTile j n) s = .next t ∧ (t.slot n k).halt = .reached ∧ t.mem = s.mem ∧
          (∀ r ∈ t.reqs, r.launch = j → r.site.tile = n → r.held = false) ∧
          ((∀ r ∈ s.reqs, r.launch = j → r.site.tile = n → r.answered = false ∧ r.answers = []) → t.banks = s.banks ∧ t.rest = s.rest))) ∧
    (l.draining = true → l.phase = .running → (∀ e ∈ l.tiles, e.passed = true) → (∀ c ∈ s.cohorts, ∀ m ∈ c.members, m.who.launch? ≠ some j) →
      ∃ t, exec (.regionEnd j) s = .next t ∧ t.launch? j = none ∧ (l.endTo = .host ∨ l.endTo = .nowhere → t.mem = s.mem) ∧
        (l.endTo = .host → s.holdUp = .none → t.answers = s.answers ++
          [(s.saggar l.saggar).seal
            { type := 0x88, saggar := l.saggar, ctr := (s.saggar l.saggar).ctrOut + 1, status := 0, words := [BitVec.ofNat 64 l.no] }]) ∧
        (∀ q r, l.endTo = .req q → s.holdUp ≠ .runOut → s.req? q = some r → r.held = false → r.performed = false → (∀ o ∈ s.launches, o.num ≠ j → o.endTo ≠ .req q) →
          Completed s t r 8 0 0))

/-- R43, R45, R46, R174, R265, R267, R369: the dispatcher places the first launch that fits, at the lowest origin whose tiles have a free slot
below the threshold, and reserves its slots; a plane that passes its checks is loaded, one that fails raises the configuration
fault and refuses its launch; a loaded plane becomes active with its rules, formats and initial values, everything else of its
banks zero. -/
def Obligations.PlanesPlaced : Prop :=
  ∀ s : State,
    (s.service ≠ .off → s.holdUp = .none → exec .dispatchEnable s = .next { s with dispatchOn := true }) ∧
    (∀ (l : Launch) (more : List Launch) (o : Nat) (ts : List Nat), s.dispatching = true → s.heads = l :: more → s.asksRunning l = false →
      s.savedOf l = none → s.fits l o = some ts → ts.Nodup → o ∈ s.originsFor l → s.slotsFor l o = true → s.belowThreshold l o = true →
      (∀ p ∈ s.originsFor l, p < o → s.slotsFor l p = false ∨ s.belowThreshold l p = false) →
      ∃ t, exec .launchDispatch s = .next t ∧ t.banks = s.banks ∧ t.mem = s.mem ∧ (∀ q ∈ t.queues, l.num ∉ q) ∧ t.stamp = s.stamp + 1 ∧
        (t.launch? l.num).map (fun l' => (l'.phase, l'.placed, l'.baseWeight, l'.tiles.map (·.tile))) = some (.placed, o, 4 * (l.prio + 1), ts) ∧
        ∀ n ∈ ts, ∃ k, k < 4 ∧ (s.slot n k).phase = .free ∧ (∀ i, i < k → (s.slot n i).phase ≠ .free) ∧
          t.slot n k = { phase := .reserved, launch := l.num }) ∧
    (∀ (j n k p : Nat) (l : Launch) (e : LTile) (i : Image), s.launch? j = some l → l.at n = some e → e.slot = some k → l.phase = .placed → e.passed = false →
      s.planeOn l e.rtile = some (i, p) →
      let body := i.body p
      ((s.slot n k).phase = .reserved → (s.tile n).planeStore.off = false → firstItem (s.badItems i l.region body) = none →
        ∃ t, exec (.planeLoad j n) s = .next t ∧ (t.slot n k).phase = .loaded ∧ t.banks = s.banks ∧ t.rest = s.rest) ∧
      (∀ b, (s.slot n k).phase = .reserved → (s.tile n).planeStore.off = false → firstItem (s.badItems i l.region body) = some b → s.savedOf l = none →
        l.endTo = .host →
        ∃ t w, exec (.planeLoad j n) s = .next t ∧ t.launch? j = none ∧ w.cell = b.cell ∧ w.ptile = n ∧ w.word = b.word ∧
          Logged s t l.saggar w { cls := 0x01, reason := b.code, more := (s.badItems i l.region body).length - 1, source := 3, a := BitVec.ofNat 64 b.chan }) ∧
      (l.freeze = false → (s.slot n k).phase = .loaded → s.savedOf l = none → (∀ q, l.pred ≠ some (true, q)) → s.allLoaded l = true →
        ∃ t, exec (.planeActivate j n) s = .next t ∧ (t.slot n k).phase = .active ∧ (t.slot n k).launch = j ∧
          (l.takes = false → (t.slot n k).weight = l.baseWeight) ∧
          (∀ c ∈ bodyCells body, let b := t.bank { tile := n, slot := k, cell := c }
            b.rules = (List.range 16).map (bodyRule body c) ∧ b.p = 0 ∧ b.rounds = 0 ∧ b.acc = List.replicate 4 {} ∧ b.lfsr ≠ 0 ∧ b.units = [] ∧
            (∀ m, m < 32 → (b.chan m).fmt = bodyFmt body c m ∧ (b.chan m).toks = []) ∧
            (∀ r, (∀ v ∈ bodyInits body, v.1 = c → initReg v.2.1 ≠ r) → b.reg r = 0)) ∧
          ((∀ e' ∈ l.tiles, e' = e) → (t.launch? j).map (·.phase) = some .running ∧ (t.slot n k).waits = false)))

/-- The stash layers of some tiles are powered, where they are not disabled (R95 to R97). -/
def Sys2Proof.Claim.LayersOn (s : State) (ts : List Nat) : Prop := ∀ n, n ∈ ts → n ∉ s.stashOff → (s.tile n).stash.off = false

/-- R95, R96, R320, R321, R323, R324, R328, R329, R342, R352: a traverse that a MARK asks for begins with the space of its record reserved; it reaches the
tiles in order; a marked cell saves with its channels as they stand; a snap cell without a SNAP in 2^16 rounds is marked; and when
all is done, and the stash layers that it reads are awake, the region is saved under a handle and its slots are free. That the first MARK
decides whether the region is queued again is the model's reading (log entry 59). -/
def Sys2Proof.Claim.TraversesRun : Prop :=
  ∀ (s : State) (j : Nat) (l : Launch), s.launch? j = some l →
    (∀ base, (∀ r ∈ s.reqs, match r.op with | .mark (some _) _ false _ _ => False | _ => True) → s.marksFor j ≠ [] → l.draining = false → l.freeze = false →
      l.phase = .running → l.trav = none → s.traverses < 8 → (s.saggar l.saggar).saved.length < 256 → s.holdUp = .none →
      s.recordPlace l.saggar (s.recordNeed l) = some base →
      ∃ t v, exec (.traverseBegin j) s = .next t ∧ (t.launch? j).bind (·.trav) = some v ∧ v.base = base ∧ v.len = s.recordNeed l ∧
        v.marks = (s.marksFor j).map (·.id) ∧ v.requeue = (s.marksFor j).head?.any Req.requeues ∧
        (t.saggar l.saggar).reserved = (s.saggar l.saggar).reserved ++ [(j, base, s.recordNeed l)] ∧ t.banks = s.banks ∧ t.mem = s.mem) ∧
    (∀ n k, (l.at n).bind (·.slot) = some k → l.trav.isSome = true →
      (l.tiles.find? fun e => e.slot.any fun i => !(s.slot e.tile i).traversed).map (·.tile) = some n →
      ∃ t, exec (.traverseReachTile j n) s = .next t ∧ (t.slot n k).traversed = true ∧ t.mem = s.mem ∧ t.reqs = s.reqs ∧
        ∀ x ∈ s.banksAt n k, if (s.bank x).programmed then t.bank x = s.bank x else (t.bank x).mark = .saved) ∧
    (∀ x, s.mayCellSave x = true → ∃ t, exec (.cellSave x) s = .next t ∧ (∀ y, y ≠ x → (t.bank y).regs = (s.bank y).regs) ∧ SameTiles s t ∧
      t.rest = s.rest ∧ t.reqs = (s.reqs.map fun r => if r.site = x ∧ r.parks = true then { r with held := true } else r) ∧
      (t.bank x).mark = .saved ∧ (t.bank x).regs = (s.bank x).regs ∧
      ∀ m, ((t.bank x).chan m).toks = ((s.bank x).chan m).toks.filter (·.cls ≠ 6)) ∧
    (∀ x, s.traversed x = true → (s.bank x).isSnap = true → (s.bank x).mark = .clear → (s.bank x).snapDue = false → s.marksNow x = true →
      2 ^ 16 ≤ (s.bank x).snapAge → exec (.snapForcedSave x) s = .next (s.setBank x { (s.bank x) with mark := .marked true, forced := true })) ∧
    (∀ v h, l.trav = some v → s.freeHandle l.saggar = some h → s.traverseDone l = true →
      (∀ n, n ∈ s.stashTiles l → n ∉ s.stashOff → (s.tile n).stash.off = true → ∃ t, exec (.traverseComplete j) s = .next t ∧
        t.launches = s.launches ∧ t.banks = s.banks ∧ t.rest = s.rest ∧ (t.tile n).stash.waking = true) ∧
      (LayersOn s (s.stashTiles l) → s.poisonedTile l = none → ∃ t, exec (.traverseComplete j) s = .next t ∧
        (t.launch? j).map (fun l' => (l'.phase, l'.tiles.length, l'.trav.isSome)) = some (if v.requeue then .queued else .saved, 0, false) ∧
        (∃ o ∈ (t.saggar l.saggar).saved, o.handle = h ∧ o.launch = j ∧ o.queued = v.requeue) ∧
        ∀ e ∈ l.tiles, ∀ k, e.slot = some k → (t.slot e.tile k).phase = .free) ∧
      (∀ n, LayersOn s (s.stashTiles l) → s.poisonedTile l = some n → ∃ t w, exec (.traverseComplete j) s = .next t ∧ w.ptile = n ∧ w.region = l.region ∧
        Logged s t l.saggar w { cls := 0x0A, reason := 4, source := 3, a := 0xFF } ∧ Freezing t l 0x0A))

/-- R338, R339: a restore, whose record passes its checks, sets every saved cell on its new tile as the record states it, the region
runs, and its handle is free; a record that fails them raises the traverse-record fault and ends its launch. What the restore takes from
the record and what from beside it (log entry 61), and the end of the launch of a corrupt record (log entry 62), are the model's choices. -/
def Sys2Proof.Claim.RegionsRestored : Prop :=
  ∀ (s : State) (j : Nat) (l : Launch) (v : Saved), s.launch? j = some l → s.savedOf l = some v → l.phase = .placed → l.freeze = false →
    (∀ e ∈ l.tiles, ∃ k, e.slot = some k ∧ (s.slot e.tile k).phase = .loaded ∧ s.unitsFor v e.rtile e.tile = true) →
    (let bs := s.recordAt l.saggar v.base
     LayersOn s (s.stashNeeds l v) → s.recordOk l v = true → (∀ r ∈ (s.readRequests v bs).reqs, r.launch = j → r.answered = false ∧ r.answers = []) → l.resume = none →
      ∃ t, exec (.restore j) s = .next t ∧ (t.launch? j).map (·.phase) = some .running ∧ (∀ o ∈ (t.saggar l.saggar).saved, o.launch ≠ j) ∧
        ∀ e ∈ l.tiles, (∀ e' ∈ l.tiles, e'.tile = e.tile → e' = e) → ∀ k, e.slot = some k → (t.slot e.tile k).phase = .active ∧
          ∀ c b, (v.read bs).cells.filter (fun o => o.1 = (e.rtile, c)) = [((e.rtile, c), b)] →
            valuesOf (t.bank { tile := e.tile, slot := k, cell := c }).regs = valuesOf b.regs) ∧
    (s.recordOk l v = false →
      ∃ t w, exec (.restore j) s = .next t ∧ t.launch? j = none ∧ w.region = l.region ∧
        Logged s t l.saggar w { cls := 0x60, a := BitVec.ofNat 64 v.handle })

/-! ### Power, ports, management and the host (R13, R264, R275, R300 to R318, R338, R360, R363, R369 to R384, R387 to R397) -/

namespace Sys2Proof.Claim

/-- A command reaches its saggar: the datum listens and carries out no other, the message has its form and its tag and is newer than
the last, and the saggar accepts its type (R300, R301, R370, R388, R389). -/
structure Accepted (s : State) (c : CmdHead) (type : Nat) : Prop where
  works   : s.service ≠ .off ∧ s.holdUp = .none ∧ (s.service = .refused → type = 4)
  link    : s.ports.any (·.up) = true
  tenant  : 1 ≤ c.saggar ∧ c.saggar < 16
  newer   : (s.saggar c.saggar).ctrIn < c.seq
  idle    : s.endingLoads = []
  form    : c.rz = 0 ∧ c.length = c.body.length
  tag     : if type = 4 ∨ type = 5 then c.tag = List.replicate 16 0 else ∃ k, (s.saggar c.saggar).keys = some k ∧
    c.tag = Config.gcmTag k.1 (messageIv false c.seq) (messageHead type c.saggar c.length c.seq) c.body
  accepts : (s.saggar c.saggar).st.accepts type = true

/-- The last message of the device is the answer to a command, with its tag under the key that the saggar had (R388, R389). -/
def Told (s t : State) (c : CmdHead) (type status : Nat) (words : List Word) (bytes : List Byte) : Prop :=
  ∃ ctr, t.answers.getLast? = some ((s.saggar c.saggar).seal
    { type := 0x80 + type, saggar := c.saggar, ctr := ctr, status := status, words := words, bytes := bytes })

/-- A launch of a saggar stands at the end of a queue. -/
def Queued (s t : State) (q n : Nat) : Prop := t.queues.getD q [] = s.queues.getD q [] ++ [n]

end Sys2Proof.Claim

/-- R13, R315 to R318, R387, R388, R397: the activation of a row raises its count, and at RMTHR an alert and a neighbour refresh; a
refresh pass clears the counts of its bank; a readout that waits for the refreshed bank is then served; a packet that reaches no saggar is
dropped and counted; a link with a peer device comes up when the peer's proof is accepted, with the key that it derives; a management
register takes a value in its range, and no other. That the key of a link is drawn with an empty salt and an empty info is the model's
choice (log entry 69). -/
def Sys2Proof.Claim.MemoryAndPorts : Prop :=
  ∀ (s : State) (d b r p x : Nat) (v : Word),
    (d < 8 → s.service ≠ .off → (d, b) ∉ s.refreshing → s.rowCount d b r + 1 < s.rmthr →
      ∃ t, exec (.rowAlert d b r) s = .next t ∧ t.rowCount d b r = s.rowCount d b r + 1 ∧ t.alerts = s.alerts ∧ t.refreshing = s.refreshing ∧
        ∀ d' b' r', (d', b', r') ≠ (d, b, r) → t.rowCount d' b' r' = s.rowCount d' b' r') ∧
    (d < 8 → s.service ≠ .off → (d, b) ∉ s.refreshing → s.rmthr ≤ s.rowCount d b r + 1 →
      ∃ t, exec (.rowAlert d b r) s = .next t ∧ t.rowCount d b r = 0 ∧ t.alerts.getD d 0 = s.alerts.getD d 0 + 1 ∧ (d, b) ∈ t.refreshing) ∧
    (∃ t, exec (.neighbourRefreshDone d b) s = .next t ∧ (d, b) ∉ t.refreshing ∧ (∀ e ∈ s.refreshing, e ≠ (d, b) → e ∈ t.refreshing) ∧
      t.mem = s.mem ∧ t.banks = s.banks ∧ (s.readouts = [] → t.answers = s.answers) ∧
      ∀ c a n, s.readouts = [{ cmd := c, a := a, len := n }] → s.holdUp = .none → (∀ e ∈ s.refreshing, e = (d, b)) → Whole s (hbmKey c.saggar a) n → t.readouts = [] ∧
        Told s t c 7 0 [] (((List.range n).map fun i => s.byte (hbmKey c.saggar a + i)) ++ List.replicate ((n / 8 + 7) / 8) 0)) ∧
    (∃ t, exec (.refreshPass d b) s = .next t ∧ (∀ r', t.rowCount d b r' = 0) ∧
      ∀ d' b' r', (d', b') ≠ (d, b) → t.rowCount d' b' r' = s.rowCount d' b' r') ∧
    (s.portWorks p = true →
      (∀ k, k ≠ .saggarZero → ∃ t, exec (.packetReceive p k) s = .next t ∧ (t.ports.getD p {}).drops = (s.ports.getD p {}).drops + 1 ∧
        t.answers = s.answers ∧ t.mem = s.mem) ∧
      (∃ t, exec (.packetReceive p .saggarZero) s = .next t ∧ t.endpointDrops = s.endpointDrops + 1 ∧ t.ports = s.ports) ∧
      (∃ t, exec (.linkTraining p none) s = .next t ∧ t.ports.getD p {} = { s.ports.getD p {} with up := true, key := Config.hostLinkKey p }) ∧
      (∀ q : PeerProof, ∃ t, exec (.linkTraining p (some q)) s = .next t ∧ (t.ports.getD p {}).drops = (s.ports.getD p {}).drops ∧
        ((t.ports.getD p {}).up = true ↔ Config.chainOk q.certs = true ∧
          Config.ecdsaOk (Config.certifiedKey q.certs) (sha384 (q.report.take 0x418)) (q.report.drop 0x418) = true ∧
          (q.report.drop 0xB8).take 48 = fitBytes 48 (Config.linkNonce p) ∧ Config.expectedPeer q.report = true) ∧
        ((t.ports.getD p {}).up = true → (t.ports.getD p {}).key = hkdf [] (Config.linkSecret (Config.certifiedKey q.certs)) [] 32))) ∧
    (let n := v.toNat;
      exec (.colthrWrite v) s = .next (if 1 ≤ n ∧ n ≤ 16 then { s with colthr := n } else s) ∧
      exec (.rmthrWrite v) s = .next (if 512 ≤ n ∧ n ≤ 65535 then { s with rmthr := n } else s) ∧
      exec (.mgmtRegWrite x v) s = .next (if x = 0 ∧ 1 ≤ n ∧ n ≤ 16 then { s with colthr := n }
        else if x = 8 ∧ 512 ≤ n ∧ n ≤ 65535 then { s with rmthr := n } else s))

/-- R376, R384: the port die decides a request that has come, in an order that the spec leaves open (log entry 65): a declaration that
fits takes the lowest free number of its image, a drop of a number that a rule declared takes it away, and a refused one changes no
declaration; the answer then written holds the number or bit 63 with the reason, and the charge units left. -/
def Sys2Proof.Claim.DeclarationsAnswered : Prop :=
  ∀ (s : State) (q : Nat) (r : Req) (l : Launch) (g : Reg),
    s.req? q = some r → r.held = false → s.launch? r.launch = some l → r.dst = .reg g → (s.bank r.site).pend.any (·.id = q) = true →
    let n := s.saveReqs.length
    let k := Config.unstated s.tick 0 % max 1 (n + s.saveAnswers.length)
    let decls (z : State) := (z.saggar r.saggar).decls
    let answer (t : State) (w : Word) (why num : Nat) : Prop := t.saveReqs = s.saveReqs.erase q ∧ t.saveAnswers = s.saveAnswers ++ [(q, w)] ∧
      t.mem = s.mem ∧ t.banks = s.banks ∧ t.reqs = s.reqs ∧ w.extractLsb' 0 16 = BitVec.ofNat 16 num ∧ w.getLsbD 63 = decide (why ≠ 0) ∧
      w.extractLsb' 56 7 = BitVec.ofNat 7 why ∧ w.extractLsb' 48 8 = 0 ∧
      w.extractLsb' 16 32 = BitVec.ofNat 32 (((t.saggar r.saggar).res.share - (t.saggar r.saggar).charged) / 16)
    (∀ base len, s.saveReqs[k]? = some q → r.op = .saveset base len →
      let why := s.setReason r.saggar l.image base len
      ∃ t w, exec .saveDeclarationAnswer s = .next t ∧
        (why = 0 → ∃ m, (s.saggar r.saggar).freeDecl l.image = some m ∧ answer t w 0 m ∧
          decls t = decls s ++ [{ image := l.image, num := m, base := base, len := len, byImage := false }]) ∧
        (why ≠ 0 → answer t w why 0 ∧ decls t = decls s)) ∧
    (∀ m, s.saveReqs[k]? = some q → r.op = .savedrop m → m < 256 →
      let why := s.dropReason r.saggar l.image m
      ∃ t w, exec .saveDeclarationAnswer s = .next t ∧ answer t w why (if why = 0 then m else 0) ∧
        decls t = if why = 0 then (decls s).filter fun d => !(d.image = l.image && d.num = m) else decls s) ∧
    (∀ w, n ≤ k → s.saveAnswers[k - n]? = some (q, w) →
      ∃ t, exec .saveDeclarationAnswer s = .next t ∧ t.saveAnswers = s.saveAnswers.erase (q, w) ∧ t.saveReqs = s.saveReqs ∧ t.req? q = none ∧
        t.mem = s.mem ∧ decls t = decls s ∧ (t.bank r.site).reg g = w)

/-- R363, R369 to R373, R377, R380, R393 to R396: the power-fail trap slows every tile to 250 MHz, freezes the regions of the saggars without a
notify binding and sends a token on each binding; the end of grace freezes the rest; at the end of run-out the records of the save store
are written and the power is gone; a start keeps only the store and counts its boot, everything else as after a reset, saggars 1 to 15
free and saggar 0 made by it, as the model reads R393 (log entry 67); the self-tests end in full service with their
disable map; a hot package lowers its clocks, and above 55 °C every region freezes. -/
def Obligations.PowerSequence : Prop :=
  ∀ (s : State) (supply sigOk : Bool) (torn : List Nat) (f : SelfTest) (inlet power : Nat),
    let frozen (t : State) (l : Launch) : Prop := (t.launch? l.num).map (·.freeze) = some true
    let runs (l : Launch) : Prop := l.phase = .placed ∨ l.phase = .running
    (s.service ≠ .off → s.holdUp = .none →
      ∃ t, exec (.powerFailTrap supply) s = .next t ∧ (∀ n ∈ t.tiles, n.clock = 1) ∧ t.supplyTrap = supply ∧ t.mem = s.mem ∧
        (s.notifies = [] → t.holdUp = .runOut ∧ ∀ l ∈ s.launches, runs l → l.saggar < 16 → frozen t l) ∧
        (∀ x o, s.notifies = [(x, o)] → (∀ l ∈ s.launches, l.trav = none) → t.holdUp = .grace [s.saggarOf x] ∧
          ((t.bank x).out o).said = ((s.bank x).out o).said ++ [{ cls := 4, payload := BitVec.ofNat 64 (s.store.gen + 1) }] ∧
          ∀ l ∈ s.launches, runs l → l.saggar < 16 → l.saggar ≠ s.saggarOf x → frozen t l)) ∧
    (∀ gs, s.holdUp = .grace gs → ∃ t, exec .graceEnd s = .next t ∧ t.holdUp = .runOut ∧ t.mem = s.mem ∧
      ∀ l ∈ s.launches, runs l → l.saggar ∈ gs → frozen t l) ∧
    (s.holdUp = .runOut → ∃ t, exec (.runOutEnd {}) s = .next t ∧ t.holdUp = .ended ∧ t.service = .off ∧ t.mem = [] ∧ t.launches = [] ∧
      t.store.boots = s.store.boots ∧ t.store.gen = s.store.gen + 1 ∧ (∀ r ∈ t.store.recs, r.gen = s.store.gen + 1) ∧
      (s.reqs = [] → ∀ g d i, g < 16 → (s.saggar g).st = .created ∨ (s.saggar g).st = .loaded → d ∈ (s.saggar g).decls → i ∈ (s.saggar g).images → i.hash = d.image →
        Whole s (hbmKey g d.base) d.len → ∃ r ∈ t.store.recs, r.saggar = g ∧ r.image = d.image ∧ r.num = d.num ∧ r.base = d.base ∧ r.whole = true ∧
          r.bytes = (List.range d.len).map fun i => s.byte (hbmKey g d.base + i))) ∧
    (s.holdUp = .none ∨ s.holdUp = .ended → ∃ t, exec (.powerOnStart sigOk torn) s = .next t ∧ t.service = (if sigOk then .bisque else .refused) ∧
      t.store.boots = s.store.boots + 1 ∧ t.store.gen = s.store.gen ∧ t.mem = [] ∧
      (Memory.wf s.store.cells = true → t.store.read 0 16 = leBytes 8 t.store.boots ++ leBytes 8 t.store.gen) ∧
      (∀ r ∈ t.store.recs, (∃ o ∈ s.store.recs, r = { o with whole := r.whole }) ∧ ofLeBytes (t.store.read (r.off + 8) 8) = t.store.gen ∧
        (r.whole = true ↔ let len := ofLeBytes (t.store.read r.off 8) % 2 ^ 32
          192 ≤ len ∧ (t.store.read (r.off + len - 64) 64).take 48 = sha384 (t.store.read r.off (len - 64)) ∧
          ofLeBytes (((t.store.read (r.off + len - 64) 64).drop 48).take 8) = t.store.gen)) ∧
      t.banks = [] ∧ t.launches = [] ∧ (t.saggar 0).st = .loaded ∧ ∀ g, 1 ≤ g → g < 16 → t.saggar g = {}) ∧
    (s.service = .bisque → s.holdUp = .none → ∃ t, exec (.selfTestEnd f) s = .next t ∧ t.service = .full ∧ (∀ n ∈ t.tiles, n.clock = 16) ∧
      t.tilesOff = f.tilesOff ∧ t.storeOff = f.storeOff ∧ t.stashOff = f.stashOff ∧ t.channelsOff = f.channelsOff ∧ t.portsOff = f.portsOff ∧
      t.banks = s.banks ∧ t.mem = s.mem) ∧
    (s.service ≠ .off → s.holdUp = .none → ∃ t, exec (.thermalThrottle inlet power) s = .next t ∧ t.tiles.length = s.tiles.length ∧ t.banks = s.banks ∧
      t.rest = s.rest ∧ ∀ n, n < s.tiles.length → (t.tile n).clock =
        if 450 < inlet ∨ 3600 < power then max 4 ((s.tile n).clock - 1) else min (if s.service = .full then 16 else 4) ((s.tile n).clock + 1)) ∧
    (550 < inlet → s.holdUp = .none → ∃ t, exec (.overtempFreeze inlet) s = .next t ∧ t.mem = s.mem ∧
      ∀ l ∈ s.launches, 0 ∉ l.causes → runs l → l.tiles.any (·.slot.isSome) = true → frozen t l ∧
        (t.launch? l.num).map (fun o => o.causes.all resumable) = some false)

/-- R264, R297, R329, R338, R344, R360, R390: a launch command puts a launch of a loaded image, or the resume launch of a held region, at
the end of a queue; discard ends a frozen or held region; continue lets a region go on whose causes are all resumable. -/
def Obligations.HostLaunches : Prop :=
  ∀ (s : State) (c : CmdHead) (a : LaunchArgs), Accepted s c 2 →
    (∀ i, s.image? c.saggar a.image = some i → a.region < i.regions → s.launchFits a (i.plat a.region) = true →
      ∃ t, exec (.launchNew c a) s = .next t ∧ Told s t c 2 0 [BitVec.ofNat 64 (s.nextLaunch % 2 ^ 16)] [] ∧ Queued s t a.queue s.nextLaunch ∧
        t.nextLaunch = s.nextLaunch + 1 ∧ t.mem = s.mem ∧ (t.saggar c.saggar).ctrIn = c.seq ∧
        ∃ l, t.launches = s.launches ++ [l] ∧ l.num = s.nextLaunch ∧ l.saggar = c.saggar ∧ l.image = a.image ∧ l.region = a.region ∧
          l.queue = a.queue ∧ l.prio = a.prio ∧ l.floating = a.floating ∧ (a.floating = false → l.origin = a.origin) ∧ l.endTo = .host ∧ l.phase = .queued) ∧
    (∀ v l, s.heldRegion c.saggar a.handle = some (v, l) → v.queued = false → s.launchFits a (s.platOf l) = true →
      ∃ t, exec (.launchResume c a) s = .next t ∧ Told s t c 2 0 [BitVec.ofNat 64 l.no] [] ∧ Queued s t a.queue l.num ∧ t.mem = s.mem ∧
        (t.launch? l.num).map (fun o => (o.phase, o.queue, o.prio, o.origin, o.floating)) = some (.queued, a.queue, a.prio, a.origin, a.floating)) ∧
    (∀ l, s.named c.saggar a.handle s.discardable = [l] →
      ∃ t, exec (.launchDiscard c a) s = .next t ∧ Told s t c 2 0 [BitVec.ofNat 64 a.handle] [] ∧ t.launch? l.num = none) ∧
    (∀ l, s.named c.saggar a.handle (·.freeze) = [l] → s.launch? l.num = some l → l.causes.all resumable = true → (∀ x ∈ s.banksOf l.num, (s.bank x).trapped = []) →
      ∃ t, exec (.launchContinue c a) s = .next t ∧ Told s t c 2 0 [BitVec.ofNat 64 a.handle] [] ∧ t.mem = s.mem ∧
        (t.launch? l.num).map (fun o => (o.freeze, o.causes)) = some (false, []) ∧ (∀ x ∈ s.banksOf l.num, (t.bank x).halted = false) ∧
        (∀ e ∈ l.tiles, ∀ k, e.slot = some k → (t.slot e.tile k).halt = .go) ∧ ∀ r ∈ t.reqs, r.launch = l.num → r.faulted = false)

/-- R89, R96, R275, R305, R314, R352, R390, R391: the last chunk of a load that passes every check loads its image: its pages are mapped, its data
written, its hash extends the history, once the plane-store layers that it writes are awake; an earlier chunk is kept; an image that no launch uses can be unloaded; a readout returns the
bytes of the saggar's memory with a map of the words that bear a tag, whatever other readouts wait for; one that meets a bank under
refresh waits, and is counted. Which status a refused load has, 1 for a seventeenth image, for a second of the same hash and for a bad
signature before any other check, is the model's reading (log entry 73). -/
def Obligations.HostImages : Prop :=
  ∀ (s : State) (c : CmdHead), s.memOk →
    let sg := s.saggar c.saggar
    let other (t : State) : Prop := ∀ g, g ≠ c.saggar → t.saggar g = s.saggar g
    (∀ (a : LoadArgs), let b := sg.load.getD { total := a.total, got := [], restore := none, maps := [] }
      let got := b.got ++ a.chunk
      Accepted s c 1 → a.offset = b.got.length → a.total = b.total → got.length ≤ b.total →
      (16 ≤ sg.images.length → ∃ t, exec (.loadImage c a) s = .next t ∧ Told s t c 1 1 [] [] ∧ t.mem = s.mem ∧ other t ∧ (t.saggar c.saggar).images = sg.images) ∧
      (a.last = false → sg.images.length < 16 → ∃ t, exec (.loadImage c a) s = .next t ∧ Told s t c 1 0 [] [] ∧ t.mem = s.mem ∧ other t ∧
        (t.saggar c.saggar).load = some { total := b.total, got := got, restore := a.restore.or b.restore, maps := b.maps ++ a.maps }) ∧
      (a.last = true → got.length = b.total → a.restore.or b.restore = none → s.deferred = [] → NoBarrier s c.saggar →
        let i : Image := { hash := sha384 (got.take (got.length - 96)), bytes := got }
        let signed := Config.ecdsaOk Config.imageKey i.hash (i.bytes.drop (i.bytes.length - 96))
        let refused (t : State) (status : Nat) : Prop := Told s t c 1 status [] [] ∧ t.mem = s.mem ∧ (t.saggar c.saggar).images = sg.images
        (i.wellFormed = false → ∃ t, exec (.loadImage c a) s = .next t ∧ refused t 1) ∧
        (i.wellFormed = true → (∀ o ∈ sg.images, o.hash ≠ i.hash) → sg.images.length < 16 →
          (sg.res.planes < sg.planesUsed + i.planes → ∃ t, exec (.loadImage c a) s = .next t ∧ refused t (if signed then 3 else 1)) ∧
          (∀ ps, sg.planesUsed + i.planes ≤ sg.res.planes → sg.pagesAfter i (b.maps ++ a.maps) = some ps →
            (sg.res.pages < pageCount ps → ∃ t, exec (.loadImage c a) s = .next t ∧ refused t (if signed then 3 else 1)) ∧
            (pageCount ps ≤ sg.res.pages → inRw ps sg.res.ovBase sg.res.ovSize = true → sg.admits i = true →
              (∀ n ∈ s.planeTiles, 1 ≤ i.planes → (s.tile n).planeStore.off = true → ∃ t, exec (.loadImage c a) s = .next t ∧
                if signed then t.mem = s.mem ∧ t.answers = s.answers ∧ other t ∧ (t.saggar c.saggar).images = sg.images ∧
                  (t.saggar c.saggar).load = some { total := b.total, got := got, restore := none, maps := b.maps ++ a.maps, ending := some c } ∧
                  (t.tile n).planeStore.waking = true
                else refused t 1) ∧
              ((∀ n ∈ s.planeTiles, (s.tile n).planeStore.off = false) →
              ∃ t, exec (.loadImage c a) s = .next t ∧ if signed then Told s t c 1 0 [] i.hash ∧ other t ∧
                (t.saggar c.saggar).images = sg.images ++ [i] ∧ (t.saggar c.saggar).st = .loaded ∧ (t.saggar c.saggar).pages = ps ∧
                (t.saggar c.saggar).history = sha384 (sg.history ++ i.hash) ∧
                (let d := i.segment 0
                 i.segments = 1 → (∀ n, n < d.2.length → t.attr? c.saggar (d.1 + n) ≠ some .once) ∨
                    (d.1 % 8 = 0 ∧ d.2.length % 8 = 0 ∧ ∀ n, n < d.2.length → t.attr? c.saggar (d.1 + n) = some .once ∧ setMem ((hbmKey c.saggar d.1 + n) / 8) s.full = false) →
                  t.bytes (hbmKey c.saggar (i.segment 0).1) (i.segment 0).2.length = (i.segment 0).2)
              else refused t 1)))))) ∧
    (∀ (b : LoadBuf) (n : Nat) (ps : List Page), let i : Image := { hash := sha384 (b.got.take (b.got.length - 96)), bytes := b.got }
      1 ≤ c.saggar → c.saggar < 16 → s.endingLoads = [(c, b)] → b.restore = none → (s.tile n).planeStore.waking = true → s.holdUp = .none →
      (∀ m ∈ s.planeTiles, m ≠ n → (s.tile m).planeStore.off = false) → i.wellFormed = true → (∀ o ∈ sg.images, o.hash ≠ i.hash) →
      sg.images.length < 16 → sg.planesUsed + i.planes ≤ sg.res.planes → sg.pagesAfter i b.maps = some ps → pageCount ps ≤ sg.res.pages →
      inRw ps sg.res.ovBase sg.res.ovSize = true → sg.admits i = true → s.deferred = [] → NoBarrier s c.saggar →
      ∃ t, exec (.layerWakeDone n .planeStore) s = .next t ∧ other t ∧ (t.saggar c.saggar).load = none ∧
        if Config.ecdsaOk Config.imageKey i.hash (i.bytes.drop (i.bytes.length - 96)) = true then
          Told s t c 1 0 [] i.hash ∧ (t.saggar c.saggar).images = sg.images ++ [i] ∧ (t.saggar c.saggar).pages = ps
        else Told s t c 1 1 [] [] ∧ (t.saggar c.saggar).images = sg.images) ∧
    (∀ hash i, Accepted s c 8 → s.image? c.saggar hash = some i → (∀ l ∈ s.launches, ¬(l.saggar = c.saggar ∧ l.image = hash)) →
      ∃ t, exec (.unloadImage c hash) s = .next t ∧ Told s t c 8 0 [] [] ∧ t.mem = s.mem ∧ other t ∧ (t.saggar c.saggar).images = sg.images.filter (·.hash ≠ hash) ∧
        (t.saggar c.saggar).decls = sg.decls.filter (·.image ≠ hash)) ∧
    (∀ a n, Accepted s c 7 → a % 8 = 0 → n % 8 = 0 → 8 ≤ n → n ≤ 65536 → s.unmapped c.saggar a n = none →
      ∃ t, exec (.readout c a n {}) s = .next t ∧ t.mem = s.mem ∧ other t ∧
        ((∀ e ∈ addressesOf [(a, n)], s.bankOf c.saggar e ∉ s.refreshing ∧ ∀ q, (s.bankOf c.saggar e, q) ∉ s.delayed) →
          Whole s (hbmKey c.saggar a) n → t.readouts = s.readouts ∧
          Told s t c 7 0 [] (((List.range n).map fun i => s.byte (hbmKey c.saggar a + i)) ++ List.replicate ((n / 8 + 7) / 8) 0)) ∧
        ((∃ e ∈ addressesOf [(a, n)], s.bankOf c.saggar e ∈ s.refreshing) →
          (∃ r : Readout, r.cmd = c ∧ r.a = a ∧ r.len = n ∧ t.readouts = s.readouts ++ [r]) ∧ t.answers = s.answers ∧
          (t.saggar c.saggar).backoff = sg.backoff + 1))

/-- R302 to R306, R313, R314, R361, R389, R397: a key exchange creates its saggar in the next generation with the resources that it asks for, or gives
a saggar of the same tenant new keys; a kill ends every launch of its saggar, and the scrub leaves its memory zero and its number
free; status and attest answer and change nothing else. The status codes (log entry 73), the one line base of a partition and status 3
where no run of lines is free (log entry 89), the order of the status words (log entry 75), and the free key agreement, its keys drawn
with an empty info (log entry 69), are the model's choices. -/
def Obligations.HostSaggars : Prop :=
  ∀ (s : State) (c : CmdHead),
    let g := c.saggar
    let sg := s.saggar g
    let kept (t : State) : Prop := t.mem = s.mem ∧ t.banks = s.banks ∧ t.launches = s.launches ∧ ∀ n, n ≠ g → t.saggar n = s.saggar n
    (∀ a : KeyArgs, Accepted s c 5 →
      let key (info : String) : List Byte := hkdf (sha384 (a.eph ++ Config.datumPublic s.exchanges)) (Config.sharedSecret s.exchanges a.eph) (infoBytes info) 32
      let keys := some (key "oxb host to device", key "oxb device to host")
      (sg.st = .free → Resources.ok a.res = true → s.holds a.res = true → s.lineBaseFor a.res.lines = none → ∃ t, exec (.keyExchange c a) s = .next t ∧ kept t ∧
        Told s t c 5 (if signedBy a g (sg.gen + 1).toNat then 3 else 1) [] [] ∧ (t.saggar g).st = .free ∧ t.exchanges = s.exchanges) ∧
      (∀ base, sg.st = .free → Resources.ok a.res = true → s.holds a.res = true → s.lineBaseFor a.res.lines = some base → ∃ t, exec (.keyExchange c a) s = .next t ∧ kept t ∧
        if signedBy a g (sg.gen + 1).toNat then (∀ d, d < 8 → alGet (d, g) t.keySlots = some (Config.memoryKey g s.exchanges)) ∧ (t.saggar g).lineBase = base ∧ (∃ bytes, Told s t c 5 0 [] bytes) ∧ (t.saggar g).st = .created ∧ (t.saggar g).gen = sg.gen + 1 ∧
          (t.saggar g).tenant = a.tenant ∧ (t.saggar g).res = a.res ∧ (t.saggar g).keys = keys ∧ t.exchanges = s.exchanges + 1 ∧
          (t.saggar g).ctrIn = 0 ∧ (t.saggar g).ctrOut = 0 ∧ (t.saggar g).history = List.replicate 48 0 ∧ (t.saggar g).pages = []
        else Told s t c 5 1 [] [] ∧ (t.saggar g).st = .free ∧ t.exchanges = s.exchanges) ∧
      (sg.st ≠ .free → a.tenant = sg.tenant → ∃ t, exec (.keyExchange c a) s = .next t ∧ kept t ∧
        if signedBy a g sg.gen.toNat then (∃ bytes, Told s t c 5 0 [] bytes) ∧ t.saggar g = { sg with keys := keys, ctrIn := 0, ctrOut := 0 }
        else Told s t c 5 1 [] [] ∧ (t.saggar g).keys = sg.keys ∧ (t.saggar g).ctrIn = sg.ctrIn)) ∧
    (∀ nonce, Accepted s c 4 → ∃ t, exec (.attest c nonce) s = .next t ∧ kept t ∧ Told s t c 4 0 [] (s.report g nonce) ∧
      ((s.report g nonce).drop 184).take 48 = fitBytes 48 nonce ∧ ((s.report g nonce).drop 1000).take 48 = fitBytes 48 sg.history ∧
      ((s.report g nonce).drop 1048).take 96 = fitBytes 96 (Config.ecdsaSign attestationKey (sha384 ((s.report g nonce).take 1048)))) ∧
    (Accepted s c 3 →
      (∃ t pre post, exec (.statusSaggar c) s = .next t ∧ kept t ∧
        Told s t c 3 0 (pre ++ [sg.overflow.setWidth 64, BitVec.ofNat 64 sg.drops, BitVec.ofNat 64 sg.recFaults, sg.backoff.setWidth 64] ++ post) (s.restartBytes g)) ∧
      (∀ first, s.store.device = none → ∃ t, exec (.statusLog c first) s = .next t ∧ kept t ∧
        Told s t c 3 0 ((sg.log.filter fun r => (r.seq + 2 ^ 32 - first % 2 ^ 32) % 2 ^ 32 < 2 ^ 31).flatMap fun r => BitVec.ofNat 64 r.seq :: r.words) []) ∧
      (∃ t, exec (.statusMgmt c) s = .next t ∧ kept t ∧ Told s t c 3 0 (mgmtOffsets.map s.mgmtReg) [])) ∧
    (Accepted s c 6 → ∃ t, exec (.kill c) s = .next t ∧ (t.saggar g).st = .killing ∧ (∀ l ∈ t.launches, l.saggar ≠ g) ∧ (∀ r ∈ t.reqs, r.saggar ≠ g) ∧
      (∀ o ∈ t.cohorts, o.saggar ≠ g) ∧ (t.saggar g).saved = [] ∧ (t.saggar g).decls = [] ∧ ∀ e ∈ t.keySlots, e.1.2 ≠ g) ∧
    (sg.st = .killing → s.holdUp = .none → g < 16 → ∃ t, exec (.killScrubComplete g) s = .next t ∧ t.saggar g = { gen := sg.gen } ∧
      Told s t c 6 0 [] [] ∧ (∀ a, t.byte (hbmKey g a) = 0) ∧ (∀ n off, off < sg.res.lines * 2048 → sg.lineBase * 2048 + off < 2 ^ 23 → t.byte (partKey s g n off) = 0) ∧
      (s.memOk → ∀ k, s.ownKey g k = false → t.byte k = s.byte k))

/-! ### Statements of several parts, the encodings, the step, and the memory's invariant -/

/-- R52, R53, R34: PLOG, CMP and TST write one predicate, and NOP nothing, beside their guard word's own changes. -/
def Obligations.PredicatesAndNop : Prop := PredicateResults ∧ NopGuardWord

/-- R36, R51, R56, R60: MUL, MULH and MAD leave their result pending for three rounds; CLZ counts leading zero bits. -/
def Obligations.MultipliesAndZeros : Prop := MultiplyResults ∧ LeadingZeros

/-- R57, R121, R359 to R361, R365, R397: DIV by a divisor that is not zero leaves its quotient pending, −2^(n−1) by −1 giving −2^(n−1);
DIV by zero, TRAP and the misuse of the management page are taken as precise exceptions, with none of their rule's effects (log
entries 9, 24, 25 and 79). -/
def Obligations.DivisionsAndTraps : Prop := DivideResult ∧ ExceptionsTaken

/-- R33, R35, R36, R39, R194, R351: a rule that lacks a slot or a credit aborts, one that is held or lacks a port waits, one that
meets an owned tile traps, and one whose source head bears an error tag faults (in that order, log entries 23 and 82). -/
def Obligations.RulesKeptBack : Prop := SendAborts ∧ HeldRulesWait ∧ BusyAndPoison

/-- R282, R285: MERGE moves the head that its selector names; GATE sets an output's gate and credit. -/
def Obligations.MergesAndGates : Prop := MergeMoves ∧ GatesSet

/-- R47, R67: RDSPEC reads and WRSPEC writes the special register that it names. -/
def Obligations.SpecialRegisters : Prop := SpecialRead ∧ SpecialWritten

/-- R287, R288: LOOPOPEN opens a nest on its output; LOOPDONE releases it. -/
def Obligations.LoopNests : Prop := NestOpens ∧ NestReleased

/-- R206, R207: the scalar instructions that pick, negate, classify or compare. -/
def Obligations.FloatPicks : Prop := FloatBits ∧ FloatCompare

/-- R209 to R211: the lane instructions that pick, sum, add products or name lanes. -/
def Obligations.LaneSelections : Prop := LanePicks ∧ LaneReductions

/-- R159, R165, R204, R205, R214, R218: sums and products are exact before they are rounded, an encoding rounds to itself, and the
functions, the fit codes and SEAL have their values. -/
def Obligations.RoundingIsExact : Prop := ExactArithmetic ∧ EncodingsAreExact ∧ FunctionValues

/-- R76, R79, R100, R118 to R121, R123 to R140, R147, R148, R342: accesses, commands and fences are issued. -/
def Obligations.AccessesIssued : Prop := RequestsIssued ∧ FenceIssued

/-- R144, R219, R220, R223, R253: row commands and collectives are issued. -/
def Obligations.RowsAndCollectivesIssued : Prop := RowsIssued ∧ CollectivesIssued

/-- R146, R294 to R296: the members of a cohort join, arrive, advance and leave. -/
def Obligations.CohortsKept : Prop := CohortMembers ∧ CohortJoined

/-- R264, R290 to R292, R297, R344: successors are named, and launches queued. -/
def Obligations.SuccessorsAndLaunches : Prop := SuccessorNamed ∧ LaunchesQueued

/-- What accesses leave when they are performed, and what the tables of a saggar hold after them. -/
def Obligations.AccessesPerformed : Prop := AccessesDone ∧ TablesKept

/-- R113, R114: what a post and a store do to a barrier. -/
def Obligations.BarrierPosts : Prop := BarrierPosted ∧ BarriersCount

/-- Updates, streams, walks, and the records of the stash sent back. -/
def Obligations.UpdatesAndStreams : Prop := UpdatesDone ∧ RecordsReturned

/-- Copies, refills, row commands, the stash and the key/value commands performed. -/
def Obligations.EnginesPerform : Prop := EnginesMove ∧ KeyValueApplied ∧ RowsBack

/-- R33, R36, R50, R256, R261, R268, R298, R358: a tile's cycle opens a round, and what a cycle ends (log entries 3, 60 and 81). -/
def Obligations.CyclesRun : Prop := RoundsOpen ∧ CountersSettle ∧ CyclesEnd

/-- R320 to R329, R338, R339, R342, R352: a traverse saves its region, and a restore sets it again (log entries 59, 61 and 62). -/
def Obligations.SavedRegions : Prop := TraversesRun ∧ RegionsRestored

/-- R13, R315 to R318, R376, R384, R387, R388, R397: rows, refreshes, packets, links, registers and declarations. -/
def Obligations.PackageServices : Prop := MemoryAndPorts ∧ DeclarationsAnswered

/-- R46, R168: a cell's LFSR starts as the seed of its saggar XOR 256 times its relative tile number plus its cell number, or as
1 where that is zero; the package tile of the region's origin plays no part; and no step makes it zero. -/
def Obligations.LfsrSeeded : Prop :=
  (∀ (s : State) (j n k p : Nat) (l : Launch) (e : LTile) (i : Image), s.launch? j = some l → l.at n = some e → e.slot = some k → l.phase = .placed →
    s.planeOn l e.rtile = some (i, p) → l.freeze = false → (s.slot n k).phase = .loaded → s.savedOf l = none → (∀ q, l.pred ≠ some (true, q)) →
    s.allLoaded l = true →
    ∃ t, exec (.planeActivate j n) s = .next t ∧ ∀ c ∈ bodyCells (i.body p),
      let x : BitVec 32 := BitVec.ofNat 32 (s.saggar l.saggar).res.seed ^^^ BitVec.ofNat 32 (e.rtile * 256 + c)
      (t.bank { tile := n, slot := k, cell := c }).lfsr = if x = 0 then 1 else x) ∧
  ∀ x : BitVec 32, x ≠ 0 → lfsrNext x ≠ 0

/-- Words written out from the encodings of R41, R61, R119, R199, R226, R278, R344 and R366: each decodes to its instruction; the
zero word is no instruction (R28), nor is one with an opcode that no table has (R43). -/
def Obligations.DecodeWords : Prop :=
  (let test (ch : BitVec 5) (cls : BitVec 3) : Option ChanTest := some { ch := ch, cls := some cls };
    decode 0x02020000000002001030009E60008008 = some (.add { pcare := 2, pval := 2, pclr := 2, reuse := 4 } .n64 (.g 0) (.g 0) .imm 8) ∧
    decode 0x02008000000200809139808260000000 =
      some (.st { pcare := 2, pset := 2, cta := test 0 0, deqA := true } .n64 (.g 0) (.head .A) none) ∧
    decode 0x0100000000010000990A009E60200000 = some (.stream { pcare := 1, pset := 1 } none 0 (.g 0) .imm 0x200) ∧
    decode 0x09018422090800007029A09A16440080 = some (.contract
      { pcare := 9, pval := 1, cta := test 1 0, ctb := test 2 0, sbw := some 1, pset := 8, sbset := some 0 }
      .bf16 (.head .A) .zero (.head .B) 1 .j false true 0 false true 0) ∧
    decode 0x01000000000100002A50269A61000000 = some (.limm { pcare := 1, pset := 1 } true 1 (.g 0) 0x1000) ∧
    decode 0x00000000000000004010420E60000000 = some (.fadd {} .f32 (.g 1) (.g 2) (.g 3) .rne false) ∧
    decode 0x0101804000000080C20A209A60200000 =
      some (.fork { pcare := 1, pval := 1, cta := some { ch := 0, cls := none }, deqA := true } 0 .A 2) ∧
    decode 0x0000800000000080E50A448260022000 =
      some (.resume { cta := test 0 0, deqA := true } (some 1) (.g 4) (.head .A) 4 1 false) ∧
    decode 0x00008C0000000000E109A09A64000000 = some (.chkerr { cta := test 3 0 } .A 2 false)) ∧
  decode 0 = none ∧ decode 0x00000000000000000609A69A60000000 = none

/-- R27, R28, R40 to R43: every well-formed rule instruction is what its own word decodes to, with every operand at every value
that its encoding admits. -/
def Obligations.DecodeEncode : Prop :=
  ∀ i : Instr, i.op?.isSome = true → i.wellFormed = true → encode i ≠ 0 ∧ decode (encode i) = some i

/-- R27, R32, R33, and the model's form of a step (log entry 3): while firings of a round remain, a step runs the instruction that
the word of the first of them decodes to, and ends the round with the last; with none left, it runs the next move of the agenda,
when that is well formed and no rule instruction. -/
def Obligations.StepRunsDecoded : Prop :=
  ∀ s : State,
    (∀ (f : Firing) (rest : List Firing) (i : Instr), s.round.firing = f :: rest →
      (s.bank f.site).rules.getD f.rule 0 ≠ 0 → decode ((s.bank f.site).rules.getD f.rule 0) = some i →
      (∀ t, exec i s = .next t → step s = .next t.finishRound) ∧ (∀ e, exec i s = .fault e → step s = .fault e) ∧
      (∀ r, exec i s = .refused r → step s = .refused r)) ∧
    (∀ (i : Instr) (more : List Instr), s.round.firing = [] → s.agenda = i :: more → i.op? = none → i.wellFormed = true →
      step s = exec i { s with tick := s.tick + 1, agenda := more })

/-- The model's invariant of memory (log entry 2): every step keeps its canonical form, addresses strictly rising and no entry
equal to what an unlisted byte reads as. -/
def Obligations.MemoryCanonical : Prop := ∀ s t : State, s.memOk → step s = .next t → t.memOk

/-- R45, R265, R317, R380, R393: after reset memory lists nothing, in canonical form; no launch, request or bank is there, the
package has not started, COLTHR is 12 and RMTHR 4,096, and the save store has no generation. That memory lists nothing (log entry 2), and
that saggars are free, banks empty and the boot count of the save store 0 (log entry 6), are the model's values. -/
def Obligations.ResetState : Prop :=
  State.reset.memOk ∧ State.reset.mem = [] ∧ State.reset.launches = [] ∧ State.reset.reqs = [] ∧ State.reset.banks = [] ∧
  State.reset.service = .off ∧ State.reset.holdUp = .none ∧ State.reset.round.firing = [] ∧ State.reset.store = {} ∧ State.reset.colthr = 12 ∧ State.reset.rmthr = 4096 ∧
  ∀ g, g < 16 → (State.reset.saggar g).st = .free
end

