-- ==== Sys2Proof/Laws/State.lean ====
section
/-! SUPPORT. One lemma a field for each update of the state, and what a read of a part sees after a write of a part. -/

namespace Sys2Proof.Machine

/-! ### Lists and association lists -/

theorem getElem?_setAt {α : Type} (d : α) (l : List α) (n m : Nat) (v : α) :
    ((setAt d l n v)[m]?).getD d = if m = n then v else (l[m]?).getD d := by
  induction n generalizing l m with
  | zero => cases l <;> cases m <;> simp [setAt]
  | succ n ih =>
    cases l with
    | nil => cases m with
      | zero => simp [setAt]
      | succ m => have h := ih [] m; simp only [List.getElem?_nil, Option.getD_none] at h; simp [setAt, h]
    | cons a r => cases m with
      | zero => simp [setAt]
      | succ m => simp [setAt, ih r m]

theorem getD_setAt {α : Type} (d : α) (l : List α) (n m : Nat) (v : α) :
    (setAt d l n v).getD m d = if m = n then v else l.getD m d := by
  simp only [List.getD_eq_getElem?_getD, getElem?_setAt]

theorem length_setAt {α : Type} (d : α) (l : List α) (n : Nat) (v : α) (h : n < l.length) :
    (setAt d l n v).length = l.length := by
  induction l generalizing n with
  | nil => simp at h
  | cons a l ih => cases n with
    | zero => simp [setAt]
    | succ n => simp only [List.length_cons, Nat.add_lt_add_iff_right] at h; simp [setAt, ih n h]

theorem alGet_alPut {α β : Type} [DecidableEq α] (k k' : α) (v : β) (l : List (α × β)) :
    alGet k' (alPut k v l) = if k' = k then some v else alGet k' l := by
  induction l with
  | nil => simp [alPut, alGet]
  | cons e l ih =>
    obtain ⟨a, b⟩ := e
    simp only [alPut]
    by_cases h : k = a <;> by_cases h' : k' = a <;> by_cases h'' : k' = k <;> simp_all [alGet]

/-! ### Fields -/

@[simp] theorem State.setBank_agenda (s : State) (x : Site) (b : Bank) : (s.setBank x b).agenda = s.agenda := rfl
@[simp] theorem State.setBank_tick (s : State) (x : Site) (b : Bank) : (s.setBank x b).tick = s.tick := rfl
@[simp] theorem State.setBank_nextId (s : State) (x : Site) (b : Bank) : (s.setBank x b).nextId = s.nextId := rfl
@[simp] theorem State.setBank_round (s : State) (x : Site) (b : Bank) : (s.setBank x b).round = s.round := rfl
@[simp] theorem State.setBank_tiles (s : State) (x : Site) (b : Bank) : (s.setBank x b).tiles = s.tiles := rfl
@[simp] theorem State.setBank_mem (s : State) (x : Site) (b : Bank) : (s.setBank x b).mem = s.mem := rfl
@[simp] theorem State.setBank_full (s : State) (x : Site) (b : Bank) : (s.setBank x b).full = s.full := rfl
@[simp] theorem State.setBank_poison (s : State) (x : Site) (b : Bank) : (s.setBank x b).poison = s.poison := rfl
@[simp] theorem State.setBank_granules (s : State) (x : Site) (b : Bank) : (s.setBank x b).granules = s.granules := rfl
@[simp] theorem State.setBank_tags (s : State) (x : Site) (b : Bank) : (s.setBank x b).tags = s.tags := rfl
@[simp] theorem State.setBank_side (s : State) (x : Site) (b : Bank) : (s.setBank x b).side = s.side := rfl
@[simp] theorem State.setBank_sideBad (s : State) (x : Site) (b : Bank) : (s.setBank x b).sideBad = s.sideBad := rfl
@[simp] theorem State.setBank_stashed (s : State) (x : Site) (b : Bank) : (s.setBank x b).stashed = s.stashed := rfl
@[simp] theorem State.setBank_lags (s : State) (x : Site) (b : Bank) : (s.setBank x b).lags = s.lags := rfl
@[simp] theorem State.setBank_eccCount (s : State) (x : Site) (b : Bank) : (s.setBank x b).eccCount = s.eccCount := rfl
@[simp] theorem State.setBank_hopCount (s : State) (x : Site) (b : Bank) : (s.setBank x b).hopCount = s.hopCount := rfl
@[simp] theorem State.setBank_reqs (s : State) (x : Site) (b : Bank) : (s.setBank x b).reqs = s.reqs := rfl
@[simp] theorem State.setBank_deferred (s : State) (x : Site) (b : Bank) : (s.setBank x b).deferred = s.deferred := rfl
@[simp] theorem State.setBank_waiting (s : State) (x : Site) (b : Bank) : (s.setBank x b).waiting = s.waiting := rfl
@[simp] theorem State.setBank_owners (s : State) (x : Site) (b : Bank) : (s.setBank x b).owners = s.owners := rfl
@[simp] theorem State.setBank_engineTlb (s : State) (x : Site) (b : Bank) : (s.setBank x b).engineTlb = s.engineTlb := rfl
@[simp] theorem State.setBank_walks (s : State) (x : Site) (b : Bank) : (s.setBank x b).walks = s.walks := rfl
@[simp] theorem State.setBank_walkWait (s : State) (x : Site) (b : Bank) : (s.setBank x b).walkWait = s.walkWait := rfl
@[simp] theorem State.setBank_saggars (s : State) (x : Site) (b : Bank) : (s.setBank x b).saggars = s.saggars := rfl
@[simp] theorem State.setBank_cohorts (s : State) (x : Site) (b : Bank) : (s.setBank x b).cohorts = s.cohorts := rfl
@[simp] theorem State.setBank_launches (s : State) (x : Site) (b : Bank) : (s.setBank x b).launches = s.launches := rfl
@[simp] theorem State.setBank_queues (s : State) (x : Site) (b : Bank) : (s.setBank x b).queues = s.queues := rfl
@[simp] theorem State.setBank_lastQ (s : State) (x : Site) (b : Bank) : (s.setBank x b).lastQ = s.lastQ := rfl
@[simp] theorem State.setBank_nextLaunch (s : State) (x : Site) (b : Bank) : (s.setBank x b).nextLaunch = s.nextLaunch := rfl
@[simp] theorem State.setBank_stamp (s : State) (x : Site) (b : Bank) : (s.setBank x b).stamp = s.stamp := rfl
@[simp] theorem State.setBank_saveReqs (s : State) (x : Site) (b : Bank) : (s.setBank x b).saveReqs = s.saveReqs := rfl
@[simp] theorem State.setBank_saveAnswers (s : State) (x : Site) (b : Bank) : (s.setBank x b).saveAnswers = s.saveAnswers := rfl
@[simp] theorem State.setBank_colthr (s : State) (x : Site) (b : Bank) : (s.setBank x b).colthr = s.colthr := rfl
@[simp] theorem State.setBank_rmthr (s : State) (x : Site) (b : Bank) : (s.setBank x b).rmthr = s.rmthr := rfl
@[simp] theorem State.setBank_alerts (s : State) (x : Site) (b : Bank) : (s.setBank x b).alerts = s.alerts := rfl
@[simp] theorem State.setBank_backoff (s : State) (x : Site) (b : Bank) : (s.setBank x b).backoff = s.backoff := rfl
@[simp] theorem State.setBank_rows (s : State) (x : Site) (b : Bank) : (s.setBank x b).rows = s.rows := rfl
@[simp] theorem State.setBank_refreshing (s : State) (x : Site) (b : Bank) : (s.setBank x b).refreshing = s.refreshing := rfl
@[simp] theorem State.setBank_delayed (s : State) (x : Site) (b : Bank) : (s.setBank x b).delayed = s.delayed := rfl
@[simp] theorem State.setBank_ports (s : State) (x : Site) (b : Bank) : (s.setBank x b).ports = s.ports := rfl
@[simp] theorem State.setBank_keySlots (s : State) (x : Site) (b : Bank) : (s.setBank x b).keySlots = s.keySlots := rfl
@[simp] theorem State.setBank_bound (s : State) (x : Site) (b : Bank) : (s.setBank x b).bound = s.bound := rfl
@[simp] theorem State.setBank_service (s : State) (x : Site) (b : Bank) : (s.setBank x b).service = s.service := rfl
@[simp] theorem State.setBank_degraded (s : State) (x : Site) (b : Bank) : (s.setBank x b).degraded = s.degraded := rfl
@[simp] theorem State.setBank_tilesOff (s : State) (x : Site) (b : Bank) : (s.setBank x b).tilesOff = s.tilesOff := rfl
@[simp] theorem State.setBank_storeOff (s : State) (x : Site) (b : Bank) : (s.setBank x b).storeOff = s.storeOff := rfl
@[simp] theorem State.setBank_stashOff (s : State) (x : Site) (b : Bank) : (s.setBank x b).stashOff = s.stashOff := rfl
@[simp] theorem State.setBank_channelsOff (s : State) (x : Site) (b : Bank) : (s.setBank x b).channelsOff = s.channelsOff := rfl
@[simp] theorem State.setBank_portsOff (s : State) (x : Site) (b : Bank) : (s.setBank x b).portsOff = s.portsOff := rfl
@[simp] theorem State.setBank_dispatchOn (s : State) (x : Site) (b : Bank) : (s.setBank x b).dispatchOn = s.dispatchOn := rfl
@[simp] theorem State.setBank_holdUp (s : State) (x : Site) (b : Bank) : (s.setBank x b).holdUp = s.holdUp := rfl
@[simp] theorem State.setBank_supplyTrap (s : State) (x : Site) (b : Bank) : (s.setBank x b).supplyTrap = s.supplyTrap := rfl
@[simp] theorem State.setBank_store (s : State) (x : Site) (b : Bank) : (s.setBank x b).store = s.store := rfl
@[simp] theorem State.setBank_exchanges (s : State) (x : Site) (b : Bank) : (s.setBank x b).exchanges = s.exchanges := rfl
@[simp] theorem State.setBank_endpointDrops (s : State) (x : Site) (b : Bank) : (s.setBank x b).endpointDrops = s.endpointDrops := rfl
@[simp] theorem State.setBank_answers (s : State) (x : Site) (b : Bank) : (s.setBank x b).answers = s.answers := rfl
@[simp] theorem State.setBank_readouts (s : State) (x : Site) (b : Bank) : (s.setBank x b).readouts = s.readouts := rfl

@[simp] theorem State.modBank_agenda (s : State) (x : Site) (f : Bank → Bank) : (s.modBank x f).agenda = s.agenda := rfl
@[simp] theorem State.modBank_tick (s : State) (x : Site) (f : Bank → Bank) : (s.modBank x f).tick = s.tick := rfl
@[simp] theorem State.modBank_nextId (s : State) (x : Site) (f : Bank → Bank) : (s.modBank x f).nextId = s.nextId := rfl
@[simp] theorem State.modBank_round (s : State) (x : Site) (f : Bank → Bank) : (s.modBank x f).round = s.round := rfl
@[simp] theorem State.modBank_tiles (s : State) (x : Site) (f : Bank → Bank) : (s.modBank x f).tiles = s.tiles := rfl
@[simp] theorem State.modBank_mem (s : State) (x : Site) (f : Bank → Bank) : (s.modBank x f).mem = s.mem := rfl
@[simp] theorem State.modBank_full (s : State) (x : Site) (f : Bank → Bank) : (s.modBank x f).full = s.full := rfl
@[simp] theorem State.modBank_poison (s : State) (x : Site) (f : Bank → Bank) : (s.modBank x f).poison = s.poison := rfl
@[simp] theorem State.modBank_granules (s : State) (x : Site) (f : Bank → Bank) : (s.modBank x f).granules = s.granules := rfl
@[simp] theorem State.modBank_tags (s : State) (x : Site) (f : Bank → Bank) : (s.modBank x f).tags = s.tags := rfl
@[simp] theorem State.modBank_side (s : State) (x : Site) (f : Bank → Bank) : (s.modBank x f).side = s.side := rfl
@[simp] theorem State.modBank_sideBad (s : State) (x : Site) (f : Bank → Bank) : (s.modBank x f).sideBad = s.sideBad := rfl
@[simp] theorem State.modBank_stashed (s : State) (x : Site) (f : Bank → Bank) : (s.modBank x f).stashed = s.stashed := rfl
@[simp] theorem State.modBank_lags (s : State) (x : Site) (f : Bank → Bank) : (s.modBank x f).lags = s.lags := rfl
@[simp] theorem State.modBank_eccCount (s : State) (x : Site) (f : Bank → Bank) : (s.modBank x f).eccCount = s.eccCount := rfl
@[simp] theorem State.modBank_hopCount (s : State) (x : Site) (f : Bank → Bank) : (s.modBank x f).hopCount = s.hopCount := rfl
@[simp] theorem State.modBank_reqs (s : State) (x : Site) (f : Bank → Bank) : (s.modBank x f).reqs = s.reqs := rfl
@[simp] theorem State.modBank_deferred (s : State) (x : Site) (f : Bank → Bank) : (s.modBank x f).deferred = s.deferred := rfl
@[simp] theorem State.modBank_waiting (s : State) (x : Site) (f : Bank → Bank) : (s.modBank x f).waiting = s.waiting := rfl
@[simp] theorem State.modBank_owners (s : State) (x : Site) (f : Bank → Bank) : (s.modBank x f).owners = s.owners := rfl
@[simp] theorem State.modBank_engineTlb (s : State) (x : Site) (f : Bank → Bank) : (s.modBank x f).engineTlb = s.engineTlb := rfl
@[simp] theorem State.modBank_walks (s : State) (x : Site) (f : Bank → Bank) : (s.modBank x f).walks = s.walks := rfl
@[simp] theorem State.modBank_walkWait (s : State) (x : Site) (f : Bank → Bank) : (s.modBank x f).walkWait = s.walkWait := rfl
@[simp] theorem State.modBank_saggars (s : State) (x : Site) (f : Bank → Bank) : (s.modBank x f).saggars = s.saggars := rfl
@[simp] theorem State.modBank_cohorts (s : State) (x : Site) (f : Bank → Bank) : (s.modBank x f).cohorts = s.cohorts := rfl
@[simp] theorem State.modBank_launches (s : State) (x : Site) (f : Bank → Bank) : (s.modBank x f).launches = s.launches := rfl
@[simp] theorem State.modBank_queues (s : State) (x : Site) (f : Bank → Bank) : (s.modBank x f).queues = s.queues := rfl
@[simp] theorem State.modBank_lastQ (s : State) (x : Site) (f : Bank → Bank) : (s.modBank x f).lastQ = s.lastQ := rfl
@[simp] theorem State.modBank_nextLaunch (s : State) (x : Site) (f : Bank → Bank) : (s.modBank x f).nextLaunch = s.nextLaunch := rfl
@[simp] theorem State.modBank_stamp (s : State) (x : Site) (f : Bank → Bank) : (s.modBank x f).stamp = s.stamp := rfl
@[simp] theorem State.modBank_saveReqs (s : State) (x : Site) (f : Bank → Bank) : (s.modBank x f).saveReqs = s.saveReqs := rfl
@[simp] theorem State.modBank_saveAnswers (s : State) (x : Site) (f : Bank → Bank) : (s.modBank x f).saveAnswers = s.saveAnswers := rfl
@[simp] theorem State.modBank_colthr (s : State) (x : Site) (f : Bank → Bank) : (s.modBank x f).colthr = s.colthr := rfl
@[simp] theorem State.modBank_rmthr (s : State) (x : Site) (f : Bank → Bank) : (s.modBank x f).rmthr = s.rmthr := rfl
@[simp] theorem State.modBank_alerts (s : State) (x : Site) (f : Bank → Bank) : (s.modBank x f).alerts = s.alerts := rfl
@[simp] theorem State.modBank_backoff (s : State) (x : Site) (f : Bank → Bank) : (s.modBank x f).backoff = s.backoff := rfl
@[simp] theorem State.modBank_rows (s : State) (x : Site) (f : Bank → Bank) : (s.modBank x f).rows = s.rows := rfl
@[simp] theorem State.modBank_refreshing (s : State) (x : Site) (f : Bank → Bank) : (s.modBank x f).refreshing = s.refreshing := rfl
@[simp] theorem State.modBank_delayed (s : State) (x : Site) (f : Bank → Bank) : (s.modBank x f).delayed = s.delayed := rfl
@[simp] theorem State.modBank_ports (s : State) (x : Site) (f : Bank → Bank) : (s.modBank x f).ports = s.ports := rfl
@[simp] theorem State.modBank_keySlots (s : State) (x : Site) (f : Bank → Bank) : (s.modBank x f).keySlots = s.keySlots := rfl
@[simp] theorem State.modBank_bound (s : State) (x : Site) (f : Bank → Bank) : (s.modBank x f).bound = s.bound := rfl
@[simp] theorem State.modBank_service (s : State) (x : Site) (f : Bank → Bank) : (s.modBank x f).service = s.service := rfl
@[simp] theorem State.modBank_degraded (s : State) (x : Site) (f : Bank → Bank) : (s.modBank x f).degraded = s.degraded := rfl
@[simp] theorem State.modBank_tilesOff (s : State) (x : Site) (f : Bank → Bank) : (s.modBank x f).tilesOff = s.tilesOff := rfl
@[simp] theorem State.modBank_storeOff (s : State) (x : Site) (f : Bank → Bank) : (s.modBank x f).storeOff = s.storeOff := rfl
@[simp] theorem State.modBank_stashOff (s : State) (x : Site) (f : Bank → Bank) : (s.modBank x f).stashOff = s.stashOff := rfl
@[simp] theorem State.modBank_channelsOff (s : State) (x : Site) (f : Bank → Bank) : (s.modBank x f).channelsOff = s.channelsOff := rfl
@[simp] theorem State.modBank_portsOff (s : State) (x : Site) (f : Bank → Bank) : (s.modBank x f).portsOff = s.portsOff := rfl
@[simp] theorem State.modBank_dispatchOn (s : State) (x : Site) (f : Bank → Bank) : (s.modBank x f).dispatchOn = s.dispatchOn := rfl
@[simp] theorem State.modBank_holdUp (s : State) (x : Site) (f : Bank → Bank) : (s.modBank x f).holdUp = s.holdUp := rfl
@[simp] theorem State.modBank_supplyTrap (s : State) (x : Site) (f : Bank → Bank) : (s.modBank x f).supplyTrap = s.supplyTrap := rfl
@[simp] theorem State.modBank_store (s : State) (x : Site) (f : Bank → Bank) : (s.modBank x f).store = s.store := rfl
@[simp] theorem State.modBank_exchanges (s : State) (x : Site) (f : Bank → Bank) : (s.modBank x f).exchanges = s.exchanges := rfl
@[simp] theorem State.modBank_endpointDrops (s : State) (x : Site) (f : Bank → Bank) : (s.modBank x f).endpointDrops = s.endpointDrops := rfl
@[simp] theorem State.modBank_answers (s : State) (x : Site) (f : Bank → Bank) : (s.modBank x f).answers = s.answers := rfl
@[simp] theorem State.modBank_readouts (s : State) (x : Site) (f : Bank → Bank) : (s.modBank x f).readouts = s.readouts := rfl

@[simp] theorem State.modTile_agenda (s : State) (n : Nat) (f : Tile → Tile) : (s.modTile n f).agenda = s.agenda := rfl
@[simp] theorem State.modTile_tick (s : State) (n : Nat) (f : Tile → Tile) : (s.modTile n f).tick = s.tick := rfl
@[simp] theorem State.modTile_nextId (s : State) (n : Nat) (f : Tile → Tile) : (s.modTile n f).nextId = s.nextId := rfl
@[simp] theorem State.modTile_round (s : State) (n : Nat) (f : Tile → Tile) : (s.modTile n f).round = s.round := rfl
@[simp] theorem State.modTile_banks (s : State) (n : Nat) (f : Tile → Tile) : (s.modTile n f).banks = s.banks := rfl
@[simp] theorem State.modTile_mem (s : State) (n : Nat) (f : Tile → Tile) : (s.modTile n f).mem = s.mem := rfl
@[simp] theorem State.modTile_full (s : State) (n : Nat) (f : Tile → Tile) : (s.modTile n f).full = s.full := rfl
@[simp] theorem State.modTile_poison (s : State) (n : Nat) (f : Tile → Tile) : (s.modTile n f).poison = s.poison := rfl
@[simp] theorem State.modTile_granules (s : State) (n : Nat) (f : Tile → Tile) : (s.modTile n f).granules = s.granules := rfl
@[simp] theorem State.modTile_tags (s : State) (n : Nat) (f : Tile → Tile) : (s.modTile n f).tags = s.tags := rfl
@[simp] theorem State.modTile_side (s : State) (n : Nat) (f : Tile → Tile) : (s.modTile n f).side = s.side := rfl
@[simp] theorem State.modTile_sideBad (s : State) (n : Nat) (f : Tile → Tile) : (s.modTile n f).sideBad = s.sideBad := rfl
@[simp] theorem State.modTile_stashed (s : State) (n : Nat) (f : Tile → Tile) : (s.modTile n f).stashed = s.stashed := rfl
@[simp] theorem State.modTile_lags (s : State) (n : Nat) (f : Tile → Tile) : (s.modTile n f).lags = s.lags := rfl
@[simp] theorem State.modTile_eccCount (s : State) (n : Nat) (f : Tile → Tile) : (s.modTile n f).eccCount = s.eccCount := rfl
@[simp] theorem State.modTile_hopCount (s : State) (n : Nat) (f : Tile → Tile) : (s.modTile n f).hopCount = s.hopCount := rfl
@[simp] theorem State.modTile_reqs (s : State) (n : Nat) (f : Tile → Tile) : (s.modTile n f).reqs = s.reqs := rfl
@[simp] theorem State.modTile_deferred (s : State) (n : Nat) (f : Tile → Tile) : (s.modTile n f).deferred = s.deferred := rfl
@[simp] theorem State.modTile_waiting (s : State) (n : Nat) (f : Tile → Tile) : (s.modTile n f).waiting = s.waiting := rfl
@[simp] theorem State.modTile_owners (s : State) (n : Nat) (f : Tile → Tile) : (s.modTile n f).owners = s.owners := rfl
@[simp] theorem State.modTile_engineTlb (s : State) (n : Nat) (f : Tile → Tile) : (s.modTile n f).engineTlb = s.engineTlb := rfl
@[simp] theorem State.modTile_walks (s : State) (n : Nat) (f : Tile → Tile) : (s.modTile n f).walks = s.walks := rfl
@[simp] theorem State.modTile_walkWait (s : State) (n : Nat) (f : Tile → Tile) : (s.modTile n f).walkWait = s.walkWait := rfl
@[simp] theorem State.modTile_saggars (s : State) (n : Nat) (f : Tile → Tile) : (s.modTile n f).saggars = s.saggars := rfl
@[simp] theorem State.modTile_cohorts (s : State) (n : Nat) (f : Tile → Tile) : (s.modTile n f).cohorts = s.cohorts := rfl
@[simp] theorem State.modTile_launches (s : State) (n : Nat) (f : Tile → Tile) : (s.modTile n f).launches = s.launches := rfl
@[simp] theorem State.modTile_queues (s : State) (n : Nat) (f : Tile → Tile) : (s.modTile n f).queues = s.queues := rfl
@[simp] theorem State.modTile_lastQ (s : State) (n : Nat) (f : Tile → Tile) : (s.modTile n f).lastQ = s.lastQ := rfl
@[simp] theorem State.modTile_nextLaunch (s : State) (n : Nat) (f : Tile → Tile) : (s.modTile n f).nextLaunch = s.nextLaunch := rfl
@[simp] theorem State.modTile_stamp (s : State) (n : Nat) (f : Tile → Tile) : (s.modTile n f).stamp = s.stamp := rfl
@[simp] theorem State.modTile_saveReqs (s : State) (n : Nat) (f : Tile → Tile) : (s.modTile n f).saveReqs = s.saveReqs := rfl
@[simp] theorem State.modTile_saveAnswers (s : State) (n : Nat) (f : Tile → Tile) : (s.modTile n f).saveAnswers = s.saveAnswers := rfl
@[simp] theorem State.modTile_colthr (s : State) (n : Nat) (f : Tile → Tile) : (s.modTile n f).colthr = s.colthr := rfl
@[simp] theorem State.modTile_rmthr (s : State) (n : Nat) (f : Tile → Tile) : (s.modTile n f).rmthr = s.rmthr := rfl
@[simp] theorem State.modTile_alerts (s : State) (n : Nat) (f : Tile → Tile) : (s.modTile n f).alerts = s.alerts := rfl
@[simp] theorem State.modTile_backoff (s : State) (n : Nat) (f : Tile → Tile) : (s.modTile n f).backoff = s.backoff := rfl
@[simp] theorem State.modTile_rows (s : State) (n : Nat) (f : Tile → Tile) : (s.modTile n f).rows = s.rows := rfl
@[simp] theorem State.modTile_refreshing (s : State) (n : Nat) (f : Tile → Tile) : (s.modTile n f).refreshing = s.refreshing := rfl
@[simp] theorem State.modTile_delayed (s : State) (n : Nat) (f : Tile → Tile) : (s.modTile n f).delayed = s.delayed := rfl
@[simp] theorem State.modTile_ports (s : State) (n : Nat) (f : Tile → Tile) : (s.modTile n f).ports = s.ports := rfl
@[simp] theorem State.modTile_keySlots (s : State) (n : Nat) (f : Tile → Tile) : (s.modTile n f).keySlots = s.keySlots := rfl
@[simp] theorem State.modTile_bound (s : State) (n : Nat) (f : Tile → Tile) : (s.modTile n f).bound = s.bound := rfl
@[simp] theorem State.modTile_service (s : State) (n : Nat) (f : Tile → Tile) : (s.modTile n f).service = s.service := rfl
@[simp] theorem State.modTile_degraded (s : State) (n : Nat) (f : Tile → Tile) : (s.modTile n f).degraded = s.degraded := rfl
@[simp] theorem State.modTile_tilesOff (s : State) (n : Nat) (f : Tile → Tile) : (s.modTile n f).tilesOff = s.tilesOff := rfl
@[simp] theorem State.modTile_storeOff (s : State) (n : Nat) (f : Tile → Tile) : (s.modTile n f).storeOff = s.storeOff := rfl
@[simp] theorem State.modTile_stashOff (s : State) (n : Nat) (f : Tile → Tile) : (s.modTile n f).stashOff = s.stashOff := rfl
@[simp] theorem State.modTile_channelsOff (s : State) (n : Nat) (f : Tile → Tile) : (s.modTile n f).channelsOff = s.channelsOff := rfl
@[simp] theorem State.modTile_portsOff (s : State) (n : Nat) (f : Tile → Tile) : (s.modTile n f).portsOff = s.portsOff := rfl
@[simp] theorem State.modTile_dispatchOn (s : State) (n : Nat) (f : Tile → Tile) : (s.modTile n f).dispatchOn = s.dispatchOn := rfl
@[simp] theorem State.modTile_holdUp (s : State) (n : Nat) (f : Tile → Tile) : (s.modTile n f).holdUp = s.holdUp := rfl
@[simp] theorem State.modTile_supplyTrap (s : State) (n : Nat) (f : Tile → Tile) : (s.modTile n f).supplyTrap = s.supplyTrap := rfl
@[simp] theorem State.modTile_store (s : State) (n : Nat) (f : Tile → Tile) : (s.modTile n f).store = s.store := rfl
@[simp] theorem State.modTile_exchanges (s : State) (n : Nat) (f : Tile → Tile) : (s.modTile n f).exchanges = s.exchanges := rfl
@[simp] theorem State.modTile_endpointDrops (s : State) (n : Nat) (f : Tile → Tile) : (s.modTile n f).endpointDrops = s.endpointDrops := rfl
@[simp] theorem State.modTile_answers (s : State) (n : Nat) (f : Tile → Tile) : (s.modTile n f).answers = s.answers := rfl
@[simp] theorem State.modTile_readouts (s : State) (n : Nat) (f : Tile → Tile) : (s.modTile n f).readouts = s.readouts := rfl

@[simp] theorem State.modSlot_agenda (s : State) (n k : Nat) (f : Slot → Slot) : (s.modSlot n k f).agenda = s.agenda := rfl
@[simp] theorem State.modSlot_tick (s : State) (n k : Nat) (f : Slot → Slot) : (s.modSlot n k f).tick = s.tick := rfl
@[simp] theorem State.modSlot_nextId (s : State) (n k : Nat) (f : Slot → Slot) : (s.modSlot n k f).nextId = s.nextId := rfl
@[simp] theorem State.modSlot_round (s : State) (n k : Nat) (f : Slot → Slot) : (s.modSlot n k f).round = s.round := rfl
@[simp] theorem State.modSlot_banks (s : State) (n k : Nat) (f : Slot → Slot) : (s.modSlot n k f).banks = s.banks := rfl
@[simp] theorem State.modSlot_mem (s : State) (n k : Nat) (f : Slot → Slot) : (s.modSlot n k f).mem = s.mem := rfl
@[simp] theorem State.modSlot_full (s : State) (n k : Nat) (f : Slot → Slot) : (s.modSlot n k f).full = s.full := rfl
@[simp] theorem State.modSlot_poison (s : State) (n k : Nat) (f : Slot → Slot) : (s.modSlot n k f).poison = s.poison := rfl
@[simp] theorem State.modSlot_granules (s : State) (n k : Nat) (f : Slot → Slot) : (s.modSlot n k f).granules = s.granules := rfl
@[simp] theorem State.modSlot_tags (s : State) (n k : Nat) (f : Slot → Slot) : (s.modSlot n k f).tags = s.tags := rfl
@[simp] theorem State.modSlot_side (s : State) (n k : Nat) (f : Slot → Slot) : (s.modSlot n k f).side = s.side := rfl
@[simp] theorem State.modSlot_sideBad (s : State) (n k : Nat) (f : Slot → Slot) : (s.modSlot n k f).sideBad = s.sideBad := rfl
@[simp] theorem State.modSlot_stashed (s : State) (n k : Nat) (f : Slot → Slot) : (s.modSlot n k f).stashed = s.stashed := rfl
@[simp] theorem State.modSlot_lags (s : State) (n k : Nat) (f : Slot → Slot) : (s.modSlot n k f).lags = s.lags := rfl
@[simp] theorem State.modSlot_eccCount (s : State) (n k : Nat) (f : Slot → Slot) : (s.modSlot n k f).eccCount = s.eccCount := rfl
@[simp] theorem State.modSlot_hopCount (s : State) (n k : Nat) (f : Slot → Slot) : (s.modSlot n k f).hopCount = s.hopCount := rfl
@[simp] theorem State.modSlot_reqs (s : State) (n k : Nat) (f : Slot → Slot) : (s.modSlot n k f).reqs = s.reqs := rfl
@[simp] theorem State.modSlot_deferred (s : State) (n k : Nat) (f : Slot → Slot) : (s.modSlot n k f).deferred = s.deferred := rfl
@[simp] theorem State.modSlot_waiting (s : State) (n k : Nat) (f : Slot → Slot) : (s.modSlot n k f).waiting = s.waiting := rfl
@[simp] theorem State.modSlot_owners (s : State) (n k : Nat) (f : Slot → Slot) : (s.modSlot n k f).owners = s.owners := rfl
@[simp] theorem State.modSlot_engineTlb (s : State) (n k : Nat) (f : Slot → Slot) : (s.modSlot n k f).engineTlb = s.engineTlb := rfl
@[simp] theorem State.modSlot_walks (s : State) (n k : Nat) (f : Slot → Slot) : (s.modSlot n k f).walks = s.walks := rfl
@[simp] theorem State.modSlot_walkWait (s : State) (n k : Nat) (f : Slot → Slot) : (s.modSlot n k f).walkWait = s.walkWait := rfl
@[simp] theorem State.modSlot_saggars (s : State) (n k : Nat) (f : Slot → Slot) : (s.modSlot n k f).saggars = s.saggars := rfl
@[simp] theorem State.modSlot_cohorts (s : State) (n k : Nat) (f : Slot → Slot) : (s.modSlot n k f).cohorts = s.cohorts := rfl
@[simp] theorem State.modSlot_launches (s : State) (n k : Nat) (f : Slot → Slot) : (s.modSlot n k f).launches = s.launches := rfl
@[simp] theorem State.modSlot_queues (s : State) (n k : Nat) (f : Slot → Slot) : (s.modSlot n k f).queues = s.queues := rfl
@[simp] theorem State.modSlot_lastQ (s : State) (n k : Nat) (f : Slot → Slot) : (s.modSlot n k f).lastQ = s.lastQ := rfl
@[simp] theorem State.modSlot_nextLaunch (s : State) (n k : Nat) (f : Slot → Slot) : (s.modSlot n k f).nextLaunch = s.nextLaunch := rfl
@[simp] theorem State.modSlot_stamp (s : State) (n k : Nat) (f : Slot → Slot) : (s.modSlot n k f).stamp = s.stamp := rfl
@[simp] theorem State.modSlot_saveReqs (s : State) (n k : Nat) (f : Slot → Slot) : (s.modSlot n k f).saveReqs = s.saveReqs := rfl
@[simp] theorem State.modSlot_saveAnswers (s : State) (n k : Nat) (f : Slot → Slot) : (s.modSlot n k f).saveAnswers = s.saveAnswers := rfl
@[simp] theorem State.modSlot_colthr (s : State) (n k : Nat) (f : Slot → Slot) : (s.modSlot n k f).colthr = s.colthr := rfl
@[simp] theorem State.modSlot_rmthr (s : State) (n k : Nat) (f : Slot → Slot) : (s.modSlot n k f).rmthr = s.rmthr := rfl
@[simp] theorem State.modSlot_alerts (s : State) (n k : Nat) (f : Slot → Slot) : (s.modSlot n k f).alerts = s.alerts := rfl
@[simp] theorem State.modSlot_backoff (s : State) (n k : Nat) (f : Slot → Slot) : (s.modSlot n k f).backoff = s.backoff := rfl
@[simp] theorem State.modSlot_rows (s : State) (n k : Nat) (f : Slot → Slot) : (s.modSlot n k f).rows = s.rows := rfl
@[simp] theorem State.modSlot_refreshing (s : State) (n k : Nat) (f : Slot → Slot) : (s.modSlot n k f).refreshing = s.refreshing := rfl
@[simp] theorem State.modSlot_delayed (s : State) (n k : Nat) (f : Slot → Slot) : (s.modSlot n k f).delayed = s.delayed := rfl
@[simp] theorem State.modSlot_ports (s : State) (n k : Nat) (f : Slot → Slot) : (s.modSlot n k f).ports = s.ports := rfl
@[simp] theorem State.modSlot_keySlots (s : State) (n k : Nat) (f : Slot → Slot) : (s.modSlot n k f).keySlots = s.keySlots := rfl
@[simp] theorem State.modSlot_bound (s : State) (n k : Nat) (f : Slot → Slot) : (s.modSlot n k f).bound = s.bound := rfl
@[simp] theorem State.modSlot_service (s : State) (n k : Nat) (f : Slot → Slot) : (s.modSlot n k f).service = s.service := rfl
@[simp] theorem State.modSlot_degraded (s : State) (n k : Nat) (f : Slot → Slot) : (s.modSlot n k f).degraded = s.degraded := rfl
@[simp] theorem State.modSlot_tilesOff (s : State) (n k : Nat) (f : Slot → Slot) : (s.modSlot n k f).tilesOff = s.tilesOff := rfl
@[simp] theorem State.modSlot_storeOff (s : State) (n k : Nat) (f : Slot → Slot) : (s.modSlot n k f).storeOff = s.storeOff := rfl
@[simp] theorem State.modSlot_stashOff (s : State) (n k : Nat) (f : Slot → Slot) : (s.modSlot n k f).stashOff = s.stashOff := rfl
@[simp] theorem State.modSlot_channelsOff (s : State) (n k : Nat) (f : Slot → Slot) : (s.modSlot n k f).channelsOff = s.channelsOff := rfl
@[simp] theorem State.modSlot_portsOff (s : State) (n k : Nat) (f : Slot → Slot) : (s.modSlot n k f).portsOff = s.portsOff := rfl
@[simp] theorem State.modSlot_dispatchOn (s : State) (n k : Nat) (f : Slot → Slot) : (s.modSlot n k f).dispatchOn = s.dispatchOn := rfl
@[simp] theorem State.modSlot_holdUp (s : State) (n k : Nat) (f : Slot → Slot) : (s.modSlot n k f).holdUp = s.holdUp := rfl
@[simp] theorem State.modSlot_supplyTrap (s : State) (n k : Nat) (f : Slot → Slot) : (s.modSlot n k f).supplyTrap = s.supplyTrap := rfl
@[simp] theorem State.modSlot_store (s : State) (n k : Nat) (f : Slot → Slot) : (s.modSlot n k f).store = s.store := rfl
@[simp] theorem State.modSlot_exchanges (s : State) (n k : Nat) (f : Slot → Slot) : (s.modSlot n k f).exchanges = s.exchanges := rfl
@[simp] theorem State.modSlot_endpointDrops (s : State) (n k : Nat) (f : Slot → Slot) : (s.modSlot n k f).endpointDrops = s.endpointDrops := rfl
@[simp] theorem State.modSlot_answers (s : State) (n k : Nat) (f : Slot → Slot) : (s.modSlot n k f).answers = s.answers := rfl
@[simp] theorem State.modSlot_readouts (s : State) (n k : Nat) (f : Slot → Slot) : (s.modSlot n k f).readouts = s.readouts := rfl

@[simp] theorem State.count_agenda (s : State) (n k c : Nat) : (s.count n k c).agenda = s.agenda := rfl
@[simp] theorem State.count_tick (s : State) (n k c : Nat) : (s.count n k c).tick = s.tick := rfl
@[simp] theorem State.count_nextId (s : State) (n k c : Nat) : (s.count n k c).nextId = s.nextId := rfl
@[simp] theorem State.count_round (s : State) (n k c : Nat) : (s.count n k c).round = s.round := rfl
@[simp] theorem State.count_banks (s : State) (n k c : Nat) : (s.count n k c).banks = s.banks := rfl
@[simp] theorem State.count_mem (s : State) (n k c : Nat) : (s.count n k c).mem = s.mem := rfl
@[simp] theorem State.count_full (s : State) (n k c : Nat) : (s.count n k c).full = s.full := rfl
@[simp] theorem State.count_poison (s : State) (n k c : Nat) : (s.count n k c).poison = s.poison := rfl
@[simp] theorem State.count_granules (s : State) (n k c : Nat) : (s.count n k c).granules = s.granules := rfl
@[simp] theorem State.count_tags (s : State) (n k c : Nat) : (s.count n k c).tags = s.tags := rfl
@[simp] theorem State.count_side (s : State) (n k c : Nat) : (s.count n k c).side = s.side := rfl
@[simp] theorem State.count_sideBad (s : State) (n k c : Nat) : (s.count n k c).sideBad = s.sideBad := rfl
@[simp] theorem State.count_stashed (s : State) (n k c : Nat) : (s.count n k c).stashed = s.stashed := rfl
@[simp] theorem State.count_lags (s : State) (n k c : Nat) : (s.count n k c).lags = s.lags := rfl
@[simp] theorem State.count_eccCount (s : State) (n k c : Nat) : (s.count n k c).eccCount = s.eccCount := rfl
@[simp] theorem State.count_hopCount (s : State) (n k c : Nat) : (s.count n k c).hopCount = s.hopCount := rfl
@[simp] theorem State.count_reqs (s : State) (n k c : Nat) : (s.count n k c).reqs = s.reqs := rfl
@[simp] theorem State.count_deferred (s : State) (n k c : Nat) : (s.count n k c).deferred = s.deferred := rfl
@[simp] theorem State.count_waiting (s : State) (n k c : Nat) : (s.count n k c).waiting = s.waiting := rfl
@[simp] theorem State.count_owners (s : State) (n k c : Nat) : (s.count n k c).owners = s.owners := rfl
@[simp] theorem State.count_engineTlb (s : State) (n k c : Nat) : (s.count n k c).engineTlb = s.engineTlb := rfl
@[simp] theorem State.count_walks (s : State) (n k c : Nat) : (s.count n k c).walks = s.walks := rfl
@[simp] theorem State.count_walkWait (s : State) (n k c : Nat) : (s.count n k c).walkWait = s.walkWait := rfl
@[simp] theorem State.count_saggars (s : State) (n k c : Nat) : (s.count n k c).saggars = s.saggars := rfl
@[simp] theorem State.count_cohorts (s : State) (n k c : Nat) : (s.count n k c).cohorts = s.cohorts := rfl
@[simp] theorem State.count_launches (s : State) (n k c : Nat) : (s.count n k c).launches = s.launches := rfl
@[simp] theorem State.count_queues (s : State) (n k c : Nat) : (s.count n k c).queues = s.queues := rfl
@[simp] theorem State.count_lastQ (s : State) (n k c : Nat) : (s.count n k c).lastQ = s.lastQ := rfl
@[simp] theorem State.count_nextLaunch (s : State) (n k c : Nat) : (s.count n k c).nextLaunch = s.nextLaunch := rfl
@[simp] theorem State.count_stamp (s : State) (n k c : Nat) : (s.count n k c).stamp = s.stamp := rfl
@[simp] theorem State.count_saveReqs (s : State) (n k c : Nat) : (s.count n k c).saveReqs = s.saveReqs := rfl
@[simp] theorem State.count_saveAnswers (s : State) (n k c : Nat) : (s.count n k c).saveAnswers = s.saveAnswers := rfl
@[simp] theorem State.count_colthr (s : State) (n k c : Nat) : (s.count n k c).colthr = s.colthr := rfl
@[simp] theorem State.count_rmthr (s : State) (n k c : Nat) : (s.count n k c).rmthr = s.rmthr := rfl
@[simp] theorem State.count_alerts (s : State) (n k c : Nat) : (s.count n k c).alerts = s.alerts := rfl
@[simp] theorem State.count_backoff (s : State) (n k c : Nat) : (s.count n k c).backoff = s.backoff := rfl
@[simp] theorem State.count_rows (s : State) (n k c : Nat) : (s.count n k c).rows = s.rows := rfl
@[simp] theorem State.count_refreshing (s : State) (n k c : Nat) : (s.count n k c).refreshing = s.refreshing := rfl
@[simp] theorem State.count_delayed (s : State) (n k c : Nat) : (s.count n k c).delayed = s.delayed := rfl
@[simp] theorem State.count_ports (s : State) (n k c : Nat) : (s.count n k c).ports = s.ports := rfl
@[simp] theorem State.count_keySlots (s : State) (n k c : Nat) : (s.count n k c).keySlots = s.keySlots := rfl
@[simp] theorem State.count_bound (s : State) (n k c : Nat) : (s.count n k c).bound = s.bound := rfl
@[simp] theorem State.count_service (s : State) (n k c : Nat) : (s.count n k c).service = s.service := rfl
@[simp] theorem State.count_degraded (s : State) (n k c : Nat) : (s.count n k c).degraded = s.degraded := rfl
@[simp] theorem State.count_tilesOff (s : State) (n k c : Nat) : (s.count n k c).tilesOff = s.tilesOff := rfl
@[simp] theorem State.count_storeOff (s : State) (n k c : Nat) : (s.count n k c).storeOff = s.storeOff := rfl
@[simp] theorem State.count_stashOff (s : State) (n k c : Nat) : (s.count n k c).stashOff = s.stashOff := rfl
@[simp] theorem State.count_channelsOff (s : State) (n k c : Nat) : (s.count n k c).channelsOff = s.channelsOff := rfl
@[simp] theorem State.count_portsOff (s : State) (n k c : Nat) : (s.count n k c).portsOff = s.portsOff := rfl
@[simp] theorem State.count_dispatchOn (s : State) (n k c : Nat) : (s.count n k c).dispatchOn = s.dispatchOn := rfl
@[simp] theorem State.count_holdUp (s : State) (n k c : Nat) : (s.count n k c).holdUp = s.holdUp := rfl
@[simp] theorem State.count_supplyTrap (s : State) (n k c : Nat) : (s.count n k c).supplyTrap = s.supplyTrap := rfl
@[simp] theorem State.count_store (s : State) (n k c : Nat) : (s.count n k c).store = s.store := rfl
@[simp] theorem State.count_exchanges (s : State) (n k c : Nat) : (s.count n k c).exchanges = s.exchanges := rfl
@[simp] theorem State.count_endpointDrops (s : State) (n k c : Nat) : (s.count n k c).endpointDrops = s.endpointDrops := rfl
@[simp] theorem State.count_answers (s : State) (n k c : Nat) : (s.count n k c).answers = s.answers := rfl
@[simp] theorem State.count_readouts (s : State) (n k c : Nat) : (s.count n k c).readouts = s.readouts := rfl

@[simp] theorem State.progress_agenda (s : State) (x : Site) : (s.progress x).agenda = s.agenda := rfl
@[simp] theorem State.progress_tick (s : State) (x : Site) : (s.progress x).tick = s.tick := rfl
@[simp] theorem State.progress_nextId (s : State) (x : Site) : (s.progress x).nextId = s.nextId := rfl
@[simp] theorem State.progress_round (s : State) (x : Site) : (s.progress x).round = s.round := rfl
@[simp] theorem State.progress_banks (s : State) (x : Site) : (s.progress x).banks = s.banks := rfl
@[simp] theorem State.progress_mem (s : State) (x : Site) : (s.progress x).mem = s.mem := rfl
@[simp] theorem State.progress_full (s : State) (x : Site) : (s.progress x).full = s.full := rfl
@[simp] theorem State.progress_poison (s : State) (x : Site) : (s.progress x).poison = s.poison := rfl
@[simp] theorem State.progress_granules (s : State) (x : Site) : (s.progress x).granules = s.granules := rfl
@[simp] theorem State.progress_tags (s : State) (x : Site) : (s.progress x).tags = s.tags := rfl
@[simp] theorem State.progress_side (s : State) (x : Site) : (s.progress x).side = s.side := rfl
@[simp] theorem State.progress_sideBad (s : State) (x : Site) : (s.progress x).sideBad = s.sideBad := rfl
@[simp] theorem State.progress_stashed (s : State) (x : Site) : (s.progress x).stashed = s.stashed := rfl
@[simp] theorem State.progress_lags (s : State) (x : Site) : (s.progress x).lags = s.lags := rfl
@[simp] theorem State.progress_eccCount (s : State) (x : Site) : (s.progress x).eccCount = s.eccCount := rfl
@[simp] theorem State.progress_hopCount (s : State) (x : Site) : (s.progress x).hopCount = s.hopCount := rfl
@[simp] theorem State.progress_reqs (s : State) (x : Site) : (s.progress x).reqs = s.reqs := rfl
@[simp] theorem State.progress_deferred (s : State) (x : Site) : (s.progress x).deferred = s.deferred := rfl
@[simp] theorem State.progress_waiting (s : State) (x : Site) : (s.progress x).waiting = s.waiting := rfl
@[simp] theorem State.progress_owners (s : State) (x : Site) : (s.progress x).owners = s.owners := rfl
@[simp] theorem State.progress_engineTlb (s : State) (x : Site) : (s.progress x).engineTlb = s.engineTlb := rfl
@[simp] theorem State.progress_walks (s : State) (x : Site) : (s.progress x).walks = s.walks := rfl
@[simp] theorem State.progress_walkWait (s : State) (x : Site) : (s.progress x).walkWait = s.walkWait := rfl
@[simp] theorem State.progress_saggars (s : State) (x : Site) : (s.progress x).saggars = s.saggars := rfl
@[simp] theorem State.progress_cohorts (s : State) (x : Site) : (s.progress x).cohorts = s.cohorts := rfl
@[simp] theorem State.progress_launches (s : State) (x : Site) : (s.progress x).launches = s.launches := rfl
@[simp] theorem State.progress_queues (s : State) (x : Site) : (s.progress x).queues = s.queues := rfl
@[simp] theorem State.progress_lastQ (s : State) (x : Site) : (s.progress x).lastQ = s.lastQ := rfl
@[simp] theorem State.progress_nextLaunch (s : State) (x : Site) : (s.progress x).nextLaunch = s.nextLaunch := rfl
@[simp] theorem State.progress_stamp (s : State) (x : Site) : (s.progress x).stamp = s.stamp := rfl
@[simp] theorem State.progress_saveReqs (s : State) (x : Site) : (s.progress x).saveReqs = s.saveReqs := rfl
@[simp] theorem State.progress_saveAnswers (s : State) (x : Site) : (s.progress x).saveAnswers = s.saveAnswers := rfl
@[simp] theorem State.progress_colthr (s : State) (x : Site) : (s.progress x).colthr = s.colthr := rfl
@[simp] theorem State.progress_rmthr (s : State) (x : Site) : (s.progress x).rmthr = s.rmthr := rfl
@[simp] theorem State.progress_alerts (s : State) (x : Site) : (s.progress x).alerts = s.alerts := rfl
@[simp] theorem State.progress_backoff (s : State) (x : Site) : (s.progress x).backoff = s.backoff := rfl
@[simp] theorem State.progress_rows (s : State) (x : Site) : (s.progress x).rows = s.rows := rfl
@[simp] theorem State.progress_refreshing (s : State) (x : Site) : (s.progress x).refreshing = s.refreshing := rfl
@[simp] theorem State.progress_delayed (s : State) (x : Site) : (s.progress x).delayed = s.delayed := rfl
@[simp] theorem State.progress_ports (s : State) (x : Site) : (s.progress x).ports = s.ports := rfl
@[simp] theorem State.progress_keySlots (s : State) (x : Site) : (s.progress x).keySlots = s.keySlots := rfl
@[simp] theorem State.progress_bound (s : State) (x : Site) : (s.progress x).bound = s.bound := rfl
@[simp] theorem State.progress_service (s : State) (x : Site) : (s.progress x).service = s.service := rfl
@[simp] theorem State.progress_degraded (s : State) (x : Site) : (s.progress x).degraded = s.degraded := rfl
@[simp] theorem State.progress_tilesOff (s : State) (x : Site) : (s.progress x).tilesOff = s.tilesOff := rfl
@[simp] theorem State.progress_storeOff (s : State) (x : Site) : (s.progress x).storeOff = s.storeOff := rfl
@[simp] theorem State.progress_stashOff (s : State) (x : Site) : (s.progress x).stashOff = s.stashOff := rfl
@[simp] theorem State.progress_channelsOff (s : State) (x : Site) : (s.progress x).channelsOff = s.channelsOff := rfl
@[simp] theorem State.progress_portsOff (s : State) (x : Site) : (s.progress x).portsOff = s.portsOff := rfl
@[simp] theorem State.progress_dispatchOn (s : State) (x : Site) : (s.progress x).dispatchOn = s.dispatchOn := rfl
@[simp] theorem State.progress_holdUp (s : State) (x : Site) : (s.progress x).holdUp = s.holdUp := rfl
@[simp] theorem State.progress_supplyTrap (s : State) (x : Site) : (s.progress x).supplyTrap = s.supplyTrap := rfl
@[simp] theorem State.progress_store (s : State) (x : Site) : (s.progress x).store = s.store := rfl
@[simp] theorem State.progress_exchanges (s : State) (x : Site) : (s.progress x).exchanges = s.exchanges := rfl
@[simp] theorem State.progress_endpointDrops (s : State) (x : Site) : (s.progress x).endpointDrops = s.endpointDrops := rfl
@[simp] theorem State.progress_answers (s : State) (x : Site) : (s.progress x).answers = s.answers := rfl
@[simp] theorem State.progress_readouts (s : State) (x : Site) : (s.progress x).readouts = s.readouts := rfl

@[simp] theorem State.modSaggar_agenda (s : State) (n : Nat) (f : Saggar → Saggar) : (s.modSaggar n f).agenda = s.agenda := rfl
@[simp] theorem State.modSaggar_tick (s : State) (n : Nat) (f : Saggar → Saggar) : (s.modSaggar n f).tick = s.tick := rfl
@[simp] theorem State.modSaggar_nextId (s : State) (n : Nat) (f : Saggar → Saggar) : (s.modSaggar n f).nextId = s.nextId := rfl
@[simp] theorem State.modSaggar_round (s : State) (n : Nat) (f : Saggar → Saggar) : (s.modSaggar n f).round = s.round := rfl
@[simp] theorem State.modSaggar_banks (s : State) (n : Nat) (f : Saggar → Saggar) : (s.modSaggar n f).banks = s.banks := rfl
@[simp] theorem State.modSaggar_tiles (s : State) (n : Nat) (f : Saggar → Saggar) : (s.modSaggar n f).tiles = s.tiles := rfl
@[simp] theorem State.modSaggar_mem (s : State) (n : Nat) (f : Saggar → Saggar) : (s.modSaggar n f).mem = s.mem := rfl
@[simp] theorem State.modSaggar_full (s : State) (n : Nat) (f : Saggar → Saggar) : (s.modSaggar n f).full = s.full := rfl
@[simp] theorem State.modSaggar_poison (s : State) (n : Nat) (f : Saggar → Saggar) : (s.modSaggar n f).poison = s.poison := rfl
@[simp] theorem State.modSaggar_granules (s : State) (n : Nat) (f : Saggar → Saggar) : (s.modSaggar n f).granules = s.granules := rfl
@[simp] theorem State.modSaggar_tags (s : State) (n : Nat) (f : Saggar → Saggar) : (s.modSaggar n f).tags = s.tags := rfl
@[simp] theorem State.modSaggar_side (s : State) (n : Nat) (f : Saggar → Saggar) : (s.modSaggar n f).side = s.side := rfl
@[simp] theorem State.modSaggar_sideBad (s : State) (n : Nat) (f : Saggar → Saggar) : (s.modSaggar n f).sideBad = s.sideBad := rfl
@[simp] theorem State.modSaggar_stashed (s : State) (n : Nat) (f : Saggar → Saggar) : (s.modSaggar n f).stashed = s.stashed := rfl
@[simp] theorem State.modSaggar_lags (s : State) (n : Nat) (f : Saggar → Saggar) : (s.modSaggar n f).lags = s.lags := rfl
@[simp] theorem State.modSaggar_eccCount (s : State) (n : Nat) (f : Saggar → Saggar) : (s.modSaggar n f).eccCount = s.eccCount := rfl
@[simp] theorem State.modSaggar_hopCount (s : State) (n : Nat) (f : Saggar → Saggar) : (s.modSaggar n f).hopCount = s.hopCount := rfl
@[simp] theorem State.modSaggar_reqs (s : State) (n : Nat) (f : Saggar → Saggar) : (s.modSaggar n f).reqs = s.reqs := rfl
@[simp] theorem State.modSaggar_deferred (s : State) (n : Nat) (f : Saggar → Saggar) : (s.modSaggar n f).deferred = s.deferred := rfl
@[simp] theorem State.modSaggar_waiting (s : State) (n : Nat) (f : Saggar → Saggar) : (s.modSaggar n f).waiting = s.waiting := rfl
@[simp] theorem State.modSaggar_owners (s : State) (n : Nat) (f : Saggar → Saggar) : (s.modSaggar n f).owners = s.owners := rfl
@[simp] theorem State.modSaggar_engineTlb (s : State) (n : Nat) (f : Saggar → Saggar) : (s.modSaggar n f).engineTlb = s.engineTlb := rfl
@[simp] theorem State.modSaggar_walks (s : State) (n : Nat) (f : Saggar → Saggar) : (s.modSaggar n f).walks = s.walks := rfl
@[simp] theorem State.modSaggar_walkWait (s : State) (n : Nat) (f : Saggar → Saggar) : (s.modSaggar n f).walkWait = s.walkWait := rfl
@[simp] theorem State.modSaggar_cohorts (s : State) (n : Nat) (f : Saggar → Saggar) : (s.modSaggar n f).cohorts = s.cohorts := rfl
@[simp] theorem State.modSaggar_launches (s : State) (n : Nat) (f : Saggar → Saggar) : (s.modSaggar n f).launches = s.launches := rfl
@[simp] theorem State.modSaggar_queues (s : State) (n : Nat) (f : Saggar → Saggar) : (s.modSaggar n f).queues = s.queues := rfl
@[simp] theorem State.modSaggar_lastQ (s : State) (n : Nat) (f : Saggar → Saggar) : (s.modSaggar n f).lastQ = s.lastQ := rfl
@[simp] theorem State.modSaggar_nextLaunch (s : State) (n : Nat) (f : Saggar → Saggar) : (s.modSaggar n f).nextLaunch = s.nextLaunch := rfl
@[simp] theorem State.modSaggar_stamp (s : State) (n : Nat) (f : Saggar → Saggar) : (s.modSaggar n f).stamp = s.stamp := rfl
@[simp] theorem State.modSaggar_saveReqs (s : State) (n : Nat) (f : Saggar → Saggar) : (s.modSaggar n f).saveReqs = s.saveReqs := rfl
@[simp] theorem State.modSaggar_saveAnswers (s : State) (n : Nat) (f : Saggar → Saggar) : (s.modSaggar n f).saveAnswers = s.saveAnswers := rfl
@[simp] theorem State.modSaggar_colthr (s : State) (n : Nat) (f : Saggar → Saggar) : (s.modSaggar n f).colthr = s.colthr := rfl
@[simp] theorem State.modSaggar_rmthr (s : State) (n : Nat) (f : Saggar → Saggar) : (s.modSaggar n f).rmthr = s.rmthr := rfl
@[simp] theorem State.modSaggar_alerts (s : State) (n : Nat) (f : Saggar → Saggar) : (s.modSaggar n f).alerts = s.alerts := rfl
@[simp] theorem State.modSaggar_backoff (s : State) (n : Nat) (f : Saggar → Saggar) : (s.modSaggar n f).backoff = s.backoff := rfl
@[simp] theorem State.modSaggar_rows (s : State) (n : Nat) (f : Saggar → Saggar) : (s.modSaggar n f).rows = s.rows := rfl
@[simp] theorem State.modSaggar_refreshing (s : State) (n : Nat) (f : Saggar → Saggar) : (s.modSaggar n f).refreshing = s.refreshing := rfl
@[simp] theorem State.modSaggar_delayed (s : State) (n : Nat) (f : Saggar → Saggar) : (s.modSaggar n f).delayed = s.delayed := rfl
@[simp] theorem State.modSaggar_ports (s : State) (n : Nat) (f : Saggar → Saggar) : (s.modSaggar n f).ports = s.ports := rfl
@[simp] theorem State.modSaggar_keySlots (s : State) (n : Nat) (f : Saggar → Saggar) : (s.modSaggar n f).keySlots = s.keySlots := rfl
@[simp] theorem State.modSaggar_bound (s : State) (n : Nat) (f : Saggar → Saggar) : (s.modSaggar n f).bound = s.bound := rfl
@[simp] theorem State.modSaggar_service (s : State) (n : Nat) (f : Saggar → Saggar) : (s.modSaggar n f).service = s.service := rfl
@[simp] theorem State.modSaggar_degraded (s : State) (n : Nat) (f : Saggar → Saggar) : (s.modSaggar n f).degraded = s.degraded := rfl
@[simp] theorem State.modSaggar_tilesOff (s : State) (n : Nat) (f : Saggar → Saggar) : (s.modSaggar n f).tilesOff = s.tilesOff := rfl
@[simp] theorem State.modSaggar_storeOff (s : State) (n : Nat) (f : Saggar → Saggar) : (s.modSaggar n f).storeOff = s.storeOff := rfl
@[simp] theorem State.modSaggar_stashOff (s : State) (n : Nat) (f : Saggar → Saggar) : (s.modSaggar n f).stashOff = s.stashOff := rfl
@[simp] theorem State.modSaggar_channelsOff (s : State) (n : Nat) (f : Saggar → Saggar) : (s.modSaggar n f).channelsOff = s.channelsOff := rfl
@[simp] theorem State.modSaggar_portsOff (s : State) (n : Nat) (f : Saggar → Saggar) : (s.modSaggar n f).portsOff = s.portsOff := rfl
@[simp] theorem State.modSaggar_dispatchOn (s : State) (n : Nat) (f : Saggar → Saggar) : (s.modSaggar n f).dispatchOn = s.dispatchOn := rfl
@[simp] theorem State.modSaggar_holdUp (s : State) (n : Nat) (f : Saggar → Saggar) : (s.modSaggar n f).holdUp = s.holdUp := rfl
@[simp] theorem State.modSaggar_supplyTrap (s : State) (n : Nat) (f : Saggar → Saggar) : (s.modSaggar n f).supplyTrap = s.supplyTrap := rfl
@[simp] theorem State.modSaggar_store (s : State) (n : Nat) (f : Saggar → Saggar) : (s.modSaggar n f).store = s.store := rfl
@[simp] theorem State.modSaggar_exchanges (s : State) (n : Nat) (f : Saggar → Saggar) : (s.modSaggar n f).exchanges = s.exchanges := rfl
@[simp] theorem State.modSaggar_endpointDrops (s : State) (n : Nat) (f : Saggar → Saggar) : (s.modSaggar n f).endpointDrops = s.endpointDrops := rfl
@[simp] theorem State.modSaggar_answers (s : State) (n : Nat) (f : Saggar → Saggar) : (s.modSaggar n f).answers = s.answers := rfl
@[simp] theorem State.modSaggar_readouts (s : State) (n : Nat) (f : Saggar → Saggar) : (s.modSaggar n f).readouts = s.readouts := rfl

@[simp] theorem State.modLaunch_agenda (s : State) (n : Nat) (f : Launch → Launch) : (s.modLaunch n f).agenda = s.agenda := rfl
@[simp] theorem State.modLaunch_tick (s : State) (n : Nat) (f : Launch → Launch) : (s.modLaunch n f).tick = s.tick := rfl
@[simp] theorem State.modLaunch_nextId (s : State) (n : Nat) (f : Launch → Launch) : (s.modLaunch n f).nextId = s.nextId := rfl
@[simp] theorem State.modLaunch_round (s : State) (n : Nat) (f : Launch → Launch) : (s.modLaunch n f).round = s.round := rfl
@[simp] theorem State.modLaunch_banks (s : State) (n : Nat) (f : Launch → Launch) : (s.modLaunch n f).banks = s.banks := rfl
@[simp] theorem State.modLaunch_tiles (s : State) (n : Nat) (f : Launch → Launch) : (s.modLaunch n f).tiles = s.tiles := rfl
@[simp] theorem State.modLaunch_mem (s : State) (n : Nat) (f : Launch → Launch) : (s.modLaunch n f).mem = s.mem := rfl
@[simp] theorem State.modLaunch_full (s : State) (n : Nat) (f : Launch → Launch) : (s.modLaunch n f).full = s.full := rfl
@[simp] theorem State.modLaunch_poison (s : State) (n : Nat) (f : Launch → Launch) : (s.modLaunch n f).poison = s.poison := rfl
@[simp] theorem State.modLaunch_granules (s : State) (n : Nat) (f : Launch → Launch) : (s.modLaunch n f).granules = s.granules := rfl
@[simp] theorem State.modLaunch_tags (s : State) (n : Nat) (f : Launch → Launch) : (s.modLaunch n f).tags = s.tags := rfl
@[simp] theorem State.modLaunch_side (s : State) (n : Nat) (f : Launch → Launch) : (s.modLaunch n f).side = s.side := rfl
@[simp] theorem State.modLaunch_sideBad (s : State) (n : Nat) (f : Launch → Launch) : (s.modLaunch n f).sideBad = s.sideBad := rfl
@[simp] theorem State.modLaunch_stashed (s : State) (n : Nat) (f : Launch → Launch) : (s.modLaunch n f).stashed = s.stashed := rfl
@[simp] theorem State.modLaunch_lags (s : State) (n : Nat) (f : Launch → Launch) : (s.modLaunch n f).lags = s.lags := rfl
@[simp] theorem State.modLaunch_eccCount (s : State) (n : Nat) (f : Launch → Launch) : (s.modLaunch n f).eccCount = s.eccCount := rfl
@[simp] theorem State.modLaunch_hopCount (s : State) (n : Nat) (f : Launch → Launch) : (s.modLaunch n f).hopCount = s.hopCount := rfl
@[simp] theorem State.modLaunch_reqs (s : State) (n : Nat) (f : Launch → Launch) : (s.modLaunch n f).reqs = s.reqs := rfl
@[simp] theorem State.modLaunch_deferred (s : State) (n : Nat) (f : Launch → Launch) : (s.modLaunch n f).deferred = s.deferred := rfl
@[simp] theorem State.modLaunch_waiting (s : State) (n : Nat) (f : Launch → Launch) : (s.modLaunch n f).waiting = s.waiting := rfl
@[simp] theorem State.modLaunch_owners (s : State) (n : Nat) (f : Launch → Launch) : (s.modLaunch n f).owners = s.owners := rfl
@[simp] theorem State.modLaunch_engineTlb (s : State) (n : Nat) (f : Launch → Launch) : (s.modLaunch n f).engineTlb = s.engineTlb := rfl
@[simp] theorem State.modLaunch_walks (s : State) (n : Nat) (f : Launch → Launch) : (s.modLaunch n f).walks = s.walks := rfl
@[simp] theorem State.modLaunch_walkWait (s : State) (n : Nat) (f : Launch → Launch) : (s.modLaunch n f).walkWait = s.walkWait := rfl
@[simp] theorem State.modLaunch_saggars (s : State) (n : Nat) (f : Launch → Launch) : (s.modLaunch n f).saggars = s.saggars := rfl
@[simp] theorem State.modLaunch_cohorts (s : State) (n : Nat) (f : Launch → Launch) : (s.modLaunch n f).cohorts = s.cohorts := rfl
@[simp] theorem State.modLaunch_queues (s : State) (n : Nat) (f : Launch → Launch) : (s.modLaunch n f).queues = s.queues := rfl
@[simp] theorem State.modLaunch_lastQ (s : State) (n : Nat) (f : Launch → Launch) : (s.modLaunch n f).lastQ = s.lastQ := rfl
@[simp] theorem State.modLaunch_nextLaunch (s : State) (n : Nat) (f : Launch → Launch) : (s.modLaunch n f).nextLaunch = s.nextLaunch := rfl
@[simp] theorem State.modLaunch_stamp (s : State) (n : Nat) (f : Launch → Launch) : (s.modLaunch n f).stamp = s.stamp := rfl
@[simp] theorem State.modLaunch_saveReqs (s : State) (n : Nat) (f : Launch → Launch) : (s.modLaunch n f).saveReqs = s.saveReqs := rfl
@[simp] theorem State.modLaunch_saveAnswers (s : State) (n : Nat) (f : Launch → Launch) : (s.modLaunch n f).saveAnswers = s.saveAnswers := rfl
@[simp] theorem State.modLaunch_colthr (s : State) (n : Nat) (f : Launch → Launch) : (s.modLaunch n f).colthr = s.colthr := rfl
@[simp] theorem State.modLaunch_rmthr (s : State) (n : Nat) (f : Launch → Launch) : (s.modLaunch n f).rmthr = s.rmthr := rfl
@[simp] theorem State.modLaunch_alerts (s : State) (n : Nat) (f : Launch → Launch) : (s.modLaunch n f).alerts = s.alerts := rfl
@[simp] theorem State.modLaunch_backoff (s : State) (n : Nat) (f : Launch → Launch) : (s.modLaunch n f).backoff = s.backoff := rfl
@[simp] theorem State.modLaunch_rows (s : State) (n : Nat) (f : Launch → Launch) : (s.modLaunch n f).rows = s.rows := rfl
@[simp] theorem State.modLaunch_refreshing (s : State) (n : Nat) (f : Launch → Launch) : (s.modLaunch n f).refreshing = s.refreshing := rfl
@[simp] theorem State.modLaunch_delayed (s : State) (n : Nat) (f : Launch → Launch) : (s.modLaunch n f).delayed = s.delayed := rfl
@[simp] theorem State.modLaunch_ports (s : State) (n : Nat) (f : Launch → Launch) : (s.modLaunch n f).ports = s.ports := rfl
@[simp] theorem State.modLaunch_keySlots (s : State) (n : Nat) (f : Launch → Launch) : (s.modLaunch n f).keySlots = s.keySlots := rfl
@[simp] theorem State.modLaunch_bound (s : State) (n : Nat) (f : Launch → Launch) : (s.modLaunch n f).bound = s.bound := rfl
@[simp] theorem State.modLaunch_service (s : State) (n : Nat) (f : Launch → Launch) : (s.modLaunch n f).service = s.service := rfl
@[simp] theorem State.modLaunch_degraded (s : State) (n : Nat) (f : Launch → Launch) : (s.modLaunch n f).degraded = s.degraded := rfl
@[simp] theorem State.modLaunch_tilesOff (s : State) (n : Nat) (f : Launch → Launch) : (s.modLaunch n f).tilesOff = s.tilesOff := rfl
@[simp] theorem State.modLaunch_storeOff (s : State) (n : Nat) (f : Launch → Launch) : (s.modLaunch n f).storeOff = s.storeOff := rfl
@[simp] theorem State.modLaunch_stashOff (s : State) (n : Nat) (f : Launch → Launch) : (s.modLaunch n f).stashOff = s.stashOff := rfl
@[simp] theorem State.modLaunch_channelsOff (s : State) (n : Nat) (f : Launch → Launch) : (s.modLaunch n f).channelsOff = s.channelsOff := rfl
@[simp] theorem State.modLaunch_portsOff (s : State) (n : Nat) (f : Launch → Launch) : (s.modLaunch n f).portsOff = s.portsOff := rfl
@[simp] theorem State.modLaunch_dispatchOn (s : State) (n : Nat) (f : Launch → Launch) : (s.modLaunch n f).dispatchOn = s.dispatchOn := rfl
@[simp] theorem State.modLaunch_holdUp (s : State) (n : Nat) (f : Launch → Launch) : (s.modLaunch n f).holdUp = s.holdUp := rfl
@[simp] theorem State.modLaunch_supplyTrap (s : State) (n : Nat) (f : Launch → Launch) : (s.modLaunch n f).supplyTrap = s.supplyTrap := rfl
@[simp] theorem State.modLaunch_store (s : State) (n : Nat) (f : Launch → Launch) : (s.modLaunch n f).store = s.store := rfl
@[simp] theorem State.modLaunch_exchanges (s : State) (n : Nat) (f : Launch → Launch) : (s.modLaunch n f).exchanges = s.exchanges := rfl
@[simp] theorem State.modLaunch_endpointDrops (s : State) (n : Nat) (f : Launch → Launch) : (s.modLaunch n f).endpointDrops = s.endpointDrops := rfl
@[simp] theorem State.modLaunch_answers (s : State) (n : Nat) (f : Launch → Launch) : (s.modLaunch n f).answers = s.answers := rfl
@[simp] theorem State.modLaunch_readouts (s : State) (n : Nat) (f : Launch → Launch) : (s.modLaunch n f).readouts = s.readouts := rfl

@[simp] theorem State.modReq_agenda (s : State) (n : Nat) (f : Req → Req) : (s.modReq n f).agenda = s.agenda := rfl
@[simp] theorem State.modReq_tick (s : State) (n : Nat) (f : Req → Req) : (s.modReq n f).tick = s.tick := rfl
@[simp] theorem State.modReq_nextId (s : State) (n : Nat) (f : Req → Req) : (s.modReq n f).nextId = s.nextId := rfl
@[simp] theorem State.modReq_round (s : State) (n : Nat) (f : Req → Req) : (s.modReq n f).round = s.round := rfl
@[simp] theorem State.modReq_banks (s : State) (n : Nat) (f : Req → Req) : (s.modReq n f).banks = s.banks := rfl
@[simp] theorem State.modReq_tiles (s : State) (n : Nat) (f : Req → Req) : (s.modReq n f).tiles = s.tiles := rfl
@[simp] theorem State.modReq_mem (s : State) (n : Nat) (f : Req → Req) : (s.modReq n f).mem = s.mem := rfl
@[simp] theorem State.modReq_full (s : State) (n : Nat) (f : Req → Req) : (s.modReq n f).full = s.full := rfl
@[simp] theorem State.modReq_poison (s : State) (n : Nat) (f : Req → Req) : (s.modReq n f).poison = s.poison := rfl
@[simp] theorem State.modReq_granules (s : State) (n : Nat) (f : Req → Req) : (s.modReq n f).granules = s.granules := rfl
@[simp] theorem State.modReq_tags (s : State) (n : Nat) (f : Req → Req) : (s.modReq n f).tags = s.tags := rfl
@[simp] theorem State.modReq_side (s : State) (n : Nat) (f : Req → Req) : (s.modReq n f).side = s.side := rfl
@[simp] theorem State.modReq_sideBad (s : State) (n : Nat) (f : Req → Req) : (s.modReq n f).sideBad = s.sideBad := rfl
@[simp] theorem State.modReq_stashed (s : State) (n : Nat) (f : Req → Req) : (s.modReq n f).stashed = s.stashed := rfl
@[simp] theorem State.modReq_lags (s : State) (n : Nat) (f : Req → Req) : (s.modReq n f).lags = s.lags := rfl
@[simp] theorem State.modReq_eccCount (s : State) (n : Nat) (f : Req → Req) : (s.modReq n f).eccCount = s.eccCount := rfl
@[simp] theorem State.modReq_hopCount (s : State) (n : Nat) (f : Req → Req) : (s.modReq n f).hopCount = s.hopCount := rfl
@[simp] theorem State.modReq_deferred (s : State) (n : Nat) (f : Req → Req) : (s.modReq n f).deferred = s.deferred := rfl
@[simp] theorem State.modReq_waiting (s : State) (n : Nat) (f : Req → Req) : (s.modReq n f).waiting = s.waiting := rfl
@[simp] theorem State.modReq_owners (s : State) (n : Nat) (f : Req → Req) : (s.modReq n f).owners = s.owners := rfl
@[simp] theorem State.modReq_engineTlb (s : State) (n : Nat) (f : Req → Req) : (s.modReq n f).engineTlb = s.engineTlb := rfl
@[simp] theorem State.modReq_walks (s : State) (n : Nat) (f : Req → Req) : (s.modReq n f).walks = s.walks := rfl
@[simp] theorem State.modReq_walkWait (s : State) (n : Nat) (f : Req → Req) : (s.modReq n f).walkWait = s.walkWait := rfl
@[simp] theorem State.modReq_saggars (s : State) (n : Nat) (f : Req → Req) : (s.modReq n f).saggars = s.saggars := rfl
@[simp] theorem State.modReq_cohorts (s : State) (n : Nat) (f : Req → Req) : (s.modReq n f).cohorts = s.cohorts := rfl
@[simp] theorem State.modReq_launches (s : State) (n : Nat) (f : Req → Req) : (s.modReq n f).launches = s.launches := rfl
@[simp] theorem State.modReq_queues (s : State) (n : Nat) (f : Req → Req) : (s.modReq n f).queues = s.queues := rfl
@[simp] theorem State.modReq_lastQ (s : State) (n : Nat) (f : Req → Req) : (s.modReq n f).lastQ = s.lastQ := rfl
@[simp] theorem State.modReq_nextLaunch (s : State) (n : Nat) (f : Req → Req) : (s.modReq n f).nextLaunch = s.nextLaunch := rfl
@[simp] theorem State.modReq_stamp (s : State) (n : Nat) (f : Req → Req) : (s.modReq n f).stamp = s.stamp := rfl
@[simp] theorem State.modReq_saveReqs (s : State) (n : Nat) (f : Req → Req) : (s.modReq n f).saveReqs = s.saveReqs := rfl
@[simp] theorem State.modReq_saveAnswers (s : State) (n : Nat) (f : Req → Req) : (s.modReq n f).saveAnswers = s.saveAnswers := rfl
@[simp] theorem State.modReq_colthr (s : State) (n : Nat) (f : Req → Req) : (s.modReq n f).colthr = s.colthr := rfl
@[simp] theorem State.modReq_rmthr (s : State) (n : Nat) (f : Req → Req) : (s.modReq n f).rmthr = s.rmthr := rfl
@[simp] theorem State.modReq_alerts (s : State) (n : Nat) (f : Req → Req) : (s.modReq n f).alerts = s.alerts := rfl
@[simp] theorem State.modReq_backoff (s : State) (n : Nat) (f : Req → Req) : (s.modReq n f).backoff = s.backoff := rfl
@[simp] theorem State.modReq_rows (s : State) (n : Nat) (f : Req → Req) : (s.modReq n f).rows = s.rows := rfl
@[simp] theorem State.modReq_refreshing (s : State) (n : Nat) (f : Req → Req) : (s.modReq n f).refreshing = s.refreshing := rfl
@[simp] theorem State.modReq_delayed (s : State) (n : Nat) (f : Req → Req) : (s.modReq n f).delayed = s.delayed := rfl
@[simp] theorem State.modReq_ports (s : State) (n : Nat) (f : Req → Req) : (s.modReq n f).ports = s.ports := rfl
@[simp] theorem State.modReq_keySlots (s : State) (n : Nat) (f : Req → Req) : (s.modReq n f).keySlots = s.keySlots := rfl
@[simp] theorem State.modReq_bound (s : State) (n : Nat) (f : Req → Req) : (s.modReq n f).bound = s.bound := rfl
@[simp] theorem State.modReq_service (s : State) (n : Nat) (f : Req → Req) : (s.modReq n f).service = s.service := rfl
@[simp] theorem State.modReq_degraded (s : State) (n : Nat) (f : Req → Req) : (s.modReq n f).degraded = s.degraded := rfl
@[simp] theorem State.modReq_tilesOff (s : State) (n : Nat) (f : Req → Req) : (s.modReq n f).tilesOff = s.tilesOff := rfl
@[simp] theorem State.modReq_storeOff (s : State) (n : Nat) (f : Req → Req) : (s.modReq n f).storeOff = s.storeOff := rfl
@[simp] theorem State.modReq_stashOff (s : State) (n : Nat) (f : Req → Req) : (s.modReq n f).stashOff = s.stashOff := rfl
@[simp] theorem State.modReq_channelsOff (s : State) (n : Nat) (f : Req → Req) : (s.modReq n f).channelsOff = s.channelsOff := rfl
@[simp] theorem State.modReq_portsOff (s : State) (n : Nat) (f : Req → Req) : (s.modReq n f).portsOff = s.portsOff := rfl
@[simp] theorem State.modReq_dispatchOn (s : State) (n : Nat) (f : Req → Req) : (s.modReq n f).dispatchOn = s.dispatchOn := rfl
@[simp] theorem State.modReq_holdUp (s : State) (n : Nat) (f : Req → Req) : (s.modReq n f).holdUp = s.holdUp := rfl
@[simp] theorem State.modReq_supplyTrap (s : State) (n : Nat) (f : Req → Req) : (s.modReq n f).supplyTrap = s.supplyTrap := rfl
@[simp] theorem State.modReq_store (s : State) (n : Nat) (f : Req → Req) : (s.modReq n f).store = s.store := rfl
@[simp] theorem State.modReq_exchanges (s : State) (n : Nat) (f : Req → Req) : (s.modReq n f).exchanges = s.exchanges := rfl
@[simp] theorem State.modReq_endpointDrops (s : State) (n : Nat) (f : Req → Req) : (s.modReq n f).endpointDrops = s.endpointDrops := rfl
@[simp] theorem State.modReq_answers (s : State) (n : Nat) (f : Req → Req) : (s.modReq n f).answers = s.answers := rfl
@[simp] theorem State.modReq_readouts (s : State) (n : Nat) (f : Req → Req) : (s.modReq n f).readouts = s.readouts := rfl

@[simp] theorem State.dropReq_agenda (s : State) (n : Nat) : (s.dropReq n).agenda = s.agenda := rfl
@[simp] theorem State.dropReq_tick (s : State) (n : Nat) : (s.dropReq n).tick = s.tick := rfl
@[simp] theorem State.dropReq_nextId (s : State) (n : Nat) : (s.dropReq n).nextId = s.nextId := rfl
@[simp] theorem State.dropReq_round (s : State) (n : Nat) : (s.dropReq n).round = s.round := rfl
@[simp] theorem State.dropReq_banks (s : State) (n : Nat) : (s.dropReq n).banks = s.banks := rfl
@[simp] theorem State.dropReq_tiles (s : State) (n : Nat) : (s.dropReq n).tiles = s.tiles := rfl
@[simp] theorem State.dropReq_mem (s : State) (n : Nat) : (s.dropReq n).mem = s.mem := rfl
@[simp] theorem State.dropReq_full (s : State) (n : Nat) : (s.dropReq n).full = s.full := rfl
@[simp] theorem State.dropReq_poison (s : State) (n : Nat) : (s.dropReq n).poison = s.poison := rfl
@[simp] theorem State.dropReq_granules (s : State) (n : Nat) : (s.dropReq n).granules = s.granules := rfl
@[simp] theorem State.dropReq_tags (s : State) (n : Nat) : (s.dropReq n).tags = s.tags := rfl
@[simp] theorem State.dropReq_side (s : State) (n : Nat) : (s.dropReq n).side = s.side := rfl
@[simp] theorem State.dropReq_sideBad (s : State) (n : Nat) : (s.dropReq n).sideBad = s.sideBad := rfl
@[simp] theorem State.dropReq_stashed (s : State) (n : Nat) : (s.dropReq n).stashed = s.stashed := rfl
@[simp] theorem State.dropReq_lags (s : State) (n : Nat) : (s.dropReq n).lags = s.lags := rfl
@[simp] theorem State.dropReq_eccCount (s : State) (n : Nat) : (s.dropReq n).eccCount = s.eccCount := rfl
@[simp] theorem State.dropReq_hopCount (s : State) (n : Nat) : (s.dropReq n).hopCount = s.hopCount := rfl
@[simp] theorem State.dropReq_deferred (s : State) (n : Nat) : (s.dropReq n).deferred = s.deferred := rfl
@[simp] theorem State.dropReq_waiting (s : State) (n : Nat) : (s.dropReq n).waiting = s.waiting := rfl
@[simp] theorem State.dropReq_owners (s : State) (n : Nat) : (s.dropReq n).owners = s.owners := rfl
@[simp] theorem State.dropReq_engineTlb (s : State) (n : Nat) : (s.dropReq n).engineTlb = s.engineTlb := rfl
@[simp] theorem State.dropReq_walks (s : State) (n : Nat) : (s.dropReq n).walks = s.walks := rfl
@[simp] theorem State.dropReq_walkWait (s : State) (n : Nat) : (s.dropReq n).walkWait = s.walkWait := rfl
@[simp] theorem State.dropReq_saggars (s : State) (n : Nat) : (s.dropReq n).saggars = s.saggars := rfl
@[simp] theorem State.dropReq_cohorts (s : State) (n : Nat) : (s.dropReq n).cohorts = s.cohorts := rfl
@[simp] theorem State.dropReq_launches (s : State) (n : Nat) : (s.dropReq n).launches = s.launches := rfl
@[simp] theorem State.dropReq_queues (s : State) (n : Nat) : (s.dropReq n).queues = s.queues := rfl
@[simp] theorem State.dropReq_lastQ (s : State) (n : Nat) : (s.dropReq n).lastQ = s.lastQ := rfl
@[simp] theorem State.dropReq_nextLaunch (s : State) (n : Nat) : (s.dropReq n).nextLaunch = s.nextLaunch := rfl
@[simp] theorem State.dropReq_stamp (s : State) (n : Nat) : (s.dropReq n).stamp = s.stamp := rfl
@[simp] theorem State.dropReq_saveReqs (s : State) (n : Nat) : (s.dropReq n).saveReqs = s.saveReqs := rfl
@[simp] theorem State.dropReq_saveAnswers (s : State) (n : Nat) : (s.dropReq n).saveAnswers = s.saveAnswers := rfl
@[simp] theorem State.dropReq_colthr (s : State) (n : Nat) : (s.dropReq n).colthr = s.colthr := rfl
@[simp] theorem State.dropReq_rmthr (s : State) (n : Nat) : (s.dropReq n).rmthr = s.rmthr := rfl
@[simp] theorem State.dropReq_alerts (s : State) (n : Nat) : (s.dropReq n).alerts = s.alerts := rfl
@[simp] theorem State.dropReq_backoff (s : State) (n : Nat) : (s.dropReq n).backoff = s.backoff := rfl
@[simp] theorem State.dropReq_rows (s : State) (n : Nat) : (s.dropReq n).rows = s.rows := rfl
@[simp] theorem State.dropReq_refreshing (s : State) (n : Nat) : (s.dropReq n).refreshing = s.refreshing := rfl
@[simp] theorem State.dropReq_delayed (s : State) (n : Nat) : (s.dropReq n).delayed = s.delayed := rfl
@[simp] theorem State.dropReq_ports (s : State) (n : Nat) : (s.dropReq n).ports = s.ports := rfl
@[simp] theorem State.dropReq_keySlots (s : State) (n : Nat) : (s.dropReq n).keySlots = s.keySlots := rfl
@[simp] theorem State.dropReq_bound (s : State) (n : Nat) : (s.dropReq n).bound = s.bound := rfl
@[simp] theorem State.dropReq_service (s : State) (n : Nat) : (s.dropReq n).service = s.service := rfl
@[simp] theorem State.dropReq_degraded (s : State) (n : Nat) : (s.dropReq n).degraded = s.degraded := rfl
@[simp] theorem State.dropReq_tilesOff (s : State) (n : Nat) : (s.dropReq n).tilesOff = s.tilesOff := rfl
@[simp] theorem State.dropReq_storeOff (s : State) (n : Nat) : (s.dropReq n).storeOff = s.storeOff := rfl
@[simp] theorem State.dropReq_stashOff (s : State) (n : Nat) : (s.dropReq n).stashOff = s.stashOff := rfl
@[simp] theorem State.dropReq_channelsOff (s : State) (n : Nat) : (s.dropReq n).channelsOff = s.channelsOff := rfl
@[simp] theorem State.dropReq_portsOff (s : State) (n : Nat) : (s.dropReq n).portsOff = s.portsOff := rfl
@[simp] theorem State.dropReq_dispatchOn (s : State) (n : Nat) : (s.dropReq n).dispatchOn = s.dispatchOn := rfl
@[simp] theorem State.dropReq_holdUp (s : State) (n : Nat) : (s.dropReq n).holdUp = s.holdUp := rfl
@[simp] theorem State.dropReq_supplyTrap (s : State) (n : Nat) : (s.dropReq n).supplyTrap = s.supplyTrap := rfl
@[simp] theorem State.dropReq_store (s : State) (n : Nat) : (s.dropReq n).store = s.store := rfl
@[simp] theorem State.dropReq_exchanges (s : State) (n : Nat) : (s.dropReq n).exchanges = s.exchanges := rfl
@[simp] theorem State.dropReq_endpointDrops (s : State) (n : Nat) : (s.dropReq n).endpointDrops = s.endpointDrops := rfl
@[simp] theorem State.dropReq_answers (s : State) (n : Nat) : (s.dropReq n).answers = s.answers := rfl
@[simp] theorem State.dropReq_readouts (s : State) (n : Nat) : (s.dropReq n).readouts = s.readouts := rfl

@[simp] theorem State.setByte_agenda (s : State) (n : Nat) (v : Byte) : (s.setByte n v).agenda = s.agenda := rfl
@[simp] theorem State.setByte_tick (s : State) (n : Nat) (v : Byte) : (s.setByte n v).tick = s.tick := rfl
@[simp] theorem State.setByte_nextId (s : State) (n : Nat) (v : Byte) : (s.setByte n v).nextId = s.nextId := rfl
@[simp] theorem State.setByte_round (s : State) (n : Nat) (v : Byte) : (s.setByte n v).round = s.round := rfl
@[simp] theorem State.setByte_banks (s : State) (n : Nat) (v : Byte) : (s.setByte n v).banks = s.banks := rfl
@[simp] theorem State.setByte_tiles (s : State) (n : Nat) (v : Byte) : (s.setByte n v).tiles = s.tiles := rfl
@[simp] theorem State.setByte_full (s : State) (n : Nat) (v : Byte) : (s.setByte n v).full = s.full := rfl
@[simp] theorem State.setByte_poison (s : State) (n : Nat) (v : Byte) : (s.setByte n v).poison = s.poison := rfl
@[simp] theorem State.setByte_granules (s : State) (n : Nat) (v : Byte) : (s.setByte n v).granules = s.granules := rfl
@[simp] theorem State.setByte_tags (s : State) (n : Nat) (v : Byte) : (s.setByte n v).tags = s.tags := rfl
@[simp] theorem State.setByte_side (s : State) (n : Nat) (v : Byte) : (s.setByte n v).side = s.side := rfl
@[simp] theorem State.setByte_sideBad (s : State) (n : Nat) (v : Byte) : (s.setByte n v).sideBad = s.sideBad := rfl
@[simp] theorem State.setByte_stashed (s : State) (n : Nat) (v : Byte) : (s.setByte n v).stashed = s.stashed := rfl
@[simp] theorem State.setByte_lags (s : State) (n : Nat) (v : Byte) : (s.setByte n v).lags = s.lags := rfl
@[simp] theorem State.setByte_eccCount (s : State) (n : Nat) (v : Byte) : (s.setByte n v).eccCount = s.eccCount := rfl
@[simp] theorem State.setByte_hopCount (s : State) (n : Nat) (v : Byte) : (s.setByte n v).hopCount = s.hopCount := rfl
@[simp] theorem State.setByte_reqs (s : State) (n : Nat) (v : Byte) : (s.setByte n v).reqs = s.reqs := rfl
@[simp] theorem State.setByte_deferred (s : State) (n : Nat) (v : Byte) : (s.setByte n v).deferred = s.deferred := rfl
@[simp] theorem State.setByte_waiting (s : State) (n : Nat) (v : Byte) : (s.setByte n v).waiting = s.waiting := rfl
@[simp] theorem State.setByte_owners (s : State) (n : Nat) (v : Byte) : (s.setByte n v).owners = s.owners := rfl
@[simp] theorem State.setByte_engineTlb (s : State) (n : Nat) (v : Byte) : (s.setByte n v).engineTlb = s.engineTlb := rfl
@[simp] theorem State.setByte_walks (s : State) (n : Nat) (v : Byte) : (s.setByte n v).walks = s.walks := rfl
@[simp] theorem State.setByte_walkWait (s : State) (n : Nat) (v : Byte) : (s.setByte n v).walkWait = s.walkWait := rfl
@[simp] theorem State.setByte_saggars (s : State) (n : Nat) (v : Byte) : (s.setByte n v).saggars = s.saggars := rfl
@[simp] theorem State.setByte_cohorts (s : State) (n : Nat) (v : Byte) : (s.setByte n v).cohorts = s.cohorts := rfl
@[simp] theorem State.setByte_launches (s : State) (n : Nat) (v : Byte) : (s.setByte n v).launches = s.launches := rfl
@[simp] theorem State.setByte_queues (s : State) (n : Nat) (v : Byte) : (s.setByte n v).queues = s.queues := rfl
@[simp] theorem State.setByte_lastQ (s : State) (n : Nat) (v : Byte) : (s.setByte n v).lastQ = s.lastQ := rfl
@[simp] theorem State.setByte_nextLaunch (s : State) (n : Nat) (v : Byte) : (s.setByte n v).nextLaunch = s.nextLaunch := rfl
@[simp] theorem State.setByte_stamp (s : State) (n : Nat) (v : Byte) : (s.setByte n v).stamp = s.stamp := rfl
@[simp] theorem State.setByte_saveReqs (s : State) (n : Nat) (v : Byte) : (s.setByte n v).saveReqs = s.saveReqs := rfl
@[simp] theorem State.setByte_saveAnswers (s : State) (n : Nat) (v : Byte) : (s.setByte n v).saveAnswers = s.saveAnswers := rfl
@[simp] theorem State.setByte_colthr (s : State) (n : Nat) (v : Byte) : (s.setByte n v).colthr = s.colthr := rfl
@[simp] theorem State.setByte_rmthr (s : State) (n : Nat) (v : Byte) : (s.setByte n v).rmthr = s.rmthr := rfl
@[simp] theorem State.setByte_alerts (s : State) (n : Nat) (v : Byte) : (s.setByte n v).alerts = s.alerts := rfl
@[simp] theorem State.setByte_backoff (s : State) (n : Nat) (v : Byte) : (s.setByte n v).backoff = s.backoff := rfl
@[simp] theorem State.setByte_rows (s : State) (n : Nat) (v : Byte) : (s.setByte n v).rows = s.rows := rfl
@[simp] theorem State.setByte_refreshing (s : State) (n : Nat) (v : Byte) : (s.setByte n v).refreshing = s.refreshing := rfl
@[simp] theorem State.setByte_delayed (s : State) (n : Nat) (v : Byte) : (s.setByte n v).delayed = s.delayed := rfl
@[simp] theorem State.setByte_ports (s : State) (n : Nat) (v : Byte) : (s.setByte n v).ports = s.ports := rfl
@[simp] theorem State.setByte_keySlots (s : State) (n : Nat) (v : Byte) : (s.setByte n v).keySlots = s.keySlots := rfl
@[simp] theorem State.setByte_bound (s : State) (n : Nat) (v : Byte) : (s.setByte n v).bound = s.bound := rfl
@[simp] theorem State.setByte_service (s : State) (n : Nat) (v : Byte) : (s.setByte n v).service = s.service := rfl
@[simp] theorem State.setByte_degraded (s : State) (n : Nat) (v : Byte) : (s.setByte n v).degraded = s.degraded := rfl
@[simp] theorem State.setByte_tilesOff (s : State) (n : Nat) (v : Byte) : (s.setByte n v).tilesOff = s.tilesOff := rfl
@[simp] theorem State.setByte_storeOff (s : State) (n : Nat) (v : Byte) : (s.setByte n v).storeOff = s.storeOff := rfl
@[simp] theorem State.setByte_stashOff (s : State) (n : Nat) (v : Byte) : (s.setByte n v).stashOff = s.stashOff := rfl
@[simp] theorem State.setByte_channelsOff (s : State) (n : Nat) (v : Byte) : (s.setByte n v).channelsOff = s.channelsOff := rfl
@[simp] theorem State.setByte_portsOff (s : State) (n : Nat) (v : Byte) : (s.setByte n v).portsOff = s.portsOff := rfl
@[simp] theorem State.setByte_dispatchOn (s : State) (n : Nat) (v : Byte) : (s.setByte n v).dispatchOn = s.dispatchOn := rfl
@[simp] theorem State.setByte_holdUp (s : State) (n : Nat) (v : Byte) : (s.setByte n v).holdUp = s.holdUp := rfl
@[simp] theorem State.setByte_supplyTrap (s : State) (n : Nat) (v : Byte) : (s.setByte n v).supplyTrap = s.supplyTrap := rfl
@[simp] theorem State.setByte_store (s : State) (n : Nat) (v : Byte) : (s.setByte n v).store = s.store := rfl
@[simp] theorem State.setByte_exchanges (s : State) (n : Nat) (v : Byte) : (s.setByte n v).exchanges = s.exchanges := rfl
@[simp] theorem State.setByte_endpointDrops (s : State) (n : Nat) (v : Byte) : (s.setByte n v).endpointDrops = s.endpointDrops := rfl
@[simp] theorem State.setByte_answers (s : State) (n : Nat) (v : Byte) : (s.setByte n v).answers = s.answers := rfl
@[simp] theorem State.setByte_readouts (s : State) (n : Nat) (v : Byte) : (s.setByte n v).readouts = s.readouts := rfl

@[simp] theorem State.openFiring_agenda (s : State) (l : List Firing) : (s.openFiring l).agenda = s.agenda := rfl
@[simp] theorem State.openFiring_tick (s : State) (l : List Firing) : (s.openFiring l).tick = s.tick := rfl
@[simp] theorem State.openFiring_banks (s : State) (l : List Firing) : (s.openFiring l).banks = s.banks := rfl
@[simp] theorem State.openFiring_tiles (s : State) (l : List Firing) : (s.openFiring l).tiles = s.tiles := rfl
@[simp] theorem State.openFiring_mem (s : State) (l : List Firing) : (s.openFiring l).mem = s.mem := rfl
@[simp] theorem State.openFiring_full (s : State) (l : List Firing) : (s.openFiring l).full = s.full := rfl
@[simp] theorem State.openFiring_poison (s : State) (l : List Firing) : (s.openFiring l).poison = s.poison := rfl
@[simp] theorem State.openFiring_granules (s : State) (l : List Firing) : (s.openFiring l).granules = s.granules := rfl
@[simp] theorem State.openFiring_tags (s : State) (l : List Firing) : (s.openFiring l).tags = s.tags := rfl
@[simp] theorem State.openFiring_side (s : State) (l : List Firing) : (s.openFiring l).side = s.side := rfl
@[simp] theorem State.openFiring_sideBad (s : State) (l : List Firing) : (s.openFiring l).sideBad = s.sideBad := rfl
@[simp] theorem State.openFiring_stashed (s : State) (l : List Firing) : (s.openFiring l).stashed = s.stashed := rfl
@[simp] theorem State.openFiring_lags (s : State) (l : List Firing) : (s.openFiring l).lags = s.lags := rfl
@[simp] theorem State.openFiring_eccCount (s : State) (l : List Firing) : (s.openFiring l).eccCount = s.eccCount := rfl
@[simp] theorem State.openFiring_hopCount (s : State) (l : List Firing) : (s.openFiring l).hopCount = s.hopCount := rfl
@[simp] theorem State.openFiring_reqs (s : State) (l : List Firing) : (s.openFiring l).reqs = s.reqs := rfl
@[simp] theorem State.openFiring_deferred (s : State) (l : List Firing) : (s.openFiring l).deferred = s.deferred := rfl
@[simp] theorem State.openFiring_waiting (s : State) (l : List Firing) : (s.openFiring l).waiting = s.waiting := rfl
@[simp] theorem State.openFiring_owners (s : State) (l : List Firing) : (s.openFiring l).owners = s.owners := rfl
@[simp] theorem State.openFiring_engineTlb (s : State) (l : List Firing) : (s.openFiring l).engineTlb = s.engineTlb := rfl
@[simp] theorem State.openFiring_walks (s : State) (l : List Firing) : (s.openFiring l).walks = s.walks := rfl
@[simp] theorem State.openFiring_walkWait (s : State) (l : List Firing) : (s.openFiring l).walkWait = s.walkWait := rfl
@[simp] theorem State.openFiring_saggars (s : State) (l : List Firing) : (s.openFiring l).saggars = s.saggars := rfl
@[simp] theorem State.openFiring_cohorts (s : State) (l : List Firing) : (s.openFiring l).cohorts = s.cohorts := rfl
@[simp] theorem State.openFiring_launches (s : State) (l : List Firing) : (s.openFiring l).launches = s.launches := rfl
@[simp] theorem State.openFiring_queues (s : State) (l : List Firing) : (s.openFiring l).queues = s.queues := rfl
@[simp] theorem State.openFiring_lastQ (s : State) (l : List Firing) : (s.openFiring l).lastQ = s.lastQ := rfl
@[simp] theorem State.openFiring_nextLaunch (s : State) (l : List Firing) : (s.openFiring l).nextLaunch = s.nextLaunch := rfl
@[simp] theorem State.openFiring_stamp (s : State) (l : List Firing) : (s.openFiring l).stamp = s.stamp := rfl
@[simp] theorem State.openFiring_saveReqs (s : State) (l : List Firing) : (s.openFiring l).saveReqs = s.saveReqs := rfl
@[simp] theorem State.openFiring_saveAnswers (s : State) (l : List Firing) : (s.openFiring l).saveAnswers = s.saveAnswers := rfl
@[simp] theorem State.openFiring_colthr (s : State) (l : List Firing) : (s.openFiring l).colthr = s.colthr := rfl
@[simp] theorem State.openFiring_rmthr (s : State) (l : List Firing) : (s.openFiring l).rmthr = s.rmthr := rfl
@[simp] theorem State.openFiring_alerts (s : State) (l : List Firing) : (s.openFiring l).alerts = s.alerts := rfl
@[simp] theorem State.openFiring_backoff (s : State) (l : List Firing) : (s.openFiring l).backoff = s.backoff := rfl
@[simp] theorem State.openFiring_rows (s : State) (l : List Firing) : (s.openFiring l).rows = s.rows := rfl
@[simp] theorem State.openFiring_refreshing (s : State) (l : List Firing) : (s.openFiring l).refreshing = s.refreshing := rfl
@[simp] theorem State.openFiring_delayed (s : State) (l : List Firing) : (s.openFiring l).delayed = s.delayed := rfl
@[simp] theorem State.openFiring_ports (s : State) (l : List Firing) : (s.openFiring l).ports = s.ports := rfl
@[simp] theorem State.openFiring_keySlots (s : State) (l : List Firing) : (s.openFiring l).keySlots = s.keySlots := rfl
@[simp] theorem State.openFiring_bound (s : State) (l : List Firing) : (s.openFiring l).bound = s.bound := rfl
@[simp] theorem State.openFiring_service (s : State) (l : List Firing) : (s.openFiring l).service = s.service := rfl
@[simp] theorem State.openFiring_degraded (s : State) (l : List Firing) : (s.openFiring l).degraded = s.degraded := rfl
@[simp] theorem State.openFiring_tilesOff (s : State) (l : List Firing) : (s.openFiring l).tilesOff = s.tilesOff := rfl
@[simp] theorem State.openFiring_storeOff (s : State) (l : List Firing) : (s.openFiring l).storeOff = s.storeOff := rfl
@[simp] theorem State.openFiring_stashOff (s : State) (l : List Firing) : (s.openFiring l).stashOff = s.stashOff := rfl
@[simp] theorem State.openFiring_channelsOff (s : State) (l : List Firing) : (s.openFiring l).channelsOff = s.channelsOff := rfl
@[simp] theorem State.openFiring_portsOff (s : State) (l : List Firing) : (s.openFiring l).portsOff = s.portsOff := rfl
@[simp] theorem State.openFiring_dispatchOn (s : State) (l : List Firing) : (s.openFiring l).dispatchOn = s.dispatchOn := rfl
@[simp] theorem State.openFiring_holdUp (s : State) (l : List Firing) : (s.openFiring l).holdUp = s.holdUp := rfl
@[simp] theorem State.openFiring_supplyTrap (s : State) (l : List Firing) : (s.openFiring l).supplyTrap = s.supplyTrap := rfl
@[simp] theorem State.openFiring_store (s : State) (l : List Firing) : (s.openFiring l).store = s.store := rfl
@[simp] theorem State.openFiring_exchanges (s : State) (l : List Firing) : (s.openFiring l).exchanges = s.exchanges := rfl
@[simp] theorem State.openFiring_endpointDrops (s : State) (l : List Firing) : (s.openFiring l).endpointDrops = s.endpointDrops := rfl
@[simp] theorem State.openFiring_answers (s : State) (l : List Firing) : (s.openFiring l).answers = s.answers := rfl
@[simp] theorem State.openFiring_readouts (s : State) (l : List Firing) : (s.openFiring l).readouts = s.readouts := rfl

/-! ### Reads after writes -/

theorem bank_setBank (s : State) (x y : Site) (b : Bank) : (s.setBank x b).bank y = if y = x then b else s.bank y := by
  simp only [State.bank, State.setBank, alGet_alPut]
  split <;> rfl

theorem bank_modBank (s : State) (x y : Site) (f : Bank → Bank) :
    (s.modBank x f).bank y = if y = x then f (s.bank x) else s.bank y := bank_setBank s x y _

@[simp] theorem bank_modBank_self (s : State) (x : Site) (f : Bank → Bank) : (s.modBank x f).bank x = f (s.bank x) := by
  simp [bank_modBank]

theorem tile_modTile (s : State) (n m : Nat) (f : Tile → Tile) :
    (s.modTile n f).tile m = if m = n then f (s.tile n) else s.tile m := by
  simp only [State.modTile, State.tile, getD_setAt]

theorem slot_modSlot (s : State) (n k m j : Nat) (f : Slot → Slot) :
    (s.modSlot n k f).slot m j = if m = n ∧ j = k then f (s.slot n k) else s.slot m j := by
  simp only [State.slot, State.modSlot, tile_modTile]
  by_cases h : m = n
  · subst h
    simp only [if_true, true_and, getD_setAt]
  · simp [h]

theorem saggar_modSaggar (s : State) (n m : Nat) (f : Saggar → Saggar) :
    (s.modSaggar n f).saggar m = if m = n then f (s.saggar n) else s.saggar m := by
  simp only [State.modSaggar, State.saggar, getD_setAt]

theorem out_modOut (b : Bank) (o n : Nat) (f : OutState → OutState) :
    (b.modOut o f).out n = if n = o then f (b.out o) else b.out n := by
  simp only [Bank.modOut, Bank.out, getD_setAt]

theorem chan_modChan (b : Bank) (c n : Nat) (f : Chan → Chan) :
    (b.modChan c f).chan n = if n = c then f (b.chan c) else b.chan n := by
  simp only [Bank.modChan, Bank.chan, getD_setAt]

/-- A register reads back what was written last (R40). -/
theorem reg_setReg (b : Bank) (r q : Reg) (v : Word) : (b.setReg r v).reg q = if q = r then v else b.reg q := by
  cases r <;> cases q <;> simp only [Bank.setReg, Bank.reg, getD_setAt] <;> simp

@[simp] theorem modSlot_bank (s : State) (n k : Nat) (f : Slot → Slot) (y : Site) : (s.modSlot n k f).bank y = s.bank y := rfl
@[simp] theorem count_bank (s : State) (n k c : Nat) (y : Site) : (s.count n k c).bank y = s.bank y := rfl
@[simp] theorem progress_bank (s : State) (x y : Site) : (s.progress x).bank y = s.bank y := rfl
@[simp] theorem openFiring_bank (s : State) (l : List Firing) (y : Site) : (s.openFiring l).bank y = s.bank y := rfl
@[simp] theorem openFiring_slot (s : State) (l : List Firing) (n k : Nat) : (s.openFiring l).slot n k = s.slot n k := rfl
@[simp] theorem openFiring_tile (s : State) (l : List Firing) (n : Nat) : (s.openFiring l).tile n = s.tile n := rfl
@[simp] theorem modBank_slot (s : State) (x : Site) (f : Bank → Bank) (n k : Nat) : (s.modBank x f).slot n k = s.slot n k := rfl
@[simp] theorem modBank_tile (s : State) (x : Site) (f : Bank → Bank) (n : Nat) : (s.modBank x f).tile n = s.tile n := rfl
@[simp] theorem modSaggar_bank (s : State) (n : Nat) (f : Saggar → Saggar) (y : Site) : (s.modSaggar n f).bank y = s.bank y := rfl
@[simp] theorem modLaunch_bank (s : State) (n : Nat) (f : Launch → Launch) (y : Site) : (s.modLaunch n f).bank y = s.bank y := rfl
@[simp] theorem modReq_bank (s : State) (n : Nat) (f : Req → Req) (y : Site) : (s.modReq n f).bank y = s.bank y := rfl
@[simp] theorem dropReq_bank (s : State) (n : Nat) (y : Site) : (s.dropReq n).bank y = s.bank y := rfl
@[simp] theorem setByte_bank (s : State) (n : Nat) (v : Byte) (y : Site) : (s.setByte n v).bank y = s.bank y := rfl

end Sys2Proof.Machine
end

