-- ==== Sys2Proof/Laws/Fire.lean ====
section
/-! SUPPORT. What a rule leaves that nothing keeps from its effect: the firing of R33 and the commit of R34, said once. -/

namespace Sys2Proof.Machine

/-- The context of the firing at the head of the open round. -/
def firingCtx (s : State) (f : Firing) (i : Instr) : Ctx := { x := f.site, k := f.rule, id := s.nextId, h := Instr.hdr i }

theorem lacks_openFiring (s : State) (rest : List Firing) (x : Site) (p : Plan) :
    (s.openFiring rest).lacks x p = s.lacks x p := by
  have h (l taken : List Nat) : (s.openFiring rest).lacksAfter x taken l = s.lacksAfter x taken l := by
    induction l generalizing taken with
    | nil => rfl
    | cons o r ih => simp only [State.lacksAfter, ih]; rfl
  exact h _ _

/-- A rule that nothing keeps commits the effect that its plan computes from the state before it. -/
theorem fire_commits {i : Instr} {plan : Ctx → State → Plan} {s : State} {f : Firing} {rest : List Firing}
    (hc : Clear s f rest i) (p : Plan) (hp : plan (firingCtx s f i) (s.openFiring rest) = p)
    (hf : p.fault = none) (hl : s.lacks f.site p = none) (hr : p.refuse = false) :
    fire i plan s = .next ((s.openFiring rest).commit (firingCtx s f i) i p) := by
  have h1 : (s.openFiring rest).held f.site f.rule i = false := hc.noHold
  have h2 : ((s.openFiring rest).bank f.site).firstFault i none p = none := by
    have := hc.noOwner
    have := hc.noTag
    simp_all [Bank.firstFault]
  have h3 : (s.openFiring rest).lacks f.site p = none := (lacks_openFiring ..).trans hl
  have h4 : ((s.openFiring rest).round.ups.find? fun u => u.cell = f.site.cell && u.rule = f.rule) = none := hc.upset
  unfold fire
  rw [hc.first]
  simp only [State.fireOne, h4]
  have h5 : plan { x := f.site, k := f.rule, id := s.nextId, h := Instr.hdr i } (s.openFiring rest) = p := hp
  rw [h5]
  simp only [State.fate, h1, hc.ports, h2, h3, hr, State.conclude, State.noteCorrected, firingCtx]
  simp

/-- What the effect of an instruction does to the state, its guard word apart. -/
structure Acted (s t : State) (x : Site) (r : Regs) (sends : List (Nat × Said)) (asks : List Req) : Prop where
  own    : (t.bank x).regs = r
  others : ∀ y, y ≠ x → (t.bank y).regs = (s.bank y).regs
  tokens : ∀ y o, ((t.bank y).out o).said = ((s.bank y).out o).said ++
    (if y = x then (sends.filter (·.1 = o)).map (·.2) else [])
  heads  : ∀ y n, ((t.bank y).chan n).look = ((s.bank y).chan n).look
  wires  : ∀ y o, ((t.bank y).out o).wire = ((s.bank y).out o).wire
  reqs   : t.reqs = s.reqs ++ asks
  tiles  : SameTiles s t
  rest   : t.rest = s.rest

/-- The same for an effect that also changes the channels and gates of its bank. -/
structure ActedOn (s t : State) (x : Site) (e : Effect) : Prop where
  own    : (t.bank x).regs = e.regs
  others : ∀ y, y ≠ x → (t.bank y).regs = (s.bank y).regs
  tokens : ∀ y o, ((t.bank y).out o).said = ((s.bank y).out o).said ++
    (if y = x then (e.sends.filter (·.1 = o)).map (·.2) else [])
  heads  : ∀ y n, ((t.bank y).chan n).look =
    if y = x then (e.chans n ((s.bank y).chan n)).look else ((s.bank y).chan n).look
  wires  : ∀ y o, ((t.bank y).out o).wire = if y = x then e.wires o ((s.bank y).out o).wire else ((s.bank y).out o).wire
  reqs   : t.reqs = s.reqs ++ e.asks
  shared : ∀ n, (t.tile n).shared = if n = x.tile then (e.tile (s.tile n)).shared else (s.tile n).shared
  plane  : ∀ n k, (t.slot n k).plane = (s.slot n k).plane
  rest   : t.rest = e.rest s.rest

theorem Acted.on {s t : State} {x : Site} {r : Regs} {sends : List (Nat × Said)} {asks : List Req}
    (h : Acted s t x r sends asks) : ActedOn s t x { regs := r, sends := sends, asks := asks } :=
  ⟨h.own, h.others, h.tokens, fun y n => by rw [h.heads]; split <;> rfl, fun y o => by rw [h.wires]; split <;> rfl,
    h.reqs, fun n => by rw [h.tiles.shared]; split <;> rfl, h.tiles.plane, h.rest⟩

theorem SameTiles.refl (s : State) : SameTiles s s := ⟨fun _ => rfl, fun _ _ => rfl⟩

theorem SameTiles.trans {s t u : State} (h : SameTiles s t) (h' : SameTiles t u) : SameTiles s u :=
  ⟨fun n => (h'.shared n).trans (h.shared n), fun n k => (h'.plane n k).trans (h.plane n k)⟩

/-- A change of a plane slot that only its counters and marks show. -/
theorem SameTiles.modSlot (s : State) (n k : Nat) (f : Slot → Slot) (h : ∀ z, (f z).plane = z.plane) :
    SameTiles s (s.modSlot n k f) := by
  constructor
  · intro m
    simp only [State.modSlot, tile_modTile]
    split
    · rename_i e; subst e; rfl
    · rfl
  · intro m j
    rw [slot_modSlot]
    split
    · rename_i e; obtain ⟨rfl, rfl⟩ := e; exact h _
    · rfl

theorem SameTiles.count (s : State) (n k c : Nat) : SameTiles s (s.count n k c) := .modSlot s n k _ fun _ => rfl

theorem SameTiles.progress (s : State) (x : Site) : SameTiles s (s.progress x) := .modSlot s x.tile x.slot _ fun _ => rfl

theorem SameTiles.modBank (s : State) (x : Site) (f : Bank → Bank) : SameTiles s (s.modBank x f) := ⟨fun _ => rfl, fun _ _ => rfl⟩

theorem Acted.refl (s : State) (x : Site) : Acted s s x (s.bank x).regs [] [] :=
  ⟨rfl, fun _ _ => rfl, fun y o => by simp, fun _ _ => rfl, fun _ _ => rfl, by simp, .refl s, rfl⟩

/-- One effect after another. -/
theorem Acted.trans {s t u : State} {x : Site} {r r' : Regs} {a b : List (Nat × Said)} {q q' : List Req}
    (h : Acted s t x r a q) (h' : Acted t u x r' b q') : Acted s u x r' (a ++ b) (q ++ q') where
  own := h'.own
  others := fun y hy => (h'.others y hy).trans (h.others y hy)
  tokens := fun y o => by
    rw [h'.tokens, h.tokens]
    split <;> simp
  heads := fun y n => (h'.heads y n).trans (h.heads y n)
  wires := fun y n => (h'.wires y n).trans (h.wires y n)
  reqs := by rw [h'.reqs, h.reqs, List.append_assoc]
  tiles := h.tiles.trans h'.tiles
  rest := h'.rest.trans h.rest

/-- An effect on one bank that leaves its outputs and channels alone. -/
theorem Acted.modBank (s : State) (x : Site) (f : Bank → Bank)
    (ho : ∀ o, ((f (s.bank x)).out o).said = ((s.bank x).out o).said ∧ ((f (s.bank x)).out o).wire = ((s.bank x).out o).wire)
    (hh : ∀ n, ((f (s.bank x)).chan n).look = ((s.bank x).chan n).look) :
    Acted s (s.modBank x f) x (f (s.bank x)).regs [] [] where
  own := by rw [bank_modBank_self]
  others := fun y hy => by rw [bank_modBank, if_neg hy]
  tokens := fun y o => by
    rw [bank_modBank]
    split
    · rename_i e; subst e; simp [(ho o).1]
    · simp
  heads := fun y n => by
    rw [bank_modBank]
    split
    · rename_i e; subst e; exact hh n
    · rfl
  wires := fun y o => by
    rw [bank_modBank]
    split
    · rename_i e; subst e; exact (ho o).2
    · rfl
  reqs := by simp
  tiles := .modBank s x f
  rest := rfl

theorem Acted.modOther (s : State) (x y : Site) (f : Bank → Bank) (hr : (f (s.bank y)).regs = (s.bank y).regs)
    (ho : ∀ o, ((f (s.bank y)).out o).said = ((s.bank y).out o).said ∧ ((f (s.bank y)).out o).wire = ((s.bank y).out o).wire)
    (hh : ∀ n, ((f (s.bank y)).chan n).look = ((s.bank y).chan n).look) :
    Acted s (s.modBank y f) x (s.bank x).regs [] [] where
  own := by
    rw [bank_modBank]
    split
    · rename_i e; subst e; exact hr
    · rfl
  others := fun z _ => by
    rw [bank_modBank]
    split
    · rename_i e; subst e; exact hr
    · rfl
  tokens := fun z o => by
    rw [bank_modBank]
    split
    · rename_i e; subst e; simp [(ho o).1]
    · simp
  heads := fun z n => by
    rw [bank_modBank]
    split
    · rename_i e; subst e; exact hh n
    · rfl
  wires := fun y o => by
    rw [bank_modBank]
    split
    · rename_i e; subst e; exact (ho o).2
    · rfl
  reqs := by simp
  tiles := .modBank s y f
  rest := rfl

theorem Acted.modSlot (s : State) (x : Site) (n k : Nat) (f : Slot → Slot) (h : ∀ z, (f z).plane = z.plane) :
    Acted s (s.modSlot n k f) x (s.bank x).regs [] [] :=
  ⟨rfl, fun _ _ => rfl, fun y o => by simp, fun _ _ => rfl, fun _ _ => rfl, by simp, .modSlot s n k f h, rfl⟩

/-! ### Tokens -/

theorem said_modOut (b : Bank) (o n : Nat) (f : OutState → OutState) (h : (f (b.out o)).said = (b.out o).said)
    (h' : (f (b.out o)).wire = (b.out o).wire) :
    ((b.modOut o f).out n).said = (b.out n).said ∧ ((b.modOut o f).out n).wire = (b.out n).wire := by
  rw [out_modOut]
  split
  · rename_i e; subst e; exact ⟨h, h'⟩
  · exact ⟨rfl, rfl⟩

theorem look_modChan (b : Bank) (c n : Nat) (f : Chan → Chan) (h : (f (b.chan c)).look = (b.chan c).look) :
    ((b.modChan c f).chan n).look = (b.chan n).look := by
  rw [chan_modChan]
  split
  · rename_i e; subst e; exact h
  · rfl

theorem Acted.takeSlot (s : State) (x z : Site) (o : Nat) (credit : Bool) : Acted s (s.takeSlot z o credit) x (s.bank x).regs [] [] := by
  unfold State.takeSlot
  split
  · exact .refl s x
  · rename_i y n _
    have h1 := Acted.modOther s x y (fun b => b.modChan n fun c => { c with taken := c.taken + 1 }) rfl (fun _ => ⟨rfl, rfl⟩)
      (fun m => look_modChan _ _ _ _ rfl)
    cases credit
    · exact h1
    · have h2 := Acted.modOther (s.modBank y fun b => b.modChan n fun c => { c with taken := c.taken + 1 }) x z
        (fun b => b.modOut o fun p => if p.gateOn then { p with credit := p.credit - 1 } else p) rfl
        (fun m => said_modOut _ _ _ _ (by split <;> rfl) (by split <;> rfl)) (fun _ => rfl)
      rw [h1.own] at h2
      exact h1.trans h2

theorem said_leave (x : Site) (o : Nat) (p : OutState) (t : GTok) (g : Group) (ts : List GTok) (gs : List Group)
    (hg : p.groups = g :: gs) (ht : g.toks = t :: ts) (hr : p.resend = []) :
    (OutState.leave x o { p with groups := { g with toks := ts } :: gs } t).said = p.said := by
  simp [OutState.leave, OutState.said, hg, ht, hr, GTok.said, Token.said]

theorem said_pump (x : Site) (o : Nat) (frozen : Bool) (n : Nat) (p : OutState) : (p.pump x o frozen n).said = p.said := by
  induction n generalizing p with
  | zero => rfl
  | succ n ih =>
    unfold OutState.pump
    split
    · rfl
    · rename_i hr
      have hr : p.resend = [] := by simpa using hr
      split
      · rfl
      · rename_i g gs hg
        split
        · rename_i ht
          split
          · rw [ih]; simp [OutState.said, hg, ht]
          · rfl
        · rename_i t ts ht
          split
          · rw [ih]; exact said_leave x o p t g ts gs hg ht hr
          · rfl

theorem wire_pump (x : Site) (o : Nat) (frozen : Bool) (n : Nat) (p : OutState) : (p.pump x o frozen n).wire = p.wire := by
  induction n generalizing p with
  | zero => rfl
  | succ n ih =>
    unfold OutState.pump
    split
    · rfl
    · split
      · rfl
      · split
        · split
          · rw [ih]; rfl
          · rfl
        · split
          · rw [ih]; rfl
          · rfl

theorem Acted.pumpOnce (s : State) (x z : Site) (o : Nat) : Acted s (s.pumpOnce z o) x (s.bank x).regs [] [] :=
  Acted.modOther s x z _ rfl (fun m => said_modOut _ _ _ _ (said_pump ..) (wire_pump ..)) (fun _ => rfl)

theorem Acted.pump (s : State) (x z : Site) (o n : Nat) : Acted s (s.pump z o n) x (s.bank x).regs [] [] := by
  induction n generalizing s with
  | zero => exact .refl s x
  | succ n ih =>
    have h1 := Acted.pumpOnce s x z o
    unfold State.pump
    simp only
    split
    · rename_i g gs hg
      split
      · rename_i t ts ht
        generalize (decide (t.slot = false) && _) = c
        cases c
        · simpa using h1
        · simp only [if_true]
          have h2 := Acted.takeSlot (s.pumpOnce z o) x z o (!t.seqr)
          have hb : ((((s.pumpOnce z o).takeSlot z o (!t.seqr)).bank z).out o).groups = g :: gs := by
            rw [← hg]
            unfold State.takeSlot
            split
            · rfl
            · rename_i y m hy
              cases (!t.seqr)
              · simp only [Bool.false_eq_true, if_false, bank_modBank]
                split
                · rename_i e; subst e; rfl
                · rfl
              · simp only [if_true, bank_modBank_self, out_modOut]
                have h5 : ∀ q : OutState, (if q.gateOn = true then { q with credit := q.credit - 1 } else q).groups = q.groups := by
                  intro q; split <;> rfl
                rw [h5, bank_modBank]
                split
                · rename_i e; subst e; rfl
                · rfl
          have h3 := Acted.modOther ((s.pumpOnce z o).takeSlot z o (!t.seqr)) x z
            (fun b => b.modOut o fun p => { p with groups := { g with toks := { t with slot := true } :: ts } :: gs }) rfl
            (fun m => said_modOut _ _ _ _ (by
              have := hb
              simp [OutState.said, this, ht, GTok.said]) rfl) (fun _ => rfl)
          rw [h2.own, h1.own] at h3
          rw [h1.own] at h2
          have h4 := ih (((s.pumpOnce z o).takeSlot z o (!t.seqr)).modBank z fun b => b.modOut o fun p =>
            { p with groups := { g with toks := { t with slot := true } :: ts } :: gs })
          rw [h3.own] at h4
          exact ((h1.trans h2).trans h3).trans h4
      · exact h1
    · exact h1

theorem Acted.flush (s : State) (x z : Site) (o : Nat) : Acted s (s.flush z o) x (s.bank x).regs [] [] := .pump s x z o _

/-- A token that leaves at once stands at the end of its output (R42, R72). -/
theorem Acted.emit (s : State) (x : Site) (o id : Nat) (t : GTok) (ht : t.cls ≠ clsMarker) :
    Acted s (s.emit x o id t) x (s.bank x).regs [(o, t.said)] [] := by
  unfold State.emit
  have h1 := Acted.takeSlot s x x o true
  have h2 : Acted (s.takeSlot x o true) ((s.takeSlot x o true).addGroup x o { id := id, toks := [{ t with slot := true }], closed := true })
      x ((s.takeSlot x o true).bank x).regs [(o, t.said)] [] := by
    refine ⟨?_, ?_, ?_, ?_, ?_, by simp [State.addGroup], .modBank .., rfl⟩
    · rw [State.addGroup, bank_modBank_self]; rfl
    · intro y hy; rw [State.addGroup, bank_modBank, if_neg hy]
    · intro y n
      rw [State.addGroup, bank_modBank]
      split
      · rename_i e; subst e
        rw [out_modOut]
        by_cases h : n = o
        · subst h
          simp [OutState.said, GTok.said, ht]
        · have : ¬ o = n := fun e => h e.symm
          simp [h, this]
      · simp
    · intro y n
      rw [State.addGroup, bank_modBank]
      split
      · rename_i e; subst e; rfl
      · rfl
    · intro y n
      rw [State.addGroup, bank_modBank]
      split
      · rename_i e; subst e
        rw [out_modOut]
        split
        · rename_i e; subst e; rfl
        · rfl
      · rfl
  have h3 := Acted.flush ((s.takeSlot x o true).addGroup x o { id := id, toks := [{ t with slot := true }], closed := true }) x x o
  rw [h2.own] at h3
  rw [h1.own] at h2 h3
  exact (h1.trans h2).trans h3

/-- Slots taken for tokens that come later send nothing yet. -/
theorem Acted.takeSlots (s : State) (x z : Site) (o n : Nat) (credit : Bool) :
    Acted s (n.fold (fun _ _ s => s.takeSlot z o credit) s) x (s.bank x).regs [] [] := by
  induction n with
  | zero => exact .refl s x
  | succ n ih =>
    rw [Nat.fold_succ]
    have h := Acted.takeSlot (n.fold (fun _ _ s => s.takeSlot z o credit) s) x z o credit
    rw [ih.own] at h
    exact ih.trans h

theorem Acted.addEmpty (s : State) (x z : Site) (o : Nat) (g : Group) (hg : g.toks = []) :
    Acted s (s.addGroup z o g) x (s.bank x).regs [] [] :=
  Acted.modOther s x z _ rfl (fun m => said_modOut _ _ _ _ (by simp [OutState.said, hg]) rfl) (fun _ => rfl)

theorem Acted.reserve (s : State) (x z : Site) (o id n : Nat) (closed run : Bool) :
    Acted s (s.reserve z o id n closed run) x (s.bank x).regs [] [] := by
  have h1 := Acted.takeSlots s x z o n true
  have h2 := Acted.addEmpty (n.fold (fun _ _ s => s.takeSlot z o true) s) x z o { id := id, resv := n, closed := closed, run := run } rfl
  rw [h1.own] at h2
  exact h1.trans h2

/-! ### The guard word -/

/-- A copy that a sender drops shows nowhere else. -/
theorem Acted.ack (s : State) (x : Site) (t : Token) : Acted s (s.ack t) x (s.bank x).regs [] [] :=
  Acted.modOther s x t.src _ rfl (fun m => said_modOut _ _ _ _ rfl rfl) (fun _ => rfl)

/-- One DEQ bit, when its head is no bad scale header. -/
structure Takes (s t : State) (x : Site) (d : Nat → Chan → Chan) : Prop where
  regs   : ∀ y, (t.bank y).regs = (s.bank y).regs
  tokens : ∀ y o, ((t.bank y).out o).said = ((s.bank y).out o).said
  heads  : ∀ y n, ((t.bank y).chan n).look = if y = x then (d n ((s.bank y).chan n)).look else ((s.bank y).chan n).look
  wires  : ∀ y o, ((t.bank y).out o).wire = ((s.bank y).out o).wire
  reqs   : t.reqs = s.reqs
  tiles  : SameTiles s t
  rest   : t.rest = s.rest

theorem badHead_none (c : Chan) (h : c.headersGood = true) : c.badHead = none := by
  unfold Chan.badHead
  split
  · rename_i t r ht
    simp only [Chan.headersGood, ht, List.all_cons, Bool.and_eq_true] at h
    have := h.1
    split
    · simp_all
    · rfl
  · rfl

theorem takes_deqBit (s : State) (x : Site) (k : Nat) (on : Bool) (t : Option ChanTest)
    (hg : ∀ u, on = true → t = some u → ((s.bank x).chan u.ch.toNat).headersGood = true) :
    Takes s (s.deqBit x k on t) x (deqOne on t) := by
  have refl (d : Nat → Chan → Chan) (hd : ∀ n, (d n ((s.bank x).chan n)).look = ((s.bank x).chan n).look) : Takes s s x d :=
    ⟨fun _ => rfl, fun _ _ => rfl, fun y n => by
      split
      · rename_i e; subst e; exact (hd n).symm
      · rfl, fun _ _ => rfl, rfl, .refl s, rfl⟩
  unfold State.deqBit
  split
  · rename_i u
    have hbad := badHead_none _ (hg u rfl rfl)
    split
    · rename_i hd r hr
      split
      · rename_i hst
        refine refl _ fun n => ?_
        unfold deqOne
        split
        · rename_i h1 h2 h3
          split
          · rename_i hc
            simp only [Bool.and_eq_true, decide_eq_true_eq, Bool.not_eq_true'] at hc
            obtain ⟨rfl, hc⟩ := hc
            cases h2
            rw [hr] at h3
            cases h3
            simp [hst] at hc
          · rfl
        · rfl
      · rename_i hst
        have e1 : s.removeHead x k u.ch.toNat =
            ((s.modBank x fun b => b.modChan u.ch.toNat fun c => c.noteRemoved hd).modBank x
              (fun b => b.modChan u.ch.toNat fun c => { c with toks := r })).ack hd := by
          have hn : ∀ c : Chan, (c.noteRemoved hd).toks = c.toks := by
            intro c; unfold Chan.noteRemoved; split
            · split <;> rfl
            · split <;> rfl
          simp only [State.removeHead, hr, hbad, State.popHead, bank_modBank_self, chan_modChan, if_true, hn]
        rw [e1]
        have h2 := Acted.ack ((s.modBank x fun b => b.modChan u.ch.toNat fun c => c.noteRemoved hd).modBank x
              (fun b => b.modChan u.ch.toNat fun c => { c with toks := r })) x hd
        refine ⟨?_, ?_, ?_, ?_, by rw [h2.reqs]; simp, ?_, h2.rest⟩
        · intro y
          by_cases hy : y = x
          · subst hy; rw [h2.own]; simp only [bank_modBank_self]; rfl
          · rw [h2.others y hy]; simp [bank_modBank, hy]
        · intro y o
          rw [h2.tokens]
          simp only [bank_modBank]
          split
          · rename_i e; subst e; simp; rfl
          · simp
        · intro y n
          rw [h2.heads]
          simp only [bank_modBank, if_true]
          split
          · rename_i e; subst e
            simp only [chan_modChan, if_true]
            by_cases hn : n = u.ch.toNat
            · subst hn
              simp [deqOne, hr, hst]
            · simp only [hn, if_false]
              unfold deqOne
              split
              · rename_i h1 h2 h3
                obtain rfl := Option.some.inj h2
                simp [show ¬ u.ch.toNat = n from fun e => hn e.symm]
              · rfl
          · rfl
        · intro y o
          rw [h2.wires]
          simp only [bank_modBank]
          split
          · rename_i e; subst e; simp; rfl
          · rfl
        · exact ((SameTiles.modBank ..).trans (.modBank ..)).trans h2.tiles
    · rename_i hr
      refine refl _ fun n => ?_
      unfold deqOne
      split
      · rename_i h1 h2 h3
        cases h2
        split
        · rename_i hc
          simp only [Bool.and_eq_true, decide_eq_true_eq] at hc
          obtain ⟨rfl, _⟩ := hc
          rw [hr] at h3; cases h3
        · rfl
      · rfl
  · rename_i hne
    refine refl _ fun n => ?_
    unfold deqOne
    split
    · exact absurd rfl (hne _ rfl)
    · rfl

theorem headersGood_deqOne (on : Bool) (t : Option ChanTest) (n : Nat) (c : Chan) (h : c.headersGood = true) :
    (deqOne on t n c).headersGood = true := by
  unfold deqOne
  split
  · rename_i u hd r hr
    split
    · have hf : (c.noteRemoved hd).fmt = c.fmt := by
        unfold Chan.noteRemoved; split
        · split <;> rfl
        · split <;> rfl
      simp only [Chan.headersGood, hr, List.all_cons, Bool.and_eq_true] at h
      simpa [Chan.headersGood, hf] using h.2
    · exact h
  · exact h

theorem headersGood_look (c e : Chan) (h : c.look = e.look) : c.headersGood = e.headersGood := by
  have h1 : c.toks = e.toks := congrArg (·.toks) h
  have h2 : c.fmt = e.fmt := congrArg (·.fmt) h
  simp only [Chan.headersGood, h1, h2]

theorem deqOne_look (on : Bool) (t : Option ChanTest) (n : Nat) (c e : Chan) (h : c.look = e.look) :
    (deqOne on t n c).look = (deqOne on t n e).look := by
  have h1 : c.toks = e.toks := congrArg (·.toks) h
  have h2 : c.fmt = e.fmt := congrArg (·.fmt) h
  have h3 : c.latch = e.latch := congrArg (·.latch) h
  have h4 : c.expect = e.expect := congrArg (·.expect) h
  have h5 : c.reinj = e.reinj := congrArg (·.reinj) h
  have h6 : c.kept = e.kept := congrArg (·.kept) h
  unfold deqOne
  rw [h1]
  split
  · split
    · simp only [Chan.look, Chan.noteRemoved, h2, h3]
      split
      · split <;> simp [h2, h3, h4, h5, h6]
      · split <;> simp [h2, h3, h4, h5, h6]
    · exact h
  · exact h

/-- The state in which an effect is applied: the state of the firing, but for the count of firings and for the accesses whose
completion tokens the guard tested. -/
structure Opened (s u : State) : Prop where
  regs   : ∀ y, (u.bank y).regs = (s.bank y).regs
  chan   : ∀ y n, (u.bank y).chan n = (s.bank y).chan n
  out    : ∀ y n, (u.bank y).out n = (s.bank y).out n
  rules  : ∀ y, (u.bank y).rules = (s.bank y).rules
  reqs   : u.reqs = s.reqs
  nextId : u.nextId = s.nextId + 1
  tiles  : u.tiles = s.tiles
  rest   : u.rest = s.rest

/-- What a cell learns at a commit changes only what it knows. -/
theorem learn_cases (s : State) (x : Site) (l : List (Path × Nat)) :
    s.learn x l = s ∨ ∃ k : Bank → List (Path × Nat), s.learn x l = s.modBank x fun b => { b with known := k b } := by
  unfold State.learn
  split
  · exact .inl rfl
  · exact .inr ⟨_, rfl⟩

theorem opened_learn (s : State) (rest : List Firing) (x : Site) (l : List (Path × Nat)) :
    Opened s ((s.openFiring rest).learn x l) := by
  obtain h | ⟨k, h⟩ := learn_cases (s.openFiring rest) x l <;> rw [h]
  · exact ⟨fun _ => rfl, fun _ _ => rfl, fun _ _ => rfl, fun _ => rfl, rfl, rfl, rfl, rfl⟩
  · have hb (y : Site) : ∃ k', ((s.openFiring rest).modBank x fun b => { b with known := k b }).bank y
        = { s.bank y with known := k' } := by
      rw [bank_modBank]
      split
      · rename_i e; subst e; exact ⟨_, rfl⟩
      · exact ⟨(s.bank y).known, rfl⟩
    constructor
    · intro y; obtain ⟨_, e⟩ := hb y; rw [e]; rfl
    · intro y n; obtain ⟨_, e⟩ := hb y; rw [e]; rfl
    · intro y n; obtain ⟨_, e⟩ := hb y; rw [e]; rfl
    · intro y; obtain ⟨_, e⟩ := hb y; rw [e]
    all_goals rfl

/-- What a commit leaves, from what the instruction's own effect does (R34). -/
theorem commit_leavesOn {s : State} {f : Firing} {rest : List Firing} {i : Instr} (hc : Clear s f rest i) (p : Plan) {e : Effect}
    (hg : ∀ n, ((s.bank f.site).chan n).headersGood = true → (e.chans n ((s.bank f.site).chan n)).headersGood = true)
    (ha : ∀ u : State, Opened s u → ActedOn u (p.act u) f.site e) (hid : p.after = id := by rfl) :
    Leaves s ((s.openFiring rest).commit (firingCtx s f i) i p) f i e := by
  have ho := opened_learn s rest f.site ((s.bank f.site).edgeWaits (Instr.hdr i))
  have h0 := ha _ ho
  have e0 : (s.openFiring rest).bank f.site = s.bank f.site := rfl
  unfold State.commit
  simp only [firingCtx, e0, hid, id]
  generalize hu : (s.openFiring rest).learn f.site ((s.bank f.site).edgeWaits (Instr.hdr i)) = u at h0 ho
  have hchan := ho.chan
  have hout := ho.out
  have hregs := ho.regs
  generalize hv : p.act u = v at h0
  -- the predicates
  generalize hw : (v.modBank f.site fun b => { b with p := predUpdate b.p (Instr.hdr i).pset (Instr.hdr i).pclr }) = w
  have hwr : (w.bank f.site).regs = { e.regs with p := predUpdate e.regs.p (Instr.hdr i).pset (Instr.hdr i).pclr } := by
    rw [← hw, bank_modBank_self, ← h0.own]; rfl
  have hwo : ∀ y, y ≠ f.site → (w.bank y).regs = (s.bank y).regs := by
    intro y hy; rw [← hw, bank_modBank, if_neg hy, h0.others y hy, hregs]
  have hwc : ∀ y n, ((w.bank y).chan n).look =
      if y = f.site then (e.chans n ((s.bank y).chan n)).look else ((s.bank y).chan n).look := by
    intro y n
    rw [← hchan, ← h0.heads, ← hw, bank_modBank]
    split
    · rename_i e; subst e; rfl
    · rfl
  have hww : ∀ y o, ((w.bank y).out o).wire =
      if y = f.site then e.wires o ((s.bank y).out o).wire else ((s.bank y).out o).wire := by
    intro y o
    rw [← hout, ← h0.wires, ← hw, bank_modBank]
    split
    · rename_i e; subst e; rfl
    · rfl
  have hws : ∀ y o, ((w.bank y).out o).said = ((v.bank y).out o).said := by
    intro y o; rw [← hw, bank_modBank]; split
    · rename_i e; subst e; rfl
    · rfl
  -- the two DEQ bits
  have d1 := takes_deqBit w f.site f.rule (Instr.hdr i).deqA (Instr.hdr i).cta (fun q hq hq' => by
    rw [headersGood_look _ _ ((hwc _ _).trans (if_pos rfl))]; exact hg _ (hc.headA q hq hq'))
  generalize hx : w.deqBit f.site f.rule (Instr.hdr i).deqA (Instr.hdr i).cta = x at d1
  have d2 := takes_deqBit x f.site f.rule (Instr.hdr i).deqB (Instr.hdr i).ctb (fun q hq hq' => by
    rw [headersGood_look _ _ ((d1.heads _ _).trans (if_pos rfl))]
    refine headersGood_deqOne _ _ _ _ ?_
    rw [headersGood_look _ _ ((hwc _ _).trans (if_pos rfl))]; exact hg _ (hc.headB q hq hq'))
  generalize hz : x.deqBit f.site f.rule (Instr.hdr i).deqB (Instr.hdr i).ctb = z at d2
  -- the scoreboard slot
  have hge : v.guardEffects { x := f.site, k := f.rule, id := s.nextId, h := Instr.hdr i } =
      (match (Instr.hdr i).sbset with
       | some n => z.modBank f.site fun b => { b with sb := setAt none b.sb n.toNat (some (f.rule, s.nextId)) }
       | none => z) := by
    simp only [State.guardEffects, hw, hx, hz] <;> rfl
  rw [hge]
  generalize hq : (match (Instr.hdr i).sbset with
       | some n => z.modBank f.site fun b => { b with sb := setAt none b.sb n.toNat (some (f.rule, s.nextId)) }
       | none => z) = q
  have q1 : (q.bank f.site).regs = e.regs.guard (Instr.hdr i) f.rule s.nextId := by
    have e0 : (z.bank f.site).regs = { e.regs with p := predUpdate e.regs.p (Instr.hdr i).pset (Instr.hdr i).pclr } := by
      rw [d2.regs, d1.regs, hwr]
    rw [← hq]
    unfold Regs.guard
    split
    · rename_i n hn
      rw [bank_modBank_self]
      have e1 := congrArg (fun r : Regs => { r with sb := setAt none r.sb n.toNat (some (f.rule, s.nextId)) }) e0
      first
        | exact e1
        | (simp only [hn]; exact e1)
    · rename_i hn
      first
        | exact e0
        | (simp only [hn]; exact e0)
  have q2 : ∀ y, y ≠ f.site → (q.bank y).regs = (s.bank y).regs := by
    intro y hy
    rw [← hwo y hy, ← d1.regs, ← d2.regs, ← hq]
    split
    · rw [bank_modBank, if_neg hy]
    · rfl
  have q3 : ∀ y o, ((q.bank y).out o).said = ((v.bank y).out o).said := by
    intro y o
    rw [← hws, ← d1.tokens, ← d2.tokens, ← hq]
    split
    · rw [bank_modBank]; split
      · rename_i e; subst e; rfl
      · rfl
    · rfl
  have q4 : ∀ y n, ((q.bank y).chan n).look = ((z.bank y).chan n).look := by
    intro y n
    rw [← hq]
    split
    · rw [bank_modBank]; split
      · rename_i e; subst e; rfl
      · rfl
    · rfl
  have q8 : ∀ y o, ((q.bank y).out o).wire = ((w.bank y).out o).wire := by
    intro y o
    rw [← d1.wires, ← d2.wires, ← hq]
    split
    · rw [bank_modBank]; split
      · rename_i e; subst e; rfl
      · rfl
    · rfl
  have q5 : q.reqs = s.reqs ++ e.asks := by
    have : q.reqs = z.reqs := by rw [← hq]; split <;> rfl
    rw [this, d2.reqs, d1.reqs, ← hw, State.modBank_reqs, h0.reqs, ho.reqs]
  have q6 : SameTiles v q := by
    have a2 : SameTiles z q := by
      rw [← hq]; split
      · exact .modBank ..
      · exact .refl _
    have a3 : SameTiles v w := by rw [← hw]; exact .modBank ..
    exact ((a3.trans d1.tiles).trans d2.tiles).trans a2
  have hut : ∀ n, u.tile n = s.tile n := fun n => congrArg (·.getD n {}) ho.tiles
  have q7 : q.rest = e.rest s.rest := by
    have a2 : q.rest = z.rest := by rw [← hq]; split <;> rfl
    rw [a2, d2.rest, d1.rest, ← hw]
    exact h0.rest.trans (by rw [ho.rest])
  -- the latches, the stall, the counters
  have k1 : ∀ b : Bank, ∀ j o, ((b.keep j o).stall j).regs = b.regs := by
    intro b j o; simp only [Bank.stall]; split <;> rfl
  have k2 : ∀ b : Bank, ∀ j o n, ((b.keep j o).stall j).out n = b.out n := by
    intro b j o n; simp only [Bank.stall]; split <;> rfl
  have k3 : ∀ b : Bank, ∀ j o n, ((b.keep j o).stall j).chan n = b.chan n := by
    intro b j o n; simp only [Bank.stall]; split <;> rfl
  refine ⟨?_, ?_, ?_, ?_, ?_, q5, ?_, ?_, q7⟩
  · rw [progress_bank, count_bank, bank_modBank_self, k1, q1]
  · intro y hy
    rw [progress_bank, count_bank, bank_modBank, if_neg hy, q2 y hy]
  · intro y o
    rw [progress_bank, count_bank, bank_modBank]
    have : ((v.bank y).out o).said = _ := h0.tokens y o
    split
    · rename_i e; subst e; rw [k2, q3, this, hout]; simp
    · rename_i e; rw [q3, this, hout]; simp [e]
  · intro y n
    rw [progress_bank, count_bank, bank_modBank]
    have e1 : ((q.bank y).chan n).look = if y = f.site then (Hdr.dequeues (Instr.hdr i) n (e.chans n ((s.bank y).chan n))).look
        else ((s.bank y).chan n).look := by
      rw [q4, d2.heads]
      split
      · rename_i e; subst e
        unfold Hdr.dequeues
        apply deqOne_look
        rw [d1.heads, if_pos rfl]
        exact deqOne_look _ _ _ _ _ ((hwc _ _).trans (if_pos rfl))
      · rename_i e; rw [d1.heads, if_neg e, hwc, if_neg e]
    split
    · rename_i e; subst e; rw [k3, e1, if_pos rfl]
    · rename_i e; rw [e1, if_neg e]
  · intro y o
    rw [progress_bank, count_bank, bank_modBank]
    have e1 := (q8 y o).trans (hww y o)
    split
    · rename_i e; subst e; rw [k2, e1, if_pos rfl]
    · rename_i e; rw [e1, if_neg e]
  · intro n
    rw [((q6.trans (SameTiles.modBank ..)).trans ((SameTiles.count ..).trans (.progress ..))).shared, h0.shared, hut]
  · intro n k
    rw [((q6.trans (SameTiles.modBank ..)).trans ((SameTiles.count ..).trans (.progress ..))).plane, h0.plane, State.slot, hut]
    rfl

/-- The same for an effect that leaves the channels and gates alone. -/
theorem commit_leaves {s : State} {f : Firing} {rest : List Firing} {i : Instr} (hc : Clear s f rest i) (p : Plan)
    {r : Regs} {sends : List (Nat × Said)} {asks : List Req}
    (ha : ∀ u : State, Opened s u → Acted u (p.act u) f.site r sends asks) (hid : p.after = id := by rfl) :
    Leaves s ((s.openFiring rest).commit (firingCtx s f i) i p) f i { regs := r, sends := sends, asks := asks } :=
  commit_leavesOn hc p (fun _ h => h) (fun u hu => (ha u hu).on) hid

/-! ### Scalar results -/

theorem Acted.write1 (s : State) (c : Ctx) (dst : Dst) (v : Word) :
    Acted s (c.write dst 1 v s) c.x ((s.bank c.x).regs.write dst v) (Dst.sends dst v) [] := by
  cases dst with
  | g n => exact Acted.modBank s c.x (fun b => b.setReg (.g n.toNat) v) (fun _ => ⟨rfl, rfl⟩) (fun _ => rfl)
  | m n => exact Acted.modBank s c.x (fun b => b.setReg (.m n.toNat) v) (fun _ => ⟨rfl, rfl⟩) (fun _ => rfl)
  | o n => exact Acted.emit s c.x n.toNat c.id (dataTok v) (by simp [dataTok, clsData, clsMarker])
  | zero => exact .refl s c.x

theorem Acted.push (s : State) (c : Ctx) (lat : Nat) (v : Word) :
    Acted s (c.push lat v s) c.x ((s.bank c.x).regs.push { val := v, pend := if lat ≤ 1 then none else some c.id }) [] [] :=
  Acted.modBank s c.x _ (fun _ => ⟨rfl, rfl⟩) (fun _ => rfl)

/-- A result of latency 1. -/
theorem Acted.result1 (s : State) (c : Ctx) (dst : Dst) (v : Word) :
    Acted s (c.result dst 1 v s) c.x ((s.bank c.x).regs.now dst v) (Dst.sends dst v) [] := by
  have h1 := Acted.write1 s c dst v
  have h2 := Acted.push (c.write dst 1 v s) c 1 v
  rw [h1.own] at h2
  have h3 := h1.trans h2
  simp only [List.append_nil] at h3
  exact h3

/-- A result of a latency above 1. -/
theorem Acted.resultLate (s : State) (c : Ctx) (dst : Dst) (lat : Nat) (v : Word) (hl : 1 < lat) :
    Acted s (c.result dst lat v s) c.x ((s.bank c.x).regs.later dst c.k c.id lat v) [] [] := by
  have hl' : ¬ lat ≤ 1 := by omega
  have h1 : Acted s (c.write dst lat v s) c.x
      { (s.bank c.x).regs with
        pend := (s.bank c.x).regs.pend ++ [{ id := c.id, rule := c.k, left := some lat, lat := lat, writes := Dst.writes dst v }] } [] [] := by
    unfold Ctx.write
    simp only [hl', if_false]
    have h2 (w : List PWrite) := Acted.modBank s c.x (fun b => { b with pend := b.pend ++
      [{ id := c.id, rule := c.k, left := some lat, lat := lat, writes := w }] }) (fun _ => ⟨rfl, rfl⟩) (fun _ => rfl)
    cases dst with
    | g n => exact h2 _
    | m n => exact h2 _
    | o n =>
      have h3 := Acted.reserve (s.modBank c.x fun b => { b with pend := b.pend ++
        [{ id := c.id, rule := c.k, left := some lat, lat := lat, writes := [.tok n.toNat (dataTok v)] }] }) c.x c.x n.toNat c.id 1 true false
      have h4 := h2 [.tok n.toNat (dataTok v)]
      rw [h4.own] at h3
      exact h4.trans h3
    | zero => exact h2 _
  have h2 := Acted.push (c.write dst lat v s) c lat v
  rw [h1.own] at h2
  simp only [hl', if_false] at h2
  exact h1.trans h2

theorem Acted.pred (s : State) (c : Ctx) (k : BitVec 3) (v : Bool) :
    Acted s (c.pred k v s) c.x ((s.bank c.x).regs.pred k v) [] [] :=
  Acted.modBank s c.x _ (fun _ => ⟨rfl, rfl⟩) (fun _ => rfl)

/-- The LFSR and the sticky flags of a rule that rounds (R168, R169). -/
theorem Acted.env (s : State) (c : Ctx) (e : REnv) :
    Acted s (c.env e s) c.x { (s.bank c.x).regs with lfsr := e.lfsr, sticky := (s.bank c.x).regs.sticky ||| e.flags } [] [] :=
  Acted.modBank s c.x _ (fun _ => ⟨rfl, rfl⟩) (fun _ => rfl)

/-- The destination's room is what a plan of one token there lacks. -/
theorem lacks_one (s : State) (x : Site) (p : Plan) (o : Nat) (hp : p.slots = [o]) (h : s.canSend x o 1 = true) :
    s.lacks x p = none := by
  simp only [State.canSend, Bool.and_eq_true, decide_eq_true_eq] at h
  rw [State.lacks, hp]
  refine (if_pos ?_).trans rfl
  simpa [Nat.lt_iff_add_one_le] using h

theorem lacks_dst (s : State) (x : Site) (p : Plan) (dst : Dst) (hp : p.slots = Dst.slots dst) (h : s.room x dst) :
    s.lacks x p = none := by
  cases dst with
  | o n => exact lacks_one s x p n.toNat hp (h n rfl)
  | _ => simp [State.lacks, hp, Dst.slots, State.lacksAfter]

/-- An instruction whose plan is one result of latency 1. -/
theorem scalar_now {s : State} {f : Firing} {rest : List Firing} {i : Instr} {dst : Dst} {v : Word} {plan : Ctx → State → Plan}
    (he : exec i s = fire i plan s) (hc : Clear s f rest i) (hr : s.room f.site dst)
    (hp : plan (firingCtx s f i) (s.openFiring rest) = (firingCtx s f i).scalar dst 1 v) :
    ∃ t, exec i s = .next t ∧ Leaves s t f i { regs := (s.bank f.site).regs.now dst v, sends := Dst.sends dst v } := by
  refine ⟨_, he.trans (fire_commits hc _ hp rfl (lacks_dst _ _ _ dst rfl hr) rfl), ?_⟩
  refine commit_leaves hc _ fun u hu => ?_
  have h := Acted.result1 u (firingCtx s f i) dst v
  rw [hu.regs] at h
  exact h

/-- An instruction whose plan is one result of a latency above 1. -/
theorem scalar_late {s : State} {f : Firing} {rest : List Firing} {i : Instr} {dst : Dst} {v : Word} {plan : Ctx → State → Plan}
    {lat : Nat} (he : exec i s = fire i plan s) (hc : Clear s f rest i) (hr : s.room f.site dst) (hl : 1 < lat) (p : Plan)
    (hp : plan (firingCtx s f i) (s.openFiring rest) = p) (hf : p.fault = none) (hs : p.slots = Dst.slots dst)
    (hq : p.refuse = false) (ha : p.act = (firingCtx s f i).result dst lat v) (hid : p.after = id := by rfl) :
    ∃ t, exec i s = .next t ∧ Leaves s t f i { regs := (s.bank f.site).regs.later dst f.rule s.nextId lat v } := by
  refine ⟨_, he.trans (fire_commits hc p hp hf (lacks_dst _ _ _ dst hs hr) hq), ?_⟩
  refine commit_leaves hc _ (fun u hu => ?_) hid
  have h := Acted.resultLate u (firingCtx s f i) dst lat v hl
  rw [hu.regs] at h
  rw [ha]
  exact h

end Sys2Proof.Machine
end

