-- ==== Sys2Proof/Laws/Memory.lean ====
section
/-! SUPPORT. The laws of memory: a read after a write, and that every operation keeps the canonical form. -/

namespace Sys2Proof.Machine

theorem Memory.above_put (c a : Nat) (v : Byte) (m : List Host.Cell) (h : Memory.above c m = true) (hc : c < a) :
    Memory.above c (Memory.put m a v) = true := by
  induction m with
  | nil => unfold Memory.put; split <;> simp [Memory.above, hc]
  | cons e r ih =>
    obtain ⟨k, w⟩ := e
    have cons (x : Host.Cell) (l : List Host.Cell) :
        Memory.above c (x :: l) = true ↔ c < x.1 ∧ Memory.above c l = true := by simp [Memory.above]
    rw [cons] at h
    simp only [Memory.put]
    split
    · split
      · rw [cons]; exact h
      · rw [cons, cons]; exact ⟨hc, h⟩
    · split
      · split
        · exact h.2
        · rw [cons]; exact ⟨hc, h.2⟩
      · rw [cons]; exact ⟨h.1, ih h.2⟩

theorem Memory.above_mono (a b : Nat) (m : List Host.Cell) (h : Memory.above b m = true) (hab : a ≤ b) :
    Memory.above a m = true := by
  simp only [Memory.above, List.all_eq_true, decide_eq_true_eq] at h ⊢
  intro c hc
  exact Nat.lt_of_le_of_lt hab (h c hc)

/-- A write of a byte keeps the canonical form. -/
theorem Memory.wf_put (m : List Host.Cell) (a : Nat) (v : Byte) (h : Memory.wf m = true) :
    Memory.wf (Memory.put m a v) = true := by
  induction m with
  | nil =>
    unfold Memory.put
    split
    · rfl
    · simp_all [Memory.wf, Memory.above]
  | cons e r ih =>
    obtain ⟨k, w⟩ := e
    simp only [Memory.wf, Bool.and_eq_true, decide_eq_true_eq] at h
    obtain ⟨⟨h1, h2⟩, h3⟩ := h
    simp only [Memory.put]
    split
    · rename_i hlt
      split
      · simp [Memory.wf, h1, h2, h3]
      · rename_i hv
        have h4 := Memory.above_mono a k r h2 (Nat.le_of_lt hlt)
        have h5 : Memory.above a ((k, w) :: r) = true := by
          simp only [Memory.above, List.all_cons, Bool.and_eq_true, decide_eq_true_eq]; exact ⟨hlt, h4⟩
        simp only [Memory.wf, Bool.and_eq_true, decide_eq_true_eq]
        exact ⟨⟨hv, h5⟩, ⟨h1, h2⟩, h3⟩
    · split
      · rename_i hnlt heq
        subst heq
        split
        · exact h3
        · simp_all [Memory.wf]
      · rename_i hnlt hne
        simp only [Memory.wf, Bool.and_eq_true, decide_eq_true_eq]
        exact ⟨⟨h1, Memory.above_put k a v r h2 (by omega)⟩, ih h3⟩

/-- An address below every listed one is not listed. -/
theorem Memory.get_above (m : List Host.Cell) (a : Nat) (h : Memory.above a m = true) : Memory.get m a = unlisted a := by
  cases m with
  | nil => rfl
  | cons e r =>
    obtain ⟨k, w⟩ := e
    simp only [Memory.above, List.all_cons, Bool.and_eq_true, decide_eq_true_eq] at h
    simp only [Memory.get]
    rw [if_neg (by omega), if_pos h.1]

/-- A read after a write of a byte. -/
theorem Memory.get_put (m : List Host.Cell) (a b : Nat) (v : Byte) (h : Memory.wf m = true) :
    Memory.get (Memory.put m a v) b = if b = a then v else Memory.get m b := by
  induction m with
  | nil =>
    unfold Memory.put
    split
    · rename_i hv; simp only [Memory.get]; split <;> simp_all [unlisted]
    · simp only [Memory.get]; split <;> simp_all
  | cons e r ih =>
    obtain ⟨k, w⟩ := e
    simp only [Memory.wf, Bool.and_eq_true, decide_eq_true_eq] at h
    obtain ⟨⟨h1, h2⟩, h3⟩ := h
    simp only [Memory.put]
    split
    · rename_i hlt
      split
      · rename_i hv
        by_cases hb : b = a
        · subst hb
          simp only [Memory.get]
          rw [if_neg (by omega), if_pos hlt]; simp [hv]
        · simp [hb]
      · by_cases hb : b = a
        · simp [Memory.get, hb]
        · simp only [Memory.get, hb, if_false]
          by_cases hk : b = k
          · subst hk; rw [if_neg (by omega)]
          · split
            · rw [if_pos (by omega)]
            · rfl
    · split
      · rename_i hnlt heq
        subst heq
        split
        · rename_i hv
          by_cases hb : b = a
          · subst hb
            simp only [if_true]
            rw [Memory.get_above r b h2, hv]
          · simp only [Memory.get, hb, if_false]
            split
            · exact Memory.get_above r b (Memory.above_mono b a r h2 (by omega))
            · rfl
        · by_cases hb : b = a
          · simp [Memory.get, hb]
          · simp [Memory.get, hb]
      · rename_i hnlt hne
        simp only [Memory.get]
        by_cases hk : b = k
        · subst hk
          rw [if_pos rfl, if_neg (by omega), if_pos rfl]
        · rw [if_neg hk, if_neg hk, ih h3]
          by_cases hba : b = a
          · subst hba; simp only [if_true]; rw [if_neg (by omega)]
          · simp only [hba, if_false]

/-- A selection of the listed bytes keeps the canonical form. -/
theorem Memory.wf_filter (m : List Host.Cell) (f : Host.Cell → Bool) (h : Memory.wf m = true) :
    Memory.wf (m.filter f) = true := by
  induction m with
  | nil => rfl
  | cons e r ih =>
    obtain ⟨k, w⟩ := e
    simp only [Memory.wf, Bool.and_eq_true, decide_eq_true_eq] at h
    obtain ⟨⟨h1, h2⟩, h3⟩ := h
    simp only [List.filter_cons]
    split
    · simp only [Memory.wf, Bool.and_eq_true, decide_eq_true_eq]
      refine ⟨⟨h1, ?_⟩, ih h3⟩
      simp only [Memory.above, List.all_eq_true, decide_eq_true_eq] at h2 ⊢
      intro c hc
      exact h2 c (List.mem_filter.1 hc).1
    · exact ih h3

/-- The state's byte operations keep the canonical form. -/
theorem memOk_setByte {s : State} (k : Nat) (v : Byte) (h : s.memOk) : (s.setByte k v).memOk := Memory.wf_put s.mem k v h

theorem byte_setByte {s : State} (k a : Nat) (v : Byte) (h : s.memOk) :
    (s.setByte k v).byte a = if a = k then v else s.byte a := Memory.get_put s.mem k a v h

theorem memOk_setBytes (bs : List Byte) {s : State} (k : Nat) (h : s.memOk) : (s.setBytes k bs).memOk := by
  induction bs generalizing s k with
  | nil => exact h
  | cons b r ih => exact ih (k + 1) (memOk_setByte k b h)

/-- What every byte reads as after a write of bytes. -/
theorem byte_setBytes (bs : List Byte) {s : State} (k a : Nat) (h : s.memOk) :
    (s.setBytes k bs).byte a = if k ≤ a then (bs[a - k]?).getD (s.byte a) else s.byte a := by
  induction bs generalizing s k with
  | nil => simp [State.setBytes]
  | cons b r ih =>
    simp only [State.setBytes]
    rw [ih (k + 1) (memOk_setByte k b h), byte_setByte k a b h]
    by_cases h1 : k + 1 ≤ a
    · have h2 : k ≤ a := by omega
      have h3 : a ≠ k := by omega
      have h4 : a - k = (a - (k + 1)) + 1 := by omega
      simp [h1, h2, h3, h4]
    · by_cases h5 : a = k
      · subst h5; simp [show ¬ a + 1 ≤ a by omega]
      · have h6 : ¬ k ≤ a := by omega
        simp [h1, h5, h6]

end Sys2Proof.Machine
end

