-- ==== Sys2Proof/Tests/Slice0.lean ====
section
/-! SUPPORT. Tests of the model: words of the spec's encoding tables decode, ill-formed instructions are refused for each check,
one step of a few instructions gives the values that the spec states, and, for each statement, a state and operands that meet its
hypotheses together. -/

namespace Sys2Proof.Tests

set_option Elab.async false

open Sys2Proof Sys2Proof.Machine Sys2Proof.Claim

/-! ### Decoding: words written out from the encoding tables -/

/-- A word from its fields (R27); the modifier's fields stand at the bit numbers that the tables give. -/
def wordOf (opc sub dst s1 s2 s3 : Nat) (mod : List (Nat × Nat) := []) : Nat :=
  opc * 2 ^ 56 + sub * 2 ^ 52 + dst * 2 ^ 46 + s1 * 2 ^ 40 + s2 * 2 ^ 34 + s3 * 2 ^ 28 +
    mod.foldl (fun n f => n + f.2 * 2 ^ f.1) 0

/-- The same with CTA testing v0 and CTB testing v1 for any token, so that hA and hB name channels (R27). -/
def headWord (opc sub dst s1 s2 s3 : Nat) (mod : List (Nat × Nat) := []) : Nat :=
  0x201 * 2 ^ 102 + 0x211 * 2 ^ 92 + wordOf opc sub dst s1 s2 s3 mod

/-- The guard word of headWord. -/
def heads : Hdr := { cta := some { ch := 0, cls := none }, ctb := some { ch := 1, cls := none } }

/-- Whether every word of a list decodes to its instruction. -/
def decodes (l : List (Nat × Instr)) : Bool := l.all fun p => decode (BitVec.ofNat 128 p.1) = some p.2

/-- The words that the manual prints (R41, R119, R226, R61, R199, R247, R278, R342, R344, R365, R385). -/
theorem test_decode_printed : decodes [
  (0x02020000000002001030009E60008008, .add { pcare := 2, pval := 2, pclr := 2, reuse := 4 } .n64 (.g 0) (.g 0) .imm 8),
  (0x02008000000200809139808260000000,
    .st { pcare := 2, pset := 2, cta := some { ch := 0, cls := some 0 }, deqA := true } .n64 (.g 0) (.head .A) none),
  (0x0100000000010000990A009E60200000, .stream { pcare := 1, pset := 1 } none 0 (.g 0) .imm 0x200),
  (0x09018422090800007029A09A16440080, .contract
    { pcare := 9, pval := 1, cta := some { ch := 1, cls := some 0 }, ctb := some { ch := 2, cls := some 0 }, sbw := some 1,
      pset := 8, sbset := some 0 } .bf16 (.head .A) .zero (.head .B) 1 .j false true 0 false true 0),
  (0x01000000000100002A50269A61000000, .limm { pcare := 1, pset := 1 } true 1 (.g 0) 0x1000),
  (0x03010000000200002A00269A60340000, .limm { pcare := 3, pval := 1, pset := 2 } false 0 (.g 0) 0x340),
  (0x00000000000000004010420E60000000, .fadd {} .f32 (.g 1) (.g 2) (.g 3) .rne false),
  (0x0100806110010000810A208660010000, .union { heads with pcare := 1, pset := 1 } .add 0 .A .B .f32 .rne 1),
  (0x0101804000000080C20A209A60200000,
    .fork { pcare := 1, pval := 1, cta := some { ch := 0, cls := none }, deqA := true } 0 .A 2),
  (0x0100000000010000E31A269A60100000, .markCohort { pcare := 1, pset := 1 } (some 0) 1 false),
  (0x0000800000000080E50A448260022000,
    .resume { cta := some { ch := 0, cls := some 0 }, deqA := true } (some 1) (.g 4) (.head .A) 4 1 false),
  (0x00008C0000000000E109A09A64000000, .chkerr { cta := some { ch := 3, cls := some 0 } } .A 2 false),
  (0x0000820000000080E809A69A60000000, .pfack { cta := some { ch := 0, cls := some 4 }, deqA := true })] = true := by rfl

/-- Groups 0x0_ and 0x1_ (R52, R55). -/
theorem test_decode_integer : decodes [
  (wordOf 0x00 0 0x26 0x26 0x26 0x26, .nop {}),
  (wordOf 0x01 0 0x26 0x26 0x26 0x26 [(25, 3), (22, 0), (19, 1), (15, 8)], .plog {} 3 0 1 8),
  (wordOf 0x02 2 0x26 0x01 0x03 0x26 [(25, 2), (22, 2)], .cmp {} .i64 (.g 1) (.g 3) 2 .lt),
  (wordOf 0x03 3 0x26 0x01 0x04 0x26 [(25, 2), (24, 1)], .tst {} .n64 (.g 1) (.g 4) 2 true),
  (wordOf 0x04 0 0x05 0x01 0x22 0x26 [(25, 3)], .sel {} (.g 5) (.g 1) (.d 0) 3),
  (wordOf 0x05 0 0x26 0x26 0x26 0x26, .retire {}),
  (wordOf 0x10 0 0x1F 0x01 0x27 0x26 [(12, 0xFFFF)], .add {} .i32 (.g 31) (.g 1) .imm 0xFFFF),
  (wordOf 0x11 1 0x30 0x31 0x02 0x26, .sub {} .n32 (.m 0) (.m 1) (.g 2) 0),
  (wordOf 0x12 2 0x28 0x01 0x02 0x26, .mul {} .i64 (.o 0) (.g 1) (.g 2) 0),
  (wordOf 0x13 3 0x26 0x01 0x02 0x26, .mulh {} .n64 .zero (.g 1) (.g 2) 0),
  (wordOf 0x14 0 0x03 0x01 0x02 0x25, .mad {} .i32 (.g 3) (.g 1) (.g 2) (.d 3) 0),
  (wordOf 0x15 1 0x03 0x01 0x02 0x26, .div {} .n32 (.g 3) (.g 1) (.g 2) 0),
  (wordOf 0x16 2 0x03 0x01 0x02 0x26, .min {} .i64 (.g 3) (.g 1) (.g 2) 0),
  (wordOf 0x17 3 0x03 0x01 0x02 0x26, .max {} .n64 (.g 3) (.g 1) (.g 2) 0),
  (wordOf 0x18 0 0x03 0x01 0x26 0x26, .abs {} .i32 (.g 3) (.g 1) 0),
  (wordOf 0x19 1 0x03 0x01 0x26 0x26, .neg {} .n32 (.g 3) (.g 1) 0),
  (wordOf 0x1A 2 0x03 0x01 0x02 0x26, .and {} .i64 (.g 3) (.g 1) (.g 2) 0),
  (wordOf 0x1B 3 0x03 0x01 0x02 0x26, .or {} .n64 (.g 3) (.g 1) (.g 2) 0),
  (wordOf 0x1C 0 0x03 0x01 0x02 0x26, .xor {} .i32 (.g 3) (.g 1) (.g 2) 0),
  (wordOf 0x1D 1 0x03 0x01 0x02 0x26, .andn {} .n32 (.g 3) (.g 1) (.g 2) 0),
  (wordOf 0x1E 2 0x03 0x01 0x26 0x26, .not {} .i64 (.g 3) (.g 1) 0),
  (wordOf 0x1F 3 0x03 0x01 0x02 0x04 [(25, 6)], .addc {} .n64 (.g 3) (.g 1) (.g 2) (.g 4) 6)] = true := by rfl

/-- Group 0x2_ (R59). -/
theorem test_decode_bits : decodes [
  (wordOf 0x20 0 0x03 0x01 0x02 0x26, .shl {} .i32 (.g 3) (.g 1) (.g 2) 0),
  (wordOf 0x21 1 0x03 0x01 0x02 0x26, .shr {} .n32 (.g 3) (.g 1) (.g 2) 0),
  (wordOf 0x22 2 0x03 0x01 0x02 0x26, .sar {} .i64 (.g 3) (.g 1) (.g 2) 0),
  (wordOf 0x23 3 0x03 0x01 0x27 0x26 [(12, 5)], .rot {} .n64 (.g 3) (.g 1) .imm 5),
  (wordOf 0x24 0 0x03 0x01 0x26 0x26, .clz {} .i32 (.g 3) (.g 1) 0),
  (wordOf 0x25 1 0x03 0x01 0x26 0x26, .popc {} .n32 (.g 3) (.g 1) 0),
  (wordOf 0x26 2 0x03 0x01 0x26 0x26 [(22, 5), (16, 7)], .ext {} .i64 (.g 3) (.g 1) 5 7),
  (wordOf 0x27 3 0x03 0x01 0x02 0x26 [(22, 6), (16, 9)], .ins {} .n64 (.g 3) (.g 1) (.g 2) 6 9),
  (wordOf 0x28 0 0x03 0x01 0x26 0x26, .brev {} .i32 (.g 3) (.g 1) 0),
  (wordOf 0x29 0 0x03 0x01 0x02 0x26 [(25, 3), (12, 0x1FF8)], .addr {} (.g 3) (.g 1) (.g 2) 3 0x1FF8),
  (wordOf 0x2A 5 0x00 0x26 0x26 0x26 [(12, 0x1000)], .limm {} true 1 (.g 0) 0x1000),
  (wordOf 0x2B 0 0x2F 0x27 0x26 0x26 [(12, 0x7FFF)], .mov {} (.o 7) .imm 0x7FFF)] = true := by rfl

/-- Group 0x3_ (R62). -/
theorem test_decode_channel : decodes [
  (wordOf 0x30 1 0x29 0x04 0x26 0x26, .send {} .hdr 1 (.g 4) 0),
  (wordOf 0x31 0 0x26 0x26 0x26 0x26 [(23, 5), (21, 2)], .deq {} 5 2),
  (headWord 0x32 0 0x2A 0x20 0x26 0x26, .fwd heads 2 .A),
  (headWord 0x33 0 0x06 0x21 0x26 0x26, .tagof heads (.g 6) .B),
  (wordOf 0x34 0 0x02 0x26 0x26 0x26 [(20, 2)], .rdspec {} (.g 2) 2),
  (wordOf 0x35 0 0x26 0x09 0x26 0x26 [(20, 8)], .wrspec {} (.g 9) 8)] = true := by rfl

/-- Group 0x4_ (R203). -/
theorem test_decode_float : decodes [
  (wordOf 0x40 1 0x01 0x02 0x03 0x26, .fadd {} .f32 (.g 1) (.g 2) (.g 3) .rne false),
  (wordOf 0x41 0 0x01 0x02 0x03 0x26 [(25, 1)], .fsub {} .f64 (.g 1) (.g 2) (.g 3) .rz false),
  (wordOf 0x42 2 0x01 0x02 0x03 0x26 [(25, 2), (24, 1)], .fmul {} .bf16 (.g 1) (.g 2) (.g 3) .rd true),
  (wordOf 0x43 3 0x01 0x02 0x03 0x22 [(25, 4), (24, 1)], .fma {} .f16 (.g 1) (.g 2) (.g 3) (.d 0) .sr true),
  (wordOf 0x44 1 0x01 0x02 0x03 0x26, .fmin {} .f32 (.g 1) (.g 2) (.g 3)),
  (wordOf 0x45 1 0x01 0x02 0x03 0x26, .fmax {} .f32 (.g 1) (.g 2) (.g 3)),
  (wordOf 0x46 1 0x26 0x01 0x03 0x26 [(25, 2), (22, 6)], .fcmp {} .f32 (.g 1) (.g 3) 2 .un),
  (wordOf 0x47 3 0x01 0x02 0x26 0x26, .fabs {} .f16 (.g 1) (.g 2)),
  (wordOf 0x48 3 0x01 0x02 0x26 0x26, .fneg {} .f16 (.g 1) (.g 2)),
  (wordOf 0x49 1 0x06 0x22 0x26 0x26 [(25, 3)], .frcp {} .f32 (.g 6) (.d 0) .ru false),
  (wordOf 0x4A 1 0x06 0x22 0x26 0x26, .frsq {} .f32 (.g 6) (.d 0) .rne false),
  (wordOf 0x4B 1 0x06 0x22 0x26 0x26, .fexp2 {} .f32 (.g 6) (.d 0) .rne false),
  (wordOf 0x4C 1 0x06 0x22 0x26 0x26, .flog2 {} .f32 (.g 6) (.d 0) .rne false),
  (wordOf 0x4D 1 0x02 0x01 0x07 0x26 [(25, 2)], .fscale {} .f32 (.g 2) (.g 1) (.g 7) .rd false),
  (wordOf 0x4E 0 0x06 0x01 0x26 0x26, .fclass {} .f64 (.g 6) (.g 1)),
  (wordOf 0x4F 0 0x06 0x01 0x26 0x26, .fsqrt {} .f64 (.g 6) (.g 1) .rne false)] = true := by rfl

/-- Group 0x5_ (R208). -/
theorem test_decode_vector : decodes [
  (wordOf 0x50 1 0x03 0x01 0x02 0x26, .vadd {} .f32 (.g 3) (.g 1) (.g 2) .rne false),
  (wordOf 0x51 2 0x03 0x01 0x02 0x26, .vsub {} .bf16 (.g 3) (.g 1) (.g 2) .rne false),
  (wordOf 0x52 3 0x03 0x01 0x02 0x26, .vmul {} .f16 (.g 3) (.g 1) (.g 2) .rne false),
  (headWord 0x53 2 0x03 0x20 0x21 0x03, .vfma heads .bf16 (.g 3) (.head .A) (.head .B) (.g 3) .rne false),
  (wordOf 0x54 2 0x03 0x01 0x02 0x26, .vmin {} .bf16 (.g 3) (.g 1) (.g 2)),
  (wordOf 0x55 2 0x03 0x01 0x02 0x26, .vmax {} .bf16 (.g 3) (.g 1) (.g 2)),
  (wordOf 0x56 1 0x04 0x01 0x02 0x26 [(22, 5)], .vcmp {} .f32 (.g 4) (.g 1) (.g 2) .ge),
  (wordOf 0x57 2 0x05 0x01 0x02 0x04, .vsel {} .bf16 (.g 5) (.g 1) (.g 2) (.g 4)),
  (headWord 0x58 2 0x06 0x20 0x26 0x26, .vsum heads .bf16 (.g 6) (.head .A) .rne false),
  (headWord 0x59 3 0x08 0x08 0x20 0x26, .vamax heads .f16 (.g 8) (.g 8) (.head .A)),
  (wordOf 0x5A 2 0x02 0x00 0x01 0x26 [(12, 0o3214)], .vshuf {} .bf16 (.g 2) (.g 0) (.g 1) 0 0o3214),
  (headWord 0x5B 2 0x07 0x20 0x21 0x03, .vdot3 heads .bf16 (.g 7) (.head .A) (.head .B) (.g 3) .rne false)] = true := by rfl

/-- Group 0x6_ (R210). -/
theorem test_decode_convert : decodes [
  (wordOf 0x60 0xE 0x03 0x01 0x26 0x26 [(25, 3), (20, 1), (16, 4)], .cvt {} .e8m0 (.g 3) (.g 1) .ru false .fp32 4),
  (wordOf 0x61 1 0x02 0x01 0x26 0x26 [(20, 4), (16, 3)], .vcvt {} .fp32 (.g 2) (.g 1) .rne false .e4m3 3),
  (wordOf 0x62 0 0x02 0x01 0x26 0x26 [(25, 1), (20, 2)], .cvti {} .i32 (.g 2) (.g 1) .rz .bf16 false),
  (wordOf 0x63 1 0x02 0x01 0x26 0x26 [(20, 9), (19, 1)], .cvtf {} .fp32 (.g 2) (.g 1) .rne false .int64 true),
  (wordOf 0x64 4 0x04 0x01 0x30 0x04 [(20, 2), (17, 2), (15, 1)],
    .scaleq {} .e4m3 (.g 4) (.g 1) (.m 0) (.g 4) .rne false .bf16 2 1),
  (headWord 0x65 1 0x05 0x20 0x31 0x26 [(20, 4), (15, 2)],
    .scaledq heads .fp32 (.g 5) (.head .A) (.m 1) .rne false .e4m3 0 2),
  (wordOf 0x66 0 0x26 0x03 0x26 0x26 [(26, 2), (24, 1)], .cbld {} (.g 3) 2 1),
  (wordOf 0x67 0 0x04 0x01 0x26 0x26 [(26, 2), (24, 3)], .cblook {} (.g 4) (.g 1) 2 3),
  (wordOf 0x68 0 0x26 0x09 0x26 0x26 [(23, 6)], .setfmt {} (.g 9) 6),
  (wordOf 0x69 0 0x03 0x02 0x26 0x26 [(20, 4)], .seal {} (.g 3) (.g 2) .e4m3),
  (headWord 0x6A 2 0x02 0x02 0x20 0x26, .amaxacc heads .bf16 (.g 2) (.g 2) (.head .A))] = true := by rfl

/-- Groups 0x7_ and 0x8_ (R226, R229, R231, R233, R238, R247, R250 to R253, R220). -/
theorem test_decode_array : decodes [
  (headWord 0x70 4 0x26 0x26 0x20 0x21 [(26, 0), (24, 1), (23, 1), (20, 3), (19, 1), (16, 2)],
    .contract heads .f8 .zero (.head .A) (.head .B) 0 .i true false 3 true false 2),
  (headWord 0x71 4 0x26 0x21 0x26 0x26 [(19, 1), (18, 1)], .stay heads .e4m3 .B true true),
  (wordOf 0x72 0 0x26 0x26 0x26 0x26 [(20, 1)], .accz {} 1),
  (wordOf 0x73 2 0x29 0x26 0x26 0x26 [(25, 4), (22, 2), (20, 2), (19, 1)], .accrd {} .bf16 1 .sr false .j 2 true),
  (headWord 0x74 1 0x26 0x20 0x26 0x26 [(22, 1), (20, 1)], .accld heads .fp32 .A .i 1),
  (wordOf 0x75 0 0x26 0x03 0x26 0x26 [(25, 2)], .accsc {} false (.g 3) .rd false 0),
  (headWord 0x76 0 0x2A 0x20 0x26 0x26 [(27, 1), (19, 3)], .cturn heads 2 .A true 3),
  (headWord 0x77 2 0x26 0x20 0x21 0x26 [(26, 2), (24, 1), (23, 1), (20, 1), (18, 1), (16, 2)],
    .gradpair heads .bf16 .A .B .j .i true false 1 false true 2),
  (headWord 0x80 0 0x28 0x20 0x21 0x26 [(16, 1)], .isectMul heads 0 .A .B .f32 .rne 1),
  (headWord 0x80 1 0x29 0x21 0x26 0x26 [(26, 1), (21, 2), (20, 1), (16, 2)], .isectDot heads 1 .B .bf16 .rne 2 true 2),
  (headWord 0x81 2 0x28 0x20 0x21 0x26 [(26, 2), (23, 1), (16, 15)], .union heads .max 0 .A .B .f16 .rz 15),
  (headWord 0x82 1 0x26 0x20 0x26 0x26 [(16, 1), (12, 4)], .sacci heads .f32 .A 0 1 4),
  (wordOf 0x83 1 0x29 0x26 0x26 0x26 [(26, 1), (16, 1)], .saccf {} .f32 1 .bf16 .rne 0 1),
  (wordOf 0x84 0 0x2A 0x26 0x26 0x26 [(24, 1)], .stop {} 2 1),
  (wordOf 0x85 0 0x26 0x00 0x01 0x02 [(27, 1), (20, 2)], .rowf {} .softmax (.g 0) (.g 1) (.g 2) (some 0) .bf16 0),
  (wordOf 0x86 2 0x26 0x00 0x01 0x02 [(27, 1), (24, 1), (20, 1), (15, 20)],
    .rowb {} .layernorm (.g 0) (.g 1) (.g 2) (some 1) .fp32 20),
  (wordOf 0x87 0 0x26 0x01 0x02 0x03 [(27, 1), (20, 1), (12, 4)], .xred {} (.g 1) (.g 2) (.g 3) (some 0) .fp32 4)] = true := by
  rfl

/-- Group 0x9_ (R123, R125, R127, R128, R130). -/
theorem test_decode_memory : decodes [
  (wordOf 0x90 3 0x03 0x02 0x26 0x26 [(27, 1)], .ld {} .n64 (.g 3) (.g 2) (some 0)),
  (wordOf 0x91 3 0x26 0x00 0x01 0x26 [(27, 1), (24, 5)], .st {} .n64 (.g 0) (.g 1) (some 5)),
  (wordOf 0x92 6 0x04 0x06 0x26 0x26, .lds {} .i16 (.g 4) (.g 6) none),
  (wordOf 0x93 5 0x26 0x00 0x01 0x26, .sts {} .n8 (.g 0) (.g 1) none),
  (wordOf 0x94 0 0x05 0x00 0x26 0x26, .tlook {} (.g 5) (.g 0) none),
  (wordOf 0x95 0 0x26 0x06 0x00 0x07, .tset {} (.g 6) (.g 0) (.g 7) none),
  (wordOf 0x96 0 0x26 0x06 0x26 0x26, .tinv {} (.g 6) none),
  (wordOf 0x97 0 0x04 0x01 0x26 0x26, .ldfe {} (.g 4) (.g 1) none),
  (wordOf 0x98 0 0x26 0x01 0x02 0x03, .stfe {} (.g 1) (.g 2) (.g 3) none),
  (wordOf 0x99 0xD 0x2B 0x01 0x02 0x26, .stream {} (some 5) 3 (.g 1) (.g 2) 0),
  (wordOf 0x9A 0 0x26 0x00 0x01 0x26 [(27, 1), (12, 17)], .stash {} (.g 0) (.g 1) (some 0) 17),
  (wordOf 0x9B 0 0x2A 0x26 0x26 0x26 [(27, 1), (24, 3), (12, 17)], .unstash {} 2 (some 3) 17)] = true := by rfl

/-- Group 0xA_ (R133 to R140). -/
theorem test_decode_order : decodes [
  (wordOf 0xA0 0 0x04 0x00 0x26 0x26 [(27, 1), (24, 1)], .ldp {} (.g 4) (.g 0) (some 1)),
  (wordOf 0xA1 0 0x26 0x00 0x01 0x26, .stp {} (.g 0) (.g 1) none),
  (wordOf 0xA2 0 0x26 0x00 0x01 0x26, .clrp {} (.g 0) (.g 1) none),
  (wordOf 0xA3 0xD 0x26 0x00 0x03 0x26 [(27, 1)], .upd {} .fadd32 (.g 0) (.g 3) (some 0)),
  (wordOf 0xA4 0 0x26 0x00 0x01 0x26, .ownEnter {} (.g 0) (.g 1) none),
  (wordOf 0xA4 1 0x26 0x00 0x26 0x26, .ownRelease {} (.g 0) none),
  (wordOf 0xA5 0 0x26 0x26 0x26 0x26 [(20, 1), (16, 2)], .fencex {} none .c .x),
  (wordOf 0xA6 0 0x26 0x26 0x26 0x26 [(27, 1), (24, 4)], .cmplT {} (some 4)),
  (wordOf 0xA7 0 0x26 0x26 0x26 0x26, .drain {}),
  (wordOf 0xA8 0 0x26 0x05 0x26 0x26 [(27, 1), (20, 3)], .bcpost {} (.g 5) (some 0) 3),
  (wordOf 0xA9 0 0x26 0x00 0x01 0x26 [(20, 3)], .bcarm {} (.g 0) (.g 1) none 3)] = true := by rfl

/-- Group 0xB_ (R141, R144, R146, R147). -/
theorem test_decode_engine : decodes [
  (wordOf 0xB0 0 0x26 0x04 0x05 0x06 [(27, 1), (23, 1), (21, 1), (17, 2), (12, 5)],
    .copy {} (.g 4) (.g 5) (.g 6) (some 0) true false true 2 5),
  (wordOf 0xB1 0 0x26 0x00 0x01 0x02 [(12, 5)], .copyqDeclare {} (.g 0) (.g 1) (.g 2) none 5),
  (wordOf 0xB1 1 0x26 0x26 0x26 0x26 [(12, 5)], .copyqRelease {} none 5),
  (wordOf 0xB2 0 0x26 0x26 0x26 0x26 [(12, 5)], .consumed {} none 5),
  (wordOf 0xB3 3 0x26 0x01 0x02 0x03 [(27, 1), (20, 1), (12, 4)], .coll {} .broadcast (.g 1) (.g 2) (.g 3) (some 0) .fp32 4),
  (wordOf 0xB4 0 0x26 0x26 0x26 0x26 [(27, 1), (24, 1), (12, 4)], .cabort {} (some 1) 4),
  (wordOf 0xB5 0 0x26 0x00 0x01 0x02 [(27, 1), (16, 3)], .kvappPut {} (.g 0) (.g 1) (.g 2) (some 0) 3),
  (wordOf 0xB5 1 0x26 0x00 0x26 0x02 [(27, 1)], .kvappCommit {} (.g 0) (.g 2) (some 0)),
  (wordOf 0xB6 0 0x29 0x00 0x26 0x26 [(27, 1), (24, 2)], .kvrot {} 1 (.g 0) (some 2))] = true := by rfl

/-- Groups 0xC_ and 0xD_ (R278, R289). -/
theorem test_decode_control : decodes [
  (headWord 0xC0 0 0x29 0x20 0x26 0x26 [(25, 3), (22, 2)], .steer heads 1 .A 3 2),
  (headWord 0xC1 0 0x28 0x20 0x26 0x26 [(23, 2), (18, 3)], .merge heads 0 .A 2 3),
  (headWord 0xC2 0 0x28 0x21 0x26 0x26 [(20, 0x12)], .fork heads 0 .B 0x12),
  (wordOf 0xC3 0 0x26 0x26 0x26 0x26 [(23, 7), (21, 1)], .sink {} 7 1),
  (wordOf 0xC4 0 0x29 0x27 0x26 0x26 [(12, 1)], .ctl {} 1 .imm 1),
  (wordOf 0xC5 0 0x03 0x03 0x26 0x26 [(25, 1), (12, 5)], .cnt {} (.g 3) (.g 3) 1 5),
  (wordOf 0xC6 0 0x2A 0x04 0x26 0x26 [(24, 1)], .loopopen {} 2 (.g 4) 1),
  (wordOf 0xC7 0 0x2A 0x26 0x26 0x26, .loopdone {} 2),
  (wordOf 0xC8 0 0x28 0x27 0x26 0x26 [(12, 6)], .gateSet {} 0 .imm 6),
  (wordOf 0xC8 1 0x28 0x01 0x26 0x26, .gateAdd {} 0 (.g 1) 0),
  (wordOf 0xC8 2 0x28 0x26 0x26 0x26, .gateOff {} 0),
  (wordOf 0xD0 0 0x26 0x26 0x26 0x26 [(20, 3)], .splice {} 3),
  (wordOf 0xD1 0 0x26 0x26 0x26 0x26 [(20, 3)], .plane {} 3),
  (wordOf 0xD2 0 0x26 0x00 0x01 0x02 [(20, 3)], .rangeOpen {} (.g 0) (.g 1) (.g 2) 3),
  (wordOf 0xD2 1 0x06 0x26 0x26 0x26, .rangeTake {} (.g 6)),
  (wordOf 0xD2 2 0x26 0x26 0x26 0x26, .rangeClose {}),
  (wordOf 0xD3 1 0x29 0x02 0x03 0x26 [(12, 4)], .join {} true (some 1) (.g 2) (.g 3) 4),
  (wordOf 0xD4 0 0x26 0x26 0x26 0x26 [(12, 4)], .leave {} false 4),
  (wordOf 0xD5 0 0x2B 0x26 0x26 0x26 [(12, 4)], .bar {} false 3 4),
  (wordOf 0xD6 0 0x2A 0x04 0x26 0x26 [(20, 7), (15, 5), (13, 1)], .launch {} (some 2) (.g 4) 7 5 1 false),
  (wordOf 0xD7 0 0x26 0x26 0x26 0x26 [(16, 255)], .yield {} 255)] = true := by rfl

/-- Group 0xE_ (R342 to R344, R359, R365, R385). -/
theorem test_decode_recovery : decodes [
  (wordOf 0xE0 0 0x26 0x05 0x26 0x26 [(12, 0x42)], .trap {} (.g 5) 0x42),
  (headWord 0xE1 0 0x26 0x21 0x26 0x26 [(25, 2), (24, 1)], .chkerr heads .B 2 true),
  (wordOf 0xE2 0 0x04 0x01 0x26 0x26 [(25, 3)], .faultrdWord {} (.g 4) (.g 1) 3),
  (wordOf 0xE2 1 0x05 0x26 0x26 0x26, .faultrdCount {} (.g 5)),
  (wordOf 0xE3 0 0x26 0x26 0x26 0x26, .markOwn {}),
  (wordOf 0xE3 1 0x26 0x26 0x26 0x26 [(20, 1), (19, 1)], .markCohort {} none 1 true),
  (wordOf 0xE4 0 0x26 0x26 0x26 0x26, .snap {}),
  (headWord 0xE5 0 0x26 0x26 0x20 0x26 [(15, 4), (13, 1), (12, 1)], .resume heads none .zero (.head .A) 4 1 true),
  (wordOf 0xE6 0 0x04 0x00 0x01 0x26, .savesetDeclare {} (.g 4) (.g 0) (.g 1)),
  (wordOf 0xE6 1 0x28 0x26 0x26 0x26, .savesetNotify {} 0),
  (wordOf 0xE7 0 0x04 0x03 0x26 0x26, .savedropDeclaration {} (.g 4) (.g 3)),
  (wordOf 0xE7 1 0x28 0x26 0x26 0x26, .savedropNotify {} 0),
  (wordOf 0xE8 0 0x26 0x26 0x26 0x26, .pfack {}),
  (headWord 0xE9 0 0x26 0x20 0x26 0x26, .replay heads .A)] = true := by rfl

/-! ### Small states

The witnesses and the step tests start from one region of one tile: launch 7 of saggar 2 runs its plane in slot 1 of tile 3;
its cell 5 holds the bank under test, and its outputs are bound to channels of cell 6. -/

def cellA : Site := { tile := 3, slot := 1, cell := 5 }
def cellB : Site := { tile := 3, slot := 1, cell := 6 }
def fireA : Firing := { site := cellA, rule := 4 }

/-- An image of one region with one plane, on relative tile 0, whose body is all zero. -/
def imageA : Image :=
  { hash := [1], bytes := List.replicate 16 0 ++ [1, 0, 1, 0] ++ List.replicate 140 0 ++ [3] ++ List.replicate 23 0 }

def launchA : Launch :=
  { num := 7, no := 7, saggar := 2, image := [1], region := 0, queue := 0, prio := 1, floating := false, origin := 3, placed := 3
    phase := .running, tiles := [{ rtile := 0, tile := 3, slot := some 1 }], stamp := 1 }

def saggarA : Saggar :=
  { st := .loaded, tenant := [7], keys := some ([1], [2]), images := [imageA], pages := [{ base := 0x10000, size := 65536, attr := .rw }, { base := 0x20000, size := 65536, attr := .once }]
    res := { pages := 4, lines := 16, stash := 4, spill := 2, slots := 2, planes := 2, side := 4, owners := 4 } }

/-- The package with no round open. -/
def desk : State :=
  { State.reset with
    service := .full, dispatchOn := true, launches := [launchA], nextLaunch := 8, nextId := 50
    tiles := setAt {} (List.replicate 64 {}) 3 { slots := [{}, { phase := .active, launch := 7, weight := 4 }, {}, {}] }
    saggars := setAt {} (List.replicate 16 {}) 2 saggarA }

/-- A bank with its outputs bound to channels 16 to 23 of cell 6, and distinct register values. -/
def bankA : Bank :=
  { g := (List.range 32).map fun k => BitVec.ofNat 64 (3 * k + 1)
    outs := (List.range 8).map fun o => { bind := some { yx := false, tile := 0, cell := 6, ch := 16 + o } } }

/-- The package with banks in place. -/
def quiet (b : Bank) (c : Bank := {}) : State := { desk with banks := [(cellA, b), (cellB, c)] }

/-- The package with a rule of the bank chosen to fire. -/
def place (b : Bank) (c : Bank := {}) : State := { quiet b c with round := { live := some (3, 1), firing := [fireA] } }

/-! ### Deciding the terms of the statements -/

def headsOk (b : Bank) (on : Bool) (t : Option ChanTest) : Bool := match on, t with
  | true, some t => (b.chan t.ch.toNat).headersGood
  | _, _ => true

theorem headsOk_spec (b : Bank) (on : Bool) (ct : Option ChanTest) (h : headsOk b on ct = true) :
    ∀ t, on = true → ct = some t → (b.chan t.ch.toNat).headersGood = true := by
  rintro t rfl rfl; exact h

def firesOk (s : State) (f : Firing) (i : Instr) : Bool :=
  !f.short && (s.round.ups.find? fun u => u.cell = f.site.cell && u.rule = f.rule).isNone && !s.held f.site f.rule i

def clearOk (s : State) (f : Firing) (i : Instr) : Bool :=
  firesOk s f i && ((s.bank f.site).busyTile i).isNone && ((s.bank f.site).tainted i).isNone &&
    headsOk (s.bank f.site) (Instr.hdr i).deqA (Instr.hdr i).cta && headsOk (s.bank f.site) (Instr.hdr i).deqB (Instr.hdr i).ctb

theorem fires_of {s : State} {f : Firing} {rest : List Firing} {i : Instr} (hf : s.round.firing = f :: rest)
    (h : firesOk s f i = true) : Fires s f rest i := by
  simp only [firesOk, Bool.and_eq_true, Bool.not_eq_true', Option.isNone_iff_eq_none] at h
  exact ⟨hf, h.1.1, h.1.2, h.2⟩

theorem clear_of {s : State} {f : Firing} {rest : List Firing} {i : Instr} (hf : s.round.firing = f :: rest)
    (h : clearOk s f i = true) : Clear s f rest i := by
  simp only [clearOk, Bool.and_eq_true, Option.isNone_iff_eq_none] at h
  obtain ⟨⟨⟨⟨hk, ho⟩, ht⟩, ha⟩, hb⟩ := h
  have k := fires_of hf hk
  exact ⟨k.first, k.ports, k.upset, k.noHold, ho, ht, headsOk_spec _ _ _ ha, headsOk_spec _ _ _ hb⟩

def roomOk (s : State) (x : Site) (dst : Dst) : Bool := match dst with
  | .o n => s.canSend x n.toNat 1
  | _ => true

theorem room_of {s : State} {x : Site} {dst : Dst} (h : roomOk s x dst = true) : s.room x dst := by
  rintro n rfl; exact h

theorem forall_of {α : Type} {p : α → Bool} {q : α → Prop} (l : List α) (h : l.all p = true) (hq : ∀ a, p a = true → q a) :
    ∀ a ∈ l, q a := fun a ha => hq a (List.all_eq_true.mp h a ha)

theorem some_of {α : Type} {o : Option α} {p : α → Bool} (h : o.any p = true) : ∃ x, o = some x ∧ p x = true :=
  (Option.any_eq_true _ _).mp h

theorem and_of {a b : Bool} (h : (a && b) = true) : a = true ∧ b = true := by simpa using h

/-- Every instruction of a list is clear to fire. -/
theorem clear_all {s : State} (l : List Instr) (hf : s.round.firing = [fireA]) (h : l.all (clearOk s fireA) = true) : ∀ i ∈ l, Clear s fireA [] i :=
  forall_of l h fun _ k => clear_of hf k

/-- Each instruction of a list has what g gives it, is clear to fire, and meets p. -/
theorem wit_list {β : Type} {s : State} {g : Instr → Option β} (p : β → Instr → Bool) (l : List Instr) (hf : s.round.firing = [fireA])
    (h : l.all (fun i => (g i).any fun x => clearOk s fireA i && p x i) = true) :
    ∀ i ∈ l, ∃ x, g i = some x ∧ Clear s fireA [] i ∧ p x i = true :=
  forall_of l h fun i h => by
    obtain ⟨x, hx, h⟩ := some_of h
    exact ⟨x, hx, clear_of hf (and_of h).1, (and_of h).2⟩

/-- The same, with room for the destination that d gives. -/
theorem wit_room {β : Type} {s : State} {g : Instr → Option β} (d : β → Dst) (l : List Instr) (hf : s.round.firing = [fireA])
    (h : l.all (fun i => (g i).any fun x => clearOk s fireA i && roomOk s cellA (d x)) = true) :
    ∀ i ∈ l, ∃ x, g i = some x ∧ Clear s fireA [] i ∧ s.room cellA (d x) := fun i hi => by
  obtain ⟨x, hx, hc, hr⟩ := wit_list (fun x _ => roomOk s cellA (d x)) l hf h i hi
  exact ⟨x, hx, hc, room_of hr⟩

/-- What every record of a table meets, and the record that stands for none, is met at every number. -/
theorem getD_of {α : Type} {P : α → Prop} {l : List α} {d : α} (hd : P d) (h : ∀ x ∈ l, P x) (n : Nat) : P (l.getD n d) := by
  rw [List.getD_eq_getElem?_getD]
  rcases hn : l[n]? with _ | x
  · exact hd
  · exact h x (List.mem_of_getElem? hn)

theorem noBarrier_of {s : State} {g : Nat} (h : ∀ b ∈ (s.saggar g).barriers, b.st = .idle) : NoBarrier s g :=
  fun b => getD_of (P := fun b : Barrier => b.st = .idle) rfl h b

theorem earlier_of {s : State} {f : Firing} (h : ∀ r ∈ s.reqs, r.id < s.nextId)
    (ho : ∀ o ∈ (s.bank f.site).outs, ∀ g ∈ o.groups, g.id < s.nextId) : Earlier s f :=
  ⟨h, fun o => getD_of (P := fun o : OutState => ∀ g ∈ o.groups, g.id < s.nextId) (fun _ h => by cases h) ho o⟩

/-- No request of a state is a fence, or a refill that waits. -/
theorem unfenced_of {s : State} {f : Firing} {p : Path} (h : (s.reqs.any fun o => match o.op with | .fence .. => true | _ => false) = false) :
    ¬ Fenced s f p := fun ⟨o, ho, _, y, hy⟩ => by
  have := List.any_eq_false.1 h o ho
  simp [hy] at this

theorem unblocked_of {s : State} {f : Firing} {q : Nat} (h : (s.reqs.any fun o => match o.op with | .copy _ _ _ (some _) false => true | _ => false) = false) :
    ¬ Blocked s f q := fun ⟨o, ho, _, _, _, _, d, p, n, k, hy⟩ => by
  have := List.any_eq_false.1 h o ho
  simp [hy] at this

/-- A channel that holds tokens of cell 6, in order. -/
def chanOfToks (l : List (BitVec 3 × Word)) (fmt : BitVec 16 := 0xA000) : Chan :=
  { toks := l.zipIdx.map fun (t, k) => { cls := t.1, payload := t.2, src := cellB, out := 0, seq := k }, fmt := fmt }

/-! ### Ill-formed instructions: one term for each check, which refuses it -/

/-- Whether each instruction of a list fails its check for its reason. -/
def refused (l : List (IllFormed × Instr)) : Bool := l.all fun p => p.2.check = some p.1 && !p.2.wellFormed

/-- Whether each word of a list fails with its reason of R43, and decodes to nothing. -/
def refusedWords (l : List (Nat × Nat)) : Bool := l.all fun p =>
  reason {} (splitWord (BitVec.ofNat 128 p.2)) = some p.1 && decode (BitVec.ofNat 128 p.2) = none

/-- The reasons of R43, each on a word that meets its condition and none of a lower code. -/
theorem test_illformed_words : refusedWords [
    (0x01, wordOf 0x06 0 0x26 0x26 0x26 0x26), (0x02, wordOf 0x40 9 0x26 0x26 0x26 0x26), (0x03, wordOf 0x10 0 0x38 0x01 0x02 0x26),
    (0x04, wordOf 0x10 0 0x27 0x01 0x02 0x26), (0x04, wordOf 0x10 0 0x03 0x28 0x02 0x26), (0x04, wordOf 0x10 0 0x03 0x01 0x02 0x00),
    (0x06, wordOf 0x10 0 0x03 0x20 0x02 0x26), (0x07, 0x11 * 2 ^ 102 + wordOf 0x10 0 0x03 0x01 0x02 0x26),
    (0x08, 0x0001 * 2 ^ 112 + wordOf 0x10 0 0x03 0x01 0x02 0x26), (0x09, 1 * 2 ^ 88 + wordOf 0x10 0 0x03 0x01 0x02 0x26),
    (0x0A, 1 + wordOf 0x10 0 0x03 0x01 0x02 0x26), (0x0B, wordOf 0x10 0 0x03 0x01 0x02 0x26 [(12, 1)]),
    (0x0C, wordOf 0x03 0 0x26 0x01 0x27 0x26), (0x0D, 8 + wordOf 0x10 0 0x03 0x26 0x02 0x26)] = true := by decide +kernel

/-- Output 3 without a binding (0x05). -/
theorem test_illformed_unbound : reason { bound := 0xF7 } (splitWord (BitVec.ofNat 128 (wordOf 0x10 0 0x2B 0x01 0x02 0x26))) = some 0x05 := by decide +kernel

/-- Instructions whose words R43 refuses. -/
theorem test_illformed_terms : refused [
    (.configuration 0x06, .add {} .i32 (.g 3) (.head .A) (.g 2) 0), (.configuration 0x06, .nop { deqB := true }),
    (.configuration 0x07, .nop { cta := some { ch := 4, cls := none }, ctb := some { ch := 4, cls := some 1 } }), (.configuration 0x08, .nop { pval := 1 }),
    (.configuration 0x0B, .add {} .i32 (.g 3) (.g 1) (.g 2) 5), (.configuration 0x0D, .nop { reuse := 1 })] = true := by decide +kernel

/-- Steps of the machine that name a part beyond the package's. -/
theorem test_illformed_parts : refused [
    (.tile, .cellRound 64 []), (.slot, .yieldEnd 63 4), (.cell, .cellSave { tile := 63, slot := 3, cell := 192 }),
    (.out, .tokenArrival { tile := 63, slot := 3, cell := 191 } 8), (.saggar, .killScrubComplete 16), (.port, .linkTraining 16 none),
    (.cohort, .barComplete 15 256)] = true := by decide +kernel

/-! ### One step: the values that the manual states -/

/-- The bank of cell 5 after one instruction of a round of its own. -/
def after (b : Bank) (i : Instr) : Bank := match exec i (place b) with
  | .next t => t.finishRound.bank cellA
  | _ => {}

/-- The word that an instruction writes, or will write, to g4, where the source registers hold the values of a list. -/
def gives (l : List Word) (i : Instr) : Word :=
  let b := after { bankA with g := l ++ List.replicate (32 - l.length) 0 } i
  match b.pend with
  | [{ writes := [.reg (.g 4) v], .. }] => v
  | _ => b.g.getD 4 0

/-- R56: ABS of the most negative number is itself; the high half of a product depends on the sign. -/
theorem test_integer_corners : gives [0x80000000] (.abs {} .i32 (.g 4) (.g 0) 0) = 0x80000000 ∧
    gives [0xFFFFFFFFFFFFFFFF, 2] (.mulh {} .n64 (.g 4) (.g 0) (.g 1) 0) = 1 ∧
    gives [0xFFFFFFFFFFFFFFFF, 2] (.mulh {} .i64 (.g 4) (.g 0) (.g 1) 0) = 0xFFFFFFFFFFFFFFFF := by decide +kernel

/-- R57: the quotient that does not fit is the dividend; a zero divisor traps before any effect. -/
theorem test_div : gives [0x8000000000000000, 0xFFFFFFFFFFFFFFFF] (.div {} .i64 (.g 4) (.g 0) (.g 1) 0) = 0x8000000000000000 ∧
    (after { bankA with p := 1 } (.div { pset := 2 } .i64 (.g 4) (.g 0) .zero 0)).halted = true ∧
    (after { bankA with p := 1 } (.div { pset := 2 } .i64 (.g 4) (.g 0) .zero 0)).p = 1 := by decide +kernel

/-- R67: the terms of the rule override the write of PREDS. -/
theorem test_wrspec_preds : (after { bankA with g := List.replicate 32 0xFF, p := 0x80 } (.wrspec { pclr := 0x80 } (.g 0) 0x0A)).p = 0x7F := by decide +kernel

/-- R312: the hash of the three bytes "abc", as FIPS 180-4's examples print it. -/
theorem test_sha384 : ofLeBytes (sha384 [0x61, 0x62, 0x63]).reverse =
    0xCB00753F45A35E8BB5A03D699AC65007272C32AB0EDED1631A8B605A43FF5BED8086072BA1E7CC2358BAECA134C825A7 := by decide +kernel

/-- R46: three steps of the LFSR. -/
theorem test_lfsr : lfsrNext 1 = 0x80200003 ∧ lfsrNext 0x80200003 = 0xC0300002 ∧ lfsrNext 0xC0300002 = 0x60180001 := by decide +kernel

/-- R286: CNT at its limit of 5 gives 0 and sets pk, and below it adds one. -/
theorem test_cnt : gives [4] (.cnt {} (.g 4) (.g 0) 1 4) = 0 ∧ gives [3] (.cnt {} (.g 4) (.g 0) 1 4) = 4 ∧
    (after { bankA with g := List.replicate 32 4 } (.cnt {} (.g 4) (.g 0) 1 4)).p = 2 := by decide +kernel

/-- R204, R205: exact roots, powers and logarithms; the reciprocal of zero; opposite infinities. -/
theorem test_float : gives [0x40800000] (.fsqrt {} .f32 (.g 4) (.g 0) .rne false) = 0x40000000 ∧ gives [0x40400000] (.fexp2 {} .f32 (.g 4) (.g 0) .ru false) = 0x41000000 ∧
    gives [0x41000000] (.flog2 {} .f32 (.g 4) (.g 0) .rd false) = 0x40400000 ∧ gives [0x80000000] (.frcp {} .f32 (.g 4) (.g 0) .rne false) = 0xFF800000 ∧
    gives [0x7F800000, 0xFF800000] (.fadd {} .f32 (.g 4) (.g 0) (.g 1) .rne false) = 0x7FC00000 := by decide +kernel

/-- R172, R173: INT8 17 rounds to E4M3 16; INT64 2^40 is beyond INT32; E8M0 code 0 is 2^-127. -/
theorem test_convert : gives [17] (.cvtf {} .e4m3 (.g 4) (.g 0) .rne false .int8 false) = 0x58 ∧
    gives [0x10000000000] (.cvt {} .int32 (.g 4) (.g 0) .rne false .int64 0) = 0x7FFFFFFF ∧
    gives [0] (.cvt {} .fp32 (.g 4) (.g 0) .rne false .e8m0 0) = 0x00400000 := by decide +kernel

/-- R173, R161: a NaN of E8M0 stays the NaN of E8M0 and sets invalid. -/
theorem test_e8m0_nan : gives [0xFF] (.cvt {} .e8m0 (.g 4) (.g 0) .rne false .e8m0 0) = 0xFF ∧
    (after { bankA with g := List.replicate 32 0xFF } (.cvt {} .e8m0 (.g 4) (.g 0) .rne false .e8m0 0)).sticky = 1 := by decide +kernel

/-- R76, and log entry 2: the bytes of memory are kept in order, and a zero takes no entry. -/
theorem test_memory : (State.reset.setBytes 8 [1, 0, 2]).mem = [⟨8, 1⟩, ⟨10, 2⟩] ∧ ((State.reset.setBytes 8 [1, 0, 2]).setBytes 8 [0]).mem = [⟨10, 2⟩] := by decide +kernel

/-! ### Witnesses: integers, bits, control (O1 to O4 and their parts) -/

/-- Registers at the ends of their range, and a data head on v0. -/
def bankI : Bank :=
  { bankA with
    g := [0, 1, BitVec.allOnes 64, 0x8000000000000000, 0x80000000, 0x7FFFFFFF, 31, 63] ++ List.replicate 24 5
    p := 0x06
    chans := chanOfToks [(0, 0xFFFFFFFF)] :: List.replicate 31 {} }

/-- The instructions of one round of groups 0x0_ to 0x2_: register, output, zero and history destinations, head and immediate
sources, both widths. -/
def integerOnes : List Instr := [
  .add {} .i32 (.g 1) (.g 2) .imm 0xFFFF, .sub {} .n32 (.o 0) (.g 3) (.g 1) 0, .min {} .i64 (.m 7) (.g 3) (.g 1) 0,
  .max {} .n64 .zero (.g 3) (.g 1) 0, .abs {} .i32 (.g 31) (.g 4) 0, .neg {} .n32 (.g 0) (.d 3) 0,
  .and heads .i64 (.g 1) (.head .A) (.g 2) 0, .or {} .n64 (.g 1) (.g 1) (.g 2) 0, .xor {} .i32 (.g 1) (.g 1) (.g 2) 0,
  .andn {} .n32 (.g 1) (.g 1) (.g 2) 0, .not {} .i64 (.g 1) (.g 1) 0, .shl {} .i32 (.g 1) (.g 1) (.g 7) 0,
  .shr {} .n32 (.g 1) (.g 2) (.g 6) 0, .sar {} .i64 (.g 1) (.g 3) (.g 7) 0, .rot {} .n64 (.g 1) (.g 1) .imm 64,
  .popc {} .n32 (.g 1) (.g 2) 0, .brev {} .i64 (.g 1) (.g 1) 0, .ext {} .i32 (.g 1) (.g 2) 31 0,
  .ins {} .n64 (.g 1) (.g 1) (.g 2) 0 63, .sel {} (.g 1) (.g 2) (.g 3) 1, .addr {} (.g 1) (.g 2) (.g 3) 3 0xFFFF,
  .limm {} true 3 (.m 0) 0x8000, .limm {} false 0 (.g 1) 1, .mov { deqA := true, cta := some { ch := 0, cls := none } } (.o 0) (.head .A) 0]

theorem wit_IntegerResults : ∀ i ∈ integerOnes, ∃ x, writtenNow ((place bankI).bank cellA) i = some x ∧
    Clear (place bankI) fireA [] i ∧ (place bankI).room cellA x.1 := wit_room _ _ rfl (by decide +kernel)

theorem wit_MultiplyResults : ∀ i ∈ ([.mul {} .i64 (.o 0) (.g 3) (.g 2) 0, .mulh {} .n32 (.m 0) (.g 2) (.g 2) 0,
    .mad heads .i32 (.g 3) (.head .A) .imm (.d 3) 0x8000] : List Instr), ∃ x, (if latencyThree i then intWritten ((place bankI).bank cellA) i else none) = some x ∧
    Clear (place bankI) fireA [] i ∧ (place bankI).room cellA x.1 := wit_room _ _ rfl (by decide +kernel)

/-- No leading zero bit, one, 31 of 32, and none set: the ends of each clause. -/
theorem wit_LeadingZeros : ∀ e ∈ [(Src.g 4, IntTy.i32, 0), (.g 5, .n32, 1), (.g 1, .i32, 31), (.g 0, .n32, 32), (.g 0, .i64, 64), (.g 3, .n64, 0)],
    let v := ((place bankI).bank cellA).raw {} 0 e.1
    e.2.2 ≤ width e.2.1 ∧ v.toNat % 2 ^ width e.2.1 < 2 ^ (width e.2.1 - e.2.2) ∧
    (e.2.2 < width e.2.1 → 2 ^ (width e.2.1 - e.2.2 - 1) ≤ v.toNat % 2 ^ width e.2.1) := by decide +kernel

theorem wit_LeadingZeros_clear : Clear (place bankI) fireA [] (.clz {} .i32 (.o 0) (.g 0) 0) ∧ (place bankI).room cellA (.o 0) :=
  ⟨clear_of rfl (by decide +kernel), room_of (by decide +kernel)⟩

/-- The destination of a division by a divisor that is not zero. -/
def quotientTo (b : Bank) (i : Instr) : Option Dst :=
  (intForm i).bind fun o => if val (signed o.ty) (operand b i (width o.ty) o.imm o.s2) ≠ 0 then some o.dst else none

/-- The most negative number by −1, and an unsigned division. -/
theorem wit_DivideResult : ∀ i ∈ ([.div {} .i64 (.o 0) (.g 3) (.g 2) 0, .div {} .n32 (.g 1) (.g 4) .imm 3] : List Instr),
    ∃ x, quotientTo ((place bankI).bank cellA) i = some x ∧
      Clear (place bankI) fireA [] i ∧ (place bankI).room cellA x := wit_room (β := Dst) (fun x => x) _ rfl (by decide +kernel)

/-- The destination of an ADDC. -/
def sumTo : Instr → Option Dst
  | .addc _ _ dst _ _ _ _ => some dst
  | _ => none

theorem wit_AddWithCarry : ∀ i ∈ ([.addc {} .n64 (.g 3) (.g 2) (.g 2) (.g 1) 6, .addc {} .i32 (.o 0) (.g 0) (.g 2) (.g 0) 0] : List Instr),
    ∃ x, sumTo i = some x ∧ Clear (place bankI) fireA [] i ∧
      (place bankI).room cellA x := wit_room (β := Dst) (fun x => x) _ rfl (by decide +kernel)

theorem wit_PredicateResults : ∀ i ∈ ([.plog {} 3 0 1 8, .cmp {} .i64 (.g 3) (.g 2) 2 .lt, .cmp {} .n32 (.g 3) (.g 2) 2 .ge,
    .tst {} .n64 (.g 1) (.g 4) 7 true, .tst {} .i32 (.g 1) (.g 2) 0 false] : List Instr),
    ∃ x, predWritten ((place bankI).bank cellA) i = some x ∧ Clear (place bankI) fireA [] i ∧ (fun _ _ => true) x i = true :=
  wit_list (fun _ _ => true) _ rfl (by decide +kernel)

theorem wit_NopGuardWord : Clear (place bankI) fireA [] (.nop { pset := 0xFF, pclr := 0x0F, sbset := some 7, deqA := true, cta := some { ch := 0, cls := none } }) :=
  clear_of rfl (by decide +kernel)

/-- DIV by zero; TRAP with a register, and with a head that bears an error tag. -/
def bankT : Bank := { bankI with chans := { toks := [{ cls := 0, payload := 5, etag := true, src := cellB, out := 0, seq := 0 }] } :: List.replicate 31 {} }

/-- A cell of saggar 0, whose registers hold the first address of the management page and one just below it; cohort 5 has it as a member. -/
def placePage : State :=
  { place { bankT with g := [0x7FFFFFFF0000, 0x7FFFFFFEFFF8, 64, 0x10000] ++ List.replicate 28 0 } with
    launches := [{ launchA with saggar := 0 }], cohorts := [{ saggar := 0, num := 5, size := 2, formed := true, members := [{ rank := 0, who := .cell 7 0 5 }] }] }

/-- Each instruction of a list raises its own exception, or misuses the management page, and nothing else of its rule does. -/
theorem raises_of {s : State} (l : List Instr) (hf : s.round.firing = [fireA]) (h : l.all (fun i =>
      ((ownRaise (s.bank cellA) i).or (pageRaise s fireA i)).any fun _ => firesOk s fireA i &&
        decide ((s.bank cellA).busyTile i = none ∧ (s.bank cellA).tainted i = none)) = true) :
    ∀ i ∈ l, ∃ r, (ownRaise (s.bank cellA) i).or (pageRaise s fireA i) = some r ∧ Fires s fireA [] i ∧ (s.bank cellA).busyTile i = none ∧
      (s.bank cellA).tainted i = none := forall_of l h fun _ h => by
  obtain ⟨r, hr, h⟩ := some_of h
  exact ⟨r, hr, fires_of hf (and_of h).1, of_decide_eq_true (and_of h).2⟩

/-- DIV and TRAP; a narrow load, a stream and a collective from the page. -/
theorem wit_ExceptionsTaken : (∀ i ∈ ([.div {} .i32 (.g 1) (.g 2) (.g 0) 0, .trap {} (.g 3) 0xFFFF, .trap heads (.head .A) 1] : List Instr),
      ∃ r, (ownRaise ((place bankT).bank cellA) i).or (pageRaise (place bankT) fireA i) = some r ∧ Fires (place bankT) fireA [] i ∧
        ((place bankT).bank cellA).busyTile i = none ∧ ((place bankT).bank cellA).tainted i = none) ∧
    (∀ i ∈ ([.ld {} .i32 (.g 1) (.g 0) none, .stream {} none 0 (.g 0) (.g 2) 0, .coll {} .broadcast (.g 3) (.g 0) (.g 2) none .fp32 5] : List Instr),
      ∃ r, (ownRaise (placePage.bank cellA) i).or (pageRaise placePage fireA i) = some r ∧ Fires placePage fireA [] i ∧
        (placePage.bank cellA).busyTile i = none ∧ (placePage.bank cellA).tainted i = none) ∧
    (place bankT).launchAt cellA = some launchA ∧ launchA.trav = none :=
  ⟨raises_of _ rfl (by decide +kernel), raises_of _ rfl (by decide +kernel), by decide +kernel, rfl⟩

/-- The first address of the page that a range of R397 meets is its own where it begins below the page. -/
theorem wit_ExceptionsTaken_page : (pageRaise placePage fireA (.ld {} .i32 (.g 1) (.g 0) none)).map (·.addr) = some 0x7FFFFFFF0000 ∧
    pageRaise placePage fireA (.ld {} .i64 (.g 1) (.g 0) none) = none := by decide +kernel

/-! ### Witnesses: channels, special registers, dataflow control -/

/-- Tokens of every class on channel 1 and a selector with bit 0 set on channel 0; the channel that MERGE takes from holds two. -/
def bankC : Bank :=
  { bankI with
    chans := [chanOfToks [(0, 1)], chanOfToks [(2, 0xAB), (1, 0x8000000000000000), (0, 3)], chanOfToks [(0, 9), (3, 1), (4, 2), (0, 3)],
      chanOfToks [(5, 0)], chanOfToks [(7, 0x0010000000000000)]] ++ List.replicate 27 {} }

theorem wit_TokensSent : ∀ i ∈ ([.send {} .data 0 (.g 2) 0, .send heads .last 7 (.head .A) 0, .ctl {} 1 .imm 0xFFFF, .stop {} 2 15,
    .fwd heads 3 .B, .steer heads 4 .A 1 5, .fork { heads with deqA := true, deqB := true } 0 .A 0xFF] : List Instr),
    ∃ x, sentTokens ((place bankC).bank cellA) i = some x ∧ Clear (place bankC) fireA [] i ∧
      (fun (x : List (Nat × Said)) _ => decide ((place bankC).lacksAfter cellA [] (x.map (·.1)) = none)) x i = true :=
  wit_list (fun (x : List (Nat × Said)) _ => decide ((place bankC).lacksAfter cellA [] (x.map (·.1)) = none)) _ rfl (by decide +kernel)

/-- Channel 16 of the consumer has no free slot. -/
def crowded : State := place bankI { chans := List.replicate 16 {} ++ [{ taken := 16 }] }

theorem wit_SendAborts : Clear crowded fireA [] (.send {} .hdr 0 (.g 2) 0) ∧ crowded.canSend cellA 0 1 = false :=
  ⟨clear_of rfl (by decide +kernel), by decide +kernel⟩

/-- One token and sixteen, of channels that hold stops, control tokens and a drain token. -/
theorem wit_TokensRemoved : ∀ i ∈ ([.deq {} 1 0, .deq {} 2 15, .sink {} 2 15, .sink {} 3 0, .deq {} 4 7] : List Instr),
    ∃ x, removal i = some x ∧ Clear (place bankC) fireA [] i ∧
      (fun (x : Nat × Nat × List (BitVec 3)) _ => (((place bankC).bank cellA).chan x.1).headersGood) x i = true :=
  wit_list (fun (x : Nat × Nat × List (BitVec 3)) _ => (((place bankC).bank cellA).chan x.1).headersGood) _ rfl (by decide +kernel)

/-- The selector names channel 2, and its own channel. -/
theorem wit_MergeMoves : ∀ e ∈ [((1 : BitVec 5), (2 : BitVec 5)), (1, 0)],
    let b := (place bankC).bank cellA
    let i : Instr := .merge { heads with deqA := true } 0 .A e.1 e.2
    (∃ sel, b.headTok { heads with deqA := true } .A = some sel ∧ sel.payload.getLsbD 0 = true) ∧ (b.chan e.2.toNat).toks ≠ [] ∧
      (b.chan e.2.toNat).headersGood = true ∧ Clear (place bankC) fireA [] i ∧ (place bankC).canSend cellA 0 1 = true := by
  refine forall_of _ (p := fun e => ((((place bankC).bank cellA).headTok { heads with deqA := true } .A).any fun t => t.payload.getLsbD 0) &&
    (decide (((((place bankC).bank cellA).chan e.2.toNat).toks ≠ []) ∧ (((place bankC).bank cellA).chan e.2.toNat).headersGood = true) &&
      clearOk (place bankC) fireA (.merge { heads with deqA := true } 0 .A e.1 e.2))) (by decide +kernel) fun e h => ?_
  have k := and_of (and_of h).2
  exact ⟨some_of (and_of h).1, (of_decide_eq_true k.1).1, (of_decide_eq_true k.1).2, clear_of rfl k.2, by decide +kernel⟩

theorem wit_TagOfHead : (heads.ctb = some { ch := 1, cls := none } ∧ ∃ k r, (((place bankC).bank cellA).chan 1).toks = k :: r) ∧ cellA.slot < 4 ∧
    Clear (place bankC) fireA [] (.tagof heads (.o 0) .B) ∧ (place bankC).room cellA (.o 0) :=
  ⟨⟨rfl, _, _, rfl⟩, by decide, clear_of rfl (by decide +kernel), room_of (by decide +kernel)⟩

/-- Every special register of the cell. -/
theorem wit_SpecialRead : ∀ n ∈ ([1, 2, 3, 4, 5, 6, 8, 9, 10, 11, 12, 13, 0x18] : List (BitVec 8)),
    (∃ v, special ((place bankC).bank cellA) n.toNat = some v) ∧ Clear (place bankC) fireA [] (.rdspec {} (.g 1) n) ∧ (place bankC).room cellA (.g 1) :=
  forall_of _ (p := fun n => (special ((place bankC).bank cellA) n.toNat).any (fun _ => true) && clearOk (place bankC) fireA (.rdspec {} (.g 1) n))
    (by decide +kernel) fun n h => ⟨(some_of (and_of h).1).imp fun _ h => h.1, clear_of rfl (and_of h).2, room_of rfl⟩

theorem wit_SpecialRead_cellid : cellA.cell < 256 ∧ cellA.tile < 64 ∧ (place bankC).rtileOf cellA < 64 ∧ cellA.slot < 4 ∧
    (place bankC).saggarOf cellA < 16 ∧ (place bankC).planeNum cellA < 512 ∧ Clear (place bankC) fireA [] (.rdspec {} (.o 0) 0) ∧
    (place bankC).room cellA (.o 0) := by
  refine ⟨by decide, by decide, ?_⟩
  exact ⟨by decide +kernel, by decide, by decide +kernel, by decide +kernel, clear_of rfl (by decide +kernel), room_of (by decide +kernel)⟩

/-- LFSR with a zero, STICKY, PREDS, CHKINT. -/
theorem wit_SpecialWritten : ∀ n ∈ ([8, 9, 10, 0x18] : List (BitVec 8)),
    (∃ r, specialWritten ((place bankC).bank cellA).regs n.toNat (((place bankC).bank cellA).raw {} 0 (.g 3)) = some r) ∧
      Clear (place bankC) fireA [] (.wrspec {} (.g 3) n) :=
  forall_of _ (p := fun n => (specialWritten ((place bankC).bank cellA).regs n.toNat (((place bankC).bank cellA).raw {} 0 (.g 3))).any (fun _ => true)
    && clearOk (place bankC) fireA (.wrspec {} (.g 3) n)) (by decide +kernel) fun n h => ⟨(some_of (and_of h).1).imp fun _ h => h.1, clear_of rfl (and_of h).2⟩

/-- With its own DEQ bit, and without. -/
theorem wit_CellRetires : ∀ i ∈ [Instr.retire { sbset := some 0 }, .retire { heads with deqA := true }], Clear (place bankC) fireA [] i :=
  clear_all _ rfl (by decide +kernel)

/-- The least limit and the greatest. -/
theorem wit_CountWraps : (Clear (place bankC) fireA [] (.cnt {} (.o 0) (.g 2) 0 0) ∧ (place bankC).room cellA (.o 0)) ∧
    Clear (place bankC) fireA [] (.cnt {} (.g 2) (.g 2) 7 0x1FFF) :=
  ⟨⟨clear_of rfl (by decide +kernel), room_of (by decide +kernel)⟩, clear_of rfl (by decide +kernel)⟩

theorem wit_GatesSet : Clear (place bankC) fireA [] (.gateSet {} 0 (.g 2) 0) ∧ Clear (place bankC) fireA [] (.gateAdd {} 7 .imm 0xFFFF) ∧
    Clear (place bankC) fireA [] (.gateOff {} 0) := ⟨clear_of rfl (by decide +kernel), clear_of rfl (by decide +kernel), clear_of rfl (by decide +kernel)⟩

/-- A bank whose registers hold the levels of a nest, none of them with a count of zero. -/
def bankL : Bank := { bankA with g := List.replicate 32 0x0000000100000003 }

/-- Sixteen levels on all four units, and one level on the last unit, the others being held. -/
def unitsBusy : State := { place bankL with tiles := setAt {} (place bankL).tiles 3 { (place bankL).tile 3 with loops := [some (0, 1, 0), some (0, 1, 1), some (2, 1, 0), none] } }

theorem wit_NestOpens : ((∀ l ∈ nestLevels ((place bankL).bank cellA) 0 16, l.c ≠ 0) ∧ ((place bankL).bank cellA).hasNest 0 = false ∧
    ∀ j, j < 4 → ((place bankL).tile 3).loops.getD (0 + j) none = none) ∧ Clear (place bankL) fireA [] (.loopopen {} 0 (.g 0) 15) :=
  ⟨by decide +kernel, clear_of rfl (by decide +kernel)⟩

theorem wit_NestOpens_last : ((∀ l ∈ nestLevels (unitsBusy.bank cellA) 30 1, l.c ≠ 0) ∧ (unitsBusy.bank cellA).hasNest 7 = false ∧
    (∀ j, j < 1 → (unitsBusy.tile 3).loops.getD (3 + j) none = none) ∧ ∀ v, v < 3 → ¬ (v + 1 ≤ 4 ∧ ∀ j, j < 1 → (unitsBusy.tile 3).loops.getD (v + j) none = none)) ∧
    Clear unitsBusy fireA [] (.loopopen {} 7 (.g 30) 0) := ⟨by decide +kernel, clear_of rfl (by decide +kernel)⟩

/-- A held nest, and none. -/
def bankN : Bank := { bankL with units := [{ id := 9, firing := 9, rule := 1, work := .nest { out := 0, first := 0, units := 1, levels := [{ c := 3, b := 0, s := 1 }] } }] }

theorem wit_NestReleased : Clear (place bankN) fireA [] (.loopdone {} 0) ∧ ((place bankN).bank cellA).hasNest 1 = false ∧ Clear (place bankN) fireA [] (.loopdone {} 1) :=
  ⟨clear_of rfl (by decide +kernel), by decide +kernel, clear_of rfl (by decide +kernel)⟩

/-! ### Witnesses: floating point, lanes, conversions, tables -/

/-- Ones, a zero, an infinity, a NaN, subnormals, and the greatest finite value, in registers; a head of four FP16 lanes. -/
def bankF : Bank :=
  { bankA with
    g := [0x3F803F803F803F80, 0, 0x7F800000, 0x7FC00000, 0x3FF0000000000000, 0xFFF8000000000000, 1, 0xFF7FFFFF, 0x7B00000001, 0x40004000BC003C00, 0x0123456789ABCDEF]
      ++ List.replicate 21 0x3F800000
    chans := [chanOfToks [(0, 0x3F800000)], chanOfToks [(0, 0x3C007C0000017BFF)] 0x3000] ++ List.replicate 30 {} }

def envF : REnv := { lfsr := ((place bankF).bank cellA).lfsr, flags := 0 }

/-- The source encodings of a scalar instruction, and its exact result. -/
def exactOf (i : Instr) : Option (FloatForm × FRes) :=
  (floatForm i).bind fun o =>
    let x := (((place bankF).bank cellA).readScalars (Instr.hdr i) (ftyFmt o.ty) o.srcs envF).1
    let v (k : Nat) : FVal := (ftyF o.ty).decode (x.getD k 0)
    (exactResult i (scaleSource ((place bankF).bank cellA) i) (v 0) (if 1 < x.length then v 1 else .zero) (if 2 < x.length then v 2 else .zero)).map
      fun r => (o, r)

theorem wit_FloatResults : ∀ i ∈ ([.fadd {} .f32 (.g 1) (.g 2) (.g 3) .rne false, .fsub {} .f64 (.o 0) (.g 4) (.g 5) .rz true,
    .fmul {} .bf16 (.m 7) (.g 0) (.g 0) .sr false, .fma heads .f32 .zero (.head .A) (.d 0) (.g 7) .rd true, .frcp {} .f32 (.g 1) (.g 1) .rne false,
    .frsq {} .f64 (.g 1) (.g 4) .rne false, .fexp2 {} .f32 (.g 1) (.g 11) .ru false, .flog2 {} .f16 (.g 1) (.g 9) .rne false,
    .fsqrt {} .f32 (.g 1) (.g 7) .rne false, .fscale {} .f64 (.g 1) (.g 4) (.g 8) .rne false] : List Instr),
    ∃ y, exactOf i = some y ∧ Clear (place bankF) fireA [] i ∧ (place bankF).room cellA y.1.dst := wit_room (fun (y : FloatForm × FRes) => y.1.dst) _ rfl (by decide +kernel)

theorem wit_FloatBits : ∀ i ∈ ([.fmin {} .f32 (.g 1) (.g 2) (.g 3), .fmax heads .f16 (.o 0) (.head .B) (.g 9), .fabs {} .f64 .zero (.g 5),
    .fneg {} .bf16 (.g 1) (.g 0), .fclass {} .f32 (.m 0) (.g 6)] : List Instr),
    ∃ y, bitsForm i = some y ∧ Clear (place bankF) fireA [] i ∧ (place bankF).room cellA y.2.1 := wit_room (fun (y : FTy × Dst × List Src × (Nat → Nat → Nat)) => y.2.1) _ rfl (by decide +kernel)

/-- With a NaN and without. -/
theorem wit_FloatCompare : ∀ i ∈ ([.fcmp {} .f32 (.g 3) (.g 2) 0 .lt, .fcmp heads .f32 (.head .A) (.g 1) 7 .un] : List Instr),
    Clear (place bankF) fireA [] i := clear_all _ rfl (by decide +kernel)

theorem wit_FloatCompare_read : ∃ x y e, ((place bankF).bank cellA).readScalars heads .fp32 [.head .A, .g 1] envF = ([x, y], e) ∧
    (fp32.decode x).isNan = false := ⟨_, _, _, rfl, by decide +kernel⟩

def lanesOk (b : Bank) (h : Hdr) (w : Nat) (srcs : List Src) : Bool := srcs.all fun s => match s with
  | .head hd => (Hdr.headCh h hd).all fun n => decide (fmtOf (b.chan n).fmt = .raw ∨ fmtBits (fmtOf (b.chan n).fmt) = w)
  | _ => true

theorem lanes_of {b : Bank} {h : Hdr} {w : Nat} {srcs : List Src} (k : lanesOk b h w srcs = true) : lanesReadable b h w srcs := by
  intro hd n hm hn
  have := List.all_eq_true.mp k _ hm
  simp only [hn, Option.all_some] at this
  exact of_decide_eq_true this

/-- The exact results of a packed instruction's lanes, when every lane has one. -/
def laneResults (i : Instr) : Option (List FRes) :=
  (laneForm i).bind fun o =>
    let w := (vtyF o.1).width
    let x := (((place bankF).bank cellA).readLanes (Instr.hdr i) (vtyFmt o.1) (64 / w) o.2.2.1 envF).1
    let v (j k : Nat) : FVal := if j < x.length then (vtyF o.1).decode ((x.getD j []).getD k 0) else .zero
    (List.range (64 / w)).mapM fun k => laneExact i (v 0 k) (v 1 k) (v 2 k)

def lanesFit (i : Instr) : Bool := (laneForm i).any fun o => lanesOk ((place bankF).bank cellA) (Instr.hdr i) (vtyF o.1).width o.2.2.1 && roomOk (place bankF) cellA o.2.1

theorem wit_LaneResults : ∀ i ∈ ([.vadd {} .f32 (.g 1) (.g 2) (.g 3) .rne false, .vsub heads .f16 (.o 0) (.head .B) (.g 9) .sr true,
    .vmul {} .bf16 (.m 0) (.g 0) (.g 0) .rz false, .vfma heads .f16 .zero (.g 9) (.head .B) (.d 3) .ru false] : List Instr),
    ∃ rs, laneResults i = some rs ∧ Clear (place bankF) fireA [] i ∧ (fun _ i => lanesFit i) rs i = true :=
  wit_list (fun _ i => lanesFit i) _ rfl (by decide +kernel)

def picksFit (y : VTy × Dst × List Src × Nat × (Nat → Nat → Nat → Nat) × (Nat → Nat → BitVec 6)) (i : Instr) : Bool :=
  lanesOk ((place bankF).bank cellA) (Instr.hdr i) (vtyF y.1).width y.2.2.1 && roomOk (place bankF) cellA y.2.1

theorem wit_LanePicks : ∀ i ∈ ([.vmin {} .f32 (.g 1) (.g 2) (.g 3), .vmax heads .f16 (.o 0) (.head .B) (.g 9), .vamax {} .bf16 (.m 0) (.g 0) (.g 0),
    .vsel heads .f16 .zero (.g 9) (.head .B) (.g 5), .vcmp {} .f32 (.g 1) (.g 2) (.g 3) .le] : List Instr),
    ∃ y, pickForm i = some y ∧ Clear (place bankF) fireA [] i ∧
      (fun y i => picksFit y i) y i = true :=
  wit_list (fun y i => picksFit y i) _ rfl (by decide +kernel)

/-- VSUM of two and of four lanes, VDOT3 of two and of four, VSHUF with and without zeroed lanes. -/
theorem wit_LaneReductions : (∀ i ∈ ([.vsum {} .f32 (.g 1) (.g 8) .rne false, .vsum heads .f16 (.o 0) (.head .B) .sr true,
      .vdot3 {} .f32 (.g 1) (.g 8) (.g 2) (.g 3) .rne true, .vdot3 heads .f16 (.o 0) (.g 9) (.head .B) (.d 0) .rz false,
      .vshuf {} .f32 (.g 1) (.g 8) (.g 2) 0 0x688, .vshuf heads .f16 (.o 0) (.head .B) (.g 9) 0xF 0xFFF] : List Instr), Clear (place bankF) fireA [] i) ∧
    lanesReadable ((place bankF).bank cellA) heads 16 [.g 9, .head .B, .d 0] ∧ (place bankF).room cellA (.o 0) ∧
    (sumTree .rne false envF [.zero, .zero]).isSome = true ∧ (tripleSum .sr true envF [{ val := .zero }, { val := .zero }, { val := .zero }, { val := .zero }]).isSome = true :=
  ⟨clear_all _ rfl (by decide +kernel), lanes_of (by decide +kernel),
    room_of (by decide +kernel), by decide +kernel, by decide +kernel⟩

def convFits (y : Dst × Nat × Word × REnv) (i : Instr) : Bool :=
  lanesOk ((place bankF).bank cellA) (Instr.hdr i) (packedSources i).2 (packedSources i).1 && roomOk (place bankF) cellA y.1

theorem wit_Conversions : ∀ i ∈ ([.cvt {} .fp16 (.g 1) (.g 2) .rne false .fp32 0, .cvt {} .e4m3 (.o 0) (.g 7) .rne false .fp32 4,
    .vcvt heads .fp32 (.g 1) (.head .B) .rne false .fp16 1, .cvti {} .n64 (.m 0) (.g 3) .rz .fp32 false, .cvti {} .i8 .zero (.g 7) .rne .int32 true,
    .cvtf {} .fp64 (.g 1) (.g 10) .rne false .int64 true, .scaleq {} .e4m3 (.g 1) (.g 8) (.g 10) (.g 5) .sr false .fp32 7 3,
    .scaledq {} .bf16 (.g 1) (.g 10) (.g 10) .rne false .e4m3 0 1, .cblook {} (.o 0) (.g 10) 3 3, .seal {} (.g 1) (.g 7) .e5m2,
    .amaxacc heads .fp16 (.g 1) (.g 11) (.head .B)] : List Instr),
    ∃ y, converted ((place bankF).bank cellA) i = some y ∧ Clear (place bankF) fireA [] i ∧ (fun y i => convFits y i) y i = true :=
  wit_list (fun y i => convFits y i) _ rfl (by decide +kernel)

/-- The first quarter of a codebook and the last; SETFMT with a valid entry. -/
theorem wit_TablesWritten : Clear (place bankF) fireA [] (.cbld {} (.g 9) 0 0) ∧ Clear (place bankF) fireA [] (.cbld heads (.head .B) 3 3) ∧
    (fmtValid 0x3000 = true ∧ (∀ t ∈ (((place bankF).bank cellA).chan 1).toks, t.cls = 1 → badHeader t.payload = false) ∧
      Clear (place { bankF with g := [0x3000] }) fireA [] (.setfmt {} (.g 0) 1)) :=
  ⟨clear_of rfl (by decide +kernel), clear_of rfl (by decide +kernel), by decide +kernel, by decide +kernel, clear_of rfl (by decide +kernel)⟩

/-- A one and a half and a negative quarter, at the place of a quarter. -/
theorem wit_ExactArithmetic : Claim.FVal.at (.fin false 3 (-1) false) (-2) = some 6 ∧ Claim.FVal.at (.fin true 1 (-2) false) (-2) = some (-1) := by decide

/-- The greatest finite E4M3, and the least subnormal FP64. -/
theorem wit_EncodingsAreExact : (e4m3 ∈ roundingFormats ∧ 0x7E < 2 ^ e4m3.width ∧ (∀ n, e4m3.decode 0x7E ≠ .nan n) ∧ (∀ n, e4m3.decode 0x7E ≠ .inf n)) ∧
    (fp64 ∈ roundingFormats ∧ 1 < 2 ^ fp64.width ∧ (∀ n, fp64.decode 1 ≠ .nan n) ∧ (∀ n, fp64.decode 1 ≠ .inf n)) := by decide +kernel

/-- Integers and powers of two at both ends of the range; codes of fits at both ends, and a magnitude that none covers; magnitudes to
seal. -/
theorem wit_FunctionValues :
    (∀ k ∈ [(-16384 : Int), -3, 1, 16384], -2 ^ 14 ≤ k ∧ k ≤ 2 ^ 14 ∧ AtMost k.natAbs 0 k.natAbs 0) ∧ (AtMost 4 0 1 2 ∧ AtMost 1 2 4 0 ∧ AtMost 1 0 1 0) ∧
    (∀ e ∈ [((3 : Nat), (0 : Int), 448, 120), (448, 127, 448, 254), (1, -200, 57344, 0)],
      AtMost e.1 e.2.1 e.2.2.1 ((e.2.2.2 : Nat) - 127) ∧ ∀ d : Nat, d < e.2.2.2 → ¬ AtMost e.1 e.2.1 e.2.2.1 (d - 127)) ∧
    (∀ d : Nat, d ≤ 0xFE → ¬ AtMost 1 200 127 (d - 127)) ∧
    (fp32.decode 0xBF800001 = .fin true 8388609 (-23) false ∧ fp32.decode 1 = .fin false 1 (-149) false ∧ fp32.decode 0x7F800000 = .inf false ∧ fp32.decode 0xFFC00000 = .nan true) := by
  unfold AtMost; decide +kernel

/-! ### Witnesses: units and accumulators -/

/-- An accumulator tile of each kind; stay tiles of BF16. -/
def bankU : Bank :=
  { bankF with
    acc := [{ el := List.replicate 256 0x3F800000, occ := 0x8001 }, { kind := .int32, el := List.replicate 256 5, occ := 1 }, { kind := .fp64lo }, { kind := .fp64hi }] }

def h01 : Hdr := { heads with sbset := some 0 }

theorem wit_UnitsStart : ∀ i ∈ ([.contract h01 .bf16 (.head .A) .zero (.head .B) 1 .j false true 0 false true 0,
    .contract h01 .f64 (.head .A) (.head .B) .zero 3 .ij false true 2 false false 0, .contract h01 .i8 .zero (.head .A) (.head .B) 0 .ij false true 3 true false 1,
    .gradpair h01 .bf16 .A .B .ij .ij false true 0 true false 1, .stay h01 .f32 .A false true, .stay h01 .cb4 .B true false,
    .accld h01 .fp64 .A .ij 2, .accld h01 .int32 .A .i 3, .cturn h01 0 .A false 0, .cturn h01 7 .B true 255,
    .isectMul h01 0 .A .B .f32 .rne 15, .isectDot h01 1 .A .f16 .rz 0 true 0, .union h01 .min 2 .A .B .bf16 .ru 1, .sacci h01 .i32 .A 1 15 15,
    .sacci h01 .f32 .B 3 0 0] : List Instr), ∃ y, unitsStarted ((place bankU).bank cellA) 50 4 i = some y ∧ Clear (place bankU) fireA [] i ∧
    (fun _ _ => true) y i = true := wit_list (fun _ _ => true) _ rfl (by decide +kernel)

theorem wit_UnitsStart_may : mayStart (place bankU) cellA (.contract h01 .bf16 (.head .A) .zero (.head .B) 1 .j false true 0 false true 0) ∧
    mayStart (place bankU) cellA (.contract h01 .f64 (.head .A) (.head .B) .zero 3 .ij false true 2 false false 0) ∧
    mayStart (place bankU) cellA (.gradpair h01 .bf16 .A .B .ij .ij false true 0 true false 1) ∧ mayStart (place bankU) cellA (.cturn h01 7 .B true 255) ∧
    mayStart (place bankU) cellA (.isectDot h01 1 .A .f16 .rz 0 true 0) ∧ mayStart (place bankU) cellA (.sacci h01 .f32 .B 3 0 0) :=
  ⟨.inr rfl, .inl rfl, rfl, rfl, rfl, trivial⟩

/-- The first tile and the last; each kind. -/
theorem wit_AccumulatorsRead : (∀ i ∈ ([.accz {} 0, .accz {} 3, .accrd h01 .fp16 0 .rne false .ij 0 false, .accrd h01 .int32 7 .rne false .none 1 true,
    .accrd h01 .fp64 0 .rne false .i 2 true, .accsc {} false (.g 8) .sr true 0, .accsc {} true (.g 10) .rne false 0, .saccf h01 .f32 0 .bf16 .rne 0 15,
    .saccf h01 .i32 7 .f32 .rne 1 0] : List Instr), Clear (place bankU) fireA [] i) ∧
    (place bankU).canSend cellA 0 1 = true ∧ (place bankU).canSend cellA 7 1 = true ∧ (((place bankU).bank cellA).acc.getD 0 {}).kind = .fp32 ∧
    (((place bankU).bank cellA).acc.getD 1 {}).kind = .int32 :=
  ⟨clear_all _ rfl (by decide +kernel), by decide +kernel, by decide +kernel,
    rfl, rfl⟩

/-! ### Witnesses: requests -/

/-- Addresses and lengths: an address of HBM, a canonical address with its sign bit set, offsets at the ends of the partition of
32,768 bytes, lengths, a consumer set, a descriptor of row commands. -/
def bankQ : Bank :=
  { bankA with
    g := [0x10000, 0xFFFF800000000000, 0, 32760, 30720, 16, 0x400000, 0xFFFFFFFF, 0x40000000, 0x0000000000000001, 0x20000, 2048, 32, 4096,
      0x0000000700000000, 0x0000001F00000000, 8] ++ List.replicate 15 1 }

/-- A request can be asked for, finds its slots and its place on path L, and does not misuse the management page. -/
def askFits (e : Ask × Bool) (i : Instr) : Bool :=
  e.2 && decide ((place bankQ).lacksAfter cellA [] (slotsOf e.1) = none ∧ (place bankQ).outstandingL cellA < 32 ∧
    misused (place bankQ) (reqOf (place bankQ) fireA i e.1) = [])

/-- Every access and command of RequestsIssued: both ends of an address, an offset or a length, with and without a completion
binding, in a register and on an output. -/
def askedAll : List Instr := [
  .ld {} .i8 (.g 1) (.g 1) none, .ld {} .i64 (.o 0) (.g 0) (some 7), .st {} .n16 (.g 0) (.g 1) (some 0), .lds {} .n64 (.m 7) (.g 3) none, .lds {} .i32 .zero (.g 2) (some 1),
  .sts {} .n8 (.g 3) (.g 1) none, .tlook {} (.g 1) (.g 1) (some 0), .tset {} (.g 4) (.g 0) (.g 2) none, .tinv {} (.g 2) (some 2),
  .stream {} (some 0) 1 (.g 0) (.g 7) 0, .stream {} none 0 (.g 1) .imm 1, .stash {} (.g 2) (.g 5) none 0xFFF, .unstash {} 0 (some 1) 0,
  .ldp {} (.g 1) (.g 10) none, .stp {} (.g 10) (.g 1) (some 0), .clrp {} (.g 10) (.g 8) none, .clrp {} (.g 10) (.g 16) none,
  .upd {} .add32 (.g 0) (.g 1) (some 0), .upd {} .xor64 (.g 10) (.g 1) none, .ownEnter {} (.g 0) (.g 8) none, .ownRelease {} (.g 0) (some 0), .cmplT {} (some 0),
  .bcarm {} (.g 0) (.g 5) none 15, .copyqDeclare {} (.g 0) (.g 8) (.g 9) (some 0) 31, .copyqRelease {} none 0, .consumed {} (some 0) 31,
  .kvappPut {} (.g 0) (.g 2) (.g 7) none 255, .kvappCommit {} (.g 10) (.g 2) (some 0), .kvrot {} 0 (.g 0) (some 1), .markOwn {},
  .markCohort {} (some 0) 255 true, .markCohort {} none 0 false]

theorem wit_RequestsIssued : ∀ i ∈ askedAll, ∃ e, asked (place bankQ) cellA i = some e ∧ Clear (place bankQ) fireA [] i ∧ (fun e i => askFits e i) e i = true :=
  wit_list (fun e i => askFits e i) _ rfl (by decide +kernel)

/-- A cell with a load outstanding, a store that a copy engine does not see yet, and a token tested of an access on path C. -/
def placeF : State :=
  { place { bankQ with known := [(.l, 44), (.c, 41)] } with
    reqs := [{ id := 44, site := cellA, launch := 7, saggar := 2, rule := 3, word := 0, path := .l, op := .ld 0x10000 8 false, dst := .reg (.g 5), past := [40] }]
    lags := [{ key := hbmKey 2 0x10010, old := 0, acc := 42, site := some cellA, path := .l, hidden := [.c], past := [41] }] }

/-- A fence of each pair of paths, with a token and without. -/
theorem wit_FenceIssued : (∀ i ∈ ([.fencex heads (some 0) .l .c, .fencex {} none .c .x, .fencex {} none .h .l] : List Instr), Clear placeF fireA [] i) ∧
    placeF.lacksAfter cellA [] [0] = none ∧ (∃ r ∈ placeF.reqs, r.site = cellA ∧ r.path = .l ∧ r.op.isAccess = true ∧ r.performed = false) ∧
    (∃ g ∈ placeF.lags, g.path = .l ∧ g.site = some cellA) ∧ (Path.l, 44) ∈ (placeF.bank cellA).known :=
  ⟨clear_all _ rfl (by decide +kernel), by decide +kernel⟩

/-- The requests that a cell has outstanding, which CMPL and BAR cover. -/
theorem wit_RequestsIssued_covered : asked placeF cellA (.cmplT {} none) = some ({ op := .cmpl, path := .l, joint := placeF.issuedBy cellA }, true) ∧
    (Path.l, 44) ∈ placeF.issuedBy cellA := ⟨rfl, by decide +kernel⟩

/-- A copy of 2^32 bytes, a refill of none, and a copy of none. -/
theorem wit_CopiesIssued :
    (copyPlace (place bankQ) cellA false 0x10000 4294967296 = some (.hbm 0x10000) ∧ copyPlace (place bankQ) cellA true 0 4294967296 = none) ∧
    ((copyPlace (place bankQ) cellA true 0 32 = some (.store 3 0 0) ∧ copyPlace (place bankQ) cellA false 0xFFFF800000000000 32 = some (.hbm 0x800000000000) ∧
      (place bankQ).queueLength 2 3 15 < 64) ∧ Clear (place bankQ) fireA [] (.copy {} (.g 2) (.g 1) (.g 12) (some 0) true false false 15 0) ∧
      (place bankQ).lacksAfter cellA [] [0] = none) ∧
    Clear (place bankQ) fireA [] (.copy {} (.g 0) (.g 1) (.g 2) none false false true 0 31) ∧
    (Earlier (place bankQ) fireA ∧ ¬ Blocked (place bankQ) fireA 0 ∧ ¬ Fenced (place bankQ) fireA .c ∧
      misused (place bankQ) (reqOf (place bankQ) fireA (.copy {} (.g 0) (.g 1) (.g 2) (some 0) false false false 0 0)
        { op := .copy (.hbm 0x10000) (.hbm 0x800000000000) 0 none false, path := .c }) = [] ∧
      Clear (place bankQ) fireA [] (.copy {} (.g 0) (.g 1) (.g 2) (some 0) false false false 0 0)) := by
  exact ⟨by decide +kernel, ⟨by decide +kernel, clear_of rfl (by decide +kernel), by decide +kernel⟩, clear_of rfl (by decide +kernel),
    earlier_of (by decide +kernel) (by decide +kernel), unblocked_of (by decide +kernel), unfenced_of (by decide +kernel), by decide +kernel, clear_of rfl (by decide +kernel)⟩

/-- A refill that waits on copy queue 0 of the cell's stack, and a fence of the cell that names path C second. -/
def placeW : State :=
  let r : Req := { id := 44, site := cellB, launch := 7, saggar := 2, rule := 3, word := 0, path := .c, op := .copy (.hbm 0x10000) (.store 3 0 0) 64 (some 31) false, queue := some 0 };
  { place bankQ with reqs := [r, { r with id := 45, site := cellA, path := .l, op := .fence .l .c, queue := none }] }

/-- A copy of no bytes behind each of them. -/
theorem wit_CopiesIssued_waiting : let i : Instr := .copy {} (.g 0) (.g 1) (.g 2) (some 0) false false false 0 0
    Blocked placeW fireA 0 ∧ Fenced placeW fireA .c ∧ Earlier placeW fireA ∧ Clear placeW fireA [] i ∧ placeW.lacksAfter cellA [] [0] = none ∧
      misused placeW (reqOf placeW fireA i { op := .copy (.hbm 0x10000) (.hbm 0x800000000000) 0 none false, path := .c, cm := some 0, queue := some 0 }) = [] ∧
      placeW.queueLength 2 3 0 < 64 := by
  exact ⟨⟨_, List.mem_cons_self .., rfl, by decide +kernel, by decide +kernel, rfl, _, _, _, _, rfl⟩,
    ⟨_, List.mem_cons_of_mem _ (List.mem_cons_self ..), rfl, _, rfl⟩, earlier_of (by decide +kernel) (by decide +kernel),
    clear_of rfl (by decide +kernel), by decide +kernel, by decide +kernel, by decide +kernel⟩

/-- Cohort 5 of saggar 2, formed, of a cell and its region; and cohort 6, of 256 ranks. -/
def cohortA : Cohort := { saggar := 2, num := 5, size := 2, formed := true, members := [{ rank := 0, who := .cell 7 0 5 }, { rank := 1, who := .region 7 }] }
def cohortB : Cohort := { saggar := 2, num := 255, size := 256, formed := true, members := [{ rank := 255, who := .region 7, attempt := 255 }] }
def placeK (b : Bank) : State := { place b with cohorts := [cohortA, cohortB] }

def rowFits (e : Ask × Bool) (i : Instr) : Bool :=
  e.2 && decide ((placeK bankR).lacksAfter cellA [] (slotsOf e.1) = none ∧ misused (placeK bankR) (reqOf (placeK bankR) fireA i e.1) = [])
where
  /-- Offsets, a descriptor of one row, of four rows that use all four entries, and one of a backward command; addresses and counts. -/
  bankR : Bank := { bankA with g := [0, 2048, 0, 0x30000000000, 4096, 0x18000000001000, 0x10000, 0x11000, 32, 0x200, 1, 256] ++ List.replicate 20 0 }

theorem wit_RowsIssued : ∀ i ∈ ([.rowf {} .softmax (.g 0) (.g 1) (.g 2) none .fp32 0, .rowf {} .rmsnorm (.g 0) (.g 0) (.g 3) (some 0) .bf16 31,
    .rowb {} .layernorm (.g 0) (.g 1) (.g 5) none .fp16 1] : List Instr),
    ∃ e, rowAsked (placeK rowFits.bankR) cellA i = some e ∧ Clear (placeK rowFits.bankR) fireA [] i ∧ (fun e i => rowFits e i) e i = true :=
  wit_list (fun e i => rowFits e i) _ rfl (by decide +kernel)

theorem wit_CollectivesIssued : ∀ i ∈ ([.coll {} .allreduce (.g 6) (.g 7) (.g 8) (some 0) .fp32 5, .coll {} .reducescatter (.g 6) (.g 7) (.g 8) none .int32 5,
    .coll {} .allgather (.g 6) (.g 7) (.g 8) none .bf16 5, .coll {} .broadcast (.g 6) (.g 6) (.g 10) none .fp32 5, .coll {} .alltoall (.g 6) (.g 7) (.g 11) none .fp16 255,
    .coll {} .allmax (.g 6) (.g 7) (.g 8) none .fp64 5, .xred {} (.g 6) (.g 7) (.g 8) none .fp32 255] : List Instr),
    ∃ e, collAsked (placeK rowFits.bankR) cellA i = some e ∧ Clear (placeK rowFits.bankR) fireA [] i ∧ (fun e i => rowFits e i) e i = true :=
  wit_list (fun e i => rowFits e i) _ rfl (by decide +kernel)

/-- The last granule of the partition, full; and the first, empty. -/
def placeG : State := { place { bankQ with g := setAt 0 bankQ.g 3 32752 } with granules := [partKey (place bankQ) 2 3 32752 / 16] }

theorem wit_FullEmptyAccesses :
    (storeOk placeG cellA 32752 16 16 = true ∧ setMem (partKey placeG 2 3 32752 / 16) placeG.granules = true ∧ placeG.outstandingL cellA < 32 ∧
      placeG.lacksAfter cellA [] [0, 0, 0] = none) ∧
    (storeOk placeG cellA 0 16 16 = true ∧ setMem (partKey placeG 2 3 0 / 16) placeG.granules = false) ∧
    (∀ i ∈ ([.ldfe {} (.g 30) (.g 3) (some 0), .ldfe {} (.o 0) (.g 3) (some 0), .stfe {} (.g 2) (.g 0) (.g 1) none] : List Instr), Clear placeG fireA [] i) ∧
    (∀ i ∈ ([.ldfe {} (.o 0) (.g 2) (some 0), .stfe {} (.g 3) (.g 0) (.g 1) none] : List Instr), Clear placeG fireA [] i) :=
  ⟨by decide +kernel, by decide +kernel, clear_all _ rfl (by decide +kernel), clear_all _ rfl (by decide +kernel)⟩

/-- Barriers that are armed with 16 bytes written, and with none. -/
def barriersB : List Barrier :=
  let b (n : Int) : Barrier := { st := .armed, bal := n, base := 0x10000, len := 16, launch := 7 };
  b 16 :: (List.replicate 14 ({ } : Barrier) ++ [b 0])

def placeB : State := { place bankQ with saggars := setAt {} (List.replicate 16 {}) 2 { saggarA with barriers := barriersB } }

theorem wit_BarrierPosts :
    (((placeB.saggar 2).barriers.getD 15 {}).st = .armed ∧ ((placeB.saggar 2).barriers.getD 15 {}).bal < (0xFFFFFFFF : Nat)) ∧
    (((placeB.saggar 2).barriers.getD 0 {}).st = .armed ∧ ((placeB.saggar 2).barriers.getD 0 {}).bal = (16 : Nat)) ∧
    placeB.lacksAfter cellA [] [0] = none ∧ placeB.holdUp ≠ .runOut ∧ Earlier placeB fireA ∧ placeB.outstandingL cellA < 32 ∧ ¬ Fenced placeB fireA .l ∧
    (∀ i ∈ ([.bcpost {} (.g 7) none 15, .bcpost {} (.g 5) (some 0) 0] : List Instr), Clear placeB fireA [] i) := by
  refine ⟨by decide +kernel, by decide +kernel, by decide +kernel, nofun, ?_⟩
  exact ⟨earlier_of (by decide +kernel) (by decide +kernel), by decide +kernel, unfenced_of (by decide +kernel), clear_all _ rfl (by decide +kernel)⟩

/-- A balance above the post's count; a post of no bytes; and a barrier that is not armed. -/
theorem wit_BarrierPosts_misused :
    (((placeB.saggar 2).barriers.getD 0 {}).bal > (1 : Nat) ∧ placeB.launch? ((placeB.saggar 2).barriers.getD 0 {}).launch = some launchA) ∧
    ((placeB.bank cellA).raw {} 0 (.g 2) = 0 ∧ (placeB.bank cellA).raw {} 0 (.g 9) = 1 ∧ ((placeB.saggar 2).barriers.getD 7 {}).st = .idle) ∧
    (∀ i ∈ ([.bcpost {} (.g 9) (some 0) 0, .bcpost {} (.g 2) none 15, .bcpost {} (.g 5) (some 0) 7] : List Instr), Clear placeB fireA [] i) :=
  ⟨by decide +kernel, by decide +kernel, clear_all _ rfl (by decide +kernel)⟩

/-! ### Witnesses: cohorts, regions, ranges, exceptions, hold-up -/

theorem wit_CohortMembers :
    ((placeK bankQ).cohort? 2 5 = some cohortA ∧ cohortA.find ((placeK bankQ).memberId cellA false) = some { rank := 0, who := .cell 7 0 5 } ∧
      cohortA.find ((placeK bankQ).memberId cellA true) = some { rank := 1, who := .region 7 } ∧ cohortA.closing = false ∧
      (placeK bankQ).memberOf cellA 5 = some (cohortA, { rank := 0, who := .cell 7 0 5 })) ∧
    ((placeK bankQ).cohort? 2 255 = some cohortB ∧ (placeK bankQ).memberOf cellA 255 = some (cohortB, { rank := 255, who := .region 7, attempt := 255 }) ∧
      (placeK bankQ).lacksAfter cellA [] [0] = none) ∧
    (∀ k, Idle (placeK bankQ) 2 k) ∧
    (∀ i ∈ ([.bar {} false 0 5, .bar {} true 7 5, .cabort {} (some 0) 5, .cabort {} none 255, .leave {} false 5, .leave {} true 255] : List Instr),
      Clear (placeK bankQ) fireA [] i) :=
  ⟨by decide +kernel, by decide +kernel, fun _ r hr => absurd (show r ∈ ([] : List Req) from hr) List.not_mem_nil, clear_all _ rfl (by decide +kernel)⟩

/-- A cohort that is free, one with two ranks missing, one with the last rank missing. -/
def bankJ : Bank := { bankA with g := [0, 4095, 4096, 2, 3] ++ List.replicate 27 1 }
def cohortJ : Cohort := { saggar := 2, num := 9, size := 3, members := [{ rank := 2, who := .region 11 }] }
def cohortJ2 : Cohort := { saggar := 2, num := 10, size := 2, members := [{ rank := 1, who := .remote 3, attempt := 4 }] }
def placeJ : State := { place bankJ with cohorts := [cohortJ, cohortJ2] }

theorem wit_CohortJoined : (placeJ.cohort? 2 8 = none ∧ placeJ.lacksAfter cellA [] [0] = none) ∧
    (placeJ.cohort? 2 9 = some cohortJ ∧ (∀ o ∈ cohortJ.members, o.rank ≠ 0) ∧ cohortJ.find (placeJ.memberId cellA true) = none ∧ cohortJ.members.length + 1 < 3) ∧
    (placeJ.cohort? 2 10 = some cohortJ2 ∧ (∀ o ∈ cohortJ2.members, o.rank ≠ 0) ∧ cohortJ2.find (placeJ.memberId cellA false) = none ∧
      2 ≤ cohortJ2.members.length + 1 ∧ cohortJ2.formed = false) ∧
    (∀ i ∈ ([.join {} false (some 0) (.g 1) (.g 2) 8, .join {} true none (.g 0) (.g 4) 9, .join {} false (some 7) (.g 0) (.g 3) 10] : List Instr),
      Clear placeJ fireA [] i) := ⟨by decide +kernel, by decide +kernel, by decide +kernel, clear_all _ rfl (by decide +kernel)⟩

/-- The state with the launch changed. -/
def withLaunch (s : State) (l : Launch) : State := { s with launches := [l] }

theorem wit_RegionDrains : ((place bankQ).launchAt cellA = some launchA ∧ launchA.trav = none ∧ Clear (place bankQ) fireA [] (.drain {})) ∧
    (∀ n ∈ ([0, 0xFFF] : List (BitVec 12)), Clear (place bankQ) fireA [] (.yield {} n)) ∧
    ((withLaunch (place bankQ) { launchA with draining := true, trav := some { requeue := false } }).launchAt cellA = some { launchA with draining := true, trav := some { requeue := false } } ∧
      Clear (withLaunch (place bankQ) { launchA with draining := true, trav := some { requeue := false } }) fireA [] (.drain {})) :=
  ⟨⟨by decide +kernel, rfl, clear_of rfl (by decide +kernel)⟩,
    forall_of _ (p := fun n => clearOk (place bankQ) fireA (.yield {} n)) (by decide +kernel) fun _ h => clear_of rfl h,
    by decide +kernel, clear_of rfl (by decide +kernel)⟩

theorem wit_SuccessorNamed : ((place bankQ).launchAt cellA = some launchA ∧ launchA.succ = none ∧ (∀ o ∈ (place bankQ).launches, o.num ≠ (place bankQ).nextLaunch) ∧
      (((place bankQ).image? 2 [1]).map (·.plat 0)).getD [] = launchA.tiles.map (·.rtile) ∧ platAt 3 [0] = some [3] ∧ [3].all (place bankQ).offered = true) ∧
    (∀ i ∈ ([.splice {} 0, .plane {} 0] : List Instr), Clear (place bankQ) fireA [] i) ∧
    (∀ b : Bool, (withLaunch (place bankQ) { launchA with succ := some (b, 255) }).launchAt cellA = some { launchA with succ := some (b, 255) } ∧
      Clear (withLaunch (place bankQ) { launchA with succ := some (b, 255) }) fireA [] (if b then .splice {} 255 else .plane {} 255)) :=
  ⟨by decide +kernel, clear_all _ rfl (by decide +kernel), fun b => by cases b <;> exact ⟨by decide +kernel, clear_of rfl (by decide +kernel)⟩⟩

/-- A region held under handle 255. -/
def savedA : Saved := { handle := 255, launch := 11, base := 0x10000, bytes := [] }
def launchS : Launch := { launchA with num := 11, no := 11, phase := .saved, tiles := [] }
def placeS : State :=
  { place { bankA with g := 255 :: List.replicate 31 63 } with
    launches := [launchA, launchS], saggars := setAt {} (List.replicate 16 {}) 2 { saggarA with saved := [savedA] } }

theorem wit_LaunchesQueued : (placeS.launchAt cellA = some launchA ∧ (placeS.queues.getD 31 []).length < 64 ∧ placeS.lacksAfter cellA [] [0] = none ∧ (1 : BitVec 2).toNat ≤ launchA.prio) ∧
    (∀ i ∈ ([.launch {} (some 0) (.g 1) 255 31 1 false, .launch {} none .zero 0 0 0 true, .resume {} (some 0) (.g 1) (.g 0) 31 1 false, .resume {} none .zero (.g 0) 0 0 true] : List Instr),
      Clear placeS fireA [] i) ∧
    ((placeS.saggar 2).saved.find? (·.handle = 255) = some savedA ∧ placeS.launch? 11 = some launchS ∧ savedA.queued = false ∧ (∀ o ∈ (placeS.saggar 2).saved, o.launch = 11 → o = savedA) ∧
      launchS.saggar = placeS.saggarOf cellA) :=
  ⟨by decide +kernel, clear_all _ rfl (by decide +kernel), by decide +kernel⟩

/-- A range unit held by the plane, with elements left; and one with none left. -/
def withRange (s : State) (u : RangeUnit) : State := { s with tiles := setAt {} s.tiles 3 { s.tile 3 with range := some u } }

theorem wit_RangesShared : (∀ u, ((place bankQ).tile 3).range = some u → u.slot = 1) ∧ Clear (place bankQ) fireA [] (.rangeOpen {} (.g 2) (.g 2) (.g 9) 0) ∧
    Clear (place bankQ) fireA [] (.rangeOpen {} (.g 2) (.g 1) (.g 7) 255) ∧ Clear (place bankQ) fireA [] (.rangeClose {}) ∧
    (∀ u ∈ [({ slot := 1, lo := 0, hi := 100, next := 0, p := 4, cmin := 3 } : RangeUnit), { slot := 1, lo := 0, hi := 100, next := 100, p := 256, cmin := 1 }],
      ((withRange (place bankQ) u).tile 3).range = some u ∧ Clear (withRange (place bankQ) u) fireA [] (.rangeTake {} (.g 30))) := by
  refine ⟨by decide +kernel, clear_of rfl (by decide +kernel), clear_of rfl (by decide +kernel), clear_of rfl (by decide +kernel), fun u hu => ?_⟩
  simp only [List.mem_cons, List.not_mem_nil, or_false] at hu
  rcases hu with rfl | rfl <;> exact ⟨by decide +kernel, clear_of rfl (by decide +kernel)⟩

/-- Tile 1 is owned, its owner waited for on no slot; a tagged head on v0. -/
def bankO : Bank := { bankT with acc := [{}, { owner := some (9, 2, 77) }, {}, {}] }

/-- Tiles 2 and 3 are a pair, and tile 3 is owned. -/
def bankO2 : Bank := { bankT with acc := [{}, {}, { kind := .fp64lo }, { kind := .fp64hi, owner := some (9, 2, 77) }] }

theorem wit_BusyAndPoison_pair : (((place bankO2).bank cellA).acc.getD 3 {}).owner = some (9, 2, 77) ∧
    (∀ c, c < 3 → (((place bankO2).bank cellA).acc.getD c {}).owner = none) ∧
    Res.acc 3 ∈ Instr.accReads ((place bankO2).bank cellA) (.accrd {} .fp64 0 .rne false .ij 2 false) ∧
    Fires (place bankO2) fireA [] (.accrd {} .fp64 0 .rne false .ij 2 false) :=
  ⟨by decide +kernel, by decide +kernel, by decide +kernel, fires_of rfl (by decide +kernel)⟩

theorem wit_BusyAndPoison : ((place bankO).launchAt cellA = some launchA ∧ launchA.trav = none) ∧
    (((((place bankO).bank cellA).acc.getD 1 {}).owner = some (9, 2, 77)) ∧ (∀ c, c < 1 → (((place bankO).bank cellA).acc.getD c {}).owner = none) ∧
      Res.acc 1 ∈ Instr.reads (.accz {} 1) ++ Instr.writes (.accz {} 1) ∧ Fires (place bankO) fireA [] (.accz { sbw := none } 1)) ∧
    (∀ i ∈ ([.add heads .i32 (.g 1) (.head .A) .imm 1, .mov heads (.o 0) (.head .A) 0, .send heads .data 0 (.head .A) 0, .ld heads .i64 (.g 1) (.head .A) none,
        .cmp heads .i32 (.head .A) (.g 1) 0 .eq, .fadd heads .f32 (.g 1) (.head .A) (.g 1) .rne false] : List Instr),
      (Instr.view i).s1 = some (.head .A) ∧ Fires (place bankT) fireA [] i) ∧
    ((∃ k, ((place bankT).bank cellA).headTok heads .A = some k ∧ k.etag = true) ∧ chanOf heads (.head .A) = some 0 ∧ (∀ a, (((place bankT).bank cellA).acc.getD a {}).owner = none)) := by
  refine ⟨⟨by decide +kernel, rfl⟩, ⟨by decide +kernel, by decide +kernel, by decide +kernel, fires_of rfl (by decide +kernel)⟩,
    forall_of _ (p := fun i => decide ((Instr.view i).s1 = some (.head .A)) && firesOk (place bankT) fireA i) (by decide +kernel) fun _ h => ⟨of_decide_eq_true (and_of h).1, fires_of rfl (and_of h).2⟩,
    ⟨_, rfl, rfl⟩, rfl, fun a => getD_of (P := fun t : AccTile => t.owner = none) rfl (by decide +kernel) a⟩

/-- A rule that waits for a pending register, and one that lacks a port. -/
def bankP : Bank := { bankA with pend := [{ id := 40, rule := 1, left := some 2, writes := [.reg (.g 1) 9] }] }

theorem wit_HeldRulesWait : ((place bankP).held cellA 4 (.add {} .i32 (.g 2) (.g 1) .zero 0) = true ∧ (place bankP).round.firing = [fireA]) ∧
    ({ place bankA with round := { live := some (3, 1), firing := [{ fireA with short := true }] } } : State).round.firing = [{ fireA with short := true }] :=
  ⟨⟨by decide +kernel, rfl⟩, rfl⟩

/-- A completion token of status 1 on v0; a log with records 0 and 1. -/
def bankE : Bank := { bankA with g := [0, 1, 2, 0xFFFFFFFF] ++ List.replicate 28 0, chans := chanOfToks [(7, 0x0010000000000000)] :: List.replicate 31 {} }
def logE : List LogRec := [{ seq := 0, words := [1, 2, 3, 4, 5, 6, 7, 8] }, { seq := 1, words := [9, 10, 11, 12, 13, 14, 15, 16] }]
def placeE : State := { place bankE with saggars := setAt {} (List.replicate 16 {}) 2 { saggarA with log := logE, nextSeq := 2 } }

theorem wit_ErrorsRead : (∃ k, (placeE.bank cellA).headTok heads .A = some k ∧ (k.cls = 7 && k.payload.extractLsb' 52 4 ≠ 0) = true) ∧
    (∀ i ∈ ([.chkerr heads .A 0 false, .chkerr heads .A 7 true, .faultrdWord {} (.g 1) (.g 1) 7, .faultrdWord {} (.o 0) (.g 3) 0, .faultrdCount {} (.m 7)] : List Instr), Clear placeE fireA [] i) ∧
    ((placeE.saggar 2).log = [{ seq := 0, words := [1, 2, 3, 4, 5, 6, 7, 8] }] ++ { seq := 1, words := [9, 10, 11, 12, 13, 14, 15, 16] } :: []) ∧
    (∀ r ∈ (placeE.saggar 2).log, r.seq ≠ 0xFFFFFFFF) ∧ placeE.room cellA (.o 0) :=
  ⟨⟨_, rfl, by decide +kernel⟩, clear_all _ rfl (by decide +kernel), rfl, by decide +kernel, room_of rfl⟩

/-- Phase 2 open for the saggar and for another; for another only; and no hold-up. -/
def placeH (h : HoldUp) : State := { place bankQ with holdUp := h }

theorem wit_HoldUpPrepared : (∀ i ∈ ([.snap {}, .savesetNotify {} 0, .savedropNotify {} 7, .savesetDeclare {} (.g 1) (.g 0) (.g 5), .savedropDeclaration {} (.o 0) (.g 7)] : List Instr),
      Clear (placeH .none) fireA [] i) ∧ (addressOk 0x10000 16 = true ∧ lengthOk 16 16 declMax = true) ∧ (placeH .none).lacksAfter cellA [] [0] = none ∧
    (∀ h ∈ [HoldUp.none, .grace [2, 5], .grace [2], .grace [5]], Clear (placeH h) fireA [] (.pfack {})) ∧ (2 ∈ [2, 5] ∧ (placeH (.grace [2, 5])).saggarOf cellA = 2) := by
  refine ⟨clear_all _ rfl (by decide +kernel), by decide +kernel, by decide +kernel,
    forall_of _ (p := fun h => clearOk (placeH h) fireA (.pfack {})) (by decide +kernel) fun _ h => clear_of rfl h, by decide +kernel⟩

/-- A data head with two tokens of its pair behind it; a completion head; a head that has been sent again three times. -/
def bankR (n : Nat) : Bank :=
  { bankA with chans := { chanOfToks [(0, 5), (0, 6), (2, 7)] with reinj := [((0, 6, 0, 0), n)] } :: chanOfToks [(7, 0)] :: List.replicate 30 {} }
def bankS : Bank := { outs := [{ kept := (chanOfToks [(0, 5), (0, 6), (2, 7)]).toks }] }

theorem wit_TokensReplayed : (∀ n ∈ [0, 2, 3], (∃ k, ((place (bankR n) bankS).bank cellA).headTok heads .A = some k ∧ k.cls = 0 ∧ k.seqr = false ∧
        ((((place (bankR n) bankS).bank cellA).chan 0).reinjCount ((place (bankR n) bankS).pairOf k.src k.out) k.seq = n)) ∧
      chanOf heads (.head .A) = some 0 ∧ Clear (place (bankR n) bankS) fireA [] (.replay heads .A)) ∧
    ((∃ k, ((place (bankR 0) bankS).bank cellA).headTok heads .B = some k ∧ k.cls = 7) ∧ Clear (place (bankR 0) bankS) fireA [] (.replay heads .B)) ∧
    (((place (bankR 3) bankS).bank cellA).busyTile (.replay heads .A) = none ∧ (place (bankR 3) bankS).launchAt cellA = some launchA) := by
  refine ⟨fun n hn => ?_, ⟨⟨_, rfl, rfl⟩, clear_of rfl (by decide +kernel)⟩, by decide +kernel, by decide +kernel⟩
  simp only [List.mem_cons, List.not_mem_nil, or_false] at hn
  rcases hn with rfl | rfl | rfl <;> exact ⟨⟨_, rfl, rfl, rfl, by decide +kernel⟩, rfl, clear_of rfl (by decide +kernel)⟩

/-! ### Witnesses: rounds, tokens, units -/

theorem wit_RoundsOpen : (quiet bankI).tileRuns 3 = true ∧ (quiet bankI).round.firing = [] := ⟨by decide +kernel, rfl⟩

/-- A cell that has counted an abort and two holds in the round. -/
theorem wit_CountersSettle : let s := quiet { bankI with due := { aborts := 1, shortHolds := 2 } }
    (s.banks.map (·.1)).count cellA = 1 ∧ (s.bank cellA).due ≠ {} := by decide +kernel

/-- Rules in slots 0 and 15, both ready; the fairness index at the last. -/
def bankRules : Bank := { bankA with rules := encode (.nop {}) :: (List.replicate 14 0 ++ [encode (.add {} .i32 (.g 1) (.g 2) .zero 0)]), fair := 15 }

theorem wit_ChosenRules : bankRules.fair < 16 ∧ bankRules.ready bankRules.fair = true ∧ bankRules.ready 0 = true := by decide +kernel

/-- A result due and one not; a scrub whose age is its interval and whose place is the last of its 1,644. -/
def bankD : Bank :=
  { bankA with
    pend := [{ id := 40, rule := 1, left := some 0, writes := [.reg (.m 7) 9] }, { id := 41, rule := 2, left := some 1, writes := [.reg (.g 1) 3] }]
    d := [{ val := 3, pend := some 41 }, { val := 9, pend := some 40 }, {}, {}], chkint := 64, scrubAge := 64, scrub := 1643 }
def deskD : State :=
  { quiet bankD with tiles := setAt {} (List.replicate 64 {}) 3 { slots := [{ yield := 1 }, { phase := .active, launch := 7, weight := 4, wd := 4194304 }, {}, {}] } }

/-- A result due on an output of a plane that has stopped. -/
def deskT : State :=
  { quiet { bankA with pend := [{ id := 40, rule := 1, left := some 2, writes := [.tok 0 { cls := 0, payload := 9 }] }] } with
    tiles := setAt {} (List.replicate 64 {}) 3 { slots := [{}, { phase := .active, launch := 7, weight := 4, halt := .stopped }, {}, {}] } }

theorem wit_CyclesEnd_stopped : (deskT.slot 3 1).halt = .stopped ∧ (deskT.bank cellA).pend.filter (·.left = some 0) = [] ∧
    (deskT.bank cellA).pend.filter (fun q => q.left.isSome && q.isToken) = (deskT.bank cellA).pend ∧ (deskD.slot 3 1).halt ≠ .stopped := by decide +kernel

theorem wit_CyclesEnd :
    ((deskD.bank cellA).pend.filter (·.left = some 0) = [{ id := 40, rule := 1, left := some 0, writes := [.reg (.m 7) 9] }]) ∧
    ((deskD.slot 3 1).phase = .active ∧ 2 ^ 22 ≤ (deskD.slot 3 1).wd ∧ deskD.launch? (deskD.slot 3 1).launch = some launchA) ∧ (deskD.slot 3 0).yield = 1 ∧
    ((deskD.bank cellA).chkint ≠ 0 ∧ (deskD.bank cellA).chkint.toNat ≤ (deskD.bank cellA).scrubAge ∧ deskD.launchAt cellA = some launchA) := by decide +kernel

/-- A token in flight, the next of its pair or not, to a live cell, to a retired one, and to none. -/
def flying (seq : Nat) (b : Option Binding) (retired : Bool) : State :=
  let k : Token := { cls := 5, payload := 3, src := cellA, out := 0, seq := seq };
  quiet { bankA with outs := [{ bind := b, flight := [k], kept := [k] }] } { retired := retired }

theorem wit_TokensArrive : (∀ r : Bool, ∀ n ∈ [0, 1], let s := flying n (some { yx := false, tile := 0, cell := 6, ch := 31 }) r
      ((s.bank cellA).out 0).flight = { cls := 5, payload := 3, src := cellA, out := 0, seq := n } :: [] ∧ s.consumer cellA 0 = some (cellB, 31) ∧
      ((s.bank cellB).chan 31).expected (s.rtileOf cellA, cellA.cell, 0) = 0 ∧ (s.bank cellB).retired = r) ∧
    ((flying 0 (some { yx := false, tile := 1, cell := 6, ch := 0 }) false).consumer cellA 0 = none ∧
      (flying 0 (some { yx := false, tile := 1, cell := 6, ch := 0 }) false).launchAt cellA = some launchA) ∧
    ((flying 0 none false).launch? launchA.num = some launchA ∧ launchA.tiles.any (fun e => e.tile = 3 && e.slot.isSome) = true) := by decide +kernel

/-- A token that crosses from tile 3 to tile 4 of its region, with no error, with one bit wrong, and with two wrong at each of four sendings. -/
def crossS : State :=
  { flying 0 (some { yx := false, tile := 1, cell := 6, ch := 0 }) false with
    launches := [{ launchA with tiles := [{ rtile := 0, tile := 3, slot := some 1 }, { rtile := 1, tile := 4, slot := some 1 }] }] }

theorem wit_FlitsCrossHops : (oneWrong 1 ∧ oneWrong (1 <<< 83) ∧ twoWrong 3 ∧ twoWrong (1 <<< 83 ^^^ 1 <<< 82)) ∧
    ((crossS.bank cellA).out 0).flight = [{ cls := 5, payload := 3, src := cellA, out := 0, seq := 0 }] ∧ crossS.launch? 7 = crossS.launches.head? ∧
    (crossS.launchAt cellA).isSome = true ∧
    ∀ l ∈ crossS.launches, l.tiles.any (fun e => e.tile = 3 && e.slot.isSome) = true ∧ l.tiles.any (fun e => e.tile = 4 && e.slot.isSome) = true := by
  refine ⟨⟨⟨0, by decide, rfl⟩, ⟨83, by decide, rfl⟩, ⟨0, 1, by decide, by decide, rfl⟩, 82, 83, by decide, by decide, rfl⟩, ?_⟩
  decide +kernel

/-- A bank with one unit in flight, whose output 0 is its run's. -/
def unitIn (w : UnitWork) (chans : List Chan) (kept : Nat) : State :=
  quiet { bankU with
    units := [{ id := 44, firing := 44, rule := 3, work := w, wait := 0 }], chans := chans
    outs := { bind := some { yx := false, tile := 0, cell := 6, ch := 16 }, groups := [{ id := 44, run := true, resv := kept }, { id := 46, toks := [{ cls := 2, payload := 5 }] }] } :: bankU.outs.drop 1 }

def runW (more : List (BitVec 3 × Word)) : RunOut := { out := 0, toks := (0, 9) :: more, sent := 2, age := 3 }
def turnW (more : List (BitVec 3 × Word)) (blocks : Nat) : CTurn := { ch := 4, out := 0, node := 1, blocks := blocks, outq := (0, 9) :: more }
def sparseW (more : List (BitVec 3 × Word)) : Sparse := { op := .mul, out := some 0, ofmt := .f32, rm := .rne, lvl := 1, a := { ch := 3 }, b := some { ch := 4 }, outq := (3, 1) :: more, final := true }
def nestW (x : Nat) : Nest := { out := 0, first := 0, units := 1, levels := [{ c := 2, b := 5, s := 0xFFFFFFFF, x := x }, { c := 1, b := 0, s := 1 }] }

/-- The last token and one before it; kept slots and free ones; a step that wraps and one that does not. -/
theorem wit_RunsSend :
    (∀ more ∈ [[], [((2 : BitVec 3), (7 : Word))]], ∀ kept ∈ [0, 1],
      (Acts (unitIn (.run (runW more)) [] kept) cellA 44 (.run (runW more)) ∧ (runW more).sent < (runW more).age ∧
        (unitIn (.run (runW more)) [] kept).runReady cellA 0 44 = true) ∧
      (Acts (unitIn (.cturn (turnW more 1)) [] kept) cellA 44 (.cturn (turnW more 1)) ∧ (unitIn (.cturn (turnW more 1)) [] kept).runReady cellA 0 44 = true ∧
        ((unitIn (.cturn (turnW more 1)) [] kept).tile 3).nodes.getD 1 none = none) ∧
      (Acts (unitIn (.cturn (turnW more 256)) [] kept) cellA 44 (.cturn (turnW more 256)) ∧ (unitIn (.cturn (turnW more 256)) [] kept).runReady cellA 0 44 = true) ∧
      (Acts (unitIn (.sparse (sparseW more)) [] kept) cellA 44 (.sparse (sparseW more)) ∧ (unitIn (.sparse (sparseW more)) [] kept).runReady cellA 0 44 = true)) ∧
    (∀ x ∈ [0, 1], Acts (unitIn (.nest (nestW x)) [] 1) cellA 44 (.nest (nestW x)) ∧ (nestW x).stop = none ∧ (nestW x).done = false ∧
      (unitIn (.nest (nestW x)) [] 1).runReady cellA 0 44 = true) ∧
    (let w : UnitWork := .nest { nestW 0 with stop := some 1 };
      Acts (unitIn w [] 1) cellA 44 w ∧ (unitIn w [] 1).runReady cellA 0 44 = true) := by
  unfold Acts; decide +kernel

/-- A token of channel 3 and of channel 4, of the class that `isLast` says. -/
def feedTok (isLast : Bool) (_ : Nat) : Token := { cls := if isLast then 2 else 0, payload := 0x0102030405060708, src := cellB, out := 0, seq := 0 }
def feedChans (isLast : Bool) (fmt : BitVec 16) : List Chan :=
  List.replicate 3 ({ } : Chan) ++ [{ toks := [feedTok isLast 3], fmt := fmt }, { toks := [feedTok isLast 4], fmt := fmt }]
def elems (n : Nat) : List Elem := List.replicate n { val := .ofInt 3 }
def contractionW (fmt : CFmt) (sv : Shape) (n : Nat) (ovw : Bool) : Contraction :=
  { fmt := fmt, stay := none, role := 3, u := { ch := some 3, buf := elems n }, v := { ch := some 4, idxJ := true, buf := elems n }, surv := sv, acc := 0, ovw := ovw, half := 0 }

/-- Each format with each shape; vectors that the tokens complete, with last tokens and without, and vectors that they do not. -/
theorem wit_UnitsTake_step : ∀ isLast : Bool, ∀ e ∈ [(CFmt.i8, Shape.ij, (0x7000 : BitVec 16), 0, false), (.i8, .none, 0x7000, 8, true), (.f8, .i, 0x4000, 8, true),
      (.bf16, .j, 0x2000, 12, true), (.f32, .ij, 0x1000, 14, true), (.f64, .i, 0, 15, true)],
    let c := contractionW e.1 e.2.1 e.2.2.2.1 isLast
    let s := unitIn (.contraction c) (feedChans isLast e.2.2.1) 0
    s.stopped cellA = false ∧ (s.bank cellA).feedGroup 44 = [({ id := 44, firing := 44, rule := 3, work := .contraction c, wait := 0 }, c)] ∧ c.chans = [3, 4] ∧
      (∀ n ∈ c.chans, (s.bank cellA).dueOn n = .data (feedTok isLast n) ∧ (feedTok isLast n).cls = (if isLast then 2 else 0) ∧ accepts c.fmt (fmtOf ((s.bank cellA).chan n).fmt) = true) ∧
      (fedWith (s.bank cellA) c (feedTok isLast)).full = e.2.2.2.2 ∧ (s.bank cellA).badScales (fedWith (s.bank cellA) c (feedTok isLast)) = false := by
  decide +kernel

/-- A bank with one unit and one channel of tokens, channel 5. -/
def takeIn (w : UnitWork) (cls : BitVec 3) (fmt : BitVec 16) : State :=
  unitIn w (List.replicate 5 ({ } : Chan) ++ [chanOfToks [(cls, 0x0102030405060708), (cls, 1)] fmt, chanOfToks [(cls, 0x0000000300000007), (0, 1)] fmt]) 0
def tok5 (cls : BitVec 3) : Token := { cls := cls, payload := 0x0102030405060708, src := cellB, out := 0, seq := 0 }
def fillW (last : Bool) : StayFill := { ch := 5, fmt := .bf16, tile := 1, cm := true, count := if last then 252 else 0 }
def loadW (last : Bool) : AccFill := { ch := 5, fmt := .fp32, acc := 3, shape := .j, count := if last then 14 else 0 }
def turnIn (last : Bool) : CTurn := { ch := 5, out := 0, node := 1, blocks := 2, el := List.replicate (if last then 248 else 0) 1, count := if last then 248 else 0, scales := [(0, 0x7F)] }

/-- The first token of a fill, a load and a turn, and the last. -/
theorem wit_UnitsTake_fills : ∀ last : Bool, let cls : BitVec 3 := if last then 2 else 0
    (let s := takeIn (.stayFill (fillW last)) cls 0xA000;
      Acts s cellA 44 (.stayFill (fillW last)) ∧ (s.bank cellA).dueOn 5 = .data (tok5 cls) ∧ fmtOf ((s.bank cellA).chan 5).fmt = .raw ∧ (fillW last).count + 4 ≤ 256 ∧
        perToken (stayFmt .bf16) = 4 ∧ (last = true → (fillW last).count + 4 = 256) ∧ (fillW last).seen = [] ∧
        (∀ e, e < 4 → ∀ d, d < 4 → (s.bank cellA).scaleByte 5 e = (s.bank cellA).scaleByte 5 d)) ∧
    (let s := takeIn (.accFill (loadW last)) cls 0xA000;
      Acts s cellA 44 (.accFill (loadW last)) ∧ (s.bank cellA).dueOn 5 = .data (tok5 cls) ∧ perToken .fp32 = 2 ∧
        (last = true ↔ (placesOf .j).length ≤ (loadW last).count + 2)) ∧
    (let s := takeIn (.cturn (turnIn last)) cls 0x4000;
      Acts s cellA 44 (.cturn (turnIn last)) ∧ (turnIn last).outq = [] ∧ (s.tile 3).nodes.getD 1 none = none ∧ (s.bank cellA).dueOn 5 = .data (tok5 cls) ∧
        (∀ e ∈ (turnIn last).scales, e.2 = 0x7F) ∧ fmtSsrc ((s.bank cellA).chan 5).fmt = 0 ∧ (turnIn last).count + perToken .e4m3 ≤ 256 ∧
        (last = true → (turnIn last).count + perToken .e4m3 = 256)) := by
  unfold Acts; decide +kernel

/-- Whether an input offers what it should: its side of `Offers`, decided. -/
def offerOk (b : Bank) (i : SIn) (o : Option (Nat × FVal × Bool)) : Bool :=
  match o with
  | none => i.closed
  | some (c, v, z) => !i.closed && match b.look false i with
    | .item it _ => it = .elem c v z
    | _ => false

theorem offers_of {b : Bank} {i : SIn} {o : Option (Nat × FVal × Bool)} (h : offerOk b i o = true) : Offers b i o := by
  rcases o with _ | ⟨c, v, z⟩
  · exact h
  · simp only [offerOk, Bool.and_eq_true, Bool.not_eq_true'] at h
    refine ⟨h.1, ?_⟩
    split at h
    · rename_i it t e
      exact ⟨t, by rw [e, of_decide_eq_true h.2]⟩
    · simp at h

/-- A sparse unit on channels 5 and 6. -/
def sparseIn (w : Sparse) (a b : List (BitVec 3 × Word)) (fmt : BitVec 16 := 0x1000) : State :=
  unitIn (.sparse w) (List.replicate 5 ({ } : Chan) ++ [chanOfToks a fmt, chanOfToks b fmt]) 0
def inputOf (ch : Nat) (closed : Bool) : SIn := { ch := ch, begun := true, closed := closed, last := some 2, count := 1 }
def mergeW (op : SparseOp) (ca cb : Bool) : Sparse :=
  { op := op, out := some 0, ofmt := .f32, rm := .rne, lvl := 1, a := inputOf 5 ca, b := some (inputOf 6 cb), held := some (2, 9) }

/-- Elements at equal coordinates and at unequal ones, one of them the last of its fiber; one side closed, the other, and both. -/
theorem wit_NodesTake_merge : ∀ op ∈ [SparseOp.mul, .union .add, .union .sub, .union .max, .union .min],
    ∀ e ∈ [(false, false, some (3, fp32.decode 0x3F800000, false), some (3, fp32.decode 0x40000000, false)), (false, false, some (3, fp32.decode 0x3F800000, false), some (65535, fp32.decode 0x40000000, true)),
      (true, false, none, some (3, fp32.decode 0x40000000, true)), (false, true, some (3, fp32.decode 0x3F800000, false), none), (true, true, none, none)],
    let w := mergeW op e.1 e.2.1
    let tokens (o : Option (Nat × FVal × Bool)) (v : Nat) : List (BitVec 3 × Word) := (o.map fun o => element (if o.2.2 then 1 else 0) (o.1, v)).toList
    let s := sparseIn w (tokens e.2.2.1 0x3F800000) (tokens e.2.2.2 0x40000000)
    Acts s cellA 44 (.sparse w) ∧ offerOk (s.bank cellA) (inputOf 5 e.1) e.2.2.1 = true ∧ offerOk (s.bank cellA) (inputOf 6 e.2.1) e.2.2.2 = true ∧
      (s.bank cellA).dueOn 5 ≠ .marker ∧ (s.bank cellA).dueOn 6 ≠ .marker := by unfold Acts; decide +kernel

def unbegun (op : SparseOp) : Sparse := { op := op, out := some 0, ofmt := .f32, rm := .rne, lvl := 1, a := { ch := 5 }, b := some { ch := 6 } }

/-- An empty fiber beside a fiber that has begun, and stop tokens on both sides. -/
theorem wit_NodesTake_empties : ∀ op ∈ [SparseOp.mul, .union .add],
    (let s := sparseIn (unbegun op) [emptyFiber] [element 1 (0, 7)];
      Acts s cellA 44 (.sparse (unbegun op)) ∧ (s.bank cellA).look false { ch := 5 } = .item .empty { cls := 0, payload := emptyFiber.2, src := cellB, out := 0, seq := 0 } ∧
        offerOk (s.bank cellA) { ch := 6 } (some (0, fp32.decode 7, true)) = true ∧ (s.bank cellA).dueOn 6 ≠ .marker) ∧
    (let s := sparseIn (unbegun op) [(3, 2)] [(3, 2)];
      let k : Token := { cls := 3, payload := 2, src := cellB, out := 0, seq := 0 }
      Acts s cellA 44 (.sparse (unbegun op)) ∧ (s.bank cellA).look false { ch := 5 } = .item (.stop 2) k ∧ (s.bank cellA).look false { ch := 6 } = .item (.stop 2) k ∧
        (s.bank cellA).dueOn 6 ≠ .marker) := by unfold Acts; decide +kernel

def dotW (flat begun : Bool) (fiber : Nat) : Sparse :=
  { op := .dot 1 flat, out := some 0, ofmt := .bf16, rm := .sr, lvl := 1, fiber := fiber, held := if flat then some (4, 5) else none
    a := if begun then { ch := 5, begun := true, last := some 14, count := 1, el := [(14, .ofInt 1)] } else { ch := 5 } }

/-- An element of a fiber, its last, an empty fiber and a stop, each of a tree and flat, at the first fiber and at the last that the
coordinates of a flat fiber reach. -/
theorem wit_NodesTake_dot : ∀ flat : Bool, ∀ fiber ∈ [0, 4095],
    ∀ e ∈ [(element 0 (15, 0x3F800000), true, Item.elem 15 (fp32.decode 0x3F800000) false), (element 1 (15, 0x3F800000), true, .elem 15 (fp32.decode 0x3F800000) true), (emptyFiber, false, .empty), ((3, 1), false, .stop 1), ((3, 2), false, .stop 2)],
    let w := dotW flat e.2.1 fiber
    let s := sparseIn w [e.1] []
    Acts s cellA 44 (.sparse w) ∧ (s.bank cellA).look false w.a = .item e.2.2 { cls := e.1.1, payload := e.1.2, src := cellB, out := 0, seq := 0 } ∧ 16 * fiber + 15 < 65536 := by
  unfold Acts; decide +kernel

/-- An element of the last row and column of the tile, and of the first; the last of its fiber and not. -/
theorem wit_NodesTake_scatter : ∀ e ∈ [(KTy.i32, 12, element 0 (15, 0xFFFFFFFE), (0x8000 : BitVec 16), Item.elem 15 (.ofInt (-2)) false), (.f32, 0, element 1 (0, 0x3F800000), 0x1000, .elem 0 (fp32.decode 0x3F800000) true)],
    let w : Sparse := { op := .scatter 1 e.1 e.2.1, out := none, ofmt := .f32, rm := .rne, lvl := 1, a := { ch := 5 }, fiber := 3 }
    let s := sparseIn w [e.2.2.1] [] e.2.2.2.1
    Acts s cellA 44 (.sparse w) ∧ e.2.1 + w.fiber < 16 ∧
      (match (s.bank cellA).look (decide (e.1 = .i32)) w.a with
        | .item it _ => decide (it = e.2.2.2.2)
        | _ => false) = true := by
  unfold Acts; decide +kernel

/-! ### Witnesses: accesses, streams, engines, cohorts performed -/

/-- Pages of each attribute, all in the translation caches; 96 bytes of memory; one full word. -/
def caches : List TlbEntry := [{ saggar := 2, base := 0x10000, size := 65536 }, { saggar := 2, base := 0x20000, size := 65536 }]
def saggarM : Saggar := { saggarA with lineBase := 8 }
def memD : State :=
  { quiet bankU with
    saggars := setAt {} (List.replicate 16 {}) 2 saggarM, engineTlb := [(0, caches), (1, caches)], full := [hbmKey 2 0x20008 / 8]
    tiles := setAt {} (List.replicate 64 {}) 3 { slots := [{}, { phase := .active, launch := 7, weight := 4 }, {}, {}], tlb := caches } }
def memM : State :=
  { memD with mem := ((memD.setBytes (hbmKey 2 0x10000) ((List.range 96).map fun i => BitVec.ofNat 8 (i + 1))).setBytes (partKey memD 2 3 0)
      ((List.range 64).map fun i => BitVec.ofNat 8 (i + 100))).mem }

/-- A request of cell 5, with its token to come on output 1. -/
def askReq (op : ReqOp) (path : Path) (dst : ReqDst) (queue : Option Nat := none) (joint : List (Path × Nat) := []) : Req :=
  { id := 44, site := cellA, launch := 7, saggar := 2, rule := 3, word := 0, path := path, op := op, dst := dst, cout := some 1, cgroup := 44, queue := queue
    joint := joint }

/-- The state with one request, its register pending, its output's group in place. -/
def asking (op : ReqOp) (path : Path) (dst : ReqDst) (queue : Option Nat := none) (joint : List (Path × Nat) := []) : State :=
  { memM with
    reqs := [askReq op path dst queue joint]
    banks := [(cellA, { bankU with pend := [{ id := 44, rule := 3, left := none, writes := [] }]
                                   outs := { bind := some { yx := false, tile := 0, cell := 6, ch := 16 }, groups := [{ id := 44, run := true, resv := 1 }] } ::
                                     { bind := some { yx := false, tile := 0, cell := 6, ch := 17 }, groups := [{ id := 44, resv := 1 }] } :: bankU.outs.drop 2 }), (cellB, {})] }

theorem idle_M (op : ReqOp) (path : Path) (dst : ReqDst) (q : Option Nat) : NoBarrier (asking op path dst q) 2 :=
  noBarrier_of (show ∀ b ∈ (memD.saggar 2).barriers, b.st = .idle from by decide +kernel)

/-- Each request with its operands and what it may reach. -/
theorem wit_AccessesPerformed_reached :
    ∀ e ∈ [(ReqOp.ld 0x10000 8 true, Path.l, ReqDst.reg (.g 31)), (.ld 0x1FFFF 1 false, .l, .reg (.m 7)), (.ldp 0x20008, .l, .reg (.g 0)), (.lds 56 8 false, .l, .reg (.g 0)),
      (.lds 32767 1 true, .l, .reg (.g 0)), (.st 0x10004 4 9, .l, .none), (.st 0x1FFFF 1 9, .l, .none), (.sts 32760 8 1, .l, .none), (.stp 0x20010 0xFF, .l, .none),
      (.ldfe 16 , .l, .pair (.g 30) (.g 31)), (.ldfe 32752, .l, .pair (.g 0) (.g 1)), (.stfe 0 1 2, .l, .none)],
      Reached (asking e.1 e.2.1 e.2.2) 44 (askReq e.1 e.2.1 e.2.2) := by
  unfold Reached Ready; decide +kernel

/-- A fence that covers an access which is no longer there, and one whose access is to come. -/
theorem wit_AccessesPerformed_fence : let j := [(Path.l, 12), (Path.c, 12)]
    let s := asking (.fence .l .c) .l .none none j
    let w : State := { s with reqs := s.reqs ++ [{ id := 12, site := cellA, launch := 7, saggar := 2, rule := 1, word := 0, path := .l, op := .ld 0x10000 8 false, dst := .reg (.g 5) }] }
    Reached s 44 (askReq (.fence .l .c) .l .none none j) ∧ (∀ e ∈ j, s.req? e.2 = none) ∧
      Reached w 44 (askReq (.fence .l .c) .l .none none j) ∧ ∃ e ∈ j, (w.req? e.2).any (fun o => o.performed = false) = true := by
  unfold Reached Ready; decide +kernel

theorem wit_AccessesPerformed :
    Memory.wf memM.mem = true ∧
    (∀ i, i < 8 → (memM.attr? 2 (0x10000 + i)).isSome = true) ∧ onMgmt 2 0x10000 8 = false ∧ (memM.attr? 2 0x1FFFF).isSome = true ∧ 0x1FFFF % 8 + 1 ≤ 8 ∧
    (0x20008 % 8 = 0 ∧ memM.attr? 2 0x20008 = some .once ∧ setMem (hbmWord 2 0x20008) memM.full = true) ∧
    (∀ i, i < 4 → memM.attr? 2 (0x10004 + i) = some .rw) ∧ memM.attr? 2 0x1FFFF = some .rw ∧
    (0x20010 % 8 = 0 ∧ memM.attr? 2 0x20010 = some .once ∧ setMem (hbmWord 2 0x20010) memM.full = false ∧ memM.deferred = []) ∧
    (∀ i, i < 8 → setMem ((hbmKey 2 0x10000 + i) / 8) memM.poison = false) ∧ (∀ i, i < 8 → setMem ((partKey memM 2 3 56 + i) / 8) memM.poison = false) ∧
    ∀ a ∈ [16, 32752], ∀ i, i < 16 → setMem ((partKey memM 2 3 a + i) / 8) memM.poison = false := by decide +kernel

def bufferM : Buffer := { handle := 31, base := 0x10000, len := 4096, rtile := 0, cells := [5, 6], done := [6, 5], launch := 7 }
def refilling (s : State) : State := { s with saggars := setAt {} (List.replicate 16 {}) 2 { saggarM with buffers := [bufferM] } }

/-- Two entries of the tag table that hold lines 5 and 9 of saggar 2, at each end of its 16 lines; an owner range of the cell, which
an update of cell 6 meets; a buffer. -/
def tabled (s : State) : State :=
  let entry (l vl : Nat) (u : Word) : (Nat × Nat) × Word := ((3, 8 + l), tagWordOf 2 vl u);
  { refilling s with
    tags := [entry 0 5 7, entry 15 9 0xABCD], owners := [{ saggar := 2, base := 0x10100, len := 64, site := cellA, launch := 7, rtile := 0 }] }

theorem wit_AccessesPerformed_tables :
    ∀ e ∈ [(ReqOp.tlook 0x284D, ReqDst.reg (.g 31)), (.tlook 0x4800, .reg (.g 0)), (.tlook 0x6000, .reg (.m 7)), (.tset 0 0x2800 7, .none), (.tset 30720 0x4800 0xFFFF, .none),
      (.tinv 0, .none), (.tinv 30720, .none), (.ownEnter 0x100C0 0x40, .none), (.ownEnter 0x100C0 0x48, .none), (.ownEnter 0x10138 8, .none), (.ownEnter 0x10140 8, .none),
      (.ownRelease 0x10100, .none), (.ownRelease 0x10108, .none), (.clrp 0x20000 32, .none), (.clrp 0x10000 8, .none), (.cmpl, .none), (.bcarm 15 0x10000 16, .none),
      (.copyqDeclare 3 0x10000 64 0 [0, 191], .none), (.copyqDeclare 3 0x10000 64 0 [192], .none), (.copyqDeclare 31 0x10000 64 0 [1], .none), (.copyqRelease 31, .none),
      (.copyqRelease 0, .none), (.consumed 31, .none), (.consumed 30, .none)],
      Reached (tabled (asking e.1 .l e.2)) 44 (askReq e.1 .l e.2) := by
  unfold Reached Ready; decide +kernel

/-- The lines that hold an address, at both ends of the table, and an address that none holds. -/
theorem wit_AccessesPerformed_tags : let s := tabled memM
    let entry (n : Nat) : Word := s.tagEntry 3 ((s.saggar 2).lineBase + n)
    (s.saggar 2).res.lines ≤ 4096 ∧
    (∀ e ∈ [((0x284D : Word), 0), (0x4800, 15)], e.2 < (s.saggar 2).res.lines ∧ holdsLine (entry e.2) e.1 = true ∧
      ∀ n, n < (s.saggar 2).res.lines → holdsLine (entry n) e.1 = true → n = e.2) ∧
    ∀ n, n < (s.saggar 2).res.lines → holdsLine (entry n) 0x6000 = false := by decide +kernel

/-- Ranges that meet the cell's at its ends and that do not; room, and a table without room; a release of a range with and without an
update under way, and of none. -/
theorem wit_AccessesPerformed_owners : let s := tabled (asking (.ownRelease 0x10100) .l .none)
    let w : OwnerRange := { saggar := 2, base := 0x10100, len := 64, site := cellA, launch := 7, rtile := 0 }
    let u : State := { s with reqs := s.reqs ++ [{ askReq (.upd .add32 0x1013C 9) .l .none with id := 40, site := cellB, cout := none }] }
    let own (a : Nat) (w : OwnerRange) : Bool := w.saggar = 2 && w.base = a && w.site = cellA
    (s.owners.length < 256 ∧ (s.owners.filter fun w => w.saggar = 2).length < (s.saggar 2).res.owners ∧
      ¬(s.owners.filter fun w => w.saggar = 2).length < ({ saggarM.res with owners := 1 } : Resources).owners) ∧
    (∀ v ∈ s.owners, v.base = 0x10100 ∧ v.len = 64) ∧ (w.base ≤ 0x10107 ∧ 0x10107 < w.base + w.len) ∧
    (s.owners.find? (own 0x10100) = some w ∧ s.owners.find? (own 0x10108) = none) ∧
    (¬ Routed s (askReq (.ownRelease 0x10100) .l .none) w) ∧ Routed u (askReq (.ownRelease 0x10100) .l .none) w := by
  refine ⟨by decide +kernel, by decide +kernel, by decide +kernel, by decide +kernel, ?_, ?_⟩
  · rintro ⟨o, ho, hi, -⟩
    revert o; decide +kernel
  · exact ⟨_, List.mem_append_right _ (List.mem_singleton_self _), by decide, by decide, rfl, rfl, _, _, _, rfl, by decide, by decide⟩

/-- The full word of a cleared range, a page that is not write-once; a barrier that is not armed; members of the buffer, and a
release that a refill waits for. -/
theorem wit_AccessesPerformed_buffers : let s := tabled memM
    ((∀ i, i < 32 → s.attr? 2 (0x20000 + i) = some .once) ∧ s.full.Pairwise (· < ·) ∧ setMem (hbmKey 2 0x20008 / 8) s.full = true ∧ s.attr? 2 0x10000 = some .rw) ∧
    (barrierOf s 2 15).st = .idle ∧ (barrierOf placeB 2 15).st = .armed ∧
    ((s.saggar 2).buffers.find? (·.handle = 31) = some bufferM ∧ (s.saggar 2).buffers.find? (·.handle = 30) = none ∧
      bufferM.launch = 7 ∧ bufferM.rtile = s.rtileOf cellA ∧ cellA.cell ∈ bufferM.cells ∧ cellA.cell ∉ ({ bufferM with cells := [6] } : Buffer).cells) ∧
    ∃ o ∈ ({ s with reqs := [askReq (.copy (.hbm 0x10000) (.store 3 0 0) 64 (some 31) false) .c .none (some 0)] } : State).reqs, o.saggar = 2 ∧ o.lost = false ∧
      ∃ d p n, o.op = .copy d p n (some 31) false :=
  ⟨by decide +kernel, by decide +kernel, by decide +kernel, by decide +kernel, _, List.mem_singleton_self _, rfl, rfl, _, _, _, rfl⟩

/-- A store of a cell, barrier 5, and the post of another cell, with a fence that has yet to be performed. -/
def counting (b : Barrier) (fences : List Nat) : State :=
  let s := asking (.st 0x10004 4 9) .l .none
  { s with
    saggars := setAt {} (List.replicate 16 {}) 2 { saggarM with barriers := List.replicate 5 ({ } : Barrier) ++ [b] }
    reqs := s.reqs ++ [posting fences, { posting [] with id := 20, cout := none, path := .c, op := .fence .c .l, joint := [(.c, 5)] }] }
where
  posting (fences : List Nat) : Req := { askReq (.bcpost 5 false) .l .none with id := 30, site := cellB, cout := some 2, cgroup := 31, after := fences }

/-- Two and four bytes of the store in the range, and none; each state of the barrier, below zero, at zero and above; the post with
its fences performed, and with one to come. -/
theorem wit_BarrierPosts_counted :
    ∀ e ∈ [(BarState.idle, (0 : Int), 0x10000, [20]), (.armed, 7, 0x10006, []), (.posted, -5, 0x10000, [20]), (.posted, -4, 0x10000, [20]), (.posted, -2, 0x10006, [21]),
      (.posted, -1, 0x10006, []), (.complete, 0, 0x10000, []), (.overrun, 9, 0x10000, []), (.armed, 0, 0x10008, [])],
      let old : Barrier := { st := e.1, bal := e.2.1, base := e.2.2.1, len := 16, launch := 7, post := if e.1 = .posted then some 30 else none }
      let s := counting old e.2.2.2
      Reached s 44 (askReq (.st 0x10004 4 9) .l .none) ∧ barrierOf s 2 5 = old ∧ (∀ c ∈ (s.saggar 2).barriers, c.st = .idle ∨ c = old) ∧
        ((List.range 4).filter fun i => old.base ≤ 0x10004 + i && 0x10004 + i < old.base + old.len).length = (if e.2.2.1 = 0x10000 then 4 else if e.2.2.1 = 0x10006 then 2 else 0) ∧
        s.req? 30 = some (counting.posting e.2.2.2) ∧ (s.req? 20).isSome = true ∧ s.req? 21 = none ∧ s.holdUp ≠ .runOut ∧ s.launch? 7 = some launchA := by
  unfold Reached Ready; decide +kernel

/-- The other barriers of that state are idle. -/
theorem wit_BarrierPosts_idle (old : Barrier) (f : List Nat) (c : Nat) (h : c ≠ 5) : (barrierOf (counting old f) 2 c).st = .idle := by
  have e : ((counting old f).saggar 2).barriers = List.replicate 5 ({ } : Barrier) ++ [old] := rfl
  simp only [barrierOf, e, List.getD_eq_getElem?_getD, List.getElem?_append, List.length_replicate, List.getElem?_replicate]
  split
  · rfl
  · rw [show c - 5 = (c - 6) + 1 by omega]
    rfl

/-- An owner range over the page; a stream with words left; a walk with two misses that joined it and one that waits. -/
def owned (s : State) : State := { s with owners := [{ saggar := 2, base := 0x10000, len := 65536, site := cellB, launch := 7, rtile := 0 }] }

theorem wit_UpdatesAndStreams_update : ∀ e ∈ [(UpdOp.add32, 0x10FFC), (.fadd64, 0x10008), (.mini32, 0x1FFFC)],
    Reached (owned (asking (.upd e.1 e.2 9) .l .none)) 44 (askReq (.upd e.1 e.2 9) .l .none) ∧ ((owned memM).ownerOf 2 e.2).isSome = true ∧ e.2 % updSize e.1 = 0 ∧
      (∀ i, i < updSize e.1 → memM.attr? 2 (e.2 + i) = some .rw) ∧ (∀ i, i < updSize e.1 → setMem ((hbmKey 2 e.2 + i) / 8) memM.poison = false) ∧
      ((owned memM).tile 3).updPort = false ∧ memM.launch? 7 = some launchA ∧ (memM.saggar 2).saved = [] := by
  unfold Reached Ready; decide +kernel

/-- The first word of a stream and the last but one. -/
theorem wit_UpdatesAndStreams_stream : ∀ k ∈ [0, 1], let s := asking (.stream 0x10000 20 k [] false) .l (.out 0)
    Reached s 44 (askReq (.stream 0x10000 20 k [] false) .l (.out 0)) ∧ s.stopped cellA = false ∧ ((s.bank cellA).out 0).resend = [] ∧ 8 * (k + 1) < 20 ∧
      s.unacked cellA 0 44 [] < 64 ∧ (s.attr? 2 (0x10000 + 8 * k)).isSome = true ∧ (∀ i, i < 8 → setMem ((hbmKey 2 (0x10000 + 8 * k) + i) / 8) s.poison = false) ∧
      s.runReady cellA 0 44 = true := by
  unfold Reached Ready; decide +kernel

/-- Records of key 5, the older and the newer, and one that has overflowed to memory. -/
def recordsU : List StashRec :=
  let rec_ (id key n : Nat) : StashRec := { id := id, saggar := 2, tile := 3, key := key, bytes := (List.range n).map fun i => BitVec.ofNat 8 (i + id) }
  [rec_ 10 5 32, rec_ 11 5 20, { rec_ 12 5 16 with taken := true }, { rec_ 13 9 32 with overAt := some 0x10000 }]
def unstashing (key : Nat) (v : Option Nat) (k : Nat) : State := { asking (.unstash key v k [] false) .v (.out 0) with stashed := recordsU }
def unstashReq (key : Nat) (v : Option Nat) (k : Nat) : Req := askReq (.unstash key v k [] false) .v (.out 0)

/-- A record that is there and one that is not; the first word and the last of a record in the stash, a word of one in memory; and the
end of each. -/
theorem wit_UpdatesAndStreams_records :
    (∀ e ∈ [(5, none, 0), (7, none, 0), (5, some 11, 0), (5, some 11, 2), (9, some 13, 1), (5, some 11, 3), (9, some 13, 4)],
      let s := unstashing e.1 e.2.1 e.2.2
      s.req? 44 = some (unstashReq e.1 e.2.1 e.2.2) ∧ s.stopped cellA = false ∧ (s.bank cellA).unit? 44 = none ∧ s.stashBehind (unstashReq e.1 e.2.1 e.2.2) = false ∧
        s.unacked cellA 0 44 [] = 0 ∧ s.runReady cellA 0 44 = true ∧ (s.tlbOf (unstashReq e.1 e.2.1 e.2.2)).any (TlbEntry.covers 2 0x10008) = true ∧
        s.bankBusy (unstashReq e.1 e.2.1 e.2.2) 0x10008 = false ∧ (s.attr? 2 0x10008).isSome = true ∧ (unstashReq e.1 e.2.1 e.2.2).badMgmt [(0x10008, 8)] = false) ∧
    (3 ∉ memM.stashOff ∧ (memM.tile 3).stash.off = false) ∧
    (recordsU.find? (·.id = 11)).any (fun v => v.overAt = none && v.bad = [] && (v.bytes.length + 7) / 8 = 3) = true ∧
    (recordsU.find? (·.id = 13)).any (fun v => v.overAt = some 0x10000 && (v.bytes.length + 7) / 8 = 4) = true ∧
    (∃ older v newer, recordsU = older ++ v :: newer ∧ (v.saggar = 2 ∧ v.tile = 3 ∧ v.key = 5 ∧ v.taken = false) ∧
      (∀ w ∈ newer, ¬(w.saggar = 2 ∧ w.tile = 3 ∧ w.key = 5 ∧ w.taken = false)) ∧ ∀ w ∈ older ++ newer, w.id ≠ v.id) ∧
    ∀ v ∈ recordsU, ¬(v.saggar = 2 ∧ v.tile = 3 ∧ v.key = 7 ∧ v.taken = false) :=
  ⟨by decide +kernel, by decide +kernel, by decide +kernel, by decide +kernel,
    ⟨recordsU.take 1, recordsU.getD 1 { id := 0, saggar := 0, tile := 0, key := 0, bytes := [] }, recordsU.drop 2, rfl, by decide +kernel⟩, by decide +kernel⟩

/-- A load that waits for the walk of its page, and a walk that waits for a place. -/
def walking : State :=
  let w := walkerOf 3 none;
  { memM with
    walks := [(w, 2, 0x10000)], walkWait := [(w, 2, 0x20000)]
    reqs := [{ askReq (.ld 0x10008 8 false) .l .none with walk := some 0x10000 }] }

theorem wit_UpdatesAndStreams_walk : walking.walks.find? (fun e => e.2 = (2, 0x10000)) = some (walkerOf 3 none, 2, 0x10000) ∧
    (∃ o ∈ walking.reqs, o.walk = some 0x10000 ∧ o.saggar = 2 ∧ walkerOf o.site.tile o.edge = walkerOf 3 none) := by decide +kernel

/-- Copies from HBM to a store and back, of one byte and of many; a refill whose members have all consumed. -/

theorem wit_EnginesPerform_copy : ∀ e ∈ [(Place.hbm 0x10040, Place.store 3 1 1, 63), (.store 3 32767 32767, .hbm 0x1FFFF, 1)],
    Reached (asking (.copy e.1 e.2.1 e.2.2 none false) .c .none (some 15)) 44 (askReq (.copy e.1 e.2.1 e.2.2 none false) .c .none (some 15)) ∧
      (asking (.copy e.1 e.2.1 e.2.2 none false) .c .none (some 15)).queueBlocked (askReq (.copy e.1 e.2.1 e.2.2 none false) .c .none (some 15)) = false := by
  unfold Reached Ready; decide +kernel

theorem wit_EnginesPerform_places : (∀ i, i < 63 → memM.attr? 2 (0x10040 + i) = some .rw) ∧ (memM.attr? 2 0x1FFFF).isSome = true ∧
    (∀ i, i < 63 → setMem ((partKey memM 2 3 1 + i) / 8) memM.poison = false) ∧ setMem (hbmKey 2 0x1FFFF / 8) memM.poison = false := by decide +kernel

theorem wit_EnginesPerform_refill : let s := refilling (asking (.copy (.hbm 0x10040) (.store 3 16 16) 32 (some 31) false) .c .none (some 0))
    Reached s 44 (askReq (.copy (.hbm 0x10040) (.store 3 16 16) 32 (some 31) false) .c .none (some 0)) ∧
      s.queueBlocked (askReq (.copy (.hbm 0x10040) (.store 3 16 16) 32 (some 31) false) .c .none (some 0)) = false ∧
      (s.saggar 2).buffers.find? (·.handle = 31) = some bufferM ∧ bufferM.holds 32 (.hbm 0x10040) = true ∧ (∀ c ∈ bufferM.cells, c ∈ bufferM.done) :=
  by unfold Reached Ready; decide +kernel

/-- One row, and two rows in place, of FP32 and BF16 elements. -/
def rowing (s : State) : State := { s with tiles := setAt {} (List.replicate 64 {}) 3 { slots := [{}, { phase := .active, launch := 7, weight := 4 }, {}, {}], tlb := caches, rows := [44, 48] } }

theorem wit_EnginesPerform_rows : ∀ e ∈ [(RowOp.softmax, 0, 2048, (0 : Word), Fmt.fp32), (.layernorm, 64, 64, 0x0008010000000000, .bf16)],
    let r := askReq (.row true e.1 e.2.1 e.2.2.1 e.2.2.2.1 e.2.2.2.2 0) .w .none
    let s := rowing (asking (.row true e.1 e.2.1 e.2.2.1 e.2.2.2.1 e.2.2.2.2 0) .w .none)
    let n := rowBytes e.2.2.2.2 (rowDesc e.2.2.2.1)
    let m := (rowDesc e.2.2.2.1).rows * n
    Reached s 44 r ∧ (s.tile 3).rows = [44, 48] ∧ fmtBits e.2.2.2.2 % 8 = 0 ∧ 0 < m ∧ (8 * 2048 + e.2.1 + m ≤ 2 ^ 23 ∧ 8 * 2048 + e.2.2.1 + m ≤ 2 ^ 23) ∧
      (e.2.1 = e.2.2.1 ∨ e.2.1 + m ≤ e.2.2.1 ∨ e.2.2.1 + m ≤ e.2.1) ∧ (∀ i, i < m → setMem ((partKey s 2 3 e.2.1 + i) / 8) s.poison = false) := by
  unfold Reached Ready; decide +kernel

/-- The same backward, with the gradient rows apart from the output and in its place. -/
theorem wit_EnginesPerform_back : ∀ e ∈ [(RowOp.softmax, 0, 2048, (0x400 : Word), Fmt.fp32), (.layernorm, 64, 512, 0x0008010000000200, .bf16)],
    let r := askReq (.row false e.1 e.2.1 e.2.2.1 e.2.2.2.1 e.2.2.2.2 0) .w .none
    let s := rowing (asking (.row false e.1 e.2.1 e.2.2.1 e.2.2.2.1 e.2.2.2.2 0) .w .none)
    let d := rowDesc e.2.2.2.1
    let m := d.rows * rowBytes e.2.2.2.2 d
    let apart (a b : Nat) : Prop := a = b ∨ a + m ≤ b ∨ b + m ≤ a
    Reached s 44 r ∧ (s.tile 3).rows = [44, 48] ∧ fmtBits e.2.2.2.2 % 8 = 0 ∧ 0 < m ∧ (8 * 2048 + e.2.1 + m ≤ 2 ^ 23 ∧ 8 * 2048 + e.2.2.1 + m ≤ 2 ^ 23 ∧ 8 * 2048 + d.dy + m ≤ 2 ^ 23) ∧
      apart e.2.2.1 e.2.1 ∧ apart e.2.2.1 d.dy ∧ s.poison = [] ∧ s.sideBad = [] := by
  unfold Reached Ready; decide +kernel

theorem wit_EnginesPerform_stash : ∀ n ∈ [16, 32768], let s := asking (.stash 0 n 0xFFF) .v .none
    Reached s 44 (askReq (.stash 0 n 0xFFF) .v .none) ∧ s.stashBehind (askReq (.stash 0 n 0xFFF) .v .none) = false ∧ 3 ∉ s.stashOff ∧ (s.tile 3).stash.off = false ∧
      s.stashUsed 2 3 + (n + 4095) / 4096 ≤ 16 * (s.saggar 2).res.stash ∧ s.poison = [] := by
  unfold Reached Ready; decide +kernel

/-- A sequence descriptor of one layer, one head and one slot, at 0x10100; and one whose chain has no slot, at 0x10200. -/
def memK (s : State) : State :=
  { s with mem := (((memD.setBytes (hbmKey 2 0x10108) (leBytes 8 0x10000)).setBytes (hbmKey 2 0x10110) (leBytes 8 0x20010)).setBytes (hbmKey 2 0x10120) (leBytes 8 0x1000000000000)).mem }

theorem wit_EnginesPerform_commit : ∀ e ∈ [(0x10100, true), (0x10200, false)],
    let s := memK (asking (.kvcommit e.1 64) .c .none (some 0))
    let r := askReq (.kvcommit e.1 64) .c .none (some 0)
    let d := seqDesc ((List.range 160).map fun i => s.byte (hbmKey 2 e.1 + i))
    Reached s 44 r ∧ s.queueBlocked r = false ∧ e.1 % 16 = 0 ∧ (∀ i, i < 160 → (s.attr? 2 (e.1 + i)).isSome = true) ∧ s.poison = [] ∧ d.ok = e.2 ∧ s.deferred = [] ∧
      (e.2 = true → s.attr? 2 (d.commitAt 64) = some .once ∧ setMem (hbmWord 2 (d.commitAt 64)) s.full = false ∧ d.commitAt 64 + 8 ≤ 2 ^ 48 ∧
        ∀ i, i < 512 * d.slots → s.attr? 2 (d.commit + i) = some .once) := by
  unfold Reached Ready; decide +kernel

/-- Ranges in the pages of saggar 2, whatever their length. -/
theorem mapped_of {s : State} {a n : Nat} (h : (s.saggar 2).pages = saggarA.pages) (hi : a + n ≤ 0x20000) (lo : 0x10000 ≤ a) : Mapped s 2 a n .rw := fun i hi' => by
  have e : (decide (0x10000 ≤ a + i) && decide (a + i < 0x10000 + 65536)) = true := by simp; omega
  simp only [State.attr?, State.page?, Saggar.page?, h, saggarA, List.find?_cons, e, Option.map_some]
theorem mappedOnce_of {s : State} {a n : Nat} (h : (s.saggar 2).pages = saggarA.pages) (hi : a + n ≤ 0x30000) (lo : 0x20000 ≤ a) : Mapped s 2 a n .once := fun i hi' => by
  have e : (decide (0x10000 ≤ a + i) && decide (a + i < 0x10000 + 65536)) = false := by simp; omega
  have e' : (decide (0x20000 ≤ a + i) && decide (a + i < 0x20000 + 65536)) = true := by simp; omega
  simp only [State.attr?, State.page?, Saggar.page?, h, saggarA, List.find?_cons, e, e', Option.map_some]
theorem whole_of {s : State} {k n : Nat} (h : s.poison = []) : Whole s k n := fun _ _ => by rw [h]; rfl

/-- A sequence descriptor of one layer, one head, sixteen elements and two slots of 64 positions, with its staging area and its
commit words up to m. -/
def kvS (op : ReqOp) (window rot ob sealed m : Nat) : State :=
  { asking op .c (if op = .kvrot 0x10100 then .out 0 else .none) (some 0) with
    mem := ((memD.setBytes (hbmKey 2 0x10100) (leBytes 8 window ++ leBytes 8 0x12000 ++ leBytes 8 0x20000 ++ leBytes 8 rot ++ leBytes 8 (2 <<< 48))).setBytes
      (hbmKey 2 0x12000) (leBytes 8 ob ++ leBytes 8 sealed)).mem
    full := (List.range m).map fun n => hbmWord 2 (0x20000 + 8 * n) }
def descA (window rot : Nat) : SeqDesc :=
  { layers := 1, heads := 1, dim := 16, window := window, staging := 0x12000, commit := 0x20000, rot := rot, chain := [{ tile := 0, limit := 2, base := 0 }], ok := true }
def kvReq (op : ReqOp) : Req := askReq op .c (if op = .kvrot 0x10100 then .out 0 else .none) (some 0)

/-- What every command of a sequence needs; a put below the ring, above it, before the block is sealed, and out of order; at the first
position, at the first of a block after a sealed one, and at the last of each slot; and rotations. -/
theorem wit_EnginesPerform_kv :
    ∀ e ∈ [(ReqOp.kvput 0x10100 28672 0 0, 1, 1, 0, 0, 0), (.kvput 0x10100 28672 128 0, 1, 0, 0, 0, 0), (.kvput 0x10100 28672 64 0, 1, 0, 0, 0, 0),
      (.kvput 0x10100 28672 64 0, 1, 0, 5, 0, 0), (.kvput 0x10100 28672 0 0, 1, 0, 0, 0, 0), (.kvput 0x10100 28672 64 0, 1, 0, 0, 1, 0), (.kvput 0x10100 28672 63 0, 1, 0, 0, 0, 0),
      (.kvput 0x10100 28672 127 0, 1, 0, 1, 0, 0), (.kvrot 0x10100, 1, 0, 0, 0, 64), (.kvrot 0x10100, 0, 0, 0, 0, 128), (.kvrot 0x10100, 1, 0, 0, 0, 65), (.kvrot 0x10100, 64, 0, 0, 0, 128)],
      let s := kvS e.1 e.2.1 e.2.2.1 e.2.2.2.1 e.2.2.2.2.1 e.2.2.2.2.2
      Reached s 44 (kvReq e.1) ∧ s.queueBlocked (kvReq e.1) = false ∧ s.poison = [] ∧ (∀ b ∈ (s.saggar 2).barriers, b.st = .idle) ∧
        (s.saggar 2).pages = saggarA.pages ∧ seqDesc ((List.range 160).map fun i => s.byte (hbmKey 2 0x10100 + i)) = descA e.2.1 e.2.2.1 ∧
        s.num (hbmKey 2 0x12000) 8 = e.2.2.2.1 ∧ (s.byte (hbmKey 2 0x12008)).getLsbD 0 = decide (e.2.2.2.2.1 = 1) ∧ Memory.wf s.mem = true ∧
        (∀ n, n < e.2.2.2.2.2 → setMem (hbmWord 2 (0x20000 + 8 * n)) s.full = true) ∧
        (e.2.2.2.2.2 < 128 → setMem (hbmWord 2 (0x20000 + 8 * e.2.2.2.2.2)) s.full = false) := by
  unfold Reached Ready; decide +kernel

theorem wit_EnginesPerform_kvFull : ∀ m ∈ [0, 64, 65, 128], (kvS (.kvrot 0x10100) 1 0 0 0 m).full.Pairwise (· < ·) := by decide +kernel

theorem part_M {s : State} (h : s.saggars = memM.saggars) : s.partSize 2 = 32768 := by
  unfold State.partSize State.saggar; rw [h]; decide +kernel

/-- Its ranges: the descriptor and the staging area; the ring of commit words; the rows; the slots; and the maxima of a slot. -/
theorem wit_EnginesPerform_kvPlaces (op : ReqOp) (w r o z m : Nat) : let s := kvS op w r o z m
    let d := descA w r
    s.partSize 2 = 32768 ∧ Mapped s 2 0x10100 160 .rw ∧ Mapped s 2 (d.area 0) d.areaSize .rw ∧ Mapped s 2 d.commit (512 * d.slots) .once ∧
      28672 + 4 * d.dim * d.heads ≤ 32768 ∧ Inside s 2 28672 (4 * d.dim * d.heads) ∧
      (d.slotAt 0 0 = some (0, 0) ∧ 0 + d.slotSize ≤ 32768 ∧ Inside s 2 0 d.slotSize) ∧
      (d.slotAt 0 1 = some (0, 2064) ∧ 2064 + d.slotSize ≤ 32768 ∧ Inside s 2 2064 d.slotSize) ∧ s.tileOf cellA 0 = some 3 := by
  intro s d
  have e : s.partSize 2 = 32768 ∧ (s.saggar 2).lineBase = 8 := ⟨part_M rfl, rfl⟩
  refine ⟨e.1, mapped_of rfl (by simp) (by simp), mapped_of rfl ?_ ?_, mappedOnce_of rfl ?_ ?_, ?_, ?_, ⟨?_, ?_, ?_⟩, ⟨?_, ?_, ?_⟩, rfl⟩ <;>
    simp [d, Inside, SeqDesc.slotAt, findSlot, e.2, descA, SeqDesc.area, SeqDesc.areaSize, SeqDesc.slots, SeqDesc.slotSize]

theorem wit_EnginesPerform_kvMaxima : ∀ e ∈ [(63, 0), (127, 1)], let s := kvS (.kvput 0x10100 28672 e.1 0) 1 0 e.2 0 0
    ∀ p, p < 63 → ∀ k, k < 2 → s.num (hbmKey 2 ((descA 1 0).amaxAt 0 p 0 k)) 4 < 0x7F800000 := by decide +kernel

/-- Three ranks with sources of 12 bytes and destinations apart. -/
def collReq (op : Option CollOp) (n i : Nat) : Req :=
  { id := 44 + i, site := { cellA with cell := 5 + i }, launch := 7, saggar := 2, rule := 3, word := 0, path := .x
    op := .coll op (0x10200 + 0x100 * i) (0x10000 + 32 * i) n .fp32 9 i 0, queue := some 1 }
def cohortC : Cohort :=
  { saggar := 2, num := 9, size := 3, formed := true, members := [{ rank := 0, who := .cell 7 0 5 }, { rank := 2, who := .region 7 }, { rank := 1, who := .cell 7 0 6 }] }
def collS (op : Option CollOp) (n : Nat) : State := { memM with cohorts := [cohortC], reqs := (List.range 3).map (collReq op n) }

theorem wit_CohortsAct_collective : ∀ op ∈ [some CollOp.allgather, some .reducescatter, none], let s := collS op 3
    (s.cohort? 2 9 = some cohortC ∧ s.req? 44 = some (collReq op 3 0) ∧ (∀ m ∈ cohortC.members, s.memberFrozen m = false) ∧
      ∀ b ∈ (s.saggar 2).barriers, b.st = .idle) ∧
    (∀ i, i < 3 → (∃ m ∈ cohortC.members, cohortC.members.find? (·.rank = i) = some m ∧ m.who.launch?.isSome = true) ∧ s.nextColl 2 9 i 0 = some (collReq op 3 i) ∧
      Ready s (collReq op 3 i) ∧ (∀ j, j < 12 → (s.attr? 2 (0x10000 + 32 * i + j)).isSome = true) ∧
      (∀ j, j < 4 * collOut op 3 3 → s.attr? 2 (0x10200 + 0x100 * i + j) = some .rw) ∧ 4 * collOut op 3 3 ≤ 0x100) ∧ s.poison = [] := by
  unfold Ready; decide +kernel

/-- A cohort with a member on another device, at the attempt of the abort token or at another. -/
def cohortR (attempt : Nat) : Cohort :=
  { saggar := 2, num := 9, size := 2, formed := true, members := [{ rank := 0, who := .cell 7 0 5, attempt := 255 }, { rank := 1, who := .remote 3, attempt := attempt }] }
def remoteS (attempt : Nat) : State :=
  { memM with
    cohorts := [cohortR attempt], ports := [{ up := true }]
    reqs := [{ id := 44, site := cellA, launch := 7, saggar := 2, rule := 3, word := 0, path := .x, op := .cabort 9 0 255 [1] [1] },
      { id := 45, site := cellB, launch := 7, saggar := 2, rule := 3, word := 0, path := .x, op := .coll none 0x10000 0x10100 32 .fp32 9 1 3 }] }

theorem wit_CohortsAct_abort : ∀ attempt ∈ [255, 3], let s := remoteS attempt
    s.cohort? 2 9 = some (cohortR attempt) ∧ ((cohortR attempt).members.find? (·.rank = 1)).isSome = true ∧ s.abortSent 2 9 1 255 = true ∧
      ∀ o ∈ s.colls 2 9, ¬(o.op.coll? = some (9, 1) ∧ o.op.attempt? = some 255) := by decide +kernel

/-- A silent device, with one collective outstanding. -/
def silentS : State := { collS (some .broadcast) 3 with cohorts := [{ cohortC with members := [{ rank := 1, who := .remote 3 }] }], reqs := [collReq (some .broadcast) 3 0] }

theorem wit_CohortsAct_timeout : (silentS.cohort? 2 9).any (fun c => c.members.any fun m => m.who.launch? = none) = true ∧
    silentS.colls 2 9 = [collReq (some .broadcast) 3 0] ∧ (∀ r ∈ silentS.colls 2 9, r.held = false ∧ r.placed = none) ∧ silentS.holdUp ≠ .runOut := by decide +kernel

/-- A barrier that every member has reached; on one device, and with a member on another. -/
def barS (m : MemberId) : State :=
  { memM with
    ports := [{ up := true }], cohorts := [{ cohortC with size := 2, members := [{ rank := 0, who := .cell 7 0 5, arrived := true }, { rank := 1, who := m, arrived := true }] }]
    reqs := [{ id := 44, site := cellA, launch := 7, saggar := 2, rule := 3, word := 0, path := .l, op := .bar 9 0, joint := [(.l, 40)], cout := some 0, cgroup := 44 }] }

theorem wit_CohortsAct_bar : ∀ m ∈ [MemberId.region 7, .remote 3], let s := barS m
    ∃ c, s.cohort? 2 9 = some c ∧ c.formed = true ∧ c.closing = false ∧ (∀ m ∈ c.members, m.who.launch?.isSome = true → m.arrived = true) ∧ s.bars 2 9 = s.reqs ∧
      s.req? 40 = none ∧ ((∀ m ∈ c.members, m.who.launch?.isSome = true) ∨ s.portsOpen = true) ∧
      ∀ r ∈ s.bars 2 9, s.mayPerform r = true ∧ r.held = false ∧ r.placed = none ∧ r.joint = [(.l, 40)] := by
  intro m hm
  simp only [List.mem_cons, List.not_mem_nil, or_false] at hm
  rcases hm with rfl | rfl <;> exact ⟨_, rfl, by decide +kernel⟩

/-- A cohort of four ranks, one of them of device 3, which is joined from there and left. -/
def cohortJ4 : Cohort := { cohortC with size := 4, formed := false, members := [{ rank := 0, who := .cell 7 0 5 }, { rank := 1, who := .remote 3 }] }
def joinS : State := { memM with ports := [{ up := true }], cohorts := [cohortJ4] }

/-- Records of the saggar's own tenant and of another; a link that is up, and one that is not. -/
theorem wit_CohortsAct_join : joinS.cohort? 2 9 = some cohortJ4 ∧ cohortJ4.closing = false ∧ cohortJ4.size = 4 ∧ (∀ m ∈ cohortJ4.members, m.rank ≠ 3) ∧
    cohortJ4.members.length + 1 < cohortJ4.size ∧ joinS.portWorks 0 = true ∧ joinS.portWorks 1 = true ∧ joinS.peerAt 0 3 = true ∧ joinS.peerAt 1 3 = false ∧
    joinS.sameTenant 2 (sha384 [7]) = true ∧ joinS.sameTenant 2 (sha384 [8]) = false ∧ joinS.reqs = [] := by decide +kernel

/-! ### Witnesses: regions -/

/-- The region changed, and the slot of its tile. -/
def regionS (l : Launch) (k : Slot) (t : Tile := {}) (b : Bank := bankA) : State :=
  { quiet b with launches := [l], tiles := setAt {} (List.replicate 64 {}) 3 { t with slots := [{}, k, {}, {}] } }
def slotA : Slot := { phase := .active, launch := 7, weight := 4 }
def drainingA : Launch := { launchA with draining := true }
def retiredB : State := { regionS drainingA { slotA with drained := true } with banks := [(cellA, { bankA with retired := true, outs := [] }), (cellB, { retired := true })] }
def passedA : Launch := { drainingA with tiles := [{ rtile := 0, tile := 3, slot := none, passed := true }] }
def endAsk : Req := { id := 44, site := cellA, launch := 8, saggar := 2, rule := 3, word := 0, path := .h, op := .launch 7, cout := some 0, cgroup := 44 }

theorem wit_RegionsEnd :
    (let p := ((regionS launchA slotA { planeStore := { idle := 1048576 }, stash := { off := true, waking := true } }).tile 3);
      (2 ^ 20 ≤ (p.layer .planeStore).idle ∧ (p.layer .planeStore).off = false ∧ (p.layer .planeStore).waking = false) ∧ (p.layer .stash).waking = true) ∧
    ((regionS launchA slotA { planeStore := { idle := 1048576 } }).traversedTile 3 = false ∧ (regionS launchA slotA { stash := { off := true, waking := true } }).endingLoads = []) ∧
    (let s := regionS drainingA slotA;
      s.launch? 7 = some drainingA ∧ (drainingA.at 3).bind (·.slot) = some 1 ∧ s.nextDrained drainingA = some 3 ∧ (s.slot 3 1).phase = .active) ∧
    (retiredB.launch? 7 = some drainingA ∧ (∀ e ∈ drainingA.tiles, e.passed = true ∨ (∃ i ∈ [1], e.slot = some i ∧ (retiredB.slot e.tile i).drained = true)) ∧
      retiredB.round.live ≠ some (3, 1) ∧ retiredB.drainedInto drainingA 3 = true ∧ ((retiredB.banksAt 3 1).foldl State.letGo retiredB).outsEmpty 3 1 = true ∧ retiredB.accessesDone 3 1 = true ∧
      (∀ o ∈ retiredB.launches, o.pred ≠ some (true, 7))) ∧
    (let s := regionS { launchA with freeze := true } slotA;
      s.launch? 7 = some { launchA with freeze := true } ∧ s.nextTile { launchA with freeze := true } (fun o => o.halt = .go) = some 3 ∧
        ∀ r ∈ s.reqs, r.answered = false ∧ r.answers = []) ∧
    (∀ e ∈ [EndTo.host, .nowhere, .req 44], let l := { passedA with endTo := e }
      let s : State := { regionS l slotA with reqs := [endAsk] }
      s.launch? 7 = some l ∧ (∀ e ∈ l.tiles, e.passed = true) ∧ s.cohorts = [] ∧ s.req? 44 = some endAsk ∧ endAsk.held = false ∧ endAsk.performed = false ∧ s.holdUp = .none ∧
        (∀ o ∈ s.launches, o.num ≠ 7 → o.endTo ≠ .req 44)) := by
  refine ⟨by decide +kernel, by decide +kernel, by decide +kernel, by decide +kernel, by decide +kernel, fun e he => ?_⟩
  simp only [List.mem_cons, List.not_mem_nil, or_false] at he
  rcases he with rfl | rfl | rfl <;> decide +kernel

/-- An image whose plane holds one word in rule slot 0 of cell 0. -/
def imageOf (w : BitVec 128) : Image :=
  { hash := [1], bytes := List.replicate 16 0 ++ [1, 0, 1, 0] ++ List.replicate 140 0 ++ [3] ++ List.replicate 15 0 ++ [0, 0, 0, 0, 16, 0, 0, 0, 208] ++
      List.replicate 23 0 ++ leBytes 16 w.toNat }
def launchB : Launch := { launchA with num := 11, no := 11, region := 0, queue := 31, prio := 3, origin := 5, phase := .queued, tiles := [] }
def placedB : Launch := { launchB with phase := .placed, placed := 5, tiles := [{ rtile := 0, tile := 5, slot := some 0 }], baseWeight := 16 }
def saggarB (w : BitVec 128) : Saggar := { saggarA with images := [imageOf w] }
def dispatchS (floating : Bool) : State :=
  { quiet bankA with
    launches := [launchA, { launchB with floating := floating }], queues := List.replicate 31 [] ++ [[11]], saggars := setAt {} (List.replicate 16 {}) 2 (saggarB (encode (.nop {}))) }

theorem wit_PlanesPlaced_dispatch : ∀ fl : Bool, let s := dispatchS fl
    let l : Launch := { launchB with floating := fl }
    let o := if fl then 0 else 5
    s.dispatching = true ∧ s.heads = [l] ∧ s.asksRunning l = false ∧ s.savedOf l = none ∧ s.fits l o = some [o] ∧ o ∈ s.originsFor l ∧ s.slotsFor l o = true ∧
      s.belowThreshold l o = true ∧ (∀ p ∈ s.originsFor l, p < o → s.slotsFor l p = false ∨ s.belowThreshold l p = false) ∧ s.service ≠ .off ∧ s.holdUp = .none := by
  decide +kernel

/-- The plane of launch 11 on tile 5, before and after its load. -/
def planeS (w : BitVec 128) (p : SlotPhase) : State :=
  { quiet bankA with
    launches := [launchA, placedB], saggars := setAt {} (List.replicate 16 {}) 2 (saggarB w)
    tiles := setAt {} (setAt {} (List.replicate 64 {}) 3 { slots := [{}, slotA, {}, {}] }) 5 { slots := [{ phase := p, launch := 11 }, {}, {}, {}] } }

theorem wit_PlanesPlaced_load : (let s := planeS (encode (.nop {})) .reserved;
      s.launch? 11 = some placedB ∧ placedB.at 5 = some { rtile := 0, tile := 5, slot := some 0 } ∧ s.planeOn placedB 0 = some (imageOf (encode (.nop {})), 0) ∧
        (s.slot 5 0).phase = .reserved ∧ (s.tile 5).planeStore.off = false ∧ firstItem (s.badItems (imageOf (encode (.nop {}))) 0 ((imageOf (encode (.nop {}))).body 0)) = none) ∧
    (let s := planeS 0x00000000000000000609A69A60000000 .reserved;
      (firstItem (s.badItems (imageOf 0x00000000000000000609A69A60000000) 0 ((imageOf 0x00000000000000000609A69A60000000).body 0))).isSome = true ∧
        s.planeOn placedB 0 = some (imageOf 0x00000000000000000609A69A60000000, 0) ∧ s.savedOf placedB = none ∧ placedB.endTo = .host) := by decide +kernel

theorem wit_PlanesPlaced_activate : let s := planeS (encode (.nop {})) .loaded
    s.launch? 11 = some placedB ∧ s.planeOn placedB 0 = some (imageOf (encode (.nop {})), 0) ∧ placedB.freeze = false ∧ (s.slot 5 0).phase = .loaded ∧ s.savedOf placedB = none ∧
      placedB.pred = none ∧ s.allLoaded placedB = true ∧ 0 ∈ bodyCells ((imageOf (encode (.nop {}))).body 0) ∧ (∀ e ∈ placedB.tiles, e = { rtile := 0, tile := 5, slot := some 0 }) := by
  decide +kernel

/-- LfsrSeeded: the region stands at tile 5 with relative tile 0. -/
theorem wit_LfsrSeeded : let s := planeS (encode (.nop {})) .loaded
    s.launch? 11 = some placedB ∧ placedB.at 5 = some { rtile := 0, tile := 5, slot := some 0 } ∧ placedB.phase = .placed ∧
      s.planeOn placedB 0 = some (imageOf (encode (.nop {})), 0) ∧ (s.slot 5 0).phase = .loaded ∧ s.allLoaded placedB = true ∧
      bodyCells ((imageOf (encode (.nop {}))).body 0) = [0] := by decide +kernel

/-! A traverse from its beginning to its record. -/

def saggarT (saved : List Saved) : Saggar :=
  { saggarA with res := { saggarA.res with ovBase := 0x10000, ovSize := 0x200000, pages := 64 }
                 pages := (List.range 40).map (fun k => { base := 0x10000 * (k + 1), size := 65536, attr := .rw }), saved := saved }
def bankTr : Bank := { bankA with outs := [], rules := encode (.nop {}) :: List.replicate 15 0, chans := chanOfToks [(0, 5)] :: List.replicate 31 {} }
def travS (l : Launch) (k : Slot) (b : Bank) (saved : List Saved := []) : State :=
  { quiet b with
    banks := [(cellA, b)], launches := [l], tiles := setAt {} (List.replicate 64 {}) 3 { slots := [{}, k, {}, {}] }
    saggars := setAt {} (List.replicate 16 {}) 2 (saggarT saved)
    reqs := [{ id := 46, site := { tile := 9, slot := 0, cell := 1 }, launch := 8, saggar := 2, rule := 3, word := 0, path := .h, op := .mark none true true [7] [], dst := .out 2, cgroup := 46 }] }
def travA : Launch := { launchA with trav := some { requeue := true, base := 0x11000, len := 4096, marks := [46] } }

theorem wit_TraversesRun_begin : let s := travS launchA slotA bankTr
    s.launch? 7 = some launchA ∧ s.marksFor 7 ≠ [] ∧ s.traverses < 8 ∧ (s.saggar 2).saved.length < 256 ∧ s.holdUp = .none ∧ (s.recordPlace 2 (s.recordNeed launchA)).isSome = true := by
  decide +kernel

theorem wit_TraversesRun_reach : let s := travS travA slotA bankTr
    s.launch? 7 = some travA ∧ (travA.at 3).bind (·.slot) = some 1 ∧ (travA.tiles.find? fun e => e.slot.any fun i => !(s.slot e.tile i).traversed).map (·.tile) = some 3 := by
  decide +kernel

theorem wit_TraversesRun_save : (travS travA { slotA with traversed := true } { bankTr with mark := .marked false }).mayCellSave cellA = true ∧
    (let s := travS travA { slotA with traversed := true } { bankTr with rules := encode (.snap {}) :: List.replicate 15 0, snapAge := 65536 };
      s.traversed cellA = true ∧ (s.bank cellA).isSnap = true ∧ (s.bank cellA).mark = .clear ∧ (s.bank cellA).snapDue = false ∧ s.marksNow cellA = true ∧ 2 ^ 16 ≤ (s.bank cellA).snapAge) := by
  decide +kernel

theorem wit_TraversesRun_complete : (let s := travS travA { slotA with traversed := true } { bankTr with mark := .saved };
      s.freeHandle 2 = some 0 ∧ s.traverseDone travA = true ∧ s.poisonedTile travA = none) ∧
    (let s : State := { travS travA { slotA with traversed := true } { bankTr with mark := .saved } with poison := [partKey (quiet bankA) 2 3 64 / 8] };
      s.traverseDone travA = true ∧ s.poisonedTile travA = some 3 ∧ s.stashTiles travA = []) := by decide +kernel

/-- A record in the stash of the region's tile, whose layer is off, and on. -/
theorem wit_TraversesRun_stash : ∀ off : Bool, let s : State :=
      { travS travA { slotA with traversed := true } { bankTr with mark := .saved } with
        stashed := [{ id := 10, saggar := 2, tile := 3, key := 5, bytes := [1, 2] }]
        tiles := setAt {} (List.replicate 64 {}) 3 { slots := [{}, { slotA with traversed := true }, {}, {}], stash := { off := off } } }
    s.launch? 7 = some travA ∧ s.freeHandle 2 = some 0 ∧ s.traverseDone travA = true ∧ s.stashTiles travA = [3] ∧ 3 ∉ s.stashOff ∧ (s.tile 3).stash.off = off ∧
      s.poisonedTile travA = none := by decide +kernel

/-- A region placed to be restored from a record at 0x10000: the bytes of its header, and a trailer. -/
def imageW : Image := { imageA with hash := List.replicate 48 1 }
def savedW : Saved := { handle := 9, launch := 7, base := 0x10000, bytes := [], cells := [((0, 5), { bankTr with mark := .saved })], tiles := [{ rtile := 0 }] }
def resumeW : Launch := { launchA with image := List.replicate 48 1, phase := .placed, trav := none }
def headW : List Byte := leBytes 8 120 ++ List.replicate 48 1 ++ leBytes 8 2 ++ leBytes 8 0
def restoreW (trailer : List Byte) : State :=
  let s : State :=
    { travS resumeW { phase := .loaded, launch := 7 } {} [savedW] with
      banks := [], reqs := [], saggars := setAt {} (List.replicate 16 {}) 2 { saggarT [savedW] with images := [imageW] } };
  s.setBytes (hbmKey 2 0x10000) (headW ++ trailer)

theorem wit_RegionsRestored : ∀ ok : Bool, let s := restoreW (if ok then sha384 headW else List.replicate 48 0)
    (s.launch? 7 = some resumeW ∧ s.savedOf resumeW = some savedW ∧ resumeW.freeze = false ∧ resumeW.resume = none) ∧
      (∀ e ∈ resumeW.tiles, ∃ k ∈ [1], e.slot = some k ∧ (s.slot e.tile k).phase = .loaded ∧ s.unitsFor savedW e.rtile e.tile = true) ∧
      (∀ n ∈ s.stashNeeds resumeW savedW, (s.tile n).stash.off = false) ∧ s.recordOk resumeW savedW = ok ∧ (s.readRequests savedW (s.recordAt 2 0x10000)).reqs = [] ∧
      (savedW.read (s.recordAt 2 0x10000)).cells = savedW.cells := by decide +kernel

/-! ### Witnesses: power, ports, the host -/

def rowsS : State := { quiet bankA with rmthr := 512, rows := [{ die := 7, bank := 5, row := 9, n := 511 }, { die := 7, bank := 5, row := 8, n := 510 }] }

theorem wit_MemoryAndPorts : (rowsS.service ≠ .off ∧ (7, 5) ∉ rowsS.refreshing ∧ rowsS.rowCount 7 5 8 + 1 < rowsS.rmthr ∧ rowsS.rmthr ≤ rowsS.rowCount 7 5 9 + 1) ∧
    rowsS.portWorks 0 = true ∧ rowsS.portWorks 15 = true := by decide +kernel

/-- A readout that waits while a bank is under a neighbour refresh, the only one. -/
def waitingS : State := { quiet bankA with refreshing := [(0, 5)], readouts := [{ cmd := { saggar := 2, seq := 1, tag := [] }, a := 0x10000, len := 8 }] }

theorem wit_MemoryAndPorts_readout : waitingS.readouts = [{ cmd := { saggar := 2, seq := 1, tag := [] }, a := 0x10000, len := 8 }] ∧ waitingS.holdUp = .none ∧
    (∀ e ∈ waitingS.refreshing, e = (0, 5)) ∧ waitingS.poison = [] := by decide +kernel

/-- A request of the port die, with its register pending: alone on its way there, or alone decided there. -/
def declS (op : ReqOp) (decided : Bool := false) : State :=
  { quiet { bankA with pend := [{ id := 44, rule := 3, left := none, writes := [] }] } with
    saveReqs := if decided then [] else [44], saveAnswers := if decided then [(44, 5)] else []
    reqs := [{ id := 44, site := cellA, launch := 7, saggar := 2, rule := 3, word := 0, path := .h, op := op, dst := .reg (.g 4) }]
    saggars := setAt {} (List.replicate 16 {}) 2 { saggarA with res := { saggarA.res with share := 0x100000 }, decls := [{ image := [1], num := 0, base := 0x10000, len := 64, byImage := false }] } }

/-- With one request at the port die, nature has one to choose. -/
theorem one_choice (x : Nat) : x % max 1 (0 + 1) = 0 ∧ x % max 1 (1 + 0) = 0 := ⟨Nat.mod_one x, Nat.mod_one x⟩

/-- A declaration that fits, and one that is refused; a drop of a number that is there, and of one that is not. -/
theorem wit_DeclarationsAnswered : (∀ op ∈ [ReqOp.saveset 0x10100 64, .saveset 0x10030 64, .savedrop 0, .savedrop 255], (declS op).req? 44 = (declS op).reqs.head? ∧
      (∀ r ∈ (declS op).reqs, r.held = false) ∧ (declS op).launch? 7 = some launchA ∧ ((declS op).bank cellA).pend.any (·.id = 44) = true) ∧
    ((declS (.saveset 0x10100 64)).setReason 2 [1] 0x10100 64 = 0 ∧ (declS (.saveset 0x10030 64)).setReason 2 [1] 0x10030 64 ≠ 0) ∧
    ((declS (.savedrop 0)).dropReason 2 [1] 0 = 0 ∧ (declS (.savedrop 255)).dropReason 2 [1] 255 ≠ 0) := by
  refine ⟨fun op h => ?_, by decide +kernel, by decide +kernel⟩
  simp only [List.mem_cons, List.not_mem_nil, or_false] at h
  rcases h with rfl | rfl | rfl | rfl <;> decide +kernel

/-- The request is the one to be decided, and the answer the one to be written. -/
theorem wit_DeclarationsAnswered_turns (op : ReqOp) (x : Nat) :
    (let s := declS op; s.saveReqs[x % max 1 (s.saveReqs.length + s.saveAnswers.length)]? = some 44) ∧
    (let s := declS op true; s.saveAnswers[x % max 1 (s.saveReqs.length + s.saveAnswers.length) - s.saveReqs.length]? = some (44, 5)) :=
  ⟨by show [44][x % max 1 (1 + 0)]? = _; rw [(one_choice x).2]; rfl, by show [(44, (5 : Word))][x % max 1 (0 + 1) - 0]? = _; rw [(one_choice x).1]; rfl⟩

/-- With no notify binding, and with one. -/
def powerS (n : Bool) : State := quiet { bankA with outs := [{ bind := some { yx := false, tile := 0, cell := 6, ch := 16 }, notify := n }] }

theorem wit_PowerSequence : (∀ n : Bool, (powerS n).service ≠ .off ∧ (powerS n).holdUp = .none ∧ (powerS n).notifies = (if n then [(cellA, 0)] else [])) ∧
    (∀ l ∈ (powerS true).launches, (l.phase = .placed ∨ l.phase = .running) ∧ l.saggar < 16 ∧ l.freeze = false ∧ l.trav = none ∧ 0 ∉ l.causes ∧
      l.tiles.any (·.slot.isSome) = true) ∧ Memory.wf (powerS true).store.cells = true ∧
    (({ powerS true with holdUp := .grace [2] } : State).holdUp = .grace [2] ∧ 2 ∈ [2]) ∧ ({ powerS true with service := .bisque } : State).service = .bisque ∧
    (let s : State := { declS (.savedrop 0) with reqs := [], holdUp := .runOut }
     s.holdUp = .runOut ∧ s.reqs = [] ∧ (s.saggar 2).st = .loaded ∧ (∃ d ∈ (s.saggar 2).decls, ∃ i ∈ (s.saggar 2).images, i.hash = d.image ∧ d.len = 64) ∧ s.poison = []) := by
  decide +kernel

/-! A command that its saggar accepts. -/

/-- The command of a type to a saggar, whose key for commands is [1], with the tag that R388 gives it. -/
def cmdOf (type : Nat) (g : Nat := 2) : CmdHead :=
  { saggar := g, seq := 1
    tag := if type = 4 ∨ type = 5 then List.replicate 16 0 else Config.gcmTag [1] (messageIv false 1) (messageHead type g 0 1) [] }
def hostS (s : State) : State := { s with ports := [{ up := true }] }

/-- A state of a list in which the saggar takes a command of the type, and where its keys are needed has those of cmdOf. -/
def acceptedOk (e : State × Nat × Nat) : Bool :=
  let (s, g, type) := e
  decide ((s.service ≠ .off ∧ s.holdUp = .none ∧ (s.service = .refused → type = 4)) ∧ s.ports.any (·.up) = true ∧ (1 ≤ g ∧ g < 16) ∧
    (s.saggar g).ctrIn < 1 ∧ s.endingLoads = [] ∧ (type = 4 ∨ type = 5 ∨ (s.saggar g).keys = some ([1], [2])) ∧ (s.saggar g).st.accepts type = true)

theorem cmdOf_tag (s : State) (g type : Nat) (h : type = 4 ∨ type = 5 ∨ (s.saggar g).keys = some ([1], [2])) :
    if type = 4 ∨ type = 5 then (cmdOf type g).tag = List.replicate 16 0 else ∃ k, (s.saggar (cmdOf type g).saggar).keys = some k ∧
      (cmdOf type g).tag = Config.gcmTag k.1 (messageIv false (cmdOf type g).seq) (messageHead type (cmdOf type g).saggar (cmdOf type g).length (cmdOf type g).seq) (cmdOf type g).body := by
  by_cases ht : type = 4 ∨ type = 5
  · rw [if_pos ht]; exact if_pos ht
  · rw [if_neg ht]
    exact ⟨_, (or_assoc.mpr h).resolve_left ht, if_neg ht⟩

theorem accepted_of (l : List (State × Nat × Nat)) (h : l.all acceptedOk = true) : ∀ e ∈ l, Accepted e.1 (cmdOf e.2.2 e.2.1) e.2.2 :=
  forall_of l h fun _ h =>
    have k := of_decide_eq_true h
    { works := k.1, link := k.2.1, tenant := k.2.2.1, newer := k.2.2.2.1, idle := k.2.2.2.2.1, form := ⟨rfl, rfl⟩, tag := cmdOf_tag _ _ _ k.2.2.2.2.2.1
      accepts := k.2.2.2.2.2.2 }

def newArgs (q prio origin : Nat) (fl : Bool) : LaunchArgs := { image := [1], region := 0, queue := q, prio := prio, origin := origin, floating := fl, handle := 7 }
def heldS : State :=
  { hostS (quiet bankA) with
    launches := [{ launchA with phase := .saved, tiles := [] }]
    saggars := setAt {} (List.replicate 16 {}) 2 { saggarA with saved := [{ handle := 7, launch := 7, base := 0x10000, bytes := [], old := [(0, 3)] }] } }
def frozenS : State := { hostS (quiet { bankA with halted := true }) with launches := [{ launchA with freeze := true, causes := [3, 4] }] }

theorem wit_HostLaunches_accepted : ∀ e ∈ [(hostS (quiet bankA), 2, 2), (heldS, 2, 2), (frozenS, 2, 2)], Accepted e.1 (cmdOf e.2.2 e.2.1) e.2.2 :=
  accepted_of _ (by decide +kernel)

theorem wit_HostLaunches : ((hostS (quiet bankA)).image? 2 [1] = some imageA ∧ 0 < imageA.regions ∧ (hostS (quiet bankA)).launchFits (newArgs 31 3 63 false) (imageA.plat 0) = true ∧
      (hostS (quiet bankA)).launchFits (newArgs 0 0 0 true) (imageA.plat 0) = true) ∧
    ((heldS.heldRegion 2 7).isSome = true ∧ (heldS.saggar 2).saved.all (!·.queued) = true ∧ (∀ l ∈ heldS.launches, heldS.launchFits (newArgs 31 3 63 false) (heldS.platOf l) = true)) ∧
    (heldS.named 2 7 heldS.discardable = heldS.launches ∧ frozenS.named 2 7 frozenS.discardable = frozenS.launches) ∧
    (frozenS.named 2 7 (·.freeze) = frozenS.launches ∧ frozenS.launch? 7 = frozenS.launches.head? ∧ (∀ l ∈ frozenS.launches, l.causes.all resumable = true) ∧
      (∀ x ∈ frozenS.banksOf 7, (frozenS.bank x).trapped = [])) := by decide +kernel

/-- A chunk and the next of a load; an image that is not well formed. -/
def chunk (last : Bool) (off total : Nat) (bs : List Byte) : LoadArgs := { last := last, restore := none, offset := off, total := total, maps := [(0x40000, 0, 0)], chunk := bs }
def loadS : State :=
  { hostS (quiet bankA) with
    launches := [], saggars := setAt {} (List.replicate 16 {}) 2 { saggarA with images := [], load := some { total := 3, got := [1], restore := none, maps := [] } } }

/-- Sixteen images are loaded already, and a chunk of one more comes. -/
def fullS : State :=
  { hostS (quiet bankA) with
    launches := [], saggars := setAt {} (List.replicate 16 {}) 2 { saggarA with images := (List.range 16).map fun k => { imageA with hash := [BitVec.ofNat 8 k] } } }

theorem wit_HostImages_chunks : (∀ e ∈ [(loadS, 2, 1), (fullS, 2, 1)], Accepted e.1 (cmdOf e.2.2 e.2.1) e.2.2) ∧ (chunk false 1 3 [2]).offset = 1 ∧ (chunk true 1 3 [2, 3]).offset = 1 ∧
    loadS.deferred = [] ∧ (fullS.saggar 2).images.length = 16 ∧ (chunk false 0 3 [2]).offset = ((fullS.saggar 2).load.getD { total := 3, got := [], restore := none, maps := [] }).got.length ∧
    ({ hash := sha384 [], bytes := [1, 2, 3] } : Image).wellFormed = false :=
  ⟨accepted_of _ (by decide +kernel), rfl, rfl, rfl, by decide +kernel⟩

/-- The first 192 bytes of a well-formed image of one region with one empty plane, from its fields (R391, R392). -/
def goodHead : List Byte :=
  leBytes 4 0x4349584F ++ leBytes 2 1 ++ leBytes 2 0 ++ leBytes 8 98608 ++ leBytes 2 1 ++ leBytes 2 1 ++ leBytes 4 0 ++ leBytes 2 0 ++ leBytes 2 0 ++ leBytes 4 0 ++
    List.replicate 144 0 ++ leBytes 4 0 ++ leBytes 4 0x18008 ++ leBytes 8 192
def goodBytes : List Byte := goodHead ++ List.replicate 98416 0

theorem ofLeBytes_zeros (k : Nat) : ofLeBytes (List.replicate k 0) = 0 := by
  induction k with
  | zero => rfl
  | succ k ih => rw [List.replicate_succ, ofLeBytes, ih]; rfl

theorem ofLeBytes_append_zeros (l : List Byte) (k : Nat) : ofLeBytes (l ++ List.replicate k 0) = ofLeBytes l := by
  induction l with
  | nil => exact ofLeBytes_zeros k
  | cons b l ih => rw [List.cons_append, ofLeBytes, ofLeBytes, ih]

/-- The bytes beyond the end of an image read as zero. -/
theorem leAt_zeros (l : List Byte) (k off n : Nat) : leAt (l ++ List.replicate k 0) off n = leAt l off n := by
  unfold leAt
  rw [List.drop_append, List.take_append, List.drop_replicate, List.take_replicate, ofLeBytes_append_zeros]

theorem goodBytes_length : goodBytes.length = 98608 := by
  unfold goodBytes
  rw [List.length_append, List.length_replicate, show goodHead.length = 192 from by decide +kernel]

/-- An image of those bytes with any hash. -/
def goodImage (h : List Byte) : Image := { hash := h, bytes := goodBytes }

theorem good_fields (h : List Byte) (off n : Nat) : leAt (goodImage h).bytes off n = leAt goodHead off n := leAt_zeros _ _ _ _

theorem good_planes (h : List Byte) : (goodImage h).planes = 1 := by unfold Image.planes; rw [good_fields]; decide +kernel
theorem good_regions (h : List Byte) : (goodImage h).regions = 1 := by unfold Image.regions; rw [good_fields]; decide +kernel
theorem good_segments (h : List Byte) : (goodImage h).segments = 0 := by unfold Image.segments; rw [good_fields]; decide +kernel
theorem good_decls (h : List Byte) : (goodImage h).decls = 0 := by unfold Image.decls; rw [good_fields]; decide +kernel
theorem good_launches (h : List Byte) : (goodImage h).launches = 0 := by unfold Image.launches; rw [good_fields]; decide +kernel

theorem good_region (h : List Byte) : (goodImage h).regionOk 0 = true := by
  simp only [Image.regionOk, Image.regionPlanes, Image.tileCount, Image.firstPlane, Image.planeTile, Image.planeRegion, Image.planeOff, Image.regionOff,
    good_planes, good_regions, good_fields]
  decide +kernel

theorem good_plane (h : List Byte) : (goodImage h).planeOk 0 = true := by
  have hb : (goodImage h).bytes.length = 98608 := goodBytes_length
  simp only [Image.planeOk, Image.planeRegion, Image.planeLen, Image.bodyOff, Image.planeOff, good_regions, good_fields, hb]
  decide +kernel

theorem good_bodies (h : List Byte) : (goodImage h).bodies = [(192, 98312)] := by
  simp only [Image.bodies, Image.bodyOff, Image.planeLen, Image.planeOff, good_planes, good_regions, good_segments, good_fields, List.range_zero, List.map_nil]
  decide +kernel

theorem good_laid (h : List Byte) : (goodImage h).laidOut 98512 192 [(192, 98312)] = true := by
  simp only [Image.laidOut, show (goodImage h).bytes = goodBytes from rfl]
  decide +kernel

theorem good_names (h : List Byte) : ∀ k ∈ [0x20, 0x40, 128], nameOk (((goodImage h).bytes.drop k).take 32) = true :=
  show ∀ k ∈ [0x20, 0x40, 128], nameOk ((goodBytes.drop k).take 32) = true by decide +kernel

theorem good_named (h : List Byte) : ((goodImage h).regionPlanes ((goodImage h).planeRegion 0)).contains 0 = true := by
  simp only [Image.regionPlanes, Image.tileCount, Image.firstPlane, Image.planeRegion, Image.planeOff, Image.regionOff, good_regions, good_fields]
  decide +kernel

theorem good_wellFormed (h : List Byte) : (goodImage h).wellFormed = true := by
  have hb : (goodImage h).bytes.length = 98608 := goodBytes_length
  have hz : (((goodImage h).bytes.drop 0x60).take 32).all (· = 0) = true := by
    show ((goodBytes.drop 0x60).take 32).all (· = 0) = true
    decide +kernel
  have hn (k : Nat) (hk : k ∈ [0x20, 0x40, 128]) := good_names h k hk
  unfold Image.wellFormed
  rw [hz, hb, good_planes, good_regions, good_segments, good_decls, good_launches, good_bodies]
  simp only [List.range_zero, List.all_nil, List.range_succ, List.nil_append, List.all_cons, good_region, good_plane, good_named, Image.launchOff, Image.declOff,
    Image.segOff, Image.regionOff, good_planes, good_regions, good_segments, good_decls, good_fields, good_laid, Nat.reduceMul, Nat.reduceAdd, Nat.reduceSub,
    hn 0x20 (by simp), hn 0x40 (by simp), hn 128 (by simp)]
  decide +kernel

theorem wit_HostImages_loads (h : List Byte) : let sg := loadS.saggar 2
    (goodImage h).wellFormed = true ∧ (∀ o ∈ sg.images, o.hash ≠ h) ∧ sg.images.length < 16 ∧ sg.planesUsed + (goodImage h).planes ≤ sg.res.planes ∧
      sg.pagesAfter (goodImage h) [] = some sg.pages ∧ pageCount sg.pages ≤ sg.res.pages ∧ inRw sg.pages sg.res.ovBase sg.res.ovSize = true ∧
      sg.admits (goodImage h) = true := by
  have hd : (goodImage h).declList = [] := by unfold Image.declList; rw [good_decls]; rfl
  have hs : (goodImage h).dataRanges = [] := by unfold Image.dataRanges; rw [good_segments, good_decls]; rfl
  refine ⟨good_wellFormed h, fun o ho => absurd (show o ∈ ([] : List Image) from ho) List.not_mem_nil, by decide +kernel, ?_, ?_, by decide +kernel,
    by decide +kernel, ?_⟩
  · rw [good_planes]; decide +kernel
  · unfold Saggar.pagesAfter; rw [hs]; decide +kernel
  · unfold Saggar.admits; rw [hd]; decide +kernel

/-- A load whose last chunk came while a plane-store layer of the package was off: the layer now wakes, and every other is on. -/
def wakingS (got : List Byte) : State :=
  { loadS with
    tiles := setAt {} (List.replicate 64 {}) 63 { planeStore := { off := true, waking := true } }
    saggars := setAt {} (List.replicate 16 {}) 2
      { saggarA with images := [], load := some { total := 98608, got := got, restore := none, maps := [], ending := some (cmdOf 1) } } }

theorem wit_HostImages_waking (h : List Byte) : let s := wakingS goodBytes
    (s.endingLoads = [(cmdOf 1, { total := 98608, got := goodBytes, restore := none, maps := [], ending := some (cmdOf 1) })] ∧ (s.tile 63).planeStore.waking = true ∧
      s.holdUp = .none ∧ s.deferred = [] ∧ ∀ b ∈ (s.saggar 2).barriers, b.st = .idle) ∧
    (goodImage h).wellFormed = true ∧ (s.saggar 2).images = [] ∧ (s.saggar 2).planesUsed + (goodImage h).planes ≤ (s.saggar 2).res.planes ∧
      (s.saggar 2).pagesAfter (goodImage h) [] = some (s.saggar 2).pages ∧ pageCount (s.saggar 2).pages ≤ (s.saggar 2).res.pages ∧
      inRw (s.saggar 2).pages (s.saggar 2).res.ovBase (s.saggar 2).res.ovSize = true ∧ (s.saggar 2).admits (goodImage h) = true :=
  ⟨⟨rfl, rfl, rfl, rfl, show ∀ b ∈ saggarA.barriers, b.st = .idle by decide⟩, (wit_HostImages_loads h).1, rfl, (wit_HostImages_loads h).2.2.2.1, (wit_HostImages_loads h).2.2.2.2.1, (wit_HostImages_loads h).2.2.2.2.2.1,
    (wit_HostImages_loads h).2.2.2.2.2.2.1, (wit_HostImages_loads h).2.2.2.2.2.2.2⟩

/-- Its tiles; and those of a package where all are on, and of one where the last is off as the last chunk comes. -/
theorem wit_HostImages_planes : (∀ m ∈ (wakingS []).planeTiles, m ≠ 63 → ((wakingS []).tile m).planeStore.off = false) ∧
    (∀ n ∈ loadS.planeTiles, (loadS.tile n).planeStore.off = false) ∧ 63 ∈ ({ loadS with tiles := (wakingS []).tiles } : State).planeTiles ∧
    (({ loadS with tiles := (wakingS []).tiles } : State).tile 63).planeStore.off = true := by decide +kernel

/-- A saggar without planes, and one without pages, refuse the image for want of a resource. -/
def poorS (planes pages : Nat) : Saggar :=
  { loadS.saggar 2 with res := { saggarA.res with planes := planes, pages := pages } }

theorem wit_HostImages_refused (h : List Byte) : (poorS 0 4).res.planes < (poorS 0 4).planesUsed + (goodImage h).planes ∧
    ((poorS 2 0).planesUsed + (goodImage h).planes ≤ (poorS 2 0).res.planes ∧ (poorS 2 0).pagesAfter (goodImage h) [] = some (poorS 2 0).pages ∧
      (poorS 2 0).res.pages < pageCount (poorS 2 0).pages) := by
  have hs : (goodImage h).dataRanges = [] := by unfold Image.dataRanges; rw [good_segments, good_decls]; rfl
  unfold Saggar.pagesAfter
  rw [good_planes, hs]
  decide +kernel

/-- No launch uses the image; and a neighbour refresh holds the bank of the first byte of page 0x10000. -/
def idleS : State := { hostS (quiet bankA) with launches := [] }
def busyS : State := { hostS (quiet bankA) with refreshing := [(hostS (quiet bankA)).bankOf 2 0x10000] }

theorem wit_HostImages_others : (∀ e ∈ [(idleS, 2, 8), (idleS, 2, 7), (busyS, 2, 7)], Accepted e.1 (cmdOf e.2.2 e.2.1) e.2.2) ∧
    idleS.image? 2 [1] = some imageA ∧ idleS.poison = [] ∧ idleS.readouts = [] ∧
    (∀ e ∈ [(0x10000, 8), (0x10000, 65536), (0x1FFF8, 65536)], idleS.unmapped 2 e.1 e.2 = none ∧ idleS.readoutWaits 2 e.1 e.2 = []) :=
  ⟨accepted_of _ (by decide +kernel), by decide +kernel⟩

theorem wit_HostImages_delayed : busyS.readoutWaits 2 0x10000 8 ≠ [] := by
  rw [State.readoutWaits, show addressesOf [(0x10000, 8)] = [0x10000] from by decide +kernel]
  exact fun h => by simp [show busyS.refreshing = [busyS.bankOf 2 0x10000] from rfl] at h

/-- A free number, one of the same tenant, one that is being killed. -/
def keyA : KeyArgs := { tenant := [7], eph := [], sig := [], res := { slots := 1, seed := 0xFFFFFFFF } }
def killS : State := { hostS (quiet bankA) with saggars := setAt {} (List.replicate 16 {}) 2 { saggarA with st := .killing } }

/-- Two saggars stand so that no run of 2,096 lines is free, though 2,992 lines are. -/
def cutS : State :=
  let s (base n : Nat) : Saggar := { st := .created, keys := some ([1], [2]), lineBase := base, res := { lines := n } };
  { hostS (quiet bankA) with saggars := [{}, s 2048 512, s 0 592] ++ List.replicate 13 {} }
def keyCut : KeyArgs := { keyA with res := { lines := 2096, slots := 1 } }

theorem wit_HostSaggars : (∀ e ∈ [(hostS (quiet bankA), 15, 5), (hostS (quiet bankA), 2, 5), (cutS, 15, 5),
      (killS, 2, 4), (killS, 2, 3), (hostS (quiet bankA), 2, 6)], Accepted e.1 (cmdOf e.2.2 e.2.1) e.2.2) ∧
    (((hostS (quiet bankA)).saggar 15).st = .free ∧ Resources.ok keyA.res = true ∧ (hostS (quiet bankA)).holds keyA.res = true ∧
      ((hostS (quiet bankA)).lineBaseFor keyA.res.lines).isSome = true) ∧
    ((cutS.saggar 15).st = .free ∧ Resources.ok keyCut.res = true ∧ cutS.holds keyCut.res = true ∧ cutS.lineBaseFor keyCut.res.lines = none) ∧
    (((hostS (quiet bankA)).saggar 2).st ≠ .free ∧ keyA.tenant = ((hostS (quiet bankA)).saggar 2).tenant) ∧
    killS.store.device = none ∧ (killS.saggar 2).st = .killing ∧ killS.holdUp = .none ∧ killS.mem = [] :=
  ⟨accepted_of _ (by decide +kernel), by decide +kernel⟩

/-! ### Witnesses: the encodings, the step, the memory -/

/-- The instruction of every word of a list is well formed. -/
def wellFormedWords (l : List (Nat × Instr)) : Bool := l.all fun p => p.2.op?.isSome && p.2.wellFormed

theorem wit_DecodeEncode : wellFormedWords [
    (0, .add { pcare := 2, pval := 2, pclr := 2, reuse := 4 } .n64 (.g 0) (.g 0) .imm 8), (0, .nop {}), (0, .fadd {} .f32 (.g 1) (.g 2) (.g 3) .rne false),
    (0, .mad {} .i32 (.g 3) (.g 1) (.g 2) (.d 3) 0)] = true := by decide +kernel

theorem wit_StepRunsDecoded : (let s := State.reset.withFetchWord 128 0x02020000000002001030009E60008008
      s.round.firing = { site := fetchSite, rule := 0 } :: [] ∧ (s.bank fetchSite).rules.getD 0 0 ≠ 0 ∧
        decode ((s.bank fetchSite).rules.getD 0 0) = some (.add { pcare := 2, pval := 2, pclr := 2, reuse := 4 } .n64 (.g 0) (.g 0) .imm 8)) ∧
    (let s : State := { State.reset with agenda := [.powerOnStart true []] }
     s.round.firing = [] ∧ s.agenda = .powerOnStart true [] :: [] ∧ (Instr.powerOnStart true []).op? = none ∧ (Instr.powerOnStart true []).wellFormed = true) := by
  decide +kernel

theorem wit_MemoryCanonical : State.reset.memOk ∧ memM.memOk := ⟨rfl, (by decide +kernel : Memory.wf memM.mem = true)⟩

end Sys2Proof.Tests
end

namespace Sys2Proof.Machine

/-! ### Serial order (R32) -/

theorem insertSerial_perm (prio : Nat → Nat) (i : Nat) (l : List Nat) : (insertSerial prio i l).Perm (i :: l) := by
  induction l with
  | nil => exact List.Perm.refl _
  | cons j r ih =>
    simp only [insertSerial]
    split
    · exact List.Perm.refl _
    · exact (ih.cons j).trans (List.Perm.swap i j r)

/-- Serial order only rearranges the rules. -/
theorem serialOrder_perm (prio : Nat → Nat) (is : List Nat) : (serialOrder prio is).Perm is := by
  induction is with
  | nil => exact List.Perm.refl _
  | cons i r ih => exact (insertSerial_perm prio i _).trans (ih.cons i)

@[simp] theorem mem_serialOrder (prio : Nat → Nat) (is : List Nat) (k : Nat) : k ∈ serialOrder prio is ↔ k ∈ is :=
  (serialOrder_perm prio is).mem_iff

theorem serialBefore_iff (prio : Nat → Nat) (i j : Nat) :
    serialBefore prio i j = true ↔ prio j < prio i ∨ (prio j = prio i ∧ i < j) := by
  simp [serialBefore, eq_comm (a := prio i)]

theorem serialBefore_trans {prio : Nat → Nat} {i j k : Nat} (hij : serialBefore prio i j = true)
    (hjk : serialBefore prio j k = true) : serialBefore prio i k = true := by
  rw [serialBefore_iff] at *
  omega

/-- Of two rules, one stands before the other. -/
theorem serialBefore_of_not {prio : Nat → Nat} {i j : Nat} (hne : i ≠ j) (h : ¬ serialBefore prio i j = true) :
    serialBefore prio j i = true := by
  rw [serialBefore_iff] at *
  omega

theorem pairwise_insertSerial {prio : Nat → Nat} {i : Nat} {l : List Nat} (hi : i ∉ l)
    (hl : l.Pairwise fun j k => serialBefore prio j k = true) :
    (insertSerial prio i l).Pairwise fun j k => serialBefore prio j k = true := by
  induction l with
  | nil => simp [insertSerial]
  | cons j r ih =>
    obtain ⟨hne, hir⟩ := List.ne_and_not_mem_of_not_mem_cons hi
    obtain ⟨hj, hr⟩ := List.pairwise_cons.1 hl
    simp only [insertSerial]
    split
    next hij =>
      refine List.pairwise_cons.2 ⟨fun k hk => ?_, hl⟩
      rcases List.mem_cons.1 hk with rfl | hk
      · exact hij
      · exact serialBefore_trans hij (hj k hk)
    next hij =>
      refine List.pairwise_cons.2 ⟨fun k hk => ?_, ih hir hr⟩
      rcases List.mem_cons.1 ((insertSerial_perm prio i r).mem_iff.1 hk) with rfl | hk
      · exact serialBefore_of_not hne hij
      · exact hj k hk

theorem pairwise_serialOrder {prio : Nat → Nat} {is : List Nat} (h : is.Nodup) :
    (serialOrder prio is).Pairwise fun j k => serialBefore prio j k = true := by
  induction is with
  | nil => exact List.Pairwise.nil
  | cons i r ih =>
    obtain ⟨hi, hr⟩ := List.nodup_cons.1 h
    exact pairwise_insertSerial (by rwa [← mem_serialOrder prio] at hi) (ih hr)

/-! ### The choice of a round (R9, R31, R256) -/

/-- Two rules may be chosen together: no common unit class, and no conflict either way (R9, R31). -/
def Bank.Joinable (b : Bank) (j k : Nat) : Prop :=
  b.classOf j ≠ b.classOf k ∧ (b.conf.getD k 0).getLsbD j = false ∧ (b.conf.getD j 0).getLsbD k = false

theorem Bank.Joinable.symm {b : Bank} {j k : Nat} (h : b.Joinable j k) : b.Joinable k j := by
  obtain ⟨hclass, hkj, hjk⟩ := h
  exact ⟨hclass.symm, hjk, hkj⟩

theorem Bank.not_joinable_iff (b : Bank) (j k : Nat) : ¬ b.Joinable j k ↔
    b.classOf j = b.classOf k ∨ (b.conf.getD k 0).getLsbD j = true ∨ (b.conf.getD j 0).getLsbD k = true := by
  simp only [Bank.Joinable, ne_eq, Decidable.not_and_iff_not_or_not, Decidable.not_not, Bool.not_eq_false]

theorem Bank.compatible_iff (b : Bank) (chosen : List Nat) (k : Nat) :
    b.compatible chosen k = true ↔ ∀ j ∈ chosen, b.Joinable j k := by
  simp only [Bank.compatible, Bank.Joinable, List.all_eq_true, Bool.and_eq_true, decide_eq_true_eq, Bool.not_eq_true', and_assoc]

/-- The greedy choice of select_set (R256): each candidate in turn joins the chosen when it may. -/
def Bank.choose (b : Bank) (chosen cand : List Nat) : List Nat :=
  cand.foldl (fun ch k => if b.compatible ch k then ch ++ [k] else ch) chosen

/-- The candidates of select_set (R256): the ready rules, the one at the fairness index first. -/
def Bank.candidates (b : Bank) : List Nat :=
  let ready := (List.range 16).filter b.ready
  if ready.contains b.fair then b.fair :: (serialOrder b.prio ready).filter (· ≠ b.fair) else serialOrder b.prio ready

theorem Bank.selectSet_eq (b : Bank) : b.selectSet = serialOrder b.prio (b.choose [] b.candidates) := rfl

theorem Bank.mem_selectSet (b : Bank) (k : Nat) : k ∈ b.selectSet ↔ k ∈ b.choose [] b.candidates := mem_serialOrder _ _ _

theorem Bank.mem_candidates (b : Bank) (k : Nat) : k ∈ b.candidates ↔ k < 16 ∧ b.ready k = true := by
  simp only [Bank.candidates]
  split
  next hfair =>
    rw [List.contains_iff_mem, List.mem_filter, List.mem_range] at hfair
    by_cases hk : k = b.fair
    · subst hk; simp [hfair]
    · simp [hk]
  next => simp

theorem Bank.choose_cons (b : Bank) (chosen : List Nat) (k : Nat) (r : List Nat) :
    b.choose chosen (k :: r) = b.choose (if b.compatible chosen k then chosen ++ [k] else chosen) r := rfl

/-- A rule that is chosen stays chosen. -/
theorem Bank.subset_choose (b : Bank) (chosen cand : List Nat) : chosen ⊆ b.choose chosen cand := by
  induction cand generalizing chosen with
  | nil => exact fun _ h => h
  | cons k r ih =>
    rw [b.choose_cons]
    split
    · exact fun _ h => ih _ (List.mem_append_left _ h)
    · exact ih chosen

theorem Bank.choose_subset (b : Bank) (chosen cand : List Nat) : b.choose chosen cand ⊆ chosen ++ cand := by
  induction cand generalizing chosen with
  | nil => simp [Bank.choose]
  | cons k r ih =>
    rw [b.choose_cons]
    split
    · simpa [Bank.choose] using ih (chosen ++ [k])
    · exact fun _ h => (List.mem_append.1 (ih chosen h)).elim (List.mem_append_left _) fun h => List.mem_append_right _ (List.mem_cons_of_mem k h)

theorem Bank.pairwise_choose {b : Bank} {chosen : List Nat} (cand : List Nat) (h : chosen.Pairwise b.Joinable) :
    (b.choose chosen cand).Pairwise b.Joinable := by
  induction cand generalizing chosen with
  | nil => exact h
  | cons k r ih =>
    rw [b.choose_cons]
    split
    next hk =>
      rw [b.compatible_iff] at hk
      exact ih (List.pairwise_append.2 ⟨h, List.pairwise_singleton _ _, by simpa using hk⟩)
    next => exact ih h

/-- A candidate is left out only for a chosen rule that it may not join. -/
theorem Bank.choose_maximal (b : Bank) {chosen cand : List Nat} {k : Nat} (hk : k ∈ cand) :
    k ∈ b.choose chosen cand ∨ ∃ j ∈ b.choose chosen cand, ¬ b.Joinable j k := by
  induction cand generalizing chosen with
  | nil => cases hk
  | cons i r ih =>
    rcases List.mem_cons.1 hk with rfl | hr
    · rw [b.choose_cons]
      split
      · exact .inl (b.subset_choose _ r (by simp))
      next hno =>
        rw [b.compatible_iff] at hno
        obtain ⟨j, hno⟩ := Classical.not_forall.1 hno
        obtain ⟨hj, hjk⟩ := Classical.not_imp.1 hno
        exact .inr ⟨j, b.subset_choose _ r hj, hjk⟩
    · exact ih hr

theorem Bank.pairwise_selectSet (b : Bank) : b.selectSet.Pairwise b.Joinable := by
  rw [b.selectSet_eq, (serialOrder_perm _ _).pairwise_iff Bank.Joinable.symm]
  exact Bank.pairwise_choose _ List.Pairwise.nil

theorem Bank.selectSet_serial (b : Bank) : b.selectSet.Pairwise fun j k => serialBefore b.prio j k = true := by
  refine pairwise_serialOrder ((Bank.pairwise_choose b.candidates List.Pairwise.nil).imp ?_)
  rintro j k ⟨hclass, -⟩ rfl
  exact hclass rfl

theorem Bank.ready_of_mem_selectSet {b : Bank} {k : Nat} (h : k ∈ b.selectSet) : k < 16 ∧ b.ready k = true :=
  (b.mem_candidates k).1 (by simpa using b.choose_subset [] _ ((b.mem_selectSet k).1 h))

theorem Bank.selectSet_maximal {b : Bank} {k : Nat} (hk : k < 16) (hr : b.ready k = true) (hout : k ∉ b.selectSet) :
    ∃ j ∈ b.selectSet, ¬ b.Joinable j k := by
  simp only [b.mem_selectSet] at hout ⊢
  exact (b.choose_maximal ((b.mem_candidates k).2 ⟨hk, hr⟩)).resolve_left hout

/-- The rule at the fairness index is tried first, when no rule is chosen that it could not join. -/
theorem Bank.fair_mem_selectSet {b : Bank} (hk : b.fair < 16) (hr : b.ready b.fair = true) : b.fair ∈ b.selectSet := by
  have hfair : ((List.range 16).filter b.ready).contains b.fair = true := by simp [hk, hr]
  rw [b.mem_selectSet, Bank.candidates, if_pos hfair]
  exact b.subset_choose [b.fair] _ (by simp)

/-- Settles O22: the choice is greedy over the ready rules, so what joins fits all that is chosen, and what is left out met a
chosen rule that it could not join. -/
theorem chosenRules : Obligations.ChosenRules := by
  intro b
  refine ⟨fun k => Bank.ready_of_mem_selectSet, ?_, ?_, Bank.fair_mem_selectSet⟩
  · refine (b.pairwise_selectSet.and b.selectSet_serial).imp ?_
    rintro j k ⟨⟨hclass, hkj, hjk⟩, hserial⟩
    exact ⟨hclass, hkj, hjk, (serialBefore_iff _ j k).1 hserial⟩
  · intro k hk hr hout
    obtain ⟨j, hj, hno⟩ := Bank.selectSet_maximal hk hr hout
    exact ⟨j, hj, (b.not_joinable_iff j k).1 hno⟩

end Sys2Proof.Machine

namespace Sys2Proof.Machine

/-! ### The counts of rows (R317) -/

/-- Whether a listed count is that of a row. -/
def RowCount.isOf (d b r : Nat) (c : RowCount) : Bool := c.die = d && c.bank = b && c.row = r

theorem RowCount.isOf_iff (d b r : Nat) (c : RowCount) : c.isOf d b r = true ↔ (c.die, c.bank, c.row) = (d, b, r) := by
  simp [RowCount.isOf, and_assoc]

theorem State.rowCount_eq (s : State) (d b r : Nat) :
    s.rowCount d b r = ((s.rows.find? (RowCount.isOf d b r)).map (·.n)).getD 0 := rfl

theorem State.setRow_rows (s : State) (d b r n : Nat) : (s.setRow d b r n).rows =
    s.rows.filter (fun c => !c.isOf d b r) ++ if n = 0 then [] else [{ die := d, bank := b, row := r, n := n }] := by
  simp only [State.setRow]
  split <;> simp [RowCount.isOf]

@[simp] theorem State.setRow_alerts (s : State) (d b r n : Nat) : (s.setRow d b r n).alerts = s.alerts := rfl
@[simp] theorem State.setRow_refreshing (s : State) (d b r n : Nat) : (s.setRow d b r n).refreshing = s.refreshing := rfl

/-- Counts that a selection keeps are found in it. -/
theorem rowCount_filter {s : State} {keep : RowCount → Bool} {d b r : Nat} (h : ∀ c, c.isOf d b r = true → keep c = true) :
    (s.rows.filter keep).find? (RowCount.isOf d b r) = s.rows.find? (RowCount.isOf d b r) := by
  rw [List.find?_filter]
  congr 1
  funext c
  by_cases hc : c.isOf d b r = true <;> simp [hc, h c]

theorem rowCount_filter_none {s : State} {keep : RowCount → Bool} {d b r : Nat} (h : ∀ c, c.isOf d b r = true → keep c = false) :
    (s.rows.filter keep).find? (RowCount.isOf d b r) = none := by
  simp only [List.find?_eq_none, List.mem_filter, and_imp]
  intro c _ hkeep hrow
  simp [h c hrow] at hkeep

/-- A row's count after one is set. -/
theorem State.rowCount_setRow (s : State) (d b r n d' b' r' : Nat) :
    (s.setRow d b r n).rowCount d' b' r' = if (d', b', r') = (d, b, r) then n else s.rowCount d' b' r' := by
  rw [State.rowCount_eq, State.setRow_rows, List.find?_append]
  by_cases hrow : (d', b', r') = (d, b, r)
  · obtain ⟨rfl, rfl, rfl⟩ : d' = d ∧ b' = b ∧ r' = r := by simpa using hrow
    rw [rowCount_filter_none (by simp)]
    by_cases hn : n = 0 <;> simp [hn, RowCount.isOf]
  · have hne (c : RowCount) (hc : c.isOf d' b' r' = true) : c.isOf d b r = false := by
      rw [RowCount.isOf_iff] at hc
      rw [← Bool.not_eq_true, RowCount.isOf_iff, hc]
      exact hrow
    rw [rowCount_filter (by simpa using hne), if_neg hrow, State.rowCount_eq]
    have hnew : (if n = 0 then [] else [({ die := d, bank := b, row := r, n := n } : RowCount)]).find? (RowCount.isOf d' b' r') = none := by
      rw [List.find?_eq_none]
      intro c hc
      split at hc
      · cases hc
      · rw [List.mem_singleton.1 hc, RowCount.isOf_iff]
        exact Ne.symm hrow
    rw [hnew, Option.or_none]

/-- A refresh pass clears the counts of its bank and no other. -/
theorem rowCount_refreshPass (s : State) (d b d' b' r' : Nat) :
    ({ s with rows := s.rows.filter fun c => !(c.die = d && c.bank = b) } : State).rowCount d' b' r' =
      if (d', b') = (d, b) then 0 else s.rowCount d' b' r' := by
  have hrow (c : RowCount) (hc : c.isOf d' b' r' = true) : (c.die, c.bank) = (d', b') := by
    rw [RowCount.isOf_iff] at hc
    simp_all
  rw [State.rowCount_eq]
  split
  next hbank =>
    rw [rowCount_filter_none]
    · rfl
    · intro c hc
      simpa using (hrow c hc).trans hbank
  next hbank =>
    rw [rowCount_filter, State.rowCount_eq]
    intro c hc
    rw [← hrow c hc, Prod.mk.injEq] at hbank
    rw [← Bool.decide_and, decide_eq_false hbank, Bool.not_false]

/-! ### Readouts (R318, R390) -/

/-- A read in which nature misses no write sees every byte as it stands. -/
theorem unseen_of_stale_nil (s : State) (p : Path) (x : Option Site) (grs : List Nat) : s.unseen p x {} grs = [] := by
  simp [State.unseen, Lag.missed]

@[simp] theorem lagValue_nil (l : List Lag) (v : Byte) : lagValue [] l v = v := by
  cases l <;> simp [lagValue]

@[simp] theorem lagBad_nil (l : List Lag) (v : Bool) : lagBad [] l v = v := by
  cases l <;> simp [lagBad]

theorem see_default (s : State) (p : Path) (x : Option Site) (k len : Nat) : s.see p x {} k len = s.bytes k len := by
  simp [State.see, unseen_of_stale_nil, State.seeByte, natureHits, State.bytes]

theorem taintedAt_default {s : State} (p : Path) (x : Option Site) {k len : Nat} (h : Claim.Whole s k len) :
    s.taintedAt p x {} k len = [] := by
  simpa [State.taintedAt, unseen_of_stale_nil, State.seeBad, natureHits, List.filter_eq_nil_iff, Claim.Whole] using h

theorem countFixed_default (s : State) (g a len : Nat) : s.countFixed {} g a len = s := by
  simp [State.countFixed]

theorem leBytes_zero (n : Nat) : leBytes n 0 = List.replicate n 0 := by
  induction n with
  | zero => rfl
  | succ n ih => simp [leBytes, ih, List.replicate_succ]

theorem readoutBytes_nil (bs : List Byte) : readoutBytes bs [] = bs := by
  simp [readoutBytes, List.map_snd_zip]

theorem bitMap_nil (n : Nat) : bitMap n [] = List.replicate n 0 := leBytes_zero n

/-- What a readout leaves as it is: memory, the banks, and which banks of memory are under a refresh. -/
structure ReadOnly (s t : State) : Prop where
  mem        : t.mem = s.mem
  banks      : t.banks = s.banks
  refreshing : t.refreshing = s.refreshing

theorem ReadOnly.refl (s : State) : ReadOnly s s := ⟨rfl, rfl, rfl⟩

theorem ReadOnly.trans {s t u : State} (h : ReadOnly s t) (h' : ReadOnly t u) : ReadOnly s u :=
  ⟨h'.mem.trans h.mem, h'.banks.trans h.banks, h'.refreshing.trans h.refreshing⟩

theorem ReadOnly.countFixed (s : State) (n : ReadNature) (g a len : Nat) : ReadOnly s (s.countFixed n g a len) := by
  simp only [State.countFixed]
  split <;> exact ⟨rfl, rfl, rfl⟩

theorem ReadOnly.noteSeen (s : State) (p : Path) (x : Option Site) (n : ReadNature) (k len : Nat) :
    ReadOnly s (s.noteSeen p x n k len) := by
  simp only [State.noteSeen]
  split <;> exact ⟨rfl, rfl, rfl⟩

theorem ReadOnly.answer (s : State) (c : CmdHead) (t status : Nat) (words : List Word) (bytes : List Byte) :
    ReadOnly s (s.answer c t status words bytes) := by
  simp only [State.answer, State.tell]
  split <;> exact ⟨rfl, rfl, rfl⟩

theorem ReadOnly.performReadout (s : State) (r : Readout) : ReadOnly s (s.performReadout r) :=
  ((ReadOnly.countFixed ..).trans (ReadOnly.noteSeen ..)).trans (ReadOnly.answer ..)

/-- Serving the readouts that wait only reads. -/
theorem ReadOnly.serveReadouts (s : State) : ReadOnly s s.serveReadouts := by
  have hfold (l : List Readout) (s₀ : State) (h : ReadOnly s s₀) : ReadOnly s (l.foldl (fun s r =>
      if s.readoutHeld r then s else ({ s with readouts := s.readouts.erase r } : State).performReadout r) s₀) := by
    induction l generalizing s₀ with
    | nil => exact h
    | cons r l ih =>
      apply ih
      dsimp only
      split
      · exact h
      · have herase : ReadOnly s₀ { s₀ with readouts := s₀.readouts.erase r } := ⟨rfl, rfl, rfl⟩
        exact (h.trans herase).trans (ReadOnly.performReadout _ r)
  exact hfold _ s (ReadOnly.refl s)

theorem serveReadouts_of_none {s : State} (h : s.readouts = []) : s.serveReadouts = s := by
  simp [State.serveReadouts, h]

/-- No readout waits any more. -/
def State.noReadouts (s : State) : State := { s with readouts := [] }

/-- A single readout that no bank holds back is performed. -/
theorem serveReadouts_of_single {s : State} {c : CmdHead} {a n : Nat} (h : s.readouts = [{ cmd := c, a := a, len := n }])
    (hfree : s.refreshing = []) : s.serveReadouts = s.noReadouts.performReadout { cmd := c, a := a, len := n } := by
  simp [State.serveReadouts, h, State.readoutHeld, State.readoutWaits, hfree, State.noReadouts]

@[simp] theorem noteSeen_saggar (s : State) (p : Path) (x : Option Site) (n : ReadNature) (k len g : Nat) :
    (s.noteSeen p x n k len).saggar g = s.saggar g := by
  simp only [State.noteSeen]
  split <;> rfl

@[simp] theorem noteSeen_holdUp (s : State) (p : Path) (x : Option Site) (n : ReadNature) (k len : Nat) :
    (s.noteSeen p x n k len).holdUp = s.holdUp := by
  simp only [State.noteSeen]
  split <;> rfl

@[simp] theorem noteSeen_readouts (s : State) (p : Path) (x : Option Site) (n : ReadNature) (k len : Nat) :
    (s.noteSeen p x n k len).readouts = s.readouts := by
  simp only [State.noteSeen]
  split <;> rfl

/-- The answer to a readout of words that read whole: their bytes, and a map with no bit set (R390). -/
theorem performReadout_whole {s : State} {c : CmdHead} {a n : Nat} (h : Claim.Whole s (hbmKey c.saggar a) n) :
    s.performReadout { cmd := c, a := a, len := n } = (s.noteSeen .h none {} (hbmKey c.saggar a) n).answer c 7 0 []
      (s.bytes (hbmKey c.saggar a) n ++ List.replicate ((n / 8 + 7) / 8) 0) := by
  have hclean : (s.noteSeen .h none {} (hbmKey c.saggar a) n).taintedAt .h none {} (hbmKey c.saggar a) n = [] := by
    apply taintedAt_default
    have hpoison : (s.noteSeen .h none {} (hbmKey c.saggar a) n).poison = s.poison := by
      simp only [State.noteSeen]
      split <;> rfl
    simpa only [Claim.Whole, hpoison] using h
  simp only [State.performReadout, State.read, countFixed_default, hclean, see_default, readoutBytes_nil, bitMap_nil,
    List.map_nil, List.eraseDups_nil]

/-- An answer is told, when no hold-up sequence runs (R370). -/
theorem told_answer {s : State} (c : CmdHead) (t status : Nat) (words : List Word) (bytes : List Byte) (h : s.holdUp = .none)
    (ht : 0x80 ||| t = 0x80 + t) : Claim.Told s (s.answer c t status words bytes) c t status words bytes := by
  refine ⟨(s.saggar c.saggar).ctrOut + 1, ?_⟩
  simp [State.answer, State.tell, h, ht]

@[simp] theorem answer_readouts (s : State) (c : CmdHead) (t status : Nat) (words : List Word) (bytes : List Byte) :
    (s.answer c t status words bytes).readouts = s.readouts := by
  simp only [State.answer, State.tell]
  split <;> rfl

/-- A single readout that no bank holds back is answered. -/
theorem told_serveReadouts {s : State} {c : CmdHead} {a n : Nat} (h : s.readouts = [{ cmd := c, a := a, len := n }])
    (hfree : s.refreshing = []) (hup : s.holdUp = .none) (hwhole : Claim.Whole s (hbmKey c.saggar a) n) :
    s.serveReadouts.readouts = [] ∧ Claim.Told s s.serveReadouts c 7 0 []
      (s.bytes (hbmKey c.saggar a) n ++ List.replicate ((n / 8 + 7) / 8) 0) := by
  have hwhole' : Claim.Whole s.noReadouts (hbmKey c.saggar a) n := hwhole
  rw [serveReadouts_of_single h hfree, performReadout_whole hwhole']
  refine ⟨by simp [State.noReadouts], ?_⟩
  have htold := told_answer (s := s.noReadouts.noteSeen .h none {} (hbmKey c.saggar a) n) c 7 0 []
    (s.bytes (hbmKey c.saggar a) n ++ List.replicate ((n / 8 + 7) / 8) 0) (by simpa [State.noReadouts] using hup) rfl
  simp only [Claim.Told, noteSeen_saggar] at htold
  exact htold

/-- The refresh of the neighbours of a row has come to its end (R318). -/
def State.refreshDone (s : State) (d b : Nat) : State := { s with refreshing := s.refreshing.filter (· ≠ (d, b)) }

theorem exec_neighbourRefreshDone (s : State) (d b : Nat) :
    exec (.neighbourRefreshDone d b) s = .next (s.refreshDone d b).serveReadouts := rfl

@[simp] theorem mem_refreshDone (s : State) (d b : Nat) (e : Nat × Nat) :
    e ∈ (s.refreshDone d b).refreshing ↔ e ∈ s.refreshing ∧ e ≠ (d, b) := by
  simp [State.refreshDone]

/-! ### The ports (R315, R387, R388) -/

theorem peerAccepted_iff (q : PeerProof) (p : Nat) : peerAccepted q p = true ↔ Config.chainOk q.certs = true ∧
    Config.ecdsaOk (Config.certifiedKey q.certs) (sha384 (q.report.take 0x418)) (q.report.drop 0x418) = true ∧
    (q.report.drop 0xB8).take 48 = fitBytes 48 (Config.linkNonce p) ∧ Config.expectedPeer q.report = true := by
  simp only [peerAccepted, Bool.and_eq_true, decide_eq_true_eq, and_assoc]

theorem Port.trained_drops (e : Port) (p : Nat) (q : PeerProof) : (e.trained p (some q)).drops = e.drops := by
  simp only [Port.trained]
  split <;> rfl

theorem Port.trained_up (e : Port) (p : Nat) (q : PeerProof) : (e.trained p (some q)).up = peerAccepted q p := by
  simp only [Port.trained]
  split <;> simp_all

theorem Port.trained_key {e : Port} {p : Nat} {q : PeerProof} (h : peerAccepted q p = true) :
    (e.trained p (some q)).key = peerLinkKey q := by
  simp [Port.trained, h]

theorem exec_linkTraining {s : State} {p : Nat} (peer : Option PeerProof) (h : s.portWorks p = true) :
    ∃ t, exec (.linkTraining p peer) s = .next t ∧ t.ports.getD p {} = (s.ports.getD p {}).trained p peer := by
  refine ⟨_, rfl, ?_⟩
  rw [if_pos h]
  exact (getD_setAt ..).trans (if_pos rfl)

theorem exec_packetReceive {s : State} {p : Nat} {k : PacketKind} (h : s.portWorks p = true) (hk : k ≠ .saggarZero) :
    exec (.packetReceive p k) s = .next (s.dropPacket p) := by
  show execPacketReceive p k s = _
  cases k <;> simp_all [execPacketReceive]

theorem exec_packetReceive_saggarZero {s : State} {p : Nat} (h : s.portWorks p = true) :
    exec (.packetReceive p .saggarZero) s = .next { s with endpointDrops := s.endpointDrops + 1 } := by
  show execPacketReceive p .saggarZero s = _
  simp [execPacketReceive, h]

/-! ### The activation of a row (R317) -/

theorem exec_rowAlert_below {s : State} {d b r : Nat} (hd : d < 8) (hs : s.service ≠ .off) (hr : (d, b) ∉ s.refreshing)
    (hn : s.rowCount d b r + 1 < s.rmthr) : exec (.rowAlert d b r) s = .next (s.setRow d b r (s.rowCount d b r + 1)) := by
  show execRowAlert d b r s = _
  simp [execRowAlert, hs, hr, hn, Nat.not_le.2 hd]

theorem exec_rowAlert_reached {s : State} {d b r : Nat} (hd : d < 8) (hs : s.service ≠ .off) (hr : (d, b) ∉ s.refreshing)
    (hn : s.rmthr ≤ s.rowCount d b r + 1) : exec (.rowAlert d b r) s = .next { s.setRow d b r 0 with
      alerts := setAt 0 s.alerts d (s.alerts.getD d 0 + 1), refreshing := s.refreshing ++ [(d, b)] } := by
  show execRowAlert d b r s = _
  simp [execRowAlert, hs, hr, Nat.not_lt.2 hn, Nat.not_le.2 hd]

/-! ### The management registers (R265, R317, R397) -/

theorem mgmtWrite_colthr (s : State) (v : Word) :
    s.mgmtWrite 0x000 v = if 1 ≤ v.toNat ∧ v.toNat ≤ 16 then { s with colthr := v.toNat } else s := by
  simp [State.mgmtWrite]

theorem mgmtWrite_rmthr (s : State) (v : Word) :
    s.mgmtWrite 0x008 v = if 512 ≤ v.toNat ∧ v.toNat ≤ 65535 then { s with rmthr := v.toNat } else s := by
  simp [State.mgmtWrite]

/-- The half of O54 that holds: rows, refreshes, packets, links and registers. -/
theorem memoryAndPorts : Claim.MemoryAndPorts := by
  intro s d b r p x v
  refine ⟨fun hd hs hr hn => ?_, fun hd hs hr hn => ?_, ?_, ?_, fun hp => ⟨fun k hk => ?_, ?_, ?_, fun q => ?_⟩, ?_, ?_, rfl⟩
  · refine ⟨_, exec_rowAlert_below hd hs hr hn, ?_, rfl, rfl, fun d' b' r' hne => ?_⟩
    · rw [State.rowCount_setRow, if_pos rfl]
    · rw [State.rowCount_setRow, if_neg hne]
  · refine ⟨_, exec_rowAlert_reached hd hs hr hn, ?_, ?_, by simp⟩
    · exact (State.rowCount_setRow s d b r 0 d b r).trans (if_pos rfl)
    · exact (getD_setAt ..).trans (if_pos rfl)
  · have hread := ReadOnly.serveReadouts (s.refreshDone d b)
    refine ⟨_, exec_neighbourRefreshDone s d b, ?_, fun e he hne => ?_, hread.mem, hread.banks, fun hnone => ?_,
      fun c a n h hup honly hwhole => ?_⟩
    · rw [hread.refreshing, mem_refreshDone]
      exact fun h => h.2 rfl
    · rw [hread.refreshing, mem_refreshDone]
      exact ⟨he, hne⟩
    · rw [serveReadouts_of_none (s := s.refreshDone d b) hnone]
      rfl
    · refine told_serveReadouts (s := s.refreshDone d b) h ?_ hup hwhole
      refine List.eq_nil_iff_forall_not_mem.2 fun e he => ?_
      obtain ⟨he, hne⟩ := (mem_refreshDone s d b e).1 he
      exact hne (honly e he)
  · refine ⟨_, rfl, fun r' => ?_, fun d' b' r' hne => ?_⟩
    · rw [rowCount_refreshPass, if_pos rfl]
    · rw [rowCount_refreshPass, if_neg hne]
  · refine ⟨_, exec_packetReceive hp hk, ?_, rfl, rfl⟩
    rw [State.dropPacket, getD_setAt, if_pos rfl]
  · exact ⟨_, exec_packetReceive_saggarZero hp, rfl, rfl⟩
  · exact exec_linkTraining none hp
  · obtain ⟨t, hexec, hport⟩ := exec_linkTraining (some q) hp
    refine ⟨t, hexec, ?_, ?_, ?_⟩
    · rw [hport, Port.trained_drops]
    · rw [hport, Port.trained_up, peerAccepted_iff]
    · rw [hport, Port.trained_up]
      exact Port.trained_key
  · exact congrArg Host.Outcome.next (mgmtWrite_colthr s v)
  · exact congrArg Host.Outcome.next (mgmtWrite_rmthr s v)

end Sys2Proof.Machine

namespace Sys2Proof.Machine

/-! ### The turn at the port die (R384) -/

/-- The place, among the requests that have come to the port die and the answers to be written, of the one that nature chooses (R384). -/
def State.portTurn (s : State) : Nat := Config.unstated s.tick 0 % max 1 (s.saveReqs.length + s.saveAnswers.length)

theorem exec_saveDeclarationAnswer_of_answer {s : State} {e : Nat × Word} (hturn : s.saveReqs.length ≤ s.portTurn)
    (he : s.saveAnswers[s.portTurn - s.saveReqs.length]? = some e) : exec .saveDeclarationAnswer s = .next (s.writeAnswer e) := by
  have hnone : s.saveReqs[s.portTurn]? = none := List.getElem?_eq_none hturn
  show execSaveDeclarationAnswer s = _
  unfold State.portTurn at hnone he
  simp only [execSaveDeclarationAnswer, Nat.max_def] at hnone he ⊢
  rw [hnone, he]

theorem exec_saveDeclarationAnswer_of_request {s : State} {q : Nat} (h : s.saveReqs[s.portTurn]? = some q) :
    exec .saveDeclarationAnswer s = .next (s.decide q) := by
  show execSaveDeclarationAnswer s = _
  unfold State.portTurn at h
  simp only [execSaveDeclarationAnswer, Nat.max_def] at h ⊢
  rw [h]

/-! ### A request that an engine has begun to write for (R90) -/

/-- The end of such a request is put off: it keeps its status and stays among the requests. -/
theorem State.finish_of_placed (s : State) {r : Req} (status : Nat) (h : r.placed.isSome = true) :
    s.finish r status = s.modReq r.id fun q => { q with placed := some status } := by
  simp [State.finish, h]

/-- An untagged load into a register is delivered, and its request ends. -/
theorem State.loaded_reg (s : State) {r : Req} {g : Reg} (w : Word) (hheld : r.held = false) (hdst : r.dst = .reg g) :
    s.loaded r [w] false = (s.deliverEach r [(w, false)]).finish r 0 := by
  simp [State.loaded, State.loadedEach, hheld, hdst]

@[simp] theorem State.clearFinal_reqs (s : State) (x : Site) : (s.clearFinal x).reqs = s.reqs := rfl

/-- A result that is written to a register leaves the requests as they are. -/
theorem State.deliverEach_reg_reqs (s : State) {r : Req} {g : Reg} (vs : List (Word × Bool)) (hdst : r.dst = .reg g) :
    (s.deliverEach r vs).reqs = s.reqs := by
  simp only [State.deliverEach, hdst]
  split
  · simp [State.writePend, PWrite.apply]
  · rfl

theorem State.req?_isSome_iff (s : State) (q : Nat) : (s.req? q).isSome = true ↔ ∃ r ∈ s.reqs, r.id = q := by
  simp [State.req?, List.find?_isSome]

theorem State.id_of_req? {s : State} {q : Nat} {r : Req} (h : s.req? q = some r) : r.id = q := by
  simpa using List.find?_some h

/-- An answer to be written leaves the list of those. -/
def State.answerTaken (s : State) (e : Nat × Word) : State := { s with saveAnswers := s.saveAnswers.erase e }

/-- An answer is written as an untagged load into the register of its request. -/
theorem State.writeAnswer_reg {s : State} {q : Nat} {r : Req} {g : Reg} (w : Word) (hr : s.req? q = some r) (hheld : r.held = false)
    (hdst : r.dst = .reg g) : s.writeAnswer (q, w) = ((s.answerTaken (q, w)).deliverEach r [(w, false)]).finish r 0 := by
  have hr' : State.req? { s with saveAnswers := s.saveAnswers.erase (q, w) } q = some r := hr
  rw [← State.loaded_reg _ w hheld hdst]
  simp only [State.writeAnswer, hr']
  rfl

/-- The answer to a request for which an engine has begun to write does not end the request. -/
theorem State.req?_writeAnswer_of_placed {s : State} {q : Nat} {r : Req} {g : Reg} (w : Word) (hr : s.req? q = some r)
    (hheld : r.held = false) (hdst : r.dst = .reg g) (hplaced : r.placed.isSome = true) :
    ((s.writeAnswer (q, w)).req? q).isSome = true := by
  have hid : r.id = q := State.id_of_req? hr
  rw [State.writeAnswer_reg w hr hheld hdst, State.finish_of_placed _ _ hplaced, State.req?_isSome_iff, State.modReq,
    State.deliverEach_reg_reqs _ _ hdst]
  exact ⟨_, List.mem_map_of_mem (List.mem_of_find?_eq_some hr), by split <;> exact hid⟩

/-! ### The answer of the port die (R384) -/

theorem firstReason_lt {rs : List (Nat × Bool)} (h : ∀ e ∈ rs, e.1 < 8) : firstReason rs < 8 := by
  simp only [firstReason]
  cases hfind : rs.find? (·.2) with
  | none => decide
  | some e => exact h e (List.mem_of_find?_eq_some hfind)

/-- When no reason is given, none of those listed applies. -/
theorem eq_false_of_firstReason {rs : List (Nat × Bool)} {e : Nat × Bool} (h : firstReason rs = 0)
    (hn : ∀ e ∈ rs, e.1 ≠ 0) (hmem : e ∈ rs) : e.2 = false := by
  cases hfind : rs.find? (·.2) with
  | none => simpa using List.find?_eq_none.1 hfind _ hmem
  | some e => simp [firstReason, hfind, hn e (List.mem_of_find?_eq_some hfind)] at h

theorem setReason_lt (s : State) (g : Nat) (image : List Byte) (base n : Nat) : s.setReason g image base n < 8 :=
  firstReason_lt (by simp)

theorem dropReason_lt (s : State) (g : Nat) (image : List Byte) (num : Nat) : s.dropReason g image num < 8 :=
  firstReason_lt (by simp)

/-- A declaration that fits finds a free number (R384). -/
theorem freeDecl_of_setReason {s : State} {g : Nat} {image : List Byte} {base n : Nat} (h : s.setReason g image base n = 0) :
    ∃ m, (s.saggar g).freeDecl image = some m := by
  have hfree := eq_false_of_firstReason (e := (2, ((s.saggar g).freeDecl image).isNone)) h (by simp) (by simp)
  exact Option.isSome_iff_exists.1 (by simpa using hfree)

theorem freeDecl_lt {g : Saggar} {image : List Byte} {m : Nat} (h : g.freeDecl image = some m) : m < 2 ^ 16 := by
  have := List.mem_range.1 (List.mem_of_find?_eq_some h)
  omega

theorem testBit_of_lt {n k i : Nat} (h : n < 2 ^ k) (hi : k ≤ i) : n.testBit i = false :=
  Nat.testBit_lt_two_pow (Nat.lt_of_lt_of_le h (Nat.pow_le_pow_right (by decide) hi))

/-- The bits of an answer: the flag and the reason above, the charge units left, and the number below. -/
theorem declAnswer_getLsbD (g : Saggar) (why num i : Nat) : (g.declAnswer why num).getLsbD i = (decide (i < 64) &&
    (decide (63 ≤ i) && (b2n (why ≠ 0)).testBit (i - 63) || decide (56 ≤ i) && why.testBit (i - 56) ||
      decide (16 ≤ i) && (decide (i - 16 < 32) && ((g.res.share - g.charged) / 16).testBit (i - 16)) ||
      (if why = 0 then num else 0).testBit i)) := by
  simp only [Saggar.declAnswer, BitVec.getLsbD_ofNat, Nat.testBit_or, Nat.testBit_shiftLeft, Nat.testBit_mod_two_pow, ge_iff_le]

/-- What an answer says: its number, or bit 63 with the reason, and the charge units left. -/
structure Says (w : Word) (why num left : Nat) : Prop where
  num    : w.extractLsb' 0 16 = BitVec.ofNat 16 num
  flag   : w.getLsbD 63 = decide (why ≠ 0)
  reason : w.extractLsb' 56 7 = BitVec.ofNat 7 why
  zero   : w.extractLsb' 48 8 = 0
  left   : w.extractLsb' 16 32 = BitVec.ofNat 32 left

theorem declAnswer_says (g : Saggar) {why num : Nat} (hwhy : why < 8) (hnum : num < 2 ^ 16) :
    Says (g.declAnswer why num) why (if why = 0 then num else 0) ((g.res.share - g.charged) / 16) := by
  have hnum' : (if why = 0 then num else 0) < 2 ^ 16 := by split <;> omega
  have hw (i : Nat) (hi : 3 ≤ i) : why.testBit i = false := testBit_of_lt (k := 3) hwhy hi
  have hn (i : Nat) (hi : 16 ≤ i) : (if why = 0 then num else 0).testBit i = false := testBit_of_lt hnum' hi
  constructor
  · refine BitVec.eq_of_getLsbD_eq fun i hi => ?_
    rw [BitVec.getLsbD_extractLsb', declAnswer_getLsbD, BitVec.getLsbD_ofNat]
    simp [hi, show i < 64 by omega, show ¬ 63 ≤ i by omega, show ¬ 56 ≤ i by omega, show ¬ 16 ≤ i by omega]
  · rw [declAnswer_getLsbD, hn 63 (by decide), hw (63 - 56) (by decide)]
    by_cases h : why = 0 <;> simp [h, b2n]
  · refine BitVec.eq_of_getLsbD_eq fun i hi => ?_
    rw [BitVec.getLsbD_extractLsb', declAnswer_getLsbD, BitVec.getLsbD_ofNat, hn _ (by omega)]
    simp [hi, show 56 + i < 64 by omega, show ¬ 63 ≤ 56 + i by omega, show ¬ 56 + i - 16 < 32 by omega]
  · refine BitVec.eq_of_getLsbD_eq fun i hi => ?_
    rw [BitVec.getLsbD_extractLsb', declAnswer_getLsbD, hn _ (by omega)]
    simp [show ¬ 63 ≤ 48 + i by omega, show ¬ 56 ≤ 48 + i by omega, show ¬ 48 + i - 16 < 32 by omega]
  · refine BitVec.eq_of_getLsbD_eq fun i hi => ?_
    rw [BitVec.getLsbD_extractLsb', declAnswer_getLsbD, BitVec.getLsbD_ofNat, hn _ (by omega)]
    simp [hi, show 16 + i < 64 by omega, show ¬ 63 ≤ 16 + i by omega, show ¬ 56 ≤ 16 + i by omega]

/-! ### What the port die decides (R376, R384) -/

/-- A request that the port die has decided: it is answered, and nothing changes but its saggar's declarations. -/
structure Answered (s t : State) (r : Req) (w : Word) (why num : Nat) : Prop where
  saveReqs    : t.saveReqs = s.saveReqs.erase r.id
  saveAnswers : t.saveAnswers = s.saveAnswers ++ [(r.id, w)]
  mem         : t.mem = s.mem
  banks       : t.banks = s.banks
  reqs        : t.reqs = s.reqs
  told        : Says w why num (((t.saggar r.saggar).res.share - (t.saggar r.saggar).charged) / 16)

/-- A request that has come leaves the list of those that have. -/
def State.taken (s : State) (q : Nat) : State := { s with saveReqs := s.saveReqs.erase q }

/-- A declaration is made, or a drop, when no reason is against it. -/
def State.redeclare (s : State) (r : Req) (why : Nat) (f : Saggar → Saggar) : State :=
  if why = 0 then s.modSaggar r.saggar f else s

theorem saggar_redeclare (s : State) (r : Req) (why : Nat) (f : Saggar → Saggar) :
    (s.redeclare r why f).saggar r.saggar = if why = 0 then f (s.saggar r.saggar) else s.saggar r.saggar := by
  simp only [State.redeclare]
  split
  · rw [saggar_modSaggar, if_pos rfl]
  · rfl

/-- The word that answers a decision. -/
def State.portWord (s : State) (r : Req) (why num : Nat) (f : Saggar → Saggar) : Word :=
  ((s.redeclare r why f).saggar r.saggar).declAnswer why num

/-- The state after a decision that makes the change f to the request's saggar when no reason is against it. -/
def State.settled (s : State) (r : Req) (why num : Nat) (f : Saggar → Saggar) : State :=
  ((s.taken r.id).redeclare r why f).decided r ((s.taken r.id).portWord r why num f)

theorem saggar_settled (s : State) (r : Req) (why num : Nat) (f : Saggar → Saggar) :
    (s.settled r why num f).saggar r.saggar = if why = 0 then f (s.saggar r.saggar) else s.saggar r.saggar :=
  saggar_redeclare (s.taken r.id) r why f

theorem answered_settled (s : State) (r : Req) (f : Saggar → Saggar) {why num : Nat} (hwhy : why < 8) (hnum : num < 2 ^ 16) :
    Answered s (s.settled r why num f) r ((s.taken r.id).portWord r why num f) why (if why = 0 then num else 0) := by
  have hsame : let z := (s.taken r.id).redeclare r why f
      z.saveReqs = s.saveReqs.erase r.id ∧ z.saveAnswers = s.saveAnswers ∧ z.mem = s.mem ∧ z.banks = s.banks ∧ z.reqs = s.reqs := by
    simp only [State.redeclare]
    split <;> exact ⟨rfl, rfl, rfl, rfl, rfl⟩
  obtain ⟨hreqs, hanswers, hmem, hbanks, hall⟩ := hsame
  exact ⟨hreqs, congrArg (· ++ _) hanswers, hmem, hbanks, hall, declAnswer_says _ hwhy hnum⟩

/-- A saggar with one declaration more, and one without those of a number of an image. -/
def Saggar.declare (image : List Byte) (num base len : Nat) (sg : Saggar) : Saggar :=
  { sg with decls := sg.decls ++ [{ image := image, num := num, base := base, len := len, byImage := false }] }

def Saggar.dropDecl (image : List Byte) (num : Nat) (sg : Saggar) : Saggar :=
  { sg with decls := sg.decls.filter fun d => !(d.image = image && d.num = num) }

theorem decide_saveset {s : State} {base len : Nat} {r : Req} {l : Launch} (hr : s.req? r.id = some r)
    (hl : s.launch? r.launch = some l) (hop : r.op = .saveset base len) :
    let num := ((s.saggar r.saggar).freeDecl l.image).getD 0
    s.decide r.id = s.settled r (s.setReason r.saggar l.image base len) num (Saggar.declare l.image num base len) := by
  have hr' : State.req? { s with saveReqs := s.saveReqs.erase r.id } r.id = some r := hr
  have hl' : State.launch? { s with saveReqs := s.saveReqs.erase r.id } r.launch = some l := hl
  simp only [State.decide, hr', hl', hop, Option.map_some, Option.getD_some]
  rfl

theorem decide_savedrop {s : State} {num : Nat} {r : Req} {l : Launch} (hr : s.req? r.id = some r)
    (hl : s.launch? r.launch = some l) (hop : r.op = .savedrop num) :
    s.decide r.id = s.settled r (s.dropReason r.saggar l.image num) num (Saggar.dropDecl l.image num) := by
  have hr' : State.req? { s with saveReqs := s.saveReqs.erase r.id } r.id = some r := hr
  have hl' : State.launch? { s with saveReqs := s.saveReqs.erase r.id } r.launch = some l := hl
  simp only [State.decide, hr', hl', hop, Option.map_some, Option.getD_some]
  rfl

/-- The port die decides a SAVESET that has come (R376, R384). -/
theorem saveset_answered {s : State} {base len : Nat} {r : Req} {l : Launch} (hr : s.req? r.id = some r)
    (hl : s.launch? r.launch = some l) (hop : r.op = .saveset base len) (hturn : s.saveReqs[s.portTurn]? = some r.id) :
    ∃ t w, exec .saveDeclarationAnswer s = .next t ∧
      (s.setReason r.saggar l.image base len = 0 → ∃ m, (s.saggar r.saggar).freeDecl l.image = some m ∧ Answered s t r w 0 m ∧
        (t.saggar r.saggar).decls = (s.saggar r.saggar).decls ++ [{ image := l.image, num := m, base := base, len := len, byImage := false }]) ∧
      (s.setReason r.saggar l.image base len ≠ 0 → Answered s t r w (s.setReason r.saggar l.image base len) 0 ∧
        (t.saggar r.saggar).decls = (s.saggar r.saggar).decls) := by
  have hnum : ((s.saggar r.saggar).freeDecl l.image).getD 0 < 2 ^ 16 := by
    cases h : (s.saggar r.saggar).freeDecl l.image with
    | none => decide
    | some m => exact freeDecl_lt h
  have hanswer := answered_settled s r (Saggar.declare l.image (((s.saggar r.saggar).freeDecl l.image).getD 0) base len)
    (setReason_lt s r.saggar l.image base len) hnum
  refine ⟨_, _, (exec_saveDeclarationAnswer_of_request hturn).trans (congrArg _ (decide_saveset hr hl hop)), fun hwhy => ?_,
    fun hwhy => ⟨by rwa [if_neg hwhy] at hanswer, by rw [saggar_settled, if_neg hwhy]⟩⟩
  obtain ⟨m, hm⟩ := freeDecl_of_setReason hwhy
  rw [hwhy, if_pos rfl] at hanswer
  simp only [hm, Option.getD_some, hwhy] at hanswer ⊢
  exact ⟨m, rfl, hanswer, by rw [saggar_settled, if_pos rfl]; rfl⟩

/-- The port die decides a SAVEDROP that has come (R376, R384). -/
theorem savedrop_answered {s : State} {num : Nat} {r : Req} {l : Launch} (hr : s.req? r.id = some r)
    (hl : s.launch? r.launch = some l) (hop : r.op = .savedrop num) (hnum : num < 256) (hturn : s.saveReqs[s.portTurn]? = some r.id) :
    let why := s.dropReason r.saggar l.image num
    ∃ t w, exec .saveDeclarationAnswer s = .next t ∧ Answered s t r w why (if why = 0 then num else 0) ∧
      (t.saggar r.saggar).decls = if why = 0 then (s.saggar r.saggar).decls.filter fun d => !(d.image = l.image && d.num = num)
        else (s.saggar r.saggar).decls := by
  intro why
  refine ⟨_, _, (exec_saveDeclarationAnswer_of_request hturn).trans (congrArg _ (decide_savedrop hr hl hop)),
    answered_settled s r _ (dropReason_lt s r.saggar l.image num) (by omega), ?_⟩
  rw [saggar_settled]
  by_cases hwhy : why = 0
  · rw [if_pos hwhy, if_pos hwhy]; rfl
  · rw [if_neg hwhy, if_neg hwhy]

/-! ### The answer is written (R384) -/

/-- Registers, requests, and all but banks and tiles are as before: what tokens, scoreboard slots and markers leave. -/
structure SameRegs (s t : State) : Prop where
  reg  : ∀ y q, (t.bank y).reg q = (s.bank y).reg q
  reqs : t.reqs = s.reqs
  rest : t.rest = s.rest

theorem SameRegs.refl (s : State) : SameRegs s s := ⟨fun _ _ => rfl, rfl, rfl⟩

theorem SameRegs.trans {s t u : State} (h : SameRegs s t) (h' : SameRegs t u) : SameRegs s u :=
  ⟨fun y q => (h'.reg y q).trans (h.reg y q), h'.reqs.trans h.reqs, h'.rest.trans h.rest⟩

theorem SameRegs.modBank (s : State) (x : Site) (f : Bank → Bank) (hf : ∀ q, (f (s.bank x)).reg q = (s.bank x).reg q) :
    SameRegs s (s.modBank x f) := by
  refine ⟨fun y q => ?_, rfl, rfl⟩
  rw [bank_modBank]
  split
  next e => rw [e, hf]
  next => rfl

theorem reg_of_regs {b b' : Bank} (h : b'.regs = b.regs) (q : Reg) : b'.reg q = b.reg q := by
  cases q with
  | g n => exact congrArg (fun r : Regs => r.g.getD n 0) h
  | m n => exact congrArg (fun r : Regs => r.m.getD n 0) h

theorem SameRegs.flush (s : State) (x : Site) (o : Nat) : SameRegs s (s.flush x o) := by
  have h := Acted.flush s x x o
  refine ⟨fun y q => reg_of_regs ?_ q, by simpa using h.reqs, h.rest⟩
  by_cases hy : y = x
  · rw [hy]; exact h.own
  · exact h.others y hy

theorem SameRegs.sendCompletion (s : State) (r : Req) (w : Word) : SameRegs s (s.sendCompletion r w) := by
  simp only [State.sendCompletion]
  split
  · exact .refl s
  · exact .trans (.modBank _ _ _ fun q => by cases q <;> rfl) (.flush ..)

theorem SameRegs.clearFinal (s : State) (x : Site) : SameRegs s (s.clearFinal x) :=
  .modBank _ _ _ fun q => by cases q <;> rfl

theorem SameRegs.sendMarker (s : State) (x : Site) (o : Nat) : SameRegs s (State.sendMarker x s o) := by
  simp only [State.sendMarker]
  split
  · exact .refl s
  · exact .modBank _ _ _ fun q => by cases q <;> rfl

theorem SameRegs.sendMarkers (s : State) (x : Site) : SameRegs s (s.sendMarkers x) := by
  have hfold (l : List Nat) (s₀ : State) (h : SameRegs s s₀) : SameRegs s (l.foldl (State.sendMarker x) s₀) := by
    induction l generalizing s₀ with
    | nil => exact h
    | cons o l ih => exact ih _ (h.trans (.sendMarker s₀ x o))
  exact hfold _ s (.refl s)

/-- A request that ends is gone, and the registers are as they were. -/
theorem finish_ends (s : State) {r : Req} (status : Nat) (hheld : r.held = false) (hplaced : r.placed = none) :
    (∀ y q, ((s.finish r status).bank y).reg q = (s.bank y).reg q) ∧ (s.finish r status).rest = s.rest ∧
      (s.finish r status).req? r.id = none := by
  have h1 := SameRegs.sendCompletion s r (completion r.op.kind r.pathCode status (r.addr s))
  have h2 := (SameRegs.clearFinal ((s.sendCompletion r (completion r.op.kind r.pathCode status (r.addr s))).dropReq r.id) r.site).trans
    (.sendMarkers _ r.site)
  simp only [State.finish, hheld, hplaced, Option.isSome_none, Bool.false_eq_true, if_false]
  refine ⟨fun y q => (h2.reg y q).trans (h1.reg y q), h2.rest.trans h1.rest, ?_⟩
  rw [State.req?, h2.reqs]
  simp [State.dropReq, List.find?_eq_none]

/-- A value for a register is written to it. -/
theorem deliverEach_reg {s : State} {r : Req} {g : Reg} (w : Word) (tag : Bool) (hdst : r.dst = .reg g)
    (hpend : (s.bank r.site).pend.any (·.id = r.id) = true) :
    ((s.deliverEach r [(w, tag)]).bank r.site).reg g = w ∧ (s.deliverEach r [(w, tag)]).rest = s.rest := by
  obtain ⟨p, hp⟩ : ∃ p, (s.bank r.site).pend.find? (·.id = r.id) = some p :=
    Option.isSome_iff_exists.1 (by simpa [List.find?_isSome] using hpend)
  simp only [State.deliverEach, hdst, hp, State.writePend, List.foldl_cons, List.foldl_nil, PWrite.apply]
  refine ⟨?_, rfl⟩
  rw [(SameRegs.clearFinal _ _).reg, bank_modBank_self, reg_setReg, if_pos rfl]
  rfl

/-- The answer of a decided request is written, and the request ends, when no engine has begun to write for it. -/
theorem answer_written {s : State} {r : Req} {g : Reg} {w : Word} (hr : s.req? r.id = some r) (hheld : r.held = false)
    (hplaced : r.placed = none) (hdst : r.dst = .reg g) (hpend : (s.bank r.site).pend.any (·.id = r.id) = true)
    (hturn : s.saveReqs.length ≤ s.portTurn) (he : s.saveAnswers[s.portTurn - s.saveReqs.length]? = some (r.id, w)) :
    ∃ t, exec .saveDeclarationAnswer s = .next t ∧ t.saveAnswers = s.saveAnswers.erase (r.id, w) ∧ t.saveReqs = s.saveReqs ∧
      t.req? r.id = none ∧ t.mem = s.mem ∧ t.saggar r.saggar = s.saggar r.saggar ∧ (t.bank r.site).reg g = w := by
  obtain ⟨hreg, hrest⟩ := deliverEach_reg (s := s.answerTaken (r.id, w)) w false hdst hpend
  obtain ⟨hregs, hrest', hgone⟩ := finish_ends ((s.answerTaken (r.id, w)).deliverEach r [(w, false)]) 0 hheld hplaced
  have hall := hrest'.trans hrest
  rw [← State.writeAnswer_reg w hr hheld hdst] at hregs hall hgone
  exact ⟨_, exec_saveDeclarationAnswer_of_answer hturn he, (congrArg State.saveAnswers hall :), (congrArg State.saveReqs hall :), hgone,
    (congrArg State.mem hall :), (congrArg (State.saggar · r.saggar) hall :), (hregs _ _).trans hreg⟩

/-! ### The request that stays (R90, R384) -/

/-- A SAVEDROP whose answer waits at the port die, alone there, and whose request bears the mark of R90. -/
def markedReq : Req :=
  { id := 44, site := { tile := 3, slot := 1, cell := 5 }, launch := 7, saggar := 2, rule := 3, word := 0, path := .h
    op := .savedrop 0, dst := .reg (.g 4), placed := some 0 }

def markedLaunch : Launch :=
  { num := 7, saggar := 2, image := [1], region := 0, queue := 0, prio := 1, floating := false, origin := 3 }

def markedState : State :=
  { State.reset with
    reqs := [markedReq], saveAnswers := [(44, 5)]
    launches := [markedLaunch]
    banks := [(markedReq.site, { pend := [{ id := 44, rule := 3, left := none, writes := [] }] })] }

/-- With one answer and no request at the port die, nature has one to choose. -/
theorem markedState_answer : markedState.saveAnswers[markedState.portTurn - markedState.saveReqs.length]? = some (44, 5) := by
  have hturn : markedState.portTurn = 0 := Nat.mod_one _
  rw [hturn]
  rfl

/-- Refutes O54 in its second half, `DeclarationsAnswered`: the clause on the answer that is written says that its request is then
gone, for every request into a register that is not held. A request for which an engine has begun to write (`placed`, R90) is kept
until the engine is done, so the clause fails at `markedState`. The model gives that mark to an engine's request only
(`Req.begun`), never to a SAVESET or SAVEDROP: the clause lacks the hypothesis `r.placed = none`, with which it holds
(`answer_written`), as the other clauses do (`saveset_answered`, `savedrop_answered`) and the first half does (`memoryAndPorts`). -/
theorem not_packageServices : ¬ Obligations.PackageServices := by
  rintro ⟨-, h⟩
  obtain ⟨-, -, hwrite⟩ := h markedState 44 markedReq markedLaunch (.g 4) rfl rfl rfl rfl rfl
  obtain ⟨t, hexec, -, -, hgone, -⟩ := hwrite 5 (Nat.zero_le _) markedState_answer
  rw [exec_saveDeclarationAnswer_of_answer (Nat.zero_le _) markedState_answer] at hexec
  cases hexec
  have hkept := State.req?_writeAnswer_of_placed (s := markedState) (q := 44) (r := markedReq) 5 rfl rfl rfl rfl
  rw [hgone] at hkept
  cases hkept

end Sys2Proof.Machine
